-- ==== Sys2Proof/Word.lean ====
section
/-! DEFINITION. The widths of `00_scope.md` rule R22: `u8`, `u16`, `u32` and `i32`.
A `u32` operation wraps modulo 2^32, which is what `BitVec` arithmetic does. An `i32` is the same
32 bits, read with `BitVec.toInt`. An `int` of the spec is Lean's `Int`. -/

namespace Sys2Proof

/-- `u8` (rule R22): a sample, a payload byte, a quality. -/
abbrev Byte := BitVec 8

/-- `u16` (rule R22): a quant-matrix entry, a region field, a frame dimension. -/
abbrev U16 := BitVec 16

/-- `u32` (rule R22): the interval registers and every model field. -/
abbrev U32 := BitVec 32

/-- `i32` (rule R22): `fill_val`, a DC-history entry, a transform coefficient. -/
abbrev I32 := BitVec 32

end Sys2Proof
end

