-- ==== Sys2Proof/Config.lean ====
section
/-! DEFINITION. What CONSTRUCT fixes for one decoder instance (`00_scope.md` rules R10 to R21):
the eight profile parameters, the three external functions, and the content of sample planes.
All of it is plain data, so it stands in `State` (`10_state.md` rule R56 lists it there).
The external functions themselves are free: `opaque` constants without a body. -/

namespace Sys2Proof

/-- SIGN_NEG (rule R13): the sign bit that makes a coefficient negative. DOC is `one`. -/
inductive SignNeg where
  | zero | one
deriving DecidableEq, Repr

/-- DC_TIE (rule R14): the DC predictor when the gradients tie or the vertical one is smaller. DOC is `top`. -/
inductive DcTie where
  | top | left
deriving DecidableEq, Repr

/-- QMAT_INDEX (rule R15): which entry of the quant matrix scales an AC coefficient. DOC is `scan`. -/
inductive QmatIndex where
  | scan | raster
deriving DecidableEq, Repr

/-- VQ_LIMIT (rule R17): the bound below which a VQ class selects a palette entry. DOC is `vecSize`. -/
inductive VqLimit where
  | vecSize | four
deriving DecidableEq, Repr

/-- RESET_POLICY (rule R18). DOC is `keyframe`. -/
inductive ResetPolicy where
  | keyframe | everyPayloadFrame
deriving DecidableEq, Repr

/-- EXHAUST_POLICY (rule R19). DOC is `always`. -/
inductive ExhaustPolicy where
  | always | lowZero
deriving DecidableEq, Repr

/-- EMPTY_KEYFRAME (rule R20). DOC is `commit`. -/
inductive EmptyKeyframe where
  | commit | reject
deriving DecidableEq, Repr

/-- ABORT_WRITES (rule R20). DOC is `discard`. -/
inductive AbortWrites where
  | discard | inPlace
deriving DecidableEq, Repr

/-- The record `profile` of rule R12. -/
structure Profile where
  signNeg : SignNeg
  dcTie : DcTie
  qmatIndex : QmatIndex
  vqLimit : VqLimit
  resetPolicy : ResetPolicy
  exhaust : ExhaustPolicy
  emptyKeyframe : EmptyKeyframe
  abortWrites : AbortWrites
deriving DecidableEq, Repr

/-- Every parameter at its DOC value, the default of rule R12. -/
def Profile.doc : Profile :=
  { signNeg := .one, dcTie := .top, qmatIndex := .scan, vqLimit := .vecSize, resetPolicy := .keyframe,
    exhaust := .always, emptyKeyframe := .commit, abortWrites := .discard }

/-- Every parameter at its REF value (rules R13 to R20). -/
def Profile.ref : Profile :=
  { signNeg := .zero, dcTie := .left, qmatIndex := .raster, vqLimit := .four, resetPolicy := .everyPayloadFrame,
    exhaust := .lowZero, emptyKeyframe := .reject, abortWrites := .inPlace }

/-- A quant matrix: 64 entries of `u16` (rule R15). -/
abbrev QuantMatrix := Vector U16 64

/-- A coefficient block in raster order: 64 entries of `i32` (rule R16). -/
abbrev CoeffBlock := Vector I32 64

/-- An 8×8 sample block in raster order (rule R16). -/
abbrev PixelBlock := Vector Byte 64

/-- The operands of GEN_QUANT and HAAR_SCALE: the quality and `is_luma` (rules R15, R21). -/
abbrev QualityKey := Byte × Bool

/-- A pure external function given as plain data: the answers that are known, in `known`, and for every
other argument the free function numbered `handle` (log entry 6). -/
structure ExternalFn (α β : Type) where
  known : List (α × β)
  handle : Nat
deriving DecidableEq, Repr

/-- HAAR_SCALE of rule R21: the default `17 - (7*quality) div 50`, or another external function. -/
inductive HaarScaleFn where
  | default
  | external (f : ExternalFn QualityKey Int)
deriving DecidableEq, Repr

/-- GEN_QUANT where no answer is known: free (rule R15, log entry 6). -/
opaque Config.genQuant (handle : Nat) (key : QualityKey) : QuantMatrix

/-- IDCT_PUT where no answer is known: free (rule R16, log entry 6). -/
opaque Config.idctPut (handle : Nat) (coeffs : CoeffBlock) : PixelBlock

/-- HAAR_SCALE other than the default where no answer is known: free (rule R21, log entry 6). -/
opaque Config.haarScale (handle : Nat) (key : QualityKey) : Int

/-- A sparse memory of `w`-bit cells. `cells` lists (address, value) pairs, addresses strictly rising, none
equal to `dflt`, which is what every unlisted address reads as. For `w = 8` a cell is a `Host.Cell`. -/
structure Store (w : Nat) where
  dflt : BitVec w
  cells : List (Nat × BitVec w)
deriving DecidableEq, Repr

/-- The addresses of `cells` rise strictly and all lie above `lo`, when `lo` is given. -/
def risingFrom {w : Nat} : Option Nat → List (Nat × BitVec w) → Bool
  | _, [] => true
  | none, (a, _) :: t => risingFrom (some a) t
  | some b, (a, _) :: t => decide (b < a) && risingFrom (some a) t

/-- The canonical form: strictly rising addresses, and no cell equal to the default. -/
def Store.wf {w : Nat} (m : Store w) : Bool :=
  risingFrom none m.cells && m.cells.all fun c => decide (c.2 ≠ m.dflt)

end Sys2Proof
end

