-- ==== Sys2Proof/Syntax.lean ====
section
/-! DEFINITION. The operations of the core: one constructor of `Instr` for each row of
`spec/opcode_table.json` (`00_scope.md` rule R7, `30_encoding.md` rules R90 to R113).

A payload symbol's operation carries the fields of its row that select or parametrise it. The plane, the
macroblock and the position inside a block are sequencer registers (`10_state.md` rule R46), so a symbol does not
carry them. A micro-operation carries the operands its rule lists. -/

namespace Sys2Proof

/-- Plane index `p` (rule R25): 0 is luma, 1 and 2 are the two chroma planes. -/
inductive Plane where
  | y | c1 | c2
deriving DecidableEq, Repr

/-- The plane's number. -/
def Plane.idx : Plane → Nat
  | .y => 0
  | .c1 => 1
  | .c2 => 2

/-- `is_luma(p)` (rule R25). -/
def Plane.isLuma : Plane → Bool
  | .y => true
  | _ => false

/-- `bs(p)` (rule R25): the side of a block of the plane. -/
def Plane.bs : Plane → Nat
  | .y => 16
  | _ => 8

/-- `nb = bs(p) div 8` (rule R80): DCT sub-blocks per block side. -/
def Plane.nb : Plane → Nat
  | .y => 2
  | _ => 1

/-- The three Binary models, `DCTC[p].sign` (`41_models.md` rule R153). -/
inductive BinRef where
  | sign (p : Plane)
deriving DecidableEq, Repr

/-- The 402 Small models (rules R52 and R153). -/
inductive SmallRef where
  | bt (p : Plane) (t : Fin 5)
  | fillCoef (p : Plane)
  | vs (p : Plane)
  | vq (p : Plane) (c : Fin 125)
  | dctDc (p : Plane)
  | haarCoef (p : Plane)
deriving DecidableEq, Repr

/-- The alphabet of a Small model (rules R9 and R153). -/
abbrev SmallRef.size : SmallRef → Nat
  | .bt _ _ => 5
  | .fillCoef _ => 12
  | .vs _ => 3
  | .vq _ _ => 5
  | .dctDc _ => 12
  | .haarCoef _ => 12

/-- The coefficient-class models, the operands DECODE_COEFF takes (rule R162). -/
inductive CoefRef where
  | fill (p : Plane)
  | dctDc (p : Plane)
  | haar (p : Plane)
deriving DecidableEq, Repr

/-- The 12 Byte models (rules R52 and R153). -/
inductive ByteRef where
  | pal (p : Plane)
  | esc (p : Plane)
  | ac (p : Plane)
  | hi (p : Plane)
deriving DecidableEq, Repr

/-- A model with a frequency table: MS_HALVE and MS_FREQS run on both kinds (rules R139 and R146). -/
inductive TableRef where
  | small (m : SmallRef)
  | byte (m : ByteRef)
deriving DecidableEq, Repr

/-- The two abort kinds of rule R245. -/
inductive AbortKind where
  | truncatedInput | malformedBlock
deriving DecidableEq, Repr

/-- `IN.region = (x, y, w, h)`, each a 16-bit unsigned integer (rule R48). -/
structure Region where
  x : U16
  y : U16
  w : U16
  h : U16
deriving DecidableEq, Repr

/-- The operands of CONSTRUCT (rule R231). -/
structure ConstructArgs where
  frameW : U16
  frameH : U16
  profile : Profile
  genQuant : ExternalFn QualityKey QuantMatrix
  idctPut : ExternalFn CoeffBlock PixelBlock
  haarScale : HaarScaleFn
  initPlanes : Store 8
deriving DecidableEq, Repr

/-- The operands of DECODE_FRAME (rule R232). -/
structure FrameArgs where
  payload : List Byte
  keyframe : Bool
  region : Region
  quality : Byte
deriving DecidableEq, Repr

/-- One constructor per row of `spec/opcode_table.json`, in the table's order. -/
inductive Instr where
  -- block types (R92)
  | fill | image | dct | haar | skip
  -- coefficient classes and their operands (R93, R162)
  | coefC0 | coefC1 | coefC2 | coefC3 | coefC4 | coefC5 | coefC6 | coefC7 | coefC8 | coefC9 | coefC10 | coefC11
  | coefSign
  | coefExtra (n : BitVec 4)
  -- image symbols (R95 to R98)
  | vs2 | vs3 | vs4
  | palEntry (k : BitVec 2)
  | vqC0 | vqC1 | vqC2 | vqC3 | vqC4
  | escLiteral
  -- AC tokens (R99, R100)
  | acEob | acZrl
  | acIllegalR1 | acIllegalR2 | acIllegalR3 | acIllegalR4 | acIllegalR5 | acIllegalR6 | acIllegalR7
  | acIllegalR8 | acIllegalR9 | acIllegalR10 | acIllegalR11 | acIllegalR12 | acIllegalR13 | acIllegalR14
  | acRlC1 (r : BitVec 4) | acRlC2 (r : BitVec 4) | acRlC3 (r : BitVec 4) | acRlC4 (r : BitVec 4)
  | acRlC5 (r : BitVec 4) | acRlC6 (r : BitVec 4) | acRlC7 (r : BitVec 4) | acRlC8 (r : BitVec 4)
  | acRlC9 (r : BitVec 4) | acRlC10 (r : BitVec 4) | acRlC11 (r : BitVec 4) | acRlC12 (r : BitVec 4)
  | acRlC13 (r : BitVec 4) | acRlC14 (r : BitVec 4) | acRlC15 (r : BitVec 4)
  | acSign
  | acExtra (n : BitVec 4)
  -- Haar coefficients (R103)
  | haarLl | haarHf
  -- symbol primitives (R119 to R132)
  | getBit
  | getBits (n : BitVec 4)
  | decBin (m : BinRef)
  | decSmall (m : SmallRef)
  | decByte (m : ByteRef)
  -- range-decoder micro-operations (R115, R117)
  | rdInit | normalise
  -- model micro-operations (R135 to R148)
  | m2Reset (m : BinRef)
  | m2Update (m : BinRef) (b : Bool)
  | msConstruct (m : SmallRef)
  | msUpdate (m : SmallRef) (v : BitVec 4)
  | msHalve (m : TableRef)
  | msFreqs (m : TableRef)
  | msReset (m : SmallRef)
  | mbConstruct (m : ByteRef)
  | mbUpdate (m : ByteRef) (v : Byte)
  | mbSecondary (m : ByteRef)
  | mbReset (m : ByteRef)
  -- selector and coefficient decode (R160, R162)
  | btSelect (p : Plane)
  | decodeCoeff (m : CoefRef)
  -- DCT micro-operations (R192 to R204)
  | dctSub (p : Plane) (dbx : U16) (dby : U16)
  | dcPredict (p : Plane) (dbx : U16) (dby : U16)
  | mingrad (l : I32) (t : I32) (tl : I32)
  | dcStore (p : Plane) (dbx : U16) (dby : U16) (delta : I32) (pred : I32)
  | acDecode (p : Plane)
  | acLevel (p : Plane) (pos : BitVec 6) (c : BitVec 4)
  | idctWrite (p : Plane) (r0 : BitVec 4) (c0 : BitVec 4)
  -- Haar micro-operation (R220)
  | haarButterfly (p : Plane)
  -- frame steps (R233 to R247)
  | validate | emptyKeyCheck | skipCheck | frameStart | qualityCache | keyframeReset | emptyCommit
  | everyFrameReset | decoderStart | mbWalk
  | blockStep (p : Plane) (mbx : U16) (mby : U16)
  | errorCheck
  | abort (kind : AbortKind)
  | commit
  -- host commands (R112)
  | construct (a : ConstructArgs)
  | decodeFrame (a : FrameArgs)
  | resetForKeyframe
  | destroy
deriving DecidableEq, Repr

end Sys2Proof
end

