-- ==== Sys2Proof/WellFormed.lean ====
section
/-! DEFINITION. Which operations are well formed: the operand ranges the rules state. -/

namespace Sys2Proof

/-- `lo <= n <= hi`. -/
def inRange (lo hi n : Nat) : Bool := decide (lo ≤ n) && decide (n ≤ hi)

/-- The operand ranges of the rules named beside each check. Everything not listed takes any operand of
its type. -/
def Instr.wf : Instr → Bool
  | .coefExtra n => inRange 1 10 n.toNat                       -- R93: n = v - 1, v in 2..11
  | .acExtra n => inRange 1 14 n.toNat                         -- R100: n = c - 1, c in 2..15
  | .getBits n => inRange 1 14 n.toNat                         -- R121
  | .msUpdate m v => decide (v.toNat < m.size)                 -- R139: v in 0..n-1
  | .acLevel _ pos c => inRange 1 63 pos.toNat && inRange 1 15 c.toNat   -- R201, R207
  | .idctWrite p r0 c0 =>                                      -- R190: 8*j and 8*i with j, i < nb
      (r0 == 0 || (r0 == 8 && p.isLuma)) && (c0 == 0 || (c0 == 8 && p.isLuma))
  | .construct a => decide (a.frameW ≠ 0) && decide (a.frameH ≠ 0) && a.initPlanes.wf   -- R10
  | _ => true

end Sys2Proof
end

