-- ==== Sys2Proof/Decode.lean ====
section
/-! DEFINITION. The codes of the operations, the decoder and the encoder.

`30_encoding.md` gives a bit pattern to 56 rows only: the rows whose match and mask apply to the value of a decoded symbol
(rule R91). What such a value means depends on the symbol's format, so a code of that kind is a format and a value. The
other rows have no bit pattern (mask 0, "n/a" or "symbolic"; rules R112, R113): their code is the row's name with its
operands as numbers, or an abstract host call (log entry 9). -/

namespace Sys2Proof

/-- The symbol formats whose value selects a row: the five `format` columns with a non-zero mask. -/
inductive SymbolCtx where
  /-- SMALL(5) with `BT[p].model[BT[p].last_type]` (R92). -/
  | blockType
  /-- SMALL(12) with a coefficient-class model (R93). -/
  | coefClass
  /-- SMALL(3) with `IMGC[p].vs` (R95). -/
  | vecSize
  /-- SMALL(5) with `IMGC[p].vq[ctx]` (R97). -/
  | vqClass
  /-- BYTE with `DCTC[p].ac` (R99). -/
  | acToken
deriving DecidableEq, Repr

/-- The rows that no symbol value selects: the operand symbols (mask 0), the primitives and the
micro-operations. -/
inductive OpName where
  | coefSign | coefExtra | palEntry | escLiteral | acSign | acExtra | haarLl | haarHf | getBit | getBits | decBin | decSmall | decByte | rdInit | normalise | m2Reset | m2Update | msConstruct | msUpdate | msHalve | msFreqs | msReset | mbConstruct | mbUpdate | mbSecondary | mbReset | btSelect | decodeCoeff | dctSub | dcPredict | mingrad | dcStore | acDecode | acLevel | idctWrite | haarButterfly | validate | emptyKeyCheck | skipCheck | frameStart | qualityCache | keyframeReset | emptyCommit | everyFrameReset | decoderStart | mbWalk | blockStep | errorCheck | abort | commit
deriving DecidableEq, Repr

/-- The four host commands (rule R112), the only operations a host can issue (rule R113). -/
inductive HostCall where
  | construct (a : ConstructArgs)
  | decodeFrame (a : FrameArgs)
  | resetForKeyframe
  | destroy
deriving DecidableEq, Repr

/-- The code of one operation. -/
inductive Code where
  | symbol (ctx : SymbolCtx) (value : Byte)
  | micro (op : OpName) (args : List Nat)
  | command (c : HostCall)
deriving DecidableEq, Repr

/-- Why a code stands for no operation. -/
inductive DecodeError where
  /-- A symbol value that no payload can decode to (rule R108). -/
  | unreachableSymbol
  /-- A row name with a wrong number of operands, or an operand outside its type. -/
  | operands
  /-- Operands outside the range their rule states (`Instr.wf`). -/
  | illFormed
deriving DecidableEq, Repr

/-! ## Fields -/

/-- A number as a `w`-bit field. -/
def bits (w n : Nat) : Option (BitVec w) := if n < 2 ^ w then some (BitVec.ofNat w n) else none

/-- A number as an index below `k`. -/
def index (k n : Nat) : Option (Fin k) := if h : n < k then some ⟨n, h⟩ else none

/-- A plane number (rule R25). -/
def decodePlane : Nat → Option Plane
  | 0 => some .y
  | 1 => some .c1
  | 2 => some .c2
  | _ => none

def encodePlane (p : Plane) : List Nat := [p.idx]

def decodeBool : Nat → Option Bool
  | 0 => some false
  | 1 => some true
  | _ => none

def encodeBool (b : Bool) : List Nat := [if b then 1 else 0]

/-- An abort kind by its status code (rule R260). -/
def decodeKind : Nat → Option AbortKind
  | 1 => some .truncatedInput
  | 4 => some .malformedBlock
  | _ => none

def encodeKind : AbortKind → List Nat
  | .truncatedInput => [1]
  | .malformedBlock => [4]

def decodeBin (p : Nat) : Option BinRef := (decodePlane p).bind fun p => some (.sign p)

def encodeBin : BinRef → List Nat
  | .sign p => encodePlane p

/-- A Small model as kind, plane, index. -/
def decodeSmallRef (k p i : Nat) : Option SmallRef :=
  (decodePlane p).bind fun p =>
    match k with
    | 0 => (index 5 i).bind fun t => some (.bt p t)
    | 1 => if i = 0 then some (.fillCoef p) else none
    | 2 => if i = 0 then some (.vs p) else none
    | 3 => (index 125 i).bind fun c => some (.vq p c)
    | 4 => if i = 0 then some (.dctDc p) else none
    | 5 => if i = 0 then some (.haarCoef p) else none
    | _ => none

def encodeSmall : SmallRef → List Nat
  | .bt p t => [0, p.idx, t.val]
  | .fillCoef p => [1, p.idx, 0]
  | .vs p => [2, p.idx, 0]
  | .vq p c => [3, p.idx, c.val]
  | .dctDc p => [4, p.idx, 0]
  | .haarCoef p => [5, p.idx, 0]

/-- A coefficient-class model as kind, plane. -/
def decodeCoefRef (k p : Nat) : Option CoefRef :=
  (decodePlane p).bind fun p =>
    match k with
    | 0 => some (.fill p)
    | 1 => some (.dctDc p)
    | 2 => some (.haar p)
    | _ => none

def encodeCoef : CoefRef → List Nat
  | .fill p => [0, p.idx]
  | .dctDc p => [1, p.idx]
  | .haar p => [2, p.idx]

/-- A Byte model as kind, plane. -/
def decodeByteRef (k p : Nat) : Option ByteRef :=
  (decodePlane p).bind fun p =>
    match k with
    | 0 => some (.pal p)
    | 1 => some (.esc p)
    | 2 => some (.ac p)
    | 3 => some (.hi p)
    | _ => none

def encodeByte : ByteRef → List Nat
  | .pal p => [0, p.idx]
  | .esc p => [1, p.idx]
  | .ac p => [2, p.idx]
  | .hi p => [3, p.idx]

/-- A model with a frequency table: 0 and a Small model, or 1 and a Byte model (with a 0 after it). -/
def decodeTableRef (s a b c : Nat) : Option TableRef :=
  match s with
  | 0 => (decodeSmallRef a b c).bind fun m => some (.small m)
  | 1 => if c = 0 then (decodeByteRef a b).bind fun m => some (.byte m) else none
  | _ => none

def encodeTable : TableRef → List Nat
  | .small m => 0 :: encodeSmall m
  | .byte m => 1 :: (encodeByte m ++ [0])

/-! ## Decoder -/

/-- The AC token map of rule R100, first matching row. `r` is `tok[7:4]` and `c` is `tok[3:0]` (rule R99). -/
def decodeAcToken (tok : Byte) : Option Instr :=
  let r : BitVec 4 := tok.extractLsb' 4 4
  let c : BitVec 4 := tok.extractLsb' 0 4
  if tok = 0x00 then some .acEob
  else if tok = 0xF0 then some .acZrl
  else
    match c.toNat with
    | 0 =>
      match r.toNat with
      | 1 => some .acIllegalR1 | 2 => some .acIllegalR2 | 3 => some .acIllegalR3 | 4 => some .acIllegalR4
      | 5 => some .acIllegalR5 | 6 => some .acIllegalR6 | 7 => some .acIllegalR7 | 8 => some .acIllegalR8
      | 9 => some .acIllegalR9 | 10 => some .acIllegalR10 | 11 => some .acIllegalR11 | 12 => some .acIllegalR12
      | 13 => some .acIllegalR13 | 14 => some .acIllegalR14
      | _ => none
    | 1 => some (.acRlC1 r) | 2 => some (.acRlC2 r) | 3 => some (.acRlC3 r) | 4 => some (.acRlC4 r)
    | 5 => some (.acRlC5 r) | 6 => some (.acRlC6 r) | 7 => some (.acRlC7 r) | 8 => some (.acRlC8 r)
    | 9 => some (.acRlC9 r) | 10 => some (.acRlC10 r) | 11 => some (.acRlC11 r) | 12 => some (.acRlC12 r)
    | 13 => some (.acRlC13 r) | 14 => some (.acRlC14 r) | 15 => some (.acRlC15 r)
    | _ => none

/-- The symbol maps of `30_encoding.md` section 2. `none` where no payload can decode the value (rule R108). -/
def decodeSymbol (ctx : SymbolCtx) (value : Byte) : Option Instr :=
  match ctx with
  | .blockType =>
    match value.toNat with
    | 0 => some .fill | 1 => some .image | 2 => some .dct | 3 => some .haar | 4 => some .skip
    | _ => none
  | .coefClass =>
    match value.toNat with
    | 0 => some .coefC0 | 1 => some .coefC1 | 2 => some .coefC2 | 3 => some .coefC3
    | 4 => some .coefC4 | 5 => some .coefC5 | 6 => some .coefC6 | 7 => some .coefC7
    | 8 => some .coefC8 | 9 => some .coefC9 | 10 => some .coefC10 | 11 => some .coefC11
    | _ => none
  | .vecSize =>
    match value.toNat with
    | 0 => some .vs2 | 1 => some .vs3 | 2 => some .vs4
    | _ => none
  | .vqClass =>
    match value.toNat with
    | 0 => some .vqC0 | 1 => some .vqC1 | 2 => some .vqC2 | 3 => some .vqC3 | 4 => some .vqC4
    | _ => none
  | .acToken => decodeAcToken value

/-- A row name with its operands. -/
def decodeMicro : OpName → List Nat → Option Instr
  | .coefSign, [] => some .coefSign
  | .coefExtra, [x0] => (bits 4 x0).bind fun n => some (.coefExtra n)
  | .palEntry, [x0] => (bits 2 x0).bind fun k => some (.palEntry k)
  | .escLiteral, [] => some .escLiteral
  | .acSign, [] => some .acSign
  | .acExtra, [x0] => (bits 4 x0).bind fun n => some (.acExtra n)
  | .haarLl, [] => some .haarLl
  | .haarHf, [] => some .haarHf
  | .getBit, [] => some .getBit
  | .getBits, [x0] => (bits 4 x0).bind fun n => some (.getBits n)
  | .decBin, [x0] => (decodeBin x0).bind fun m => some (.decBin m)
  | .decSmall, [x0, x1, x2] => (decodeSmallRef x0 x1 x2).bind fun m => some (.decSmall m)
  | .decByte, [x0, x1] => (decodeByteRef x0 x1).bind fun m => some (.decByte m)
  | .rdInit, [] => some .rdInit
  | .normalise, [] => some .normalise
  | .m2Reset, [x0] => (decodeBin x0).bind fun m => some (.m2Reset m)
  | .m2Update, [x0, x1] => (decodeBin x0).bind fun m => (decodeBool x1).bind fun b => some (.m2Update m b)
  | .msConstruct, [x0, x1, x2] => (decodeSmallRef x0 x1 x2).bind fun m => some (.msConstruct m)
  | .msUpdate, [x0, x1, x2, x3] => (decodeSmallRef x0 x1 x2).bind fun m => (bits 4 x3).bind fun v => some (.msUpdate m v)
  | .msHalve, [x0, x1, x2, x3] => (decodeTableRef x0 x1 x2 x3).bind fun m => some (.msHalve m)
  | .msFreqs, [x0, x1, x2, x3] => (decodeTableRef x0 x1 x2 x3).bind fun m => some (.msFreqs m)
  | .msReset, [x0, x1, x2] => (decodeSmallRef x0 x1 x2).bind fun m => some (.msReset m)
  | .mbConstruct, [x0, x1] => (decodeByteRef x0 x1).bind fun m => some (.mbConstruct m)
  | .mbUpdate, [x0, x1, x2] => (decodeByteRef x0 x1).bind fun m => (bits 8 x2).bind fun v => some (.mbUpdate m v)
  | .mbSecondary, [x0, x1] => (decodeByteRef x0 x1).bind fun m => some (.mbSecondary m)
  | .mbReset, [x0, x1] => (decodeByteRef x0 x1).bind fun m => some (.mbReset m)
  | .btSelect, [x0] => (decodePlane x0).bind fun p => some (.btSelect p)
  | .decodeCoeff, [x0, x1] => (decodeCoefRef x0 x1).bind fun m => some (.decodeCoeff m)
  | .dctSub, [x0, x1, x2] => (decodePlane x0).bind fun p => (bits 16 x1).bind fun x => (bits 16 x2).bind fun y => some (.dctSub p x y)
  | .dcPredict, [x0, x1, x2] => (decodePlane x0).bind fun p => (bits 16 x1).bind fun x => (bits 16 x2).bind fun y => some (.dcPredict p x y)
  | .mingrad, [x0, x1, x2] => (bits 32 x0).bind fun l => (bits 32 x1).bind fun t => (bits 32 x2).bind fun tl => some (.mingrad l t tl)
  | .dcStore, [x0, x1, x2, x3, x4] => (decodePlane x0).bind fun p => (bits 16 x1).bind fun x => (bits 16 x2).bind fun y => (bits 32 x3).bind fun d => (bits 32 x4).bind fun q => some (.dcStore p x y d q)
  | .acDecode, [x0] => (decodePlane x0).bind fun p => some (.acDecode p)
  | .acLevel, [x0, x1, x2] => (decodePlane x0).bind fun p => (bits 6 x1).bind fun k => (bits 4 x2).bind fun c => some (.acLevel p k c)
  | .idctWrite, [x0, x1, x2] => (decodePlane x0).bind fun p => (bits 4 x1).bind fun r => (bits 4 x2).bind fun c => some (.idctWrite p r c)
  | .haarButterfly, [x0] => (decodePlane x0).bind fun p => some (.haarButterfly p)
  | .validate, [] => some .validate
  | .emptyKeyCheck, [] => some .emptyKeyCheck
  | .skipCheck, [] => some .skipCheck
  | .frameStart, [] => some .frameStart
  | .qualityCache, [] => some .qualityCache
  | .keyframeReset, [] => some .keyframeReset
  | .emptyCommit, [] => some .emptyCommit
  | .everyFrameReset, [] => some .everyFrameReset
  | .decoderStart, [] => some .decoderStart
  | .mbWalk, [] => some .mbWalk
  | .blockStep, [x0, x1, x2] => (decodePlane x0).bind fun p => (bits 16 x1).bind fun x => (bits 16 x2).bind fun y => some (.blockStep p x y)
  | .errorCheck, [] => some .errorCheck
  | .abort, [x0] => (decodeKind x0).bind fun k => some (.abort k)
  | .commit, [] => some .commit
  | _, _ => none

/-- A host call is its own code (rule R112). -/
def decodeCommand : HostCall → Instr
  | .construct a => .construct a
  | .decodeFrame a => .decodeFrame a
  | .resetForKeyframe => .resetForKeyframe
  | .destroy => .destroy

/-- The decoder: total, and every operation it answers is well formed. -/
def decode (c : Code) : Except DecodeError Instr :=
  let read : Except DecodeError Instr :=
    match c with
    | .symbol ctx v => match decodeSymbol ctx v with
      | some i => .ok i
      | none => .error .unreachableSymbol
    | .micro op args => match decodeMicro op args with
      | some i => .ok i
      | none => .error .operands
    | .command h => .ok (decodeCommand h)
  match read with
  | .error e => .error e
  | .ok i => if i.wf then .ok i else .error .illFormed

/-! ## Encoder -/

/-- The AC_RL token `(r<<4)|c` (rule R100). -/
def acRlCode (r : BitVec 4) (c : BitVec 4) : Code := .symbol .acToken (r ++ c)

/-- The code of an operation: for a symbol row its format and the value of its match, for the others its name and
operands. -/
def encode : Instr → Code
  | .fill => .symbol .blockType 0x00
  | .image => .symbol .blockType 0x01
  | .dct => .symbol .blockType 0x02
  | .haar => .symbol .blockType 0x03
  | .skip => .symbol .blockType 0x04
  | .coefC0 => .symbol .coefClass 0x00
  | .coefC1 => .symbol .coefClass 0x01
  | .coefC2 => .symbol .coefClass 0x02
  | .coefC3 => .symbol .coefClass 0x03
  | .coefC4 => .symbol .coefClass 0x04
  | .coefC5 => .symbol .coefClass 0x05
  | .coefC6 => .symbol .coefClass 0x06
  | .coefC7 => .symbol .coefClass 0x07
  | .coefC8 => .symbol .coefClass 0x08
  | .coefC9 => .symbol .coefClass 0x09
  | .coefC10 => .symbol .coefClass 0x0A
  | .coefC11 => .symbol .coefClass 0x0B
  | .vs2 => .symbol .vecSize 0x00
  | .vs3 => .symbol .vecSize 0x01
  | .vs4 => .symbol .vecSize 0x02
  | .vqC0 => .symbol .vqClass 0x00
  | .vqC1 => .symbol .vqClass 0x01
  | .vqC2 => .symbol .vqClass 0x02
  | .vqC3 => .symbol .vqClass 0x03
  | .vqC4 => .symbol .vqClass 0x04
  | .acEob => .symbol .acToken 0x00
  | .acZrl => .symbol .acToken 0xF0
  | .acIllegalR1 => .symbol .acToken 0x10
  | .acIllegalR2 => .symbol .acToken 0x20
  | .acIllegalR3 => .symbol .acToken 0x30
  | .acIllegalR4 => .symbol .acToken 0x40
  | .acIllegalR5 => .symbol .acToken 0x50
  | .acIllegalR6 => .symbol .acToken 0x60
  | .acIllegalR7 => .symbol .acToken 0x70
  | .acIllegalR8 => .symbol .acToken 0x80
  | .acIllegalR9 => .symbol .acToken 0x90
  | .acIllegalR10 => .symbol .acToken 0xA0
  | .acIllegalR11 => .symbol .acToken 0xB0
  | .acIllegalR12 => .symbol .acToken 0xC0
  | .acIllegalR13 => .symbol .acToken 0xD0
  | .acIllegalR14 => .symbol .acToken 0xE0
  | .acRlC1 r => acRlCode r 1
  | .acRlC2 r => acRlCode r 2
  | .acRlC3 r => acRlCode r 3
  | .acRlC4 r => acRlCode r 4
  | .acRlC5 r => acRlCode r 5
  | .acRlC6 r => acRlCode r 6
  | .acRlC7 r => acRlCode r 7
  | .acRlC8 r => acRlCode r 8
  | .acRlC9 r => acRlCode r 9
  | .acRlC10 r => acRlCode r 10
  | .acRlC11 r => acRlCode r 11
  | .acRlC12 r => acRlCode r 12
  | .acRlC13 r => acRlCode r 13
  | .acRlC14 r => acRlCode r 14
  | .acRlC15 r => acRlCode r 15
  | .coefSign => .micro .coefSign []
  | .coefExtra n => .micro .coefExtra ([n.toNat])
  | .palEntry k => .micro .palEntry ([k.toNat])
  | .escLiteral => .micro .escLiteral []
  | .acSign => .micro .acSign []
  | .acExtra n => .micro .acExtra ([n.toNat])
  | .haarLl => .micro .haarLl []
  | .haarHf => .micro .haarHf []
  | .getBit => .micro .getBit []
  | .getBits n => .micro .getBits ([n.toNat])
  | .decBin m => .micro .decBin (encodeBin m)
  | .decSmall m => .micro .decSmall (encodeSmall m)
  | .decByte m => .micro .decByte (encodeByte m)
  | .rdInit => .micro .rdInit []
  | .normalise => .micro .normalise []
  | .m2Reset m => .micro .m2Reset (encodeBin m)
  | .m2Update m b => .micro .m2Update (encodeBin m ++ encodeBool b)
  | .msConstruct m => .micro .msConstruct (encodeSmall m)
  | .msUpdate m v => .micro .msUpdate (encodeSmall m ++ [v.toNat])
  | .msHalve m => .micro .msHalve (encodeTable m)
  | .msFreqs m => .micro .msFreqs (encodeTable m)
  | .msReset m => .micro .msReset (encodeSmall m)
  | .mbConstruct m => .micro .mbConstruct (encodeByte m)
  | .mbUpdate m v => .micro .mbUpdate (encodeByte m ++ [v.toNat])
  | .mbSecondary m => .micro .mbSecondary (encodeByte m)
  | .mbReset m => .micro .mbReset (encodeByte m)
  | .btSelect p => .micro .btSelect (encodePlane p)
  | .decodeCoeff m => .micro .decodeCoeff (encodeCoef m)
  | .dctSub p x y => .micro .dctSub (encodePlane p ++ [x.toNat] ++ [y.toNat])
  | .dcPredict p x y => .micro .dcPredict (encodePlane p ++ [x.toNat] ++ [y.toNat])
  | .mingrad l t tl => .micro .mingrad ([l.toNat] ++ [t.toNat] ++ [tl.toNat])
  | .dcStore p x y d q => .micro .dcStore (encodePlane p ++ [x.toNat] ++ [y.toNat] ++ [d.toNat] ++ [q.toNat])
  | .acDecode p => .micro .acDecode (encodePlane p)
  | .acLevel p k c => .micro .acLevel (encodePlane p ++ [k.toNat] ++ [c.toNat])
  | .idctWrite p r c => .micro .idctWrite (encodePlane p ++ [r.toNat] ++ [c.toNat])
  | .haarButterfly p => .micro .haarButterfly (encodePlane p)
  | .validate => .micro .validate []
  | .emptyKeyCheck => .micro .emptyKeyCheck []
  | .skipCheck => .micro .skipCheck []
  | .frameStart => .micro .frameStart []
  | .qualityCache => .micro .qualityCache []
  | .keyframeReset => .micro .keyframeReset []
  | .emptyCommit => .micro .emptyCommit []
  | .everyFrameReset => .micro .everyFrameReset []
  | .decoderStart => .micro .decoderStart []
  | .mbWalk => .micro .mbWalk []
  | .blockStep p x y => .micro .blockStep (encodePlane p ++ [x.toNat] ++ [y.toNat])
  | .errorCheck => .micro .errorCheck []
  | .abort k => .micro .abort (encodeKind k)
  | .commit => .micro .commit []
  | .construct a => .command (.construct a)
  | .decodeFrame a => .command (.decodeFrame a)
  | .resetForKeyframe => .command .resetForKeyframe
  | .destroy => .command .destroy

/-! ## The table's words -/

/-- The format a bare symbol value is read under, since `opcode_table.json` numbers a value's bits and gives no
format with them: the first format, in the table's order, that has a row for the value (log entry 9). -/
def tableContext (w : Nat) : SymbolCtx :=
  let v := BitVec.ofNat 8 w
  if (decodeSymbol .blockType v).isSome then .blockType
  else if (decodeSymbol .coefClass v).isSome then .coefClass
  else .acToken

/-- The code of a table word. -/
def tableCode (w : Nat) : Code := .symbol (tableContext w) (BitVec.ofNat 8 w)

/-- The operation a table word stands for. Only the 8-bit rows have one. -/
def decodeTableWord (nbits w : Nat) : Option Instr :=
  if nbits = 8 ∧ w < 256 then
    match decode (tableCode w) with
    | .ok i => some i
    | .error _ => none
  else none

end Sys2Proof
end

