-- ==== Sys2Proof/Machine/State.lean ====
section
/-! DEFINITION. The state of one decoder instance (`10_state.md`), the reasons a step can stop, and the state after
construction (`70_reset_and_hazards.md` rule R286). Plain data throughout. -/

namespace Sys2Proof.Machine

/-! ## Why a step stops -/

/-- The faults are the assertions of `60_exceptions.md` rule R271 and `93_implementation_defined.md` I10: guards that
the spec says can never fire in a run. Each is safe: the model stops where no real run can be (log entry 12). -/
inductive Fault where
  /-- A payload byte at an index `>= L` (rule R71). Raised by NORMALISE and RD_INIT. Safe. -/
  | payloadIndex
  /-- NORMALISE entered with `RD.range = 0`, where its loop never ends (rules R118, R128). Safe. -/
  | emptyInterval
  /-- A division by zero: `RD.range >> n`, `RD.range >> 15`, or a model's total weight (rule R128). Safe. -/
  | divideByZero
  /-- A frequency, secondary-index or symbol index outside its table (rules R88, R134). Safe. -/
  | tableIndex
  /-- A sample outside its plane (rules R74, R88). Safe. -/
  | sampleIndex
  /-- A DC-history position outside the history (rules R41, R88). Safe. -/
  | historyIndex
  /-- A scan position of 64 or more at a coefficient store (rule R207). Safe. -/
  | zigzagIndex
deriving DecidableEq, Repr

/-- What the model gives no meaning to. -/
inductive Refusal where
  /-- An instruction whose arm has no meaning yet. Raised by `exec` alone. Safe. -/
  | notModelled (mnemonic : String)
  /-- A code that stands for no operation, with the decoder's reason. Raised by `step`. Safe. -/
  | undecodable (e : DecodeError)
  /-- An operation after DESTROY (rule R58, I6: `refuse`). Raised by every meaning but CONSTRUCT's. Safe. -/
  | destroyed
deriving DecidableEq, Repr

/-! ## The range decoder and the models -/

/-- `RD` (rules R31 to R33). `stop` is the spec's `RD.end`. -/
structure RangeDecoder where
  range : U32
  low : U32
  cur : Nat
  stop : Nat
  err : Bool
deriving DecidableEq, Repr

/-- A Binary model, `Model2` (rule R34). -/
structure BinModel where
  zeroWeight : U32
  totalWeight : U32
  zeroFreq : U32
  totalFreq : U32
  updVal : U32
  tillRescale : U32
deriving DecidableEq, Repr

/-- A Small model `ModelS(n)` (rule R35), and the table part of a Byte model (rule R36). -/
structure FreqModel (n : Nat) where
  weights : Vector U32 n
  freqs : Vector U32 n
  totWeight : U32
  updVal : U32
  maxUpdVal : U32
  tillRescale : U32
deriving DecidableEq, Repr

/-- A Byte model, `ModelB` (rule R36): entries of `secondary` are integers in `0..255`. -/
structure ByteModel where
  base : FreqModel 256
  secondary : Vector (Fin 256) 66
deriving DecidableEq, Repr

/-! ## Per-plane block state -/

/-- A value for each of the three planes. -/
structure PerPlane (α : Type) where
  y : α
  c1 : α
  c2 : α
deriving DecidableEq, Repr

/-- `BT[p]` (rule R37). A type is its code `0..4` (rule R92). -/
structure BlockTypeCtx where
  lastType : Fin 5
  models : Vector (FreqModel 5) 5
deriving DecidableEq, Repr

/-- `FILLC[p]` (rule R38). -/
structure FillCoder where
  fillVal : I32
  coef : FreqModel 12
deriving DecidableEq, Repr

/-- `IMGC[p]` (rule R39). -/
structure ImageCoder where
  vs : FreqModel 3
  pal : ByteModel
  esc : ByteModel
  vq : Vector (FreqModel 5) 125
deriving DecidableEq, Repr

/-- `DCTC[p]` with its DC history `DCH[p]` (rules R40, R41). -/
structure DctCoder where
  dc : FreqModel 12
  sign : BinModel
  ac : ByteModel
  qmat : QuantMatrix
  hist : Store 32
deriving DecidableEq, Repr

/-- `HAARC[p]` (rule R42). -/
structure HaarCoder where
  coef : FreqModel 12
  hi : ByteModel
  scale : Int
deriving DecidableEq, Repr

/-- The coders of one plane. -/
structure PlaneCoders where
  bt : BlockTypeCtx
  fill : FillCoder
  image : ImageCoder
  dct : DctCoder
  haar : HaarCoder
deriving DecidableEq, Repr

/-! ## Frame-level registers, sequencer and scratch -/

/-- `FD.state` (rule R43). -/
inductive FrameState where
  | idle | decoding | committed | aborted
deriving DecidableEq, Repr

/-- `FD` (rules R43 to R45). `qCache = none` is the spec's NONE. -/
structure FrameControl where
  state : FrameState
  errFlag : Bool
  qCache : Option Byte
deriving DecidableEq, Repr

/-- The status codes of rule R260. -/
inductive Status where
  | ok | truncatedInput | invalidRegion | invalidQuality | malformedBlock | skippedAfterError | emptyKeyframe
deriving DecidableEq, Repr

/-- The number of a status (rule R260). -/
def Status.code : Status → Nat
  | .ok => 0
  | .truncatedInput => 1
  | .invalidRegion => 2
  | .invalidQuality => 3
  | .malformedBlock => 4
  | .skippedAfterError => 5
  | .emptyKeyframe => 6

/-- The sequencer registers (rule R46). -/
structure Sequencer where
  mby : Nat
  mbx : Nat
  p : Plane
  sb : Fin 4
  pos : Nat
  j : Fin 16
  i : Fin 16
deriving DecidableEq, Repr

/-- The Image scratch (rule R47), with the variables `vec_size`, `A` and `B` of rules R173 and R174:
`vs` is the vector-size symbol, so `vec_size = vs + 2`. -/
structure ImageScratch where
  vec : Vector Byte 4
  vs : Fin 3
  prevLine : Vector (Fin 5) 16
  a : Fin 5
  b : Fin 5
deriving DecidableEq, Repr

/-- Where the AC scan of a sub-block stands: the loop of rule R198 goes on, has returned `true`, or has returned
`false`. -/
inductive ScanStatus where
  | running | ok | malformed
deriving DecidableEq, Repr

/-- The datapath scratch of one block (rule R47): `img` for Image, `dctBlk` for DCT, `haarBlk` for Haar (entry
`16*j + i` is `HAAR.blk[j][i]`), and the flag `BLK.err`. `scan` and `neg` hold a variable of rules R198, R162 and R201
each: what the AC loop returned, and whether the coefficient being assembled is negative (log entry 10). -/
structure Scratch where
  img : ImageScratch
  dctBlk : CoeffBlock
  haarBlk : Vector Int 256
  blkErr : Bool
  scan : ScanStatus
  neg : Bool
deriving DecidableEq, Repr

/-- The parameters an instance is built with (rule R56). -/
structure Params where
  frameW : U16
  frameH : U16
  profile : Profile
  genQuant : ExternalFn QualityKey QuantMatrix
  idctPut : ExternalFn CoeffBlock PixelBlock
  haarScale : HaarScaleFn
deriving DecidableEq, Repr

/-- The machine's state: one decoder instance, and the commands its host has issued. -/
structure State where
  /-- The instance exists: CONSTRUCT sets it, DESTROY clears it (rule R58). -/
  alive : Bool
  params : Params
  /-- `BT`, `FILLC`, `IMGC`, `DCTC` with `DCH`, and `HAARC`, three copies each (rules R37 to R42). -/
  coders : PerPlane PlaneCoders
  fd : FrameControl
  rd : RangeDecoder
  seq : Sequencer
  scratch : Scratch
  /-- The command input latches `IN` (rule R48). -/
  inp : FrameArgs
  /-- `OUT.status` (rule R49). -/
  status : Status
  /-- `REF[0..2]` (rule R50), one memory keyed by plane, row and column (`sampleAddr`). -/
  ref : Store 8
  /-- `WORK[0..2]` (rule R50), keyed alike. -/
  work : Store 8
  /-- The value the last operation returned, for the operations whose rule ends in `return` (log entry 10). -/
  ret : Int
  /-- The host commands issued and not yet taken, first to last (rule R230, log entry 8). -/
  cmds : List HostCall
  /-- The internal operation the sequencer issues next, if one is selected (rules R24, R113, log entry 8). -/
  issue : Option Code
deriving DecidableEq, Repr

/-! ## Values after construction (rule R286) -/

/-- A Model2 after reset (rule R135). -/
def BinModel.initial : BinModel :=
  { zeroWeight := 1, totalWeight := 2, zeroFreq := 0x1000, totalFreq := 0x2000, updVal := 4, tillRescale := 4 }

/-- A ModelS(n) after reset, as rules R142 and R143 tabulate it: all weights 1,
`freqs[i] = (i * (0x8000_0000 div n)) >> 16`, `upd_val = till_rescale = (n + 6) >> 1`, `max_upd_val = 8*n + 48`. -/
def FreqModel.initial (n : Nat) : FreqModel n :=
  { weights := Vector.replicate n 1
    freqs := Vector.ofFn fun i => BitVec.ofNat 32 ((i.val * (0x80000000 / n)) >>> 16)
    totWeight := BitVec.ofNat 32 n
    updVal := BitVec.ofNat 32 ((n + 6) / 2)
    maxUpdVal := BitVec.ofNat 32 (8 * n + 48)
    tillRescale := BitVec.ofNat 32 ((n + 6) / 2) }

/-- A ModelB after reset (rule R149): `secondary[s] = 4*s - 1` for `s` in `1..63`, 0 at 0, and 255 at 64 and 65. -/
def ByteModel.initial : ByteModel :=
  { base := FreqModel.initial 256
    secondary := Vector.ofFn fun s => if s.val ≤ 63 then Fin.ofNat 256 (4 * s.val - 1) else 255 }

/-- The coders of one plane after construction (rules R37 to R42). `qmat` and `scale` have no construction value;
0 stands there (log entry 5). -/
def PlaneCoders.initial : PlaneCoders :=
  { bt := { lastType := 4, models := Vector.replicate 5 (FreqModel.initial 5) }
    fill := { fillVal := 0, coef := FreqModel.initial 12 }
    image := { vs := FreqModel.initial 3, pal := ByteModel.initial, esc := ByteModel.initial,
               vq := Vector.replicate 125 (FreqModel.initial 5) }
    dct := { dc := FreqModel.initial 12, sign := BinModel.initial, ac := ByteModel.initial,
             qmat := Vector.replicate 64 0, hist := { dflt := 0, cells := [] } }
    haar := { coef := FreqModel.initial 12, hi := ByteModel.initial, scale := 0 } }

/-- A state with no instance in it: what DESTROY leaves, and what CONSTRUCT starts from. The elements that have "no value"
outside a frame (rules R55, R286) hold the values of log entries 3 and 4. -/
def State.blank : State :=
  { alive := false
    params := { frameW := 16, frameH := 16, profile := Profile.doc, genQuant := { known := [], handle := 0 },
                idctPut := { known := [], handle := 0 }, haarScale := .default }
    coders := { y := PlaneCoders.initial, c1 := PlaneCoders.initial, c2 := PlaneCoders.initial }
    fd := { state := .idle, errFlag := false, qCache := none }
    rd := { range := 0xFFFFFFFF, low := 0, cur := 0, stop := 0, err := false }
    seq := { mby := 0, mbx := 0, p := .y, sb := 0, pos := 1, j := 0, i := 0 }
    scratch := { img := { vec := Vector.replicate 4 0, vs := 0, prevLine := Vector.replicate 16 0, a := 0, b := 0 }
                 dctBlk := Vector.replicate 64 0, haarBlk := Vector.replicate 256 0, blkErr := false,
                 scan := .running, neg := false }
    inp := { payload := [], keyframe := false, region := { x := 0, y := 0, w := 0, h := 0 }, quality := 0 }
    status := .ok
    ref := { dflt := 0, cells := [] }
    work := { dflt := 0, cells := [] }
    ret := 0
    cmds := []
    issue := none }

/-- The machine right after reset. The core's reset is CONSTRUCT (rule R285), so this is an instance just
constructed, CONSTRUCT(16, 16, DOC, …) of rule R289, with the parameters of log entries 1 and 2. -/
def State.reset : State := { State.blank with alive := true }

end Sys2Proof.Machine
end

