-- ==== Sys2Proof/Machine/Ops.lean ====
section
/-! DEFINITION. The shared operations over the state: loops, the sample planes, the DC history, the model registers, the
external functions, the register updates, and the abort, which is the core's trap (`60_exceptions.md` rule R263). -/

namespace Sys2Proof

/-! ## Sparse memory -/

/-- Look an address up in a list of cells. -/
def cellAt {w : Nat} (dflt : BitVec w) : List (Nat × BitVec w) → Nat → BitVec w
  | [], _ => dflt
  | (b, u) :: t, a => if a = b then u else cellAt dflt t a

/-- The value an address reads as: its cell, or the default when it is not listed. -/
def Store.read {w : Nat} (m : Store w) (a : Nat) : BitVec w := cellAt m.dflt m.cells a

/-- Put a value at an address in a rising list of cells; a value equal to the default removes the cell. -/
def putCell {w : Nat} (dflt : BitVec w) : List (Nat × BitVec w) → Nat → BitVec w → List (Nat × BitVec w)
  | [], a, v => if v = dflt then [] else [(a, v)]
  | (b, u) :: t, a, v =>
    if a < b then (if v = dflt then (b, u) :: t else (a, v) :: (b, u) :: t)
    else if a = b then (if v = dflt then t else (a, v) :: t)
    else (b, u) :: putCell dflt t a v

/-- Write one address. -/
def Store.write {w : Nat} (m : Store w) (a : Nat) (v : BitVec w) : Store w :=
  { m with cells := putCell m.dflt m.cells a v }

/-- Write one row of a rectangle: column `c` for `c` in `0..n`. -/
def Store.writeRow (m : Store 8) (addr : Nat → Nat) (v : Nat → Byte) : Nat → Store 8
  | 0 => m
  | n + 1 => (m.writeRow addr v n).write (addr n) (v n)

/-- Write `n` rows of `w` columns. -/
def Store.writeRows (m : Store 8) (addr : Nat → Nat → Nat) (v : Nat → Nat → Byte) (w : Nat) : Nat → Store 8
  | 0 => m
  | n + 1 => (m.writeRows addr v w n).writeRow (addr n) (v n) w

/-! ## Helpers on operands -/

/-- The Small model a coefficient-class reference names (rule R162). -/
abbrev CoefRef.model : CoefRef → SmallRef
  | .fill p => .fillCoef p
  | .dctDc p => .dctDc p
  | .haar p => .haarCoef p

/-- The answer listed for an argument, or the free function's. -/
def ExternalFn.apply {α β : Type} [DecidableEq α] (f : ExternalFn α β) (free : Nat → α → β) (x : α) : β :=
  match f.known.find? fun e => decide (e.1 = x) with
  | some e => e.2
  | none => free f.handle x

/-- The status an abort returns. -/
def AbortKind.status : AbortKind → Machine.Status
  | .truncatedInput => .truncatedInput
  | .malformedBlock => .malformedBlock

end Sys2Proof

namespace Sys2Proof.Machine

/-- The result of an operation inside a step: a value, or one of the assertion faults. -/
abbrev Res (α : Type) := Except Fault α

/-- The result of a step. -/
abbrev Result := Host.Outcome State Fault Refusal

/-- An operation as a step of a live instance; an operation on a destroyed one is refused (rule R58). -/
def live (s : State) (f : State → Res State) : Result :=
  if s.alive then
    match f s with
    | .ok t => .next t
    | .error e => .fault e
  else .refused .destroyed

/-! ## Loops -/

/-- `for k in lo..lo+n` of rule R23: the body for each index in turn, threading the state. -/
def forFrom {σ : Type} (f : Nat → σ → Res σ) : (lo n : Nat) → σ → Res σ
  | _, 0, s => .ok s
  | lo, n + 1, s => (f lo s).bind (forFrom f (lo + 1) n)

/-- `for k in 0..n` of rule R23. -/
def forRange {σ : Type} (n : Nat) (f : Nat → σ → Res σ) (s : σ) : Res σ := forFrom f 0 n s

/-- `for p in 0..3`. -/
def forPlanes {σ : Type} (f : Plane → σ → Res σ) (s : σ) : Res σ :=
  (f .y s).bind fun s => (f .c1 s).bind fun s => f .c2 s

/-! ## Planes of coders and models -/

def PerPlane.get {α : Type} (x : PerPlane α) : Plane → α
  | .y => x.y
  | .c1 => x.c1
  | .c2 => x.c2

def PerPlane.set {α : Type} (x : PerPlane α) (p : Plane) (v : α) : PerPlane α :=
  match p with
  | .y => { x with y := v }
  | .c1 => { x with c1 := v }
  | .c2 => { x with c2 := v }

/-- The coders of plane `p`. -/
def State.coder (s : State) (p : Plane) : PlaneCoders := s.coders.get p

def State.setCoder (s : State) (p : Plane) (c : PlaneCoders) : State := { s with coders := s.coders.set p c }

/-- The Binary model a reference names (rule R153). -/
def State.bin (s : State) : BinRef → BinModel
  | .sign p => (s.coder p).dct.sign

def State.setBin (s : State) (m : BinRef) (v : BinModel) : State :=
  match m with
  | .sign p => let c := s.coder p; s.setCoder p { c with dct := { c.dct with sign := v } }

/-- The Small model a reference names (rule R153). -/
def State.small (s : State) : (m : SmallRef) → FreqModel m.size
  | .bt p t => (s.coder p).bt.models[t]
  | .fillCoef p => (s.coder p).fill.coef
  | .vs p => (s.coder p).image.vs
  | .vq p c => (s.coder p).image.vq[c]
  | .dctDc p => (s.coder p).dct.dc
  | .haarCoef p => (s.coder p).haar.coef

def State.setSmall (s : State) : (m : SmallRef) → FreqModel m.size → State
  | .bt p t, v => let c := s.coder p; s.setCoder p { c with bt := { c.bt with models := c.bt.models.set t v } }
  | .fillCoef p, v => let c := s.coder p; s.setCoder p { c with fill := { c.fill with coef := v } }
  | .vs p, v => let c := s.coder p; s.setCoder p { c with image := { c.image with vs := v } }
  | .vq p x, v => let c := s.coder p; s.setCoder p { c with image := { c.image with vq := c.image.vq.set x v } }
  | .dctDc p, v => let c := s.coder p; s.setCoder p { c with dct := { c.dct with dc := v } }
  | .haarCoef p, v => let c := s.coder p; s.setCoder p { c with haar := { c.haar with coef := v } }

/-- The Byte model a reference names (rule R153). -/
def State.byte (s : State) : ByteRef → ByteModel
  | .pal p => (s.coder p).image.pal
  | .esc p => (s.coder p).image.esc
  | .ac p => (s.coder p).dct.ac
  | .hi p => (s.coder p).haar.hi

def State.setByte (s : State) (m : ByteRef) (v : ByteModel) : State :=
  match m with
  | .pal p => let c := s.coder p; s.setCoder p { c with image := { c.image with pal := v } }
  | .esc p => let c := s.coder p; s.setCoder p { c with image := { c.image with esc := v } }
  | .ac p => let c := s.coder p; s.setCoder p { c with dct := { c.dct with ac := v } }
  | .hi p => let c := s.coder p; s.setCoder p { c with haar := { c.haar with hi := v } }

/-! ## Register updates -/

def State.setRd (s : State) (rd : RangeDecoder) : State := { s with rd := rd }

/-- The value an operation returns (log entry 10). -/
def State.setRet (s : State) (v : Int) : State := { s with ret := v }

def State.setStatus (s : State) (c : Status) : State := { s with status := c }

def State.setScratch (s : State) (x : Scratch) : State := { s with scratch := x }

def State.setImg (s : State) (x : ImageScratch) : State := { s with scratch := { s.scratch with img := x } }

def State.setSeq (s : State) (q : Sequencer) : State := { s with seq := q }

def State.setPos (s : State) (pos : Nat) : State := { s with seq := { s.seq with pos := pos } }

def State.setFd (s : State) (fd : FrameControl) : State := { s with fd := fd }

def State.setNeg (s : State) (b : Bool) : State := { s with scratch := { s.scratch with neg := b } }

def State.setScan (s : State) (x : ScanStatus) : State := { s with scratch := { s.scratch with scan := x } }

def State.setDctBlk (s : State) (b : CoeffBlock) : State := { s with scratch := { s.scratch with dctBlk := b } }

def State.setHaarBlk (s : State) (b : Vector Int 256) : State := { s with scratch := { s.scratch with haarBlk := b } }

/-! ## Sample planes -/

/-- `PW(p)` (rules R11, R74). -/
def State.planeW (s : State) : Plane → Nat
  | .y => s.params.frameW.toNat
  | _ => (s.params.frameW.toNat + 1) / 2

/-- `PH(p)` (rules R11, R74). -/
def State.planeH (s : State) : Plane → Nat
  | .y => s.params.frameH.toNat
  | _ => (s.params.frameH.toNat + 1) / 2

/-- The key of sample (row `r`, column `c`) of plane `p`: planes have at most 65535 rows and columns, so the three
numbers stand side by side (log entry 13). -/
def sampleAddr (p : Plane) (r c : Nat) : Nat := (p.idx * 65536 + r) * 65536 + c

/-- The planes the datapaths write: WORK, or REF itself under ABORT_WRITES = IN_PLACE (rule R241). -/
def State.canvas (s : State) : Store 8 :=
  match s.params.profile.abortWrites with
  | .discard => s.work
  | .inPlace => s.ref

def State.setCanvas (s : State) (m : Store 8) : State :=
  match s.params.profile.abortWrites with
  | .discard => { s with work := m }
  | .inPlace => { s with ref := m }

/-- `WORK[p][r][c] <- v` (rule R23), asserting that the sample exists (rule R88). -/
def writeSample (p : Plane) (r c : Nat) (v : Byte) (s : State) : Res State :=
  if r < s.planeH p ∧ c < s.planeW p then .ok (s.setCanvas (s.canvas.write (sampleAddr p r c) v))
  else .error .sampleIndex

/-- Write the rectangle of `h` rows and `w` columns whose top-left sample is `(row, col)`. -/
def writeRect (p : Plane) (row col h w : Nat) (v : Nat → Nat → Byte) (s : State) : Res State :=
  if row + h ≤ s.planeH p ∧ col + w ≤ s.planeW p then
    .ok (s.setCanvas (s.canvas.writeRows (fun r c => sampleAddr p (row + r) (col + c)) v w h))
  else .error .sampleIndex

/-- The block origin `(row0, col0)` of plane `p` in the current macroblock (rules R76, R77). -/
def State.origin (s : State) (p : Plane) : Nat × Nat :=
  let g := s.inp.region
  match p with
  | .y => (g.y.toNat + 16 * s.seq.mby, g.x.toNat + 16 * s.seq.mbx)
  | _ => (g.y.toNat / 2 + 8 * s.seq.mby, g.x.toNat / 2 + 8 * s.seq.mbx)

/-- `BLOCK[r][c] <- v` (rule R77). -/
def writeBlock (p : Plane) (r c : Nat) (v : Byte) (s : State) : Res State :=
  writeSample p ((s.origin p).1 + r) ((s.origin p).2 + c) v s

/-- `BLOCK[r0 + r][c0 + c] <- v r c` for the `n × n` square at `(r0, c0)` of the block. -/
def writeSquare (p : Plane) (r0 c0 n : Nat) (v : Nat → Nat → Byte) (s : State) : Res State :=
  writeRect p ((s.origin p).1 + r0) ((s.origin p).2 + c0) n n v s

/-! ## DC history -/

/-- `DCW(p)` (rule R41). -/
def State.histW (s : State) : Plane → Nat
  | .y => s.params.frameW.toNat / 8
  | _ => s.params.frameW.toNat / 16

/-- `DCH_H(p)` (rule R41). -/
def State.histH (s : State) : Plane → Nat
  | .y => s.params.frameH.toNat / 8
  | _ => s.params.frameH.toNat / 16

/-- The key of a history position: at most 8191 rows and columns (log entry 14). -/
def histAddr (bx dy : Nat) : Nat := dy * 65536 + bx

/-- Read `DCH[p][by][bx]`, asserting that the position exists (rule R88). -/
def histRead (p : Plane) (bx dy : Nat) (s : State) : Res I32 :=
  if bx < s.histW p ∧ dy < s.histH p then .ok ((s.coder p).dct.hist.read (histAddr bx dy)) else .error .historyIndex

/-- `DCH[p][by][bx] <- v`. -/
def histWrite (p : Plane) (bx dy : Nat) (v : I32) (s : State) : Res State :=
  if bx < s.histW p ∧ dy < s.histH p then
    let c := s.coder p
    .ok (s.setCoder p { c with dct := { c.dct with hist := c.dct.hist.write (histAddr bx dy) v } })
  else .error .historyIndex

/-! ## External functions (rule R82) -/

/-- GEN_QUANT (rule R15). -/
def Params.quantMatrix (k : Params) (quality : Byte) (isLuma : Bool) : QuantMatrix :=
  k.genQuant.apply Config.genQuant (quality, isLuma)

/-- IDCT_PUT (rule R16). -/
def Params.inverseDct (k : Params) (blk : CoeffBlock) : PixelBlock := k.idctPut.apply Config.idctPut blk

/-- HAAR_SCALE (rule R21). -/
def Params.haarScaleAt (k : Params) (quality : Byte) (isLuma : Bool) : Int :=
  match k.haarScale with
  | .default => 17 - ((7 * quality.toNat / 50 : Nat) : Int)
  | .external f => f.apply Config.haarScale (quality, isLuma)

/-! ## The abort (rules R246, R263) and the way back from it -/

/-- Taking the exception: ABORT(kind). The flag is set, the frame is Aborted, the status is the kind's, and WORK is
discarded under ABORT_WRITES = DISCARD: it holds what REF holds again (log entry 15). Nothing else is rolled back
(rule R267). -/
def abortFrame (k : AbortKind) (s : State) : State :=
  let s := { s with fd := { s.fd with errFlag := true, state := .aborted }, status := k.status }
  match s.params.profile.abortWrites with
  | .discard => { s with work := s.ref }
  | .inPlace => s

/-- The way back: a frame that passes rules R233 to R235 clears the flag and is being decoded (rules R236, R268). -/
def enterFrame (s : State) : State := s.setFd { s.fd with errFlag := false, state := .decoding }

end Sys2Proof.Machine
end

