-- ==== Sys2Proof/Machine/Flags.lean ====
section
/-! DEFINITION. The three flags of `10_state.md` rule R51: `RD.err`, `BLK.err` and `FD.err_flag`. `RD.err` is set in
NORMALISE and cleared in RD_INIT (`RangeDecoder.lean`); `FD.err_flag` is set by the abort and cleared by the frame start
(`Ops.lean`). -/

namespace Sys2Proof.Machine

/-- `BLK.err <- true` (rule R205). -/
def setBlkErr (s : State) : State := { s with scratch := { s.scratch with blkErr := true } }

/-- `BLK.err <- false` (rule R243). -/
def clearBlkErr (s : State) : State := { s with scratch := { s.scratch with blkErr := false } }

/-- What ERROR_CHECK finds (rules R245, R265): `RD.err` is tested first. -/
def pendingAbort (s : State) : Option AbortKind :=
  if s.rd.err then some .truncatedInput
  else if s.scratch.blkErr then some .malformedBlock
  else none

end Sys2Proof.Machine
end

