-- ==== Sys2Proof/Machine/Operands.lean ====
section
/-! DEFINITION. Constants of the coder (`00_scope.md` rules R8, R9) and the assembly of operands from symbol values
(`30_encoding.md` section 2). -/

namespace Sys2Proof

/-- The value `SIGN_NEG` as a bit (rule R13). -/
def SignNeg.bit : SignNeg → Bool
  | .zero => false
  | .one => true

end Sys2Proof

namespace Sys2Proof.Machine

/-- RAC_BOTTOM (rule R8). -/
def racBottom : U32 := 0x01000000

/-- MODEL_SCALE (rule R9). -/
def modelScale : Nat := 15

/-- MODEL2_SCALE (rule R9). -/
def model2Scale : Nat := 13

/-- FREQ_SHIFT (rule R9). -/
def freqShift : Nat := 16

/-- FREQ2_SHIFT (rule R9). -/
def freq2Shift : Nat := 18

/-- The shift of the secondary index (rule R8). -/
def bucketShift : Nat := 9

/-- `wrap_i32(v)` (rule R22). -/
def wrapI32 (v : Int) : I32 := BitVec.ofInt 32 v

/-- `clip_u8(v) = min(max(v, 0), 255)` (rule R22). -/
def clipU8 (v : Int) : Byte := BitVec.ofInt 8 (min (max v 0) 255)

/-- Whether a decoded sign bit makes the coefficient negative (rules R13, R94, R101). -/
def State.isNegative (s : State) (bit : Bool) : Bool := bit == s.params.profile.signNeg.bit

/-- A magnitude with its sign (rule R94): never sign-extended, negated afterwards. -/
def signed (neg : Bool) (mag : Nat) : Int := if neg then -(mag : Int) else mag

/-- The magnitude of a class `n + 1 >= 2` with extra bits `e`: `(1 << n) + e` (rule R94). -/
def magnitude (n e : Nat) : Nat := (1 <<< n) + e

/-- `vec_size = s + 2` (rule R95). -/
def vecSize (s : Fin 3) : Nat := s.val + 2

/-- `r = tok[7:4]` (rule R99). -/
def tokRun (tok : Byte) : Nat := (tok.extractLsb' 4 4).toNat

/-- `c = tok[3:0]` (rule R99). -/
def tokClass (tok : Byte) : Nat := (tok.extractLsb' 0 4).toNat

/-- The context `A + 5*B + 25*C` of rule R174. -/
def vqContext (a b c : Fin 5) : Fin 125 := ⟨a.val + 5 * b.val + 25 * c.val, by omega⟩

/-- The VQ limit (rules R17, R175): `vec_size` under VEC_SIZE, 4 under FOUR. -/
def State.vqLimit (s : State) : Nat :=
  match s.params.profile.vqLimit with
  | .vecSize => vecSize s.scratch.img.vs
  | .four => 4

theorem vqLimit_le (s : State) : s.vqLimit ≤ 4 := by
  unfold State.vqLimit
  split
  · unfold vecSize; omega
  · omega

end Sys2Proof.Machine
end

