-- ==== Sys2Proof/Machine/Models.lean ====
section
/-! DEFINITION. The adaptive models (`41_models.md`): construction, reset and update of a Binary, a Small and a Byte model, as
functions of the model. `ModelOps.lean` runs them on the model registers. -/

namespace Sys2Proof.Machine

/-- The smaller of two `u32` values. -/
def minU32 (a b : U32) : U32 := if a ≤ b then a else b

/-! ## Binary model (rules R135, R136) -/

/-- M2_RESET (rule R135). It writes all six fields. -/
def BinModel.reset : BinModel :=
  { zeroWeight := 1, totalWeight := 2, zeroFreq := 0x1000, totalFreq := 0x2000, updVal := 4, tillRescale := 4 }

/-- The first two lines of M2_UPDATE: count the bit, count down the period. -/
def BinModel.count (m : BinModel) (b : Bool) : BinModel :=
  { m with zeroWeight := if b then m.zeroWeight else m.zeroWeight + 1, tillRescale := m.tillRescale - 1 }

/-- The halving of rule R136: both weights, and `total_weight` forced above `zero_weight` when they collide. -/
def BinModel.halve (m : BinModel) : BinModel :=
  let t := (m.totalWeight + 1) >>> 1
  let z := (m.zeroWeight + 1) >>> 1
  { m with totalWeight := if t = z then z + 1 else t, zeroWeight := z }

/-- The first line of the rebuild: the total grows by the period's length (rule R136). -/
def BinModel.grow (m : BinModel) : BinModel := { m with totalWeight := m.totalWeight + m.updVal }

/-- The halving, above the ceiling `0x2000` (rule R136). -/
def BinModel.limit (m : BinModel) : BinModel := if 0x2000 < m.totalWeight then m.halve else m

/-- The end of the rebuild: decay `upd_val`, scale the frequencies, reload the counter (rule R136). -/
def BinModel.rescale (m : BinModel) : Res BinModel :=
  if m.totalWeight = 0 then .error .divideByZero
  else .ok { m with
    updVal := minU32 ((m.updVal * 5) >>> 2) 64
    zeroFreq := (m.zeroWeight * (0x80000000 / m.totalWeight)) >>> freq2Shift
    totalFreq := (m.totalWeight * (0x80000000 / m.totalWeight)) >>> freq2Shift
    tillRescale := minU32 ((m.updVal * 5) >>> 2) 64 }

/-- The rebuild at the end of a period (rule R136). -/
def BinModel.rebuild (m : BinModel) : Res BinModel := m.grow.limit.rescale

/-- M2_UPDATE (rule R136). -/
def BinModel.update (m : BinModel) (b : Bool) : Res BinModel :=
  let m := m.count b
  if m.tillRescale = 0 then m.rebuild else .ok m

/-! ## Small model (rules R138 to R142) -/

/-- The sum of a list of weights. -/
def weightSum : List U32 → U32
  | [] => 0
  | w :: t => w + weightSum t

/-- The cumulative table of MS_FREQS: entry `i` is `(cum * scale) >> 16`, `cum` the weights below `i` (rule R141). -/
def cumFreqs (scale : U32) : U32 → List U32 → List U32
  | _, [] => []
  | cum, w :: t => ((cum * scale) >>> freqShift) :: cumFreqs scale (cum + w) t

@[simp] theorem cumFreqs_length (scale cum : U32) (l : List U32) : (cumFreqs scale cum l).length = l.length := by
  induction l generalizing cum with
  | nil => rfl
  | cons w t ih => simp [cumFreqs, ih]

/-- The end-weight guard of MS_HALVE (rule R140). -/
def FreqModel.guardLast {n : Nat} (m : FreqModel n) : FreqModel n :=
  if h : n - 1 < n then
    if m.weights[n - 1] = 0 then { m with weights := m.weights.set (n - 1) 1, totWeight := m.totWeight + 1 } else m
  else m

/-- MS_HALVE (rule R140). -/
def FreqModel.halve {n : Nat} (m : FreqModel n) : FreqModel n :=
  let w : Vector U32 n := Vector.ofFn fun i => (m.weights[i] + 1) >>> 1
  FreqModel.guardLast { m with weights := w, totWeight := weightSum w.toList }

/-- MS_FREQS (rule R141). -/
def FreqModel.rebuildFreqs {n : Nat} (m : FreqModel n) : Res (FreqModel n) :=
  if m.totWeight = 0 then .error .divideByZero
  else
    let scale : U32 := 0x80000000 / m.totWeight
    .ok { m with freqs := ⟨⟨cumFreqs scale 0 m.weights.toList⟩, by simp⟩ }

/-- The first two lines of MS_UPDATE: count the symbol, count down the period (rule R139). -/
def FreqModel.count {n : Nat} (m : FreqModel n) (v : Fin n) : FreqModel n :=
  { m with weights := m.weights.set v (m.weights[v] + 1), tillRescale := m.tillRescale - 1 }

/-- The first line of the rebuild: the total grows by the period's length (rule R139). -/
def FreqModel.grow {n : Nat} (m : FreqModel n) : FreqModel n := { m with totWeight := m.totWeight + m.updVal }

/-- The halving, above the ceiling `0x8000` (rule R139). -/
def FreqModel.limit {n : Nat} (m : FreqModel n) : FreqModel n := if 0x8000 < m.totWeight then m.halve else m

/-- The rebuild up to the frequencies: add `upd_val`, halve above the ceiling, MS_FREQS (rule R139). -/
def FreqModel.rescale {n : Nat} (m : FreqModel n) : Res (FreqModel n) := m.grow.limit.rebuildFreqs

/-- The end of the rebuild: decay `upd_val`, reload the counter (rule R139). -/
def FreqModel.decay {n : Nat} (m : FreqModel n) : FreqModel n :=
  let upd := minU32 ((m.updVal * 5) >>> 2) m.maxUpdVal
  { m with updVal := upd, tillRescale := upd }

/-- MS_UPDATE (rule R139). -/
def FreqModel.update {n : Nat} (m : FreqModel n) (v : Fin n) : Res (FreqModel n) :=
  let m := m.count v
  if m.tillRescale = 0 then m.rescale.map FreqModel.decay else .ok m

/-- The start of MS_RESET: weights 1, the closing symbol's 0, a period of one symbol (rule R142). -/
def FreqModel.closing {n : Nat} (m : FreqModel n) : FreqModel n :=
  { m with
    weights := Vector.ofFn fun i => if i.val = n - 1 then 0 else 1
    totWeight := 0
    updVal := BitVec.ofNat 32 n
    tillRescale := 1 }

/-- The end of MS_RESET: the first period's length (rule R142). -/
def FreqModel.firstPeriod {n : Nat} (m : FreqModel n) : FreqModel n :=
  { m with updVal := BitVec.ofNat 32 ((n + 6) / 2), tillRescale := BitVec.ofNat 32 ((n + 6) / 2) }

/-- MS_RESET (rule R142). -/
def FreqModel.reset {n : Nat} (m : FreqModel n) : Res (FreqModel n) :=
  if h : n - 1 < n then (m.closing.update ⟨n - 1, h⟩).map FreqModel.firstPeriod else .error .tableIndex

/-- `max_upd_val = 8*n + 48` (rules R8, R138). -/
def FreqModel.withCeiling {n : Nat} (m : FreqModel n) : FreqModel n :=
  { m with maxUpdVal := BitVec.ofNat 32 (8 * n + 48) }

/-- MS_CONSTRUCT (rule R138). -/
def FreqModel.construct {n : Nat} (m : FreqModel n) : Res (FreqModel n) := m.withCeiling.reset

/-! ## Byte model (rules R145 to R148) -/

/-- The loop of MB_SECONDARY over `freqs[i], freqs[i+1], …` with the next entry `s` to write: each symbol `i` writes
`i - 1` into the entries `s .. freqs[i] >> 9` (rule R147). -/
def secondaryFrom : List U32 → (i s : Nat) → List Nat
  | [], _, _ => []
  | f :: t, i, s =>
    let next := (f >>> bucketShift).toNat + 1
    List.replicate (next - s) (i - 1) ++ secondaryFrom t (i + 1) (max s next)

/-- The 66 entries of MB_SECONDARY: 0, the loop's entries, and 255 up to the end (rule R147). -/
def secondaryList (freqs : List U32) : List (Fin 256) :=
  ((0 :: secondaryFrom freqs 0 1 ++ List.replicate 66 255).take 66).map (Fin.ofNat 256)

theorem secondaryList_length (freqs : List U32) : (secondaryList freqs).length = 66 := by
  simp [secondaryList]

/-- MB_SECONDARY (rule R147). It writes no entry outside `0..65` and no value outside `0..255` when `freqs[0] >> 9 = 0`
and every `freqs[i] >> 9 <= 65`, which is asserted (rule R150). -/
def ByteModel.rebuildSecondary (m : ByteModel) : Res ByteModel :=
  let l := m.base.freqs.toList
  if (l.all fun f => decide (f >>> bucketShift ≤ 65)) && ((l.take 1).all fun f => decide (f >>> bucketShift = 0)) then
    .ok { m with secondary := ⟨⟨secondaryList l⟩, by simp [secondaryList_length]⟩ }
  else .error .tableIndex

/-- MB_UPDATE (rule R146): MS_UPDATE with MB_SECONDARY between MS_FREQS and the decay. -/
def ByteModel.update (m : ByteModel) (v : Fin 256) : Res ByteModel :=
  let b := m.base.count v
  if b.tillRescale = 0 then
    b.rescale.bind fun b => (ByteModel.rebuildSecondary { m with base := b }).map fun m => { m with base := m.base.decay }
  else .ok { m with base := b }

/-- MB_RESET (rule R148). -/
def ByteModel.reset (m : ByteModel) : Res ByteModel :=
  (ByteModel.update { m with base := m.base.closing } 255).map fun m => { m with base := m.base.firstPeriod }

/-- MB_CONSTRUCT (rule R145). -/
def ByteModel.construct (m : ByteModel) : Res ByteModel := ByteModel.reset { m with base := m.base.withCeiling }

end Sys2Proof.Machine
end

