-- ==== Sys2Proof/Machine/RangeDecoder.lean ====
section
/-! DEFINITION. The RangeDecoder (`40_range_decoder.md`): construction, renormalisation, the raw-bit reads, and the three
model-driven searches, as functions of the interval registers and the payload. -/

namespace Sys2Proof.Machine

/-- PAY[i] (rule R23), asserting `i < L` (rule R71). -/
def payloadByte (pay : List Byte) (i : Nat) : Res Byte :=
  match pay[i]? with
  | some b => .ok b
  | none => .error .payloadIndex

/-- One round of RD_INIT's loop: `low <- (low << 8) | PAY[cur]`, `cur <- cur + 1` (rule R115). -/
def RangeDecoder.shiftIn (pay : List Byte) (rd : RangeDecoder) : Res RangeDecoder :=
  (payloadByte pay rd.cur).map fun b => { rd with low := (rd.low <<< 8) ||| b.setWidth 32, cur := rd.cur + 1 }

/-- RD_INIT (rule R115). -/
def RangeDecoder.init (pay : List Byte) : Res RangeDecoder :=
  let start : RangeDecoder := { range := 0, low := 0, cur := 0, stop := pay.length, err := false }
  (forRange (min pay.length 4) (fun _ rd => RangeDecoder.shiftIn pay rd) start).map
    fun rd => { rd with range := 0xFFFFFFFF, err := false }

/-- The step of NORMALISE that sets the error flag: `RD.err <- true`, `RD.low <- 1` (rule R117). -/
def RangeDecoder.substitute (rd : RangeDecoder) : RangeDecoder := { rd with err := true, low := 1 }

/-- The byte part of one NORMALISE iteration, after the shift (rule R117). -/
def RangeDecoder.refill (pol : ExhaustPolicy) (pay : List Byte) (rd : RangeDecoder) : Res RangeDecoder :=
  if rd.cur < rd.stop then
    (payloadByte pay rd.cur).map fun b => { rd with low := rd.low ||| b.setWidth 32, cur := rd.cur + 1 }
  else if pol = .always ∨ rd.low = 0 then .ok rd.substitute
  else .ok rd

/-- One iteration of NORMALISE (rule R117). -/
def RangeDecoder.normStep (pol : ExhaustPolicy) (pay : List Byte) (rd : RangeDecoder) : Res RangeDecoder :=
  (RangeDecoder.refill pol pay { rd with range := rd.range <<< 8, low := rd.low <<< 8 }).map fun rd =>
    if rd.range < rd.low then rd.substitute else rd

/-- The loop of NORMALISE, at most `n` iterations. -/
def RangeDecoder.normLoop (pol : ExhaustPolicy) (pay : List Byte) : Nat → RangeDecoder → Res RangeDecoder
  | 0, rd => if rd.range < racBottom then .error .emptyInterval else .ok rd
  | n + 1, rd =>
    if rd.range < racBottom then (rd.normStep pol pay).bind (RangeDecoder.normLoop pol pay n) else .ok rd

/-- NORMALISE (rule R117). At most 3 iterations run unless `RD.range = 0` (rule R118); then the loop has no end, and that is
asserted away. -/
def RangeDecoder.normalise (pol : ExhaustPolicy) (pay : List Byte) (rd : RangeDecoder) : Res RangeDecoder :=
  rd.normLoop pol pay 3

/-- The last interval step of a primitive: NORMALISE exactly when `RD.range < RAC_BOTTOM` (rule R116). -/
def RangeDecoder.renorm (pol : ExhaustPolicy) (pay : List Byte) (rd : RangeDecoder) : Res RangeDecoder :=
  if rd.range < racBottom then rd.normalise pol pay else .ok rd

/-- GET_BIT before its NORMALISE (rule R119). -/
def RangeDecoder.halveRange (rd : RangeDecoder) : Bool × RangeDecoder :=
  let range := rd.range >>> 1
  if range ≤ rd.low then (true, { rd with range := range, low := rd.low - range })
  else (false, { rd with range := range })

/-- GET_BIT (rule R119). -/
def RangeDecoder.getBit (pol : ExhaustPolicy) (pay : List Byte) (rd : RangeDecoder) : Res (Bool × RangeDecoder) :=
  (rd.halveRange.2.renorm pol pay).map fun t => (rd.halveRange.1, t)

/-- GET_BITS(n) (rule R121). The divisor is asserted nonzero (rule R128). -/
def RangeDecoder.getBits (pol : ExhaustPolicy) (pay : List Byte) (n : Nat) (rd : RangeDecoder) :
    Res (U32 × RangeDecoder) :=
  let range := rd.range >>> n
  if range = 0 then .error .divideByZero
  else
    let val := rd.low / range
    (RangeDecoder.renorm pol pay { rd with range := range, low := rd.low - range * val }).map fun t => (val, t)

/-- The interval part of DEC_BIN (rule R123). -/
def RangeDecoder.splitBin (zeroFreq : U32) (rd : RangeDecoder) : Bool × RangeDecoder :=
  let helper := zeroFreq * (rd.range >>> model2Scale)
  if helper ≤ rd.low then (true, { rd with low := rd.low - helper, range := rd.range - helper })
  else (false, { rd with range := helper })

/-- DEC_BIN (rule R123): narrow, normalise, update, in that order (rule R125). -/
def RangeDecoder.decBin (pol : ExhaustPolicy) (pay : List Byte) (m : BinModel) (rd : RangeDecoder) :
    Res (Bool × BinModel × RangeDecoder) :=
  let b := (rd.splitBin m.zeroFreq).1
  ((rd.splitBin m.zeroFreq).2.renorm pol pay).bind fun t => (m.update b).map fun m => (b, m, t)

/-- Narrow the interval to `[prob, prob2)` (rules R130, R132). -/
def RangeDecoder.narrow (prob prob2 : U32) (rd : RangeDecoder) : RangeDecoder :=
  { rd with low := rd.low - prob, range := prob2 - prob }

/-- The table entry `freqs[i]`, asserting that it exists (rule R88). -/
def FreqModel.freqAt {n : Nat} (m : FreqModel n) (i : Nat) : Res U32 :=
  match m.freqs[i]? with
  | some f => .ok f
  | none => .error .tableIndex

/-- A symbol index, asserting that it is one of the model's (rule R131). -/
def symbolOf (n v : Nat) : Res (Fin n) := if h : v < n then .ok ⟨v, h⟩ else .error .tableIndex

/-- The search loop of DEC_SMALL (rule R130), at most `k` rounds. `hi` is the spec's `end`. It answers
`val`, `prob` and `prob2`. -/
def smallSearch {n : Nat} (m : FreqModel n) (rs low : U32) :
    (k : Nat) → (val hi hi2 : Nat) → (prob prob2 : U32) → Res (Nat × U32 × U32)
  | 0, val, _, _, prob, prob2 => .ok (val, prob, prob2)
  | k + 1, val, hi, hi2, prob, prob2 =>
    (m.freqAt hi).bind fun f =>
      let helper := f * rs
      if helper ≤ low then
        let next := (hi2 + hi) / 2
        if next = hi then .ok (hi, helper, prob2) else smallSearch m rs low k hi next hi2 helper prob2
      else
        let next := (hi + val) / 2
        if next = val then .ok (val, prob, helper) else smallSearch m rs low k val next hi prob helper

/-- DEC_SMALL (rule R130). The search halves `hi2 - val` each round, so `n` rounds are enough. -/
def RangeDecoder.decSmall {n : Nat} (pol : ExhaustPolicy) (pay : List Byte) (m : FreqModel n) (rd : RangeDecoder) :
    Res (Fin n × FreqModel n × RangeDecoder) :=
  (smallSearch m (rd.range >>> modelScale) rd.low n 0 (n / 2) n 0 rd.range).bind fun r =>
    (symbolOf n r.1).bind fun v =>
      ((rd.narrow r.2.1 r.2.2).renorm pol pay).bind fun t => (m.update v).map fun m => (v, m, t)

/-- The bucket search loop of DEC_BYTE (rule R132), at most `k` rounds. `hi` and `start` are the spec's `end` and
`start`. -/
def byteSearch (m : FreqModel 256) (helper : U32) : (k : Nat) → (val hi start : Nat) → Res Nat
  | 0, val, _, _ => .ok val
  | k + 1, val, hi, start =>
    if val + 1 < hi then
      let sym := (hi + val) / 2
      (m.freqAt sym).bind fun f =>
        if f ≤ helper then byteSearch m helper k sym start start
        else byteSearch m helper k val ((hi + val) / 2) sym
    else .ok val

/-- The bucket entries `secondary[s]` and `secondary[s + 1]`, asserting that both exist (rule R134). -/
def ByteModel.bucket (m : ByteModel) (s : Nat) : Res (Nat × Nat) :=
  match m.secondary[s]?, m.secondary[s + 1]? with
  | some a, some b => .ok (a.val, b.val)
  | _, _ => .error .tableIndex

/-- The symbol DEC_BYTE selects from `helper`: the bucket, then the bounded search (rule R132). The search halves its
bounds each round, so 256 rounds are enough. -/
def ByteModel.select (m : ByteModel) (helper : U32) : Res (Fin 256) :=
  (m.bucket (helper >>> bucketShift).toNat).bind fun b =>
    (byteSearch m.base helper 256 b.1 (b.2 + 1) (b.2 + 1)).bind (symbolOf 256)

/-- The interval `[prob, prob2)` of a symbol (rule R132). -/
def ByteModel.bounds (m : ByteModel) (rs range : U32) (v : Fin 256) : U32 × U32 :=
  (m.base.freqs[v] * rs, if h : v.val + 1 < 256 then m.base.freqs[v.val + 1] * rs else range)

/-- DEC_BYTE (rule R132). -/
def RangeDecoder.decByte (pol : ExhaustPolicy) (pay : List Byte) (m : ByteModel) (rd : RangeDecoder) :
    Res (Fin 256 × ByteModel × RangeDecoder) :=
  let rs := rd.range >>> modelScale
  if rs = 0 then .error .divideByZero
  else
    (m.select (rd.low / rs)).bind fun v =>
      let b := m.bounds rs rd.range v
      ((rd.narrow b.1 b.2).renorm pol pay).bind fun t => (m.update v).map fun m => (v, m, t)

/-! ## The primitives on the machine's registers -/

/-- EXHAUST_POLICY of the instance (rule R19). -/
def State.policy (s : State) : ExhaustPolicy := s.params.profile.exhaust

/-- RD_INIT on the latched payload (rules R115, R241). -/
def rdInit (s : State) : Res State := (RangeDecoder.init s.inp.payload).map s.setRd

/-- NORMALISE on the interval registers (rule R117). -/
def normalise (s : State) : Res State := (s.rd.normalise s.policy s.inp.payload).map s.setRd

/-- GET_BIT (rule R119). -/
def getBit (s : State) : Res (Bool × State) :=
  (s.rd.getBit s.policy s.inp.payload).map fun r => (r.1, s.setRd r.2)

/-- GET_BITS(n) (rule R121). -/
def getBits (n : Nat) (s : State) : Res (Nat × State) :=
  (s.rd.getBits s.policy s.inp.payload n).map fun r => (r.1.toNat, s.setRd r.2)

/-- DEC_BIN(m) (rule R123). -/
def decBin (m : BinRef) (s : State) : Res (Bool × State) :=
  (s.rd.decBin s.policy s.inp.payload (s.bin m)).map fun r => (r.1, (s.setBin m r.2.1).setRd r.2.2)

/-- DEC_SMALL(m) (rule R130). -/
def decSmall (m : SmallRef) (s : State) : Res (Fin m.size × State) :=
  (s.rd.decSmall s.policy s.inp.payload (s.small m)).map fun r => (r.1, (s.setSmall m r.2.1).setRd r.2.2)

/-- DEC_BYTE(m) (rule R132). -/
def decByte (m : ByteRef) (s : State) : Res (Fin 256 × State) :=
  (s.rd.decByte s.policy s.inp.payload (s.byte m)).map fun r => (r.1, (s.setByte m r.2.1).setRd r.2.2)

/-! ## Meanings -/

def execRdInit (s : State) : Result := live s rdInit

def execNormalise (s : State) : Result := live s normalise

/-- The bit is the returned value. -/
def execGetBit (s : State) : Result := live s fun s => (getBit s).map fun r => r.2.setRet (if r.1 then 1 else 0)

/-- The value read is the returned value. -/
def execGetBits (n : BitVec 4) (s : State) : Result := live s fun s => (getBits n.toNat s).map fun r => r.2.setRet r.1

/-- The bit is the returned value. -/
def execDecBin (m : BinRef) (s : State) : Result :=
  live s fun s => (decBin m s).map fun r => r.2.setRet (if r.1 then 1 else 0)

/-- The symbol is the returned value. -/
def execDecSmall (m : SmallRef) (s : State) : Result := live s fun s => (decSmall m s).map fun r => r.2.setRet r.1.val

/-- The symbol is the returned value. -/
def execDecByte (m : ByteRef) (s : State) : Result := live s fun s => (decByte m s).map fun r => r.2.setRet r.1.val

end Sys2Proof.Machine
end

