-- ==== Sys2Proof/Machine/ModelOps.lean ====
section
/-! DEFINITION. The model micro-operations on the model registers (`41_models.md`), and their meanings. -/

namespace Sys2Proof.Machine

/-- Run an operation on a Binary model register. -/
def onBin (m : BinRef) (f : BinModel → Res BinModel) (s : State) : Res State := (f (s.bin m)).map (s.setBin m)

/-- Run an operation on a Small model register. -/
def onSmall (m : SmallRef) (f : FreqModel m.size → Res (FreqModel m.size)) (s : State) : Res State :=
  (f (s.small m)).map (s.setSmall m)

/-- Run an operation on a Byte model register. -/
def onByte (m : ByteRef) (f : ByteModel → Res ByteModel) (s : State) : Res State := (f (s.byte m)).map (s.setByte m)

/-- M2_RESET(m) (rule R135). -/
def m2Reset (m : BinRef) (s : State) : Res State := onBin m (fun _ => .ok BinModel.reset) s

/-- MS_RESET(m) (rule R142). -/
def msReset (m : SmallRef) (s : State) : Res State := onSmall m FreqModel.reset s

/-- MB_RESET(m) (rule R148). -/
def mbReset (m : ByteRef) (s : State) : Res State := onByte m ByteModel.reset s

/-- MS_CONSTRUCT(m, n) (rule R138); `n` is the register's alphabet. -/
def msConstruct (m : SmallRef) (s : State) : Res State := onSmall m FreqModel.construct s

/-- MB_CONSTRUCT(m) (rule R145). -/
def mbConstruct (m : ByteRef) (s : State) : Res State := onByte m ByteModel.construct s

/-- The table part of a Byte model, changed alone. -/
def ByteModel.onBase (f : FreqModel 256 → Res (FreqModel 256)) (m : ByteModel) : Res ByteModel :=
  (f m.base).map fun b => { m with base := b }

/-! ## Meanings -/

def execM2Reset (m : BinRef) (s : State) : Result := live s (m2Reset m)

/-- M2_UPDATE(m, b) (rule R136). -/
def execM2Update (m : BinRef) (b : Bool) (s : State) : Result := live s (onBin m fun x => x.update b)

def execMsConstruct (m : SmallRef) (s : State) : Result := live s (msConstruct m)

/-- MS_UPDATE(m, v) (rule R139). -/
def execMsUpdate (m : SmallRef) (v : BitVec 4) (s : State) : Result :=
  live s (onSmall m fun x => (symbolOf m.size v.toNat).bind x.update)

/-- MS_HALVE(m) (rule R140), on a Small model or on the table of a Byte model (rule R146). -/
def execMsHalve (m : TableRef) (s : State) : Result :=
  match m with
  | .small m => live s (onSmall m fun x => .ok x.halve)
  | .byte m => live s (onByte m (ByteModel.onBase fun x => .ok x.halve))

/-- MS_FREQS(m) (rule R141), on a Small model or on the table of a Byte model (rule R146). -/
def execMsFreqs (m : TableRef) (s : State) : Result :=
  match m with
  | .small m => live s (onSmall m FreqModel.rebuildFreqs)
  | .byte m => live s (onByte m (ByteModel.onBase FreqModel.rebuildFreqs))

def execMsReset (m : SmallRef) (s : State) : Result := live s (msReset m)

def execMbConstruct (m : ByteRef) (s : State) : Result := live s (mbConstruct m)

/-- MB_UPDATE(m, v) (rule R146). -/
def execMbUpdate (m : ByteRef) (v : Byte) (s : State) : Result := live s (onByte m fun x => x.update v.toFin)

/-- MB_SECONDARY(m) (rule R147). -/
def execMbSecondary (m : ByteRef) (s : State) : Result := live s (onByte m ByteModel.rebuildSecondary)

def execMbReset (m : ByteRef) (s : State) : Result := live s (mbReset m)

end Sys2Proof.Machine
end

