-- ==== Sys2Proof/Machine/Selector.lean ====
section
/-! DEFINITION. The block-type selector and the coefficient decode (`42_selector_coeff.md`). -/

namespace Sys2Proof.Machine

/-- `BT[p].last_type <- t`. -/
def setLastType (p : Plane) (t : Fin 5) (s : State) : State :=
  let c := s.coder p
  s.setCoder p { c with bt := { c.bt with lastType := t } }

/-- BT_SELECT(p) (rule R160). -/
def btSelect (p : Plane) (s : State) : Res (Fin 5 × State) :=
  (decSmall (.bt p (s.coder p).bt.lastType) s).map fun r => (r.1, setLastType p r.1 r.2)

/-- COEF_SIGN: the raw sign bit of `decode_coeff` (rule R162). It fixes the sign of the coefficient being assembled, whose
magnitude so far is 1. -/
def coefSign (s : State) : Res (Int × State) :=
  (getBit s).map fun r => (signed (r.2.isNegative r.1) 1, r.2.setNeg (r.2.isNegative r.1))

/-- COEF_EXTRA with `n = v - 1`: the extra magnitude bits of a class `v >= 2` (rules R94, R162). -/
def coefExtra (n : Nat) (s : State) : Res (Int × State) :=
  (getBits n s).map fun r => (signed r.2.scratch.neg (magnitude n r.1), r.2)

/-- What follows a decoded coefficient class `v` (rule R162): nothing for 0, a sign for 1, a sign and `v - 1` extra bits
above. -/
def coefClass (v : Nat) (s : State) : Res (Int × State) :=
  if v = 0 then .ok (0, s)
  else if v = 1 then coefSign s
  else (coefSign s).bind fun r => coefExtra (v - 1) r.2

/-- DECODE_COEFF(m) (rule R162). -/
def decodeCoeff (m : CoefRef) (s : State) : Res (Int × State) :=
  (decSmall m.model s).bind fun r => coefClass r.1.val r.2

/-! ## Meanings -/

/-- The coefficient is the returned value. -/
def returnCoef (f : State → Res (Int × State)) (s : State) : Result := live s fun s => (f s).map fun r => r.2.setRet r.1

/-- The type selected is the returned value. -/
def execBtSelect (p : Plane) (s : State) : Result := live s fun s => (btSelect p s).map fun r => r.2.setRet r.1.val

def execDecodeCoeff (m : CoefRef) (s : State) : Result := returnCoef (decodeCoeff m) s

/-- Class 0: the coefficient is 0 (rules R93, R162). -/
def execCoefC0 (s : State) : Result := returnCoef (coefClass 0) s

/-- Class 1: magnitude 1, with a sign (rules R93, R162). -/
def execCoefC1 (s : State) : Result := returnCoef (coefClass 1) s

/-- Class 2: magnitude `2^1 + e` (rules R93, R162). -/
def execCoefC2 (s : State) : Result := returnCoef (coefClass 2) s

/-- Class 3: magnitude `2^2 + e`. -/
def execCoefC3 (s : State) : Result := returnCoef (coefClass 3) s

/-- Class 4: magnitude `2^3 + e`. -/
def execCoefC4 (s : State) : Result := returnCoef (coefClass 4) s

/-- Class 5: magnitude `2^4 + e`. -/
def execCoefC5 (s : State) : Result := returnCoef (coefClass 5) s

/-- Class 6: magnitude `2^5 + e`. -/
def execCoefC6 (s : State) : Result := returnCoef (coefClass 6) s

/-- Class 7: magnitude `2^6 + e`. -/
def execCoefC7 (s : State) : Result := returnCoef (coefClass 7) s

/-- Class 8: magnitude `2^7 + e`. -/
def execCoefC8 (s : State) : Result := returnCoef (coefClass 8) s

/-- Class 9: magnitude `2^8 + e`. -/
def execCoefC9 (s : State) : Result := returnCoef (coefClass 9) s

/-- Class 10: magnitude `2^9 + e`. -/
def execCoefC10 (s : State) : Result := returnCoef (coefClass 10) s

/-- Class 11: magnitude `2^10 + e`. -/
def execCoefC11 (s : State) : Result := returnCoef (coefClass 11) s

def execCoefSign (s : State) : Result := returnCoef coefSign s

def execCoefExtra (n : BitVec 4) (s : State) : Result := returnCoef (coefExtra n.toNat) s

end Sys2Proof.Machine
end

