-- ==== Sys2Proof/Machine/FillImageSkip.lean ====
section
/-! DEFINITION. The Fill, Image and Skip datapaths (`43_fill_image_skip.md`). Each works on the plane `SEQ.p` and the block
of the current macroblock (`20_memory.md` rule R77). -/

namespace Sys2Proof.Machine

/-! ## Fill (rules R170 to R172) -/

/-- `FILLC[p].fill_val <- v`. -/
def setFillVal (p : Plane) (v : I32) (s : State) : State :=
  let c := s.coder p
  s.setCoder p { c with fill := { c.fill with fillVal := v } }

/-- The sample a Fill block writes: the low byte of `fill_val` (rule R171). -/
def fillSample (v : I32) : Byte := v.setWidth 8

/-- FILL(p) (rule R170). -/
def fillBlock (p : Plane) (s : State) : Res State :=
  (decodeCoeff (.fill p) s).bind fun r =>
    let v := (r.2.coder p).fill.fillVal + wrapI32 r.1
    writeSquare p 0 0 p.bs (fun _ _ => fillSample v) (setFillVal p v r.2)

/-! ## Image (rules R173 to R177) -/

/-- `vec_size <- s + 2` (rules R95, R173). -/
def setVecSize (v : Fin 3) (s : State) : State := s.setImg { s.scratch.img with vs := v }

/-- One palette entry: `IMG.vec[k] <- DEC_BYTE(IMGC[p].pal)` (rules R96, R173). -/
def palEntry (p : Plane) (k : Fin 4) (s : State) : Res State :=
  (decByte (.pal p) s).map fun r =>
    let img := r.2.scratch.img
    r.2.setImg { img with vec := img.vec.set k (BitVec.ofFin r.1) }

/-- The unused entries are 0, and so is the lookback buffer (rule R173). -/
def clearImage (s : State) : State :=
  let img := s.scratch.img
  s.setImg { img with
    vec := Vector.ofFn fun k => if k.val < vecSize img.vs then img.vec[k] else 0
    prevLine := Vector.replicate 16 0 }

/-- IMAGE, the header (rule R173). -/
def imageHeader (p : Plane) (s : State) : Res State :=
  (decSmall (.vs p) s).bind fun r =>
    (forRange (vecSize r.1) (fun k s => palEntry p (Fin.ofNat 4 k) s) (setVecSize r.1 r.2)).map clearImage

/-- The escape literal: one BYTE from `IMGC[p].esc`, written as the current sample (rules R98, R176). -/
def escLiteral (p : Plane) (s : State) : Res State :=
  (decByte (.esc p) s).bind fun r => writeBlock p r.2.seq.j.val r.2.seq.i.val (BitVec.ofFin r.1) r.2

/-- PIXEL(A), written as the current sample: the palette entry below the limit, else the escape literal (rule R175). -/
def imagePixel (p : Plane) (a : Fin 5) (s : State) : Res State :=
  if h : a.val < s.vqLimit then
    writeBlock p s.seq.j.val s.seq.i.val
      (s.scratch.img.vec[a.val]'(Nat.lt_of_lt_of_le h (vqLimit_le s))) s
  else escLiteral p s

/-- What follows a decoded VQ class: it is the new left class, it enters the lookback buffer at the current column, and
its sample is written (rules R174, R175). -/
def vqClass (p : Plane) (a : Fin 5) (s : State) : Res State :=
  let img := s.scratch.img
  imagePixel p a (s.setImg { img with a := a, prevLine := img.prevLine.set s.seq.i a })

/-- One pixel of the scan: the context from the left, above and above-left classes, then the class (rule R174). -/
def imageStep (p : Plane) (r c : Nat) (s : State) : Res State :=
  let s := s.setSeq { s.seq with j := Fin.ofNat 16 r, i := Fin.ofNat 16 c }
  let img := s.scratch.img
  let above := img.prevLine[s.seq.i]
  let s := s.setImg { img with b := above }
  (decSmall (.vq p (vqContext img.a above img.b)) s).bind fun x => vqClass p x.1 x.2

/-- One row of the scan: the classes left of column 0 are 0 (rule R174). -/
def imageRow (p : Plane) (r : Nat) (s : State) : Res State :=
  forRange p.bs (imageStep p r) (s.setImg { s.scratch.img with a := 0, b := 0 })

/-- IMAGE(p) (rules R173 to R176). -/
def imageBlock (p : Plane) (s : State) : Res State :=
  (imageHeader p s).bind (forRange p.bs (imageRow p))

/-! ## Meanings -/

def execFill (s : State) : Result := live s fun s => fillBlock s.seq.p s

def execImage (s : State) : Result := live s fun s => imageBlock s.seq.p s

/-- SKIP(p): no symbol is decoded and no sample is written (rule R178). -/
def execSkip (s : State) : Result := live s .ok

/-- `vec_size = 2` (rule R95). -/
def execVs2 (s : State) : Result := live s fun s => .ok (setVecSize 0 s)

/-- `vec_size = 3` (rule R95). -/
def execVs3 (s : State) : Result := live s fun s => .ok (setVecSize 1 s)

/-- `vec_size = 4` (rule R95). -/
def execVs4 (s : State) : Result := live s fun s => .ok (setVecSize 2 s)

def execPalEntry (k : BitVec 2) (s : State) : Result := live s fun s => palEntry s.seq.p k.toFin s

/-- VQ class 0 at the current pixel (rules R97, R175). -/
def execVqC0 (s : State) : Result := live s fun s => vqClass s.seq.p 0 s

/-- VQ class 1. -/
def execVqC1 (s : State) : Result := live s fun s => vqClass s.seq.p 1 s

/-- VQ class 2. -/
def execVqC2 (s : State) : Result := live s fun s => vqClass s.seq.p 2 s

/-- VQ class 3. -/
def execVqC3 (s : State) : Result := live s fun s => vqClass s.seq.p 3 s

/-- VQ class 4, always an escape. -/
def execVqC4 (s : State) : Result := live s fun s => vqClass s.seq.p 4 s

def execEscLiteral (s : State) : Result := live s fun s => escLiteral s.seq.p s

end Sys2Proof.Machine
end

