-- ==== Sys2Proof/Machine/Dct.lean ====
section
/-! DEFINITION. The DCT datapath (`44_dct.md`): DC prediction, the AC scan, dequantisation, and the write of the external
transform's result. -/

namespace Sys2Proof.Machine

/-- The zigzag table (rule R191). -/
def zigzagList : List Nat :=
  [ 0,  1,  8, 16,  9,  2,  3, 10,
   17, 24, 32, 25, 18, 11,  4,  5,
   12, 19, 26, 33, 40, 48, 41, 34,
   27, 20, 13,  6,  7, 14, 21, 28,
   35, 42, 49, 56, 57, 50, 43, 36,
   29, 22, 15, 23, 30, 37, 44, 51,
   58, 59, 52, 45, 38, 31, 39, 46,
   53, 60, 61, 54, 47, 55, 62, 63]

/-- ZIGZAG[k]: the raster position of scan position `k` (rule R191). -/
def zigzag (k : Fin 64) : Fin 64 := Fin.ofNat 64 (zigzagList.getD k.val 0)

/-- `QI(pos)` (rule R202). -/
def State.quantIndex (s : State) (pos : Fin 64) : Fin 64 :=
  match s.params.profile.qmatIndex with
  | .scan => pos
  | .raster => zigzag pos

/-! ## DC (rules R193 to R197) -/

/-- MINGRAD(L, T, TL) (rule R196). The differences are taken without wrap. -/
def minGrad (tie : DcTie) (l t tl : I32) : I32 :=
  if (t.toInt - tl.toInt).natAbs ≤ (l.toInt - tl.toInt).natAbs then
    match tie with
    | .top => t
    | .left => l
  else
    match tie with
    | .top => l
    | .left => t

/-- DC_PREDICT (rules R194, R195): the prediction from the neighbours whose coordinates are not negative. -/
def dcPredict (p : Plane) (bx dy : Nat) (s : State) : Res I32 :=
  if 0 < dy ∧ 0 < bx then
    (histRead p (bx - 1) dy s).bind fun l =>
      (histRead p bx (dy - 1) s).bind fun t =>
        (histRead p (bx - 1) (dy - 1) s).map fun tl => minGrad s.params.profile.dcTie l t tl
  else if 0 < dy then histRead p bx (dy - 1) s
  else if 0 < bx then histRead p (bx - 1) dy s
  else .ok 0

/-- `DCT.blk[0] <- wrap_i32(dc * qmat[0])` (rules R192, R197). -/
def setDc (p : Plane) (dc : I32) (s : State) : State :=
  s.setDctBlk (s.scratch.dctBlk.set 0 (wrapI32 (dc.toInt * ((s.coder p).dct.qmat[0].toNat : Int))))

/-- DC_STORE (rule R197): the undequantised DC enters the history, the dequantised one the block. -/
def dcStore (p : Plane) (bx dy : Nat) (delta : Int) (pred : I32) (s : State) : Res State :=
  let dc := wrapI32 (delta + pred.toInt)
  (histWrite p bx dy dc s).map (setDc p dc)

/-! ## AC (rules R198 to R203) -/

/-- AC_SIGN: the sign of an AC level, from the Binary model (rules R101, R201). The magnitude so far is 1. -/
def acSign (p : Plane) (s : State) : Res (Int × State) :=
  (decBin (.sign p) s).map fun r => (signed (r.2.isNegative r.1) 1, r.2.setNeg (r.2.isNegative r.1))

/-- AC_EXTRA with `n = c - 1`: the extra magnitude bits of a class `c >= 2` (rules R94, R201). -/
def acExtra (n : Nat) (s : State) : Res (Int × State) :=
  (getBits n s).map fun r => (signed r.2.scratch.neg (magnitude n r.1), r.2)

/-- The value of an AC level of class `c` (rule R201). -/
def acValue (p : Plane) (c : Nat) (s : State) : Res (Int × State) :=
  (acSign p s).bind fun r => if 1 < c then acExtra (c - 1) r.2 else .ok r

/-- AC_LEVEL(p, pos, c) (rule R201): decode the level and store it dequantised. The scan position is asserted to be below 64
(rule R207). -/
def acLevel (p : Plane) (pos c : Nat) (s : State) : Res State :=
  if h : pos < 64 then
    (acValue p c s).map fun r =>
      let q := ((r.2.coder p).dct.qmat[r.2.quantIndex ⟨pos, h⟩].toNat : Int)
      r.2.setDctBlk (r.2.scratch.dctBlk.set (zigzag ⟨pos, h⟩) (wrapI32 (r.1 * q)))
  else .error .zigzagIndex

/-- The loop's test after a token has moved `pos` (rules R198, R203): it goes on below 64, and succeeds at exactly 64. -/
def scanAt (pos : Nat) : ScanStatus := if pos < 64 then .running else if pos = 64 then .ok else .malformed

/-- AC_EOB (rule R199). -/
def acEob (s : State) : State := s.setScan .ok

/-- AC_ZRL (rule R200). -/
def acZrl (s : State) : State := (s.setPos (s.seq.pos + 16)).setScan (scanAt (s.seq.pos + 16))

/-- AC_ILLEGAL (rule R205, case 1). -/
def acIllegal (s : State) : State := s.setScan .malformed

/-- AC_RL (rule R201): move over the run, and unless that overruns, decode one level and move past it. -/
def acRl (p : Plane) (r c : Nat) (s : State) : Res State :=
  let s := s.setPos (s.seq.pos + r)
  if 64 ≤ s.seq.pos then .ok (s.setScan .malformed)
  else (acLevel p s.seq.pos c s).map fun s => (s.setPos (s.seq.pos + 1)).setScan (scanAt (s.seq.pos + 1))

/-- The body of the AC loop for a decoded token, first matching row of rule R100 (rule R198). -/
def acToken (p : Plane) (tok : Byte) (s : State) : Res State :=
  if tok = 0x00 then .ok (acEob s)
  else if tok = 0xF0 then .ok (acZrl s)
  else if tokClass tok = 0 then .ok (acIllegal s)
  else acRl p (tokRun tok) (tokClass tok) s

/-- The AC loop (rule R198), at most `n` tokens. -/
def acLoop (p : Plane) : Nat → State → Res State
  | 0, s => .ok s
  | n + 1, s =>
    (decByte (.ac p) s).bind fun r =>
      (acToken p (BitVec.ofFin r.1) r.2).bind fun t =>
        match t.scratch.scan with
        | .running => acLoop p n t
        | _ => .ok t

/-- AC_DECODE(p) (rule R198). Every token but EOB moves `pos` on by at least 1, so 63 tokens are enough (rule R206). -/
def acDecode (p : Plane) (s : State) : Res (Bool × State) :=
  (acLoop p 63 ((s.setPos 1).setScan .running)).map fun t => (decide (t.scratch.scan = .ok), t)

/-! ## Sub-blocks and the block (rules R190, R192, R204, R205) -/

/-- DCT_SUB(p, bx, by) (rule R192), with DC_DECODE (rules R193 to R197) in it. -/
def dctSub (p : Plane) (bx dy : Nat) (s : State) : Res (Bool × State) :=
  (decodeCoeff (.dctDc p) (s.setDctBlk (Vector.replicate 64 0))).bind fun r =>
    (dcPredict p bx dy r.2).bind fun pred =>
      (dcStore p bx dy r.1 pred r.2).bind fun t => acDecode p t

/-- IDCT_WRITE(p, r0, c0) (rule R204). -/
def idctWrite (p : Plane) (r0 c0 : Nat) (s : State) : Res State :=
  let pix := s.params.inverseDct s.scratch.dctBlk
  writeSquare p r0 c0 8 (fun r c => pix[Fin.ofNat 64 (8 * r + c)]) s

/-- The sub-blocks from number `k` on, `n` of them, in raster order; a malformed one ends the block with `BLK.err` set
(rules R190, R205). -/
def dctFrom (p : Plane) : (k n : Nat) → State → Res State
  | _, 0, s => .ok s
  | k, n + 1, s =>
    let s := s.setSeq { s.seq with sb := Fin.ofNat 4 k }
    let j := s.seq.sb.val / p.nb
    let i := s.seq.sb.val % p.nb
    (dctSub p (p.nb * s.seq.mbx + i) (p.nb * s.seq.mby + j) s).bind fun r =>
      if r.1 then (idctWrite p (8 * j) (8 * i) r.2).bind (dctFrom p (k + 1) n)
      else .ok (setBlkErr r.2)

/-- DCT(p, mbx, mby) for the current macroblock (rule R190). -/
def dctBlock (p : Plane) (s : State) : Res State := dctFrom p 0 (p.nb * p.nb) s

/-! ## Meanings -/

def execDct (s : State) : Result := live s fun s => dctBlock s.seq.p s

/-- The block's `ok` is the returned value. -/
def execDctSub (p : Plane) (bx dy : U16) (s : State) : Result :=
  live s fun s => (dctSub p bx.toNat dy.toNat s).map fun r => r.2.setRet (if r.1 then 1 else 0)

/-- The prediction is the returned value. -/
def execDcPredict (p : Plane) (bx dy : U16) (s : State) : Result :=
  live s fun s => (dcPredict p bx.toNat dy.toNat s).map fun v => s.setRet v.toInt

/-- The predictor chosen is the returned value. -/
def execMingrad (l t tl : I32) (s : State) : Result :=
  live s fun s => .ok (s.setRet (minGrad s.params.profile.dcTie l t tl).toInt)

def execDcStore (p : Plane) (bx dy : U16) (delta pred : I32) (s : State) : Result :=
  live s (dcStore p bx.toNat dy.toNat delta.toInt pred)

/-- The scan's `ok` is the returned value. -/
def execAcDecode (p : Plane) (s : State) : Result :=
  live s fun s => (acDecode p s).map fun r => r.2.setRet (if r.1 then 1 else 0)

def execAcLevel (p : Plane) (pos : BitVec 6) (c : BitVec 4) (s : State) : Result :=
  live s (acLevel p pos.toNat c.toNat)

def execIdctWrite (p : Plane) (r0 c0 : BitVec 4) (s : State) : Result := live s (idctWrite p r0.toNat c0.toNat)

def execAcSign (s : State) : Result := returnCoef (fun s => acSign s.seq.p s) s

def execAcExtra (n : BitVec 4) (s : State) : Result := returnCoef (acExtra n.toNat) s

/-- A token that ends the sub-block as malformed sets `BLK.err` (rule R205). -/
def flagMalformed (s : State) : State :=
  match s.scratch.scan with
  | .malformed => setBlkErr s
  | _ => s

/-- End of block, at any position (rule R199). -/
def execAcEob (s : State) : Result := live s fun s => .ok (acEob s)

/-- Skip 16 zero coefficients; past 64 the sub-block is malformed (rules R200, R205 case 3). -/
def execAcZrl (s : State) : Result := live s fun s => .ok (flagMalformed (acZrl s))

/-- Run `r`, then a level of class `c`, of the current plane; an overrun is malformed (rules R201, R205 case 2). -/
def runLevel (c : Nat) (r : BitVec 4) (s : State) : Result :=
  live s fun s => (acRl s.seq.p r.toNat c s).map flagMalformed

def execAcRlC1 (r : BitVec 4) (s : State) : Result := runLevel 1 r s
def execAcRlC2 (r : BitVec 4) (s : State) : Result := runLevel 2 r s
def execAcRlC3 (r : BitVec 4) (s : State) : Result := runLevel 3 r s
def execAcRlC4 (r : BitVec 4) (s : State) : Result := runLevel 4 r s
def execAcRlC5 (r : BitVec 4) (s : State) : Result := runLevel 5 r s
def execAcRlC6 (r : BitVec 4) (s : State) : Result := runLevel 6 r s
def execAcRlC7 (r : BitVec 4) (s : State) : Result := runLevel 7 r s
def execAcRlC8 (r : BitVec 4) (s : State) : Result := runLevel 8 r s
def execAcRlC9 (r : BitVec 4) (s : State) : Result := runLevel 9 r s
def execAcRlC10 (r : BitVec 4) (s : State) : Result := runLevel 10 r s
def execAcRlC11 (r : BitVec 4) (s : State) : Result := runLevel 11 r s
def execAcRlC12 (r : BitVec 4) (s : State) : Result := runLevel 12 r s
def execAcRlC13 (r : BitVec 4) (s : State) : Result := runLevel 13 r s
def execAcRlC14 (r : BitVec 4) (s : State) : Result := runLevel 14 r s
def execAcRlC15 (r : BitVec 4) (s : State) : Result := runLevel 15 r s

/-- A class-0 token with a nonzero run: the sub-block is malformed and `BLK.err` is set (rules R107, R205 case 1). -/
def illegalToken (s : State) : Result := live s fun s => .ok (flagMalformed (acIllegal s))

def execAcIllegalR1 (s : State) : Result := illegalToken s
def execAcIllegalR2 (s : State) : Result := illegalToken s
def execAcIllegalR3 (s : State) : Result := illegalToken s
def execAcIllegalR4 (s : State) : Result := illegalToken s
def execAcIllegalR5 (s : State) : Result := illegalToken s
def execAcIllegalR6 (s : State) : Result := illegalToken s
def execAcIllegalR7 (s : State) : Result := illegalToken s
def execAcIllegalR8 (s : State) : Result := illegalToken s
def execAcIllegalR9 (s : State) : Result := illegalToken s
def execAcIllegalR10 (s : State) : Result := illegalToken s
def execAcIllegalR11 (s : State) : Result := illegalToken s
def execAcIllegalR12 (s : State) : Result := illegalToken s
def execAcIllegalR13 (s : State) : Result := illegalToken s
def execAcIllegalR14 (s : State) : Result := illegalToken s

end Sys2Proof.Machine
end

