-- ==== Sys2Proof/Machine/Haar.lean ====
section
/-! DEFINITION. The Haar datapath (`45_haar.md`). `h = bs div 2`. -/

namespace Sys2Proof.Machine

/-- HAAR_LL(p): a coefficient of the low-frequency quadrant, unsigned (rule R216). -/
def haarLl (p : Plane) (s : State) : Res (Int × State) :=
  (decByte (.hi p) s).map fun r => ((r.1.val : Int), r.2)

/-- HAAR_HF(p): every other coefficient (rule R217). -/
def haarHf (p : Plane) (s : State) : Res (Int × State) := decodeCoeff (.haar p) s

/-- The index of `HAAR.blk[j][i]`. -/
def haarIndex (j i : Nat) : Fin 256 := Fin.ofNat 256 (16 * j + i)

/-- One coefficient: `HAAR.blk[j][i] <- v * HAARC[p].scale` (rules R215, R218). -/
def haarCoef (p : Plane) (j i : Nat) (s : State) : Res State :=
  let s := s.setSeq { s.seq with j := Fin.ofNat 16 j, i := Fin.ofNat 16 i }
  (if i < p.bs / 2 ∧ j < p.bs / 2 then haarLl p s else haarHf p s).map fun r =>
    r.2.setHaarBlk (r.2.scratch.haarBlk.set (haarIndex r.2.seq.j.val r.2.seq.i.val) (r.1 * (r.2.coder p).haar.scale))

/-- The coefficient read, in raster order over the whole block (rule R215). -/
def haarRead (p : Plane) (s : State) : Res State :=
  forRange p.bs (fun j => forRange p.bs (haarCoef p j)) s

/-- The butterfly of a cluster: the sample at row `dr` and column `dc` of its 2×2 square (rule R220). -/
def butterfly (a b c d : Int) (dr dc : Nat) : Byte :=
  let t1 := a - b
  let t2 := c - d
  let t3 := a + b
  let t4 := c + d
  if dr = 0 then (if dc = 0 then clipU8 (t1 - t2) else clipU8 (t3 - t4))
  else (if dc = 0 then clipU8 (t1 + t2) else clipU8 (t3 + t4))

/-- The sample at `(r, c)` of a Haar block: cluster `(r div 2, c div 2)`, one coefficient of each quadrant (rules R219,
R220). -/
def haarSample (blk : Vector Int 256) (h r c : Nat) : Byte :=
  let j := r / 2
  let i := c / 2
  butterfly blk[haarIndex j i] blk[haarIndex j (i + h)] blk[haarIndex (j + h) i] blk[haarIndex (j + h) (i + h)]
    (r % 2) (c % 2)

/-- HAAR_BUTTERFLY: every sample of the block, from the coefficients (rule R220). -/
def haarButterfly (p : Plane) (s : State) : Res State :=
  writeSquare p 0 0 p.bs (haarSample s.scratch.haarBlk (p.bs / 2)) s

/-- HAAR(p) (rules R215 to R220). -/
def haarBlock (p : Plane) (s : State) : Res State := (haarRead p s).bind (haarButterfly p)

/-! ## Meanings -/

def execHaar (s : State) : Result := live s fun s => haarBlock s.seq.p s

def execHaarLl (s : State) : Result := returnCoef (fun s => haarLl s.seq.p s) s

def execHaarHf (s : State) : Result := returnCoef (fun s => haarHf s.seq.p s) s

def execHaarButterfly (p : Plane) (s : State) : Result := live s (haarButterfly p)

end Sys2Proof.Machine
end

