-- ==== Sys2Proof/Machine/Frame.lean ====
section
/-! DEFINITION. The frame sequence (`46_frame.md` rules R233 to R247): validation, the start of a frame, the keyframe reset,
the macroblock walk with its dispatch and error check, commit and abort. -/

namespace Sys2Proof.Machine

/-! ## Rejections and the skip (rules R233 to R235, R264, R265) -/

/-- The region test of VALIDATE (rule R233). The sums are computed without wrap. -/
def regionOk (k : Params) (g : Region) : Bool :=
  decide (g.w.toNat % 16 = 0) && decide (g.h.toNat % 16 = 0) &&
    decide (g.x.toNat + g.w.toNat ≤ k.frameW.toNat) && decide (g.y.toNat + g.h.toNat ≤ k.frameH.toNat)

/-- The quality test of VALIDATE (rule R233). -/
def qualityOk (q : Byte) : Bool := decide (1 ≤ q.toNat) && decide (q.toNat ≤ 100)

/-- VALIDATE (rule R233): the status it returns, if it does; the region is checked first. -/
def validate (s : State) : Option Status :=
  if regionOk s.params s.inp.region = false then some .invalidRegion
  else if qualityOk s.inp.quality = false then some .invalidQuality
  else none

/-- EMPTY_KEY_CHECK (rule R234). -/
def emptyKeyCheck (s : State) : Option Status :=
  match s.params.profile.emptyKeyframe with
  | .commit => none
  | .reject => if s.inp.keyframe ∧ s.inp.payload = [] then some .emptyKeyframe else none

/-- SKIP_CHECK (rule R235). -/
def skipCheck (s : State) : Option Status :=
  if s.inp.keyframe = false ∧ s.fd.errFlag = true then some .skippedAfterError else none

/-- The first of the three checks that returns, in the order of rule R232. -/
def turnedAway (s : State) : Option Status :=
  match validate s with
  | some c => some c
  | none =>
    match emptyKeyCheck s with
    | some c => some c
    | none => skipCheck s

/-! ## The keyframe reset (rule R238) -/

/-- `DCH[p][*][*] <- 0`. -/
def clearHist (p : Plane) (s : State) : State :=
  let c := s.coder p
  s.setCoder p { c with dct := { c.dct with hist := { dflt := 0, cells := [] } } }

/-- The keyframe reset of one plane, in the order of rule R238. -/
def resetPlane (p : Plane) (s : State) : Res State :=
  (forRange 5 (fun t => msReset (.bt p (Fin.ofNat 5 t))) s).bind fun s =>
  (msReset (.fillCoef p) (setLastType p 4 s)).bind fun s =>
  (msReset (.vs p) (setFillVal p 0 s)).bind fun s =>
  (mbReset (.pal p) s).bind fun s =>
  (mbReset (.esc p) s).bind fun s =>
  (forRange 125 (fun c => msReset (.vq p (Fin.ofNat 125 c))) s).bind fun s =>
  (msReset (.dctDc p) s).bind fun s =>
  (m2Reset (.sign p) s).bind fun s =>
  (mbReset (.ac p) s).bind fun s =>
  (msReset (.haarCoef p) (clearHist p s)).bind fun s =>
  mbReset (.hi p) s

/-- KEYFRAME_RESET (rule R238). -/
def keyframeReset (s : State) : Res State := forPlanes resetPlane s

/-! ## The start of a frame (rules R236, R237, R239 to R241) -/

/-- FRAME_START (rule R236). -/
def frameStart (s : State) : Res State :=
  if s.params.profile.resetPolicy = .keyframe ∧ s.inp.keyframe = true then keyframeReset (enterFrame s)
  else .ok (enterFrame s)

/-- The matrix and the scale of one plane for a quality (rule R237). -/
def loadQuality (q : Byte) (p : Plane) (s : State) : State :=
  let c := s.coder p
  s.setCoder p { c with
    dct := { c.dct with qmat := s.params.quantMatrix q p.isLuma }
    haar := { c.haar with scale := s.params.haarScaleAt q p.isLuma } }

/-- QUALITY_CACHE (rule R237). -/
def qualityCache (s : State) : State :=
  let q := s.inp.quality
  if s.fd.qCache = some q then s
  else
    let s := loadQuality q .c2 (loadQuality q .c1 (loadQuality q .y s))
    s.setFd { s.fd with qCache := some q }

/-- EMPTY_COMMIT (rule R239). -/
def emptyCommit (s : State) : State := (s.setFd { s.fd with state := .committed }).setStatus .ok

/-- EVERY_FRAME_RESET (rule R240). -/
def everyFrameReset (s : State) : Res State :=
  match s.params.profile.resetPolicy with
  | .keyframe => .ok s
  | .everyPayloadFrame => keyframeReset s

/-- DECODER_START (rule R241): RD_INIT, and WORK starts as a copy of REF. Under IN_PLACE, WORK is REF itself (`State.canvas`),
and the copy stands unused. -/
def decoderStart (s : State) : Res State := (rdInit s).map fun s => { s with work := s.ref }

/-! ## The walk (rules R242 to R245) -/

/-- The dispatch on the block type (rule R243). -/
def dispatchBlock (p : Plane) (t : Fin 5) (s : State) : Res State :=
  match t with
  | 0 => fillBlock p s
  | 1 => imageBlock p s
  | 2 => dctBlock p s
  | 3 => haarBlock p s
  | 4 => .ok s

/-- BLOCK_STEP(p, mbx, mby) (rule R243). -/
def blockStep (p : Plane) (mbx mby : Nat) (s : State) : Res State :=
  let s := clearBlkErr (s.setSeq { s.seq with p := p, mbx := mbx, mby := mby })
  (btSelect p s).bind fun r => dispatchBlock p r.1 r.2

/-- ERROR_CHECK (rule R245): the abort it raises, already taken, if a flag is set. -/
def errorCheck (s : State) : Option AbortKind × State :=
  match pendingAbort s with
  | some k => (some k, abortFrame k s)
  | none => (none, s)

/-- The blocks of the region in walk order: macroblocks row-major, and the three planes of each (rule R242). -/
def walkOrder (mbw mbh : Nat) : List (Nat × Nat × Plane) :=
  (List.range mbh).flatMap fun mby =>
    (List.range mbw).flatMap fun mbx => [(mby, mbx, Plane.y), (mby, mbx, Plane.c1), (mby, mbx, Plane.c2)]

/-- Decode blocks in order, each followed by the error check, until one raises an abort (rules R242, R263). -/
def walkBlocks : List (Nat × Nat × Plane) → State → Res (Option AbortKind × State)
  | [], s => .ok (none, s)
  | (mby, mbx, p) :: rest, s =>
    (blockStep p mbx mby s).bind fun t =>
      match errorCheck t with
      | (some k, t) => .ok (some k, t)
      | (none, t) => walkBlocks rest t

/-- MB_WALK (rule R242), with the abort taken if one was raised. -/
def mbWalk (s : State) : Res (Option AbortKind × State) :=
  walkBlocks (walkOrder (s.inp.region.w.toNat / 16) (s.inp.region.h.toNat / 16)) s

/-- COMMIT (rule R247). Under IN_PLACE the copy is a no-op. -/
def commit (s : State) : State :=
  emptyCommit { s with ref := s.canvas }

/-! ## The commands (rules R230 to R232, R249, R250) -/

/-- The part of DECODE_FRAME after the checks (rule R232). The sequencer and the scratch, which have no value once the frame
ends (rule R55), keep what its last block left in them: DESIGN CHOICE, unsafe for a claim about their content (log entry 4). -/
def decodeAccepted (s : State) : Res State :=
  (frameStart s).bind fun s =>
    let s := qualityCache s
    if s.inp.payload = [] then .ok (emptyCommit s)
    else
      (everyFrameReset s).bind fun s =>
        (decoderStart s).bind fun s =>
          (mbWalk s).map fun r =>
            match r.1 with
            | some _ => r.2
            | none => commit r.2

/-- DECODE_FRAME (rule R232): latch the inputs (rule R48), check, decode. A command that is turned away changes nothing but
the latches and the status it returns (rule R264). -/
def decodeFrame (a : FrameArgs) (s : State) : Res State :=
  let s := { s with inp := a }
  match turnedAway s with
  | some c => .ok (s.setStatus c)
  | none => decodeAccepted s

/-- Construct every model of one plane, and its other construction values (rules R153, R231). -/
def constructPlane (p : Plane) (s : State) : Res State :=
  (forRange 5 (fun t => msConstruct (.bt p (Fin.ofNat 5 t))) s).bind fun s =>
  (msConstruct (.fillCoef p) s).bind fun s =>
  (msConstruct (.vs p) s).bind fun s =>
  (mbConstruct (.pal p) s).bind fun s =>
  (mbConstruct (.esc p) s).bind fun s =>
  (forRange 125 (fun c => msConstruct (.vq p (Fin.ofNat 125 c))) s).bind fun s =>
  (msConstruct (.dctDc p) s).bind fun s =>
  (mbConstruct (.ac p) s).bind fun s =>
  (m2Reset (.sign p) s).bind fun s =>
  (msConstruct (.haarCoef p) s).bind fun s =>
  (mbConstruct (.hi p) s).map fun s => clearHist p (setFillVal p 0 (setLastType p 4 s))

/-- CONSTRUCT (rule R231): a new instance. Elements that the rule gives no value hold those of `State.blank`; the
host's later commands stay. -/
def constructInstance (a : ConstructArgs) (s : State) : Res State :=
  forPlanes constructPlane
    { State.blank with
      alive := true
      params := { frameW := a.frameW, frameH := a.frameH, profile := a.profile, genQuant := a.genQuant,
                  idctPut := a.idctPut, haarScale := a.haarScale }
      ref := a.initPlanes
      cmds := s.cmds }

/-! ## Meanings -/

/-- A check that returns a status ends the command with it and returns 1; one that does not returns 0 (log entry 18). -/
def execCheck (f : State → Option Status) (s : State) : Result :=
  live s fun s =>
    match f s with
    | some c => .ok ((s.setStatus c).setRet 1)
    | none => .ok (s.setRet 0)

def execValidate (s : State) : Result := execCheck validate s

def execEmptyKeyCheck (s : State) : Result := execCheck emptyKeyCheck s

def execSkipCheck (s : State) : Result := execCheck skipCheck s

def execFrameStart (s : State) : Result := live s frameStart

def execQualityCache (s : State) : Result := live s fun s => .ok (qualityCache s)

def execKeyframeReset (s : State) : Result := live s keyframeReset

def execEmptyCommit (s : State) : Result := live s fun s => .ok (emptyCommit s)

def execEveryFrameReset (s : State) : Result := live s everyFrameReset

def execDecoderStart (s : State) : Result := live s decoderStart

def execMbWalk (s : State) : Result := live s fun s => (mbWalk s).map fun r => r.2

def execBlockStep (p : Plane) (mbx mby : U16) (s : State) : Result := live s (blockStep p mbx.toNat mby.toNat)

def execErrorCheck (s : State) : Result := live s fun s => .ok (errorCheck s).2

/-- ABORT(kind) (rules R246, R263). -/
def execAbort (k : AbortKind) (s : State) : Result := live s fun s => .ok (abortFrame k s)

def execCommit (s : State) : Result := live s fun s => .ok (commit s)

/-- CONSTRUCT makes an instance, so it runs where none is left too (log entry 16). -/
def execConstruct (a : ConstructArgs) (s : State) : Result :=
  match constructInstance a s with
  | .ok t => .next t
  | .error e => .fault e

def execDecodeFrame (a : FrameArgs) (s : State) : Result := live s (decodeFrame a)

/-- RESET_FOR_KEYFRAME runs KEYFRAME_RESET and nothing else (rule R249). -/
def execResetForKeyframe (s : State) : Result := live s fun s => keyframeReset s

/-- DESTROY ends the instance: none of its state is left (rules R58, R250). The host's later commands stay. -/
def execDestroy (s : State) : Result := live s fun s => .ok { State.blank with cmds := s.cmds }

end Sys2Proof.Machine
end

