-- ==== Sys2Proof/Machine/Fetch.lean ====
section
/-! DEFINITION. Where the next operation comes from (log entry 8): the internal operation the sequencer has selected, if there
is one, else the host's next command. -/

namespace Sys2Proof.Machine

/-- The next operation's code, and the state with it taken; none when the core is idle (rule R276). -/
def fetch (s : State) : Option (Code × State) :=
  match s.issue with
  | some c => some (c, { s with issue := none })
  | none =>
    match s.cmds with
    | [] => none
    | h :: t => some (.command h, { s with cmds := t })

/-- Select an internal operation as the next one. -/
def State.withIssue (s : State) (c : Code) : State := { s with issue := some c }

end Sys2Proof.Machine
end

