-- ==== Sys2Proof/Machine/Dispatch.lean ====
section
/-! DEFINITION. One arm per operation, each one call of its meaning. -/

namespace Sys2Proof.Machine

def exec (i : Instr) (s : State) : Host.Outcome State Fault Refusal :=
  match i with
  | .fill => Sys2Proof.Machine.execFill s
  | .image => Sys2Proof.Machine.execImage s
  | .dct => Sys2Proof.Machine.execDct s
  | .haar => Sys2Proof.Machine.execHaar s
  | .skip => Sys2Proof.Machine.execSkip s
  | .coefC0 => Sys2Proof.Machine.execCoefC0 s
  | .coefC1 => Sys2Proof.Machine.execCoefC1 s
  | .coefC2 => Sys2Proof.Machine.execCoefC2 s
  | .coefC3 => Sys2Proof.Machine.execCoefC3 s
  | .coefC4 => Sys2Proof.Machine.execCoefC4 s
  | .coefC5 => Sys2Proof.Machine.execCoefC5 s
  | .coefC6 => Sys2Proof.Machine.execCoefC6 s
  | .coefC7 => Sys2Proof.Machine.execCoefC7 s
  | .coefC8 => Sys2Proof.Machine.execCoefC8 s
  | .coefC9 => Sys2Proof.Machine.execCoefC9 s
  | .coefC10 => Sys2Proof.Machine.execCoefC10 s
  | .coefC11 => Sys2Proof.Machine.execCoefC11 s
  | .coefSign => Sys2Proof.Machine.execCoefSign s
  | .coefExtra n => Sys2Proof.Machine.execCoefExtra n s
  | .vs2 => Sys2Proof.Machine.execVs2 s
  | .vs3 => Sys2Proof.Machine.execVs3 s
  | .vs4 => Sys2Proof.Machine.execVs4 s
  | .palEntry k => Sys2Proof.Machine.execPalEntry k s
  | .vqC0 => Sys2Proof.Machine.execVqC0 s
  | .vqC1 => Sys2Proof.Machine.execVqC1 s
  | .vqC2 => Sys2Proof.Machine.execVqC2 s
  | .vqC3 => Sys2Proof.Machine.execVqC3 s
  | .vqC4 => Sys2Proof.Machine.execVqC4 s
  | .escLiteral => Sys2Proof.Machine.execEscLiteral s
  | .acEob => Sys2Proof.Machine.execAcEob s
  | .acZrl => Sys2Proof.Machine.execAcZrl s
  | .acIllegalR1 => Sys2Proof.Machine.execAcIllegalR1 s
  | .acIllegalR2 => Sys2Proof.Machine.execAcIllegalR2 s
  | .acIllegalR3 => Sys2Proof.Machine.execAcIllegalR3 s
  | .acIllegalR4 => Sys2Proof.Machine.execAcIllegalR4 s
  | .acIllegalR5 => Sys2Proof.Machine.execAcIllegalR5 s
  | .acIllegalR6 => Sys2Proof.Machine.execAcIllegalR6 s
  | .acIllegalR7 => Sys2Proof.Machine.execAcIllegalR7 s
  | .acIllegalR8 => Sys2Proof.Machine.execAcIllegalR8 s
  | .acIllegalR9 => Sys2Proof.Machine.execAcIllegalR9 s
  | .acIllegalR10 => Sys2Proof.Machine.execAcIllegalR10 s
  | .acIllegalR11 => Sys2Proof.Machine.execAcIllegalR11 s
  | .acIllegalR12 => Sys2Proof.Machine.execAcIllegalR12 s
  | .acIllegalR13 => Sys2Proof.Machine.execAcIllegalR13 s
  | .acIllegalR14 => Sys2Proof.Machine.execAcIllegalR14 s
  | .acRlC1 r => Sys2Proof.Machine.execAcRlC1 r s
  | .acRlC2 r => Sys2Proof.Machine.execAcRlC2 r s
  | .acRlC3 r => Sys2Proof.Machine.execAcRlC3 r s
  | .acRlC4 r => Sys2Proof.Machine.execAcRlC4 r s
  | .acRlC5 r => Sys2Proof.Machine.execAcRlC5 r s
  | .acRlC6 r => Sys2Proof.Machine.execAcRlC6 r s
  | .acRlC7 r => Sys2Proof.Machine.execAcRlC7 r s
  | .acRlC8 r => Sys2Proof.Machine.execAcRlC8 r s
  | .acRlC9 r => Sys2Proof.Machine.execAcRlC9 r s
  | .acRlC10 r => Sys2Proof.Machine.execAcRlC10 r s
  | .acRlC11 r => Sys2Proof.Machine.execAcRlC11 r s
  | .acRlC12 r => Sys2Proof.Machine.execAcRlC12 r s
  | .acRlC13 r => Sys2Proof.Machine.execAcRlC13 r s
  | .acRlC14 r => Sys2Proof.Machine.execAcRlC14 r s
  | .acRlC15 r => Sys2Proof.Machine.execAcRlC15 r s
  | .acSign => Sys2Proof.Machine.execAcSign s
  | .acExtra n => Sys2Proof.Machine.execAcExtra n s
  | .haarLl => Sys2Proof.Machine.execHaarLl s
  | .haarHf => Sys2Proof.Machine.execHaarHf s
  | .getBit => Sys2Proof.Machine.execGetBit s
  | .getBits n => Sys2Proof.Machine.execGetBits n s
  | .decBin m => Sys2Proof.Machine.execDecBin m s
  | .decSmall m => Sys2Proof.Machine.execDecSmall m s
  | .decByte m => Sys2Proof.Machine.execDecByte m s
  | .rdInit => Sys2Proof.Machine.execRdInit s
  | .normalise => Sys2Proof.Machine.execNormalise s
  | .m2Reset m => Sys2Proof.Machine.execM2Reset m s
  | .m2Update m b => Sys2Proof.Machine.execM2Update m b s
  | .msConstruct m => Sys2Proof.Machine.execMsConstruct m s
  | .msUpdate m v => Sys2Proof.Machine.execMsUpdate m v s
  | .msHalve m => Sys2Proof.Machine.execMsHalve m s
  | .msFreqs m => Sys2Proof.Machine.execMsFreqs m s
  | .msReset m => Sys2Proof.Machine.execMsReset m s
  | .mbConstruct m => Sys2Proof.Machine.execMbConstruct m s
  | .mbUpdate m v => Sys2Proof.Machine.execMbUpdate m v s
  | .mbSecondary m => Sys2Proof.Machine.execMbSecondary m s
  | .mbReset m => Sys2Proof.Machine.execMbReset m s
  | .btSelect p => Sys2Proof.Machine.execBtSelect p s
  | .decodeCoeff m => Sys2Proof.Machine.execDecodeCoeff m s
  | .dctSub p dbx dby => Sys2Proof.Machine.execDctSub p dbx dby s
  | .dcPredict p dbx dby => Sys2Proof.Machine.execDcPredict p dbx dby s
  | .mingrad l t tl => Sys2Proof.Machine.execMingrad l t tl s
  | .dcStore p dbx dby delta pred => Sys2Proof.Machine.execDcStore p dbx dby delta pred s
  | .acDecode p => Sys2Proof.Machine.execAcDecode p s
  | .acLevel p pos c => Sys2Proof.Machine.execAcLevel p pos c s
  | .idctWrite p r0 c0 => Sys2Proof.Machine.execIdctWrite p r0 c0 s
  | .haarButterfly p => Sys2Proof.Machine.execHaarButterfly p s
  | .validate => Sys2Proof.Machine.execValidate s
  | .emptyKeyCheck => Sys2Proof.Machine.execEmptyKeyCheck s
  | .skipCheck => Sys2Proof.Machine.execSkipCheck s
  | .frameStart => Sys2Proof.Machine.execFrameStart s
  | .qualityCache => Sys2Proof.Machine.execQualityCache s
  | .keyframeReset => Sys2Proof.Machine.execKeyframeReset s
  | .emptyCommit => Sys2Proof.Machine.execEmptyCommit s
  | .everyFrameReset => Sys2Proof.Machine.execEveryFrameReset s
  | .decoderStart => Sys2Proof.Machine.execDecoderStart s
  | .mbWalk => Sys2Proof.Machine.execMbWalk s
  | .blockStep p mbx mby => Sys2Proof.Machine.execBlockStep p mbx mby s
  | .errorCheck => Sys2Proof.Machine.execErrorCheck s
  | .abort kind => Sys2Proof.Machine.execAbort kind s
  | .commit => Sys2Proof.Machine.execCommit s
  | .construct a => Sys2Proof.Machine.execConstruct a s
  | .decodeFrame a => Sys2Proof.Machine.execDecodeFrame a s
  | .resetForKeyframe => Sys2Proof.Machine.execResetForKeyframe s
  | .destroy => Sys2Proof.Machine.execDestroy s

end Sys2Proof.Machine
end

