-- ==== Sys2Proof/Machine/Step.lean ====
section
/-! DEFINITION. One step: take the next operation, decode its code, run its meaning. With nothing to take the core is idle and
stays as it is (rule R276). -/

namespace Sys2Proof.Machine

/-- One step of the machine. -/
def step (s : State) : Host.Outcome State Fault Refusal :=
  match fetch s with
  | none => .next s
  | some (c, t) =>
    match decode c with
    | .error e => .refused (.undecodable e)
    | .ok i => exec i t

/-- The operation a table word stands for, selected as the next one (log entries 8 and 9). -/
def State.withFetchWord (s : State) (_nbits w : Nat) : State := s.withIssue (tableCode w)

end Sys2Proof.Machine
end

