-- ==== Sys2Proof/Safety.lean ====
section
/-! DEFINITION. What a safe run is: the invariants of `40_range_decoder.md` and `41_models.md` as predicates, the state a host
may rely on between commands, and the readings of memory that the statements use. -/

namespace Sys2Proof

/-- The plane whose coder holds a Small model. -/
def SmallRef.plane : SmallRef → Plane
  | .bt p _ => p
  | .fillCoef p => p
  | .vs p => p
  | .vq p _ => p
  | .dctDc p => p
  | .haarCoef p => p

/-- The plane whose coder holds a Byte model. -/
def ByteRef.plane : ByteRef → Plane
  | .pal p => p
  | .esc p => p
  | .ac p => p
  | .hi p => p

/-- The plane whose coder holds a Binary model. -/
def BinRef.plane : BinRef → Plane
  | .sign p => p

end Sys2Proof

namespace Sys2Proof.Machine

/-! ## Models (rules R137, R144, R150) -/

/-- The Binary-model invariant (rule R137), in the form each update keeps: `zero_weight < total_weight` at a rebuild, and
between rebuilds at most one more for each update of the period so far. -/
structure BinModel.Good (m : BinModel) : Prop where
  zero_pos : 1 ≤ m.zeroWeight.toNat
  total_two : 2 ≤ m.totalWeight.toNat
  total_le : m.totalWeight.toNat ≤ 0x2000
  till_pos : 1 ≤ m.tillRescale.toNat
  till_le : m.tillRescale.toNat ≤ m.updVal.toNat
  upd_le : m.updVal.toNat ≤ 64
  period : m.zeroWeight.toNat + m.tillRescale.toNat + 1 ≤ m.totalWeight.toNat + m.updVal.toNat
  freq_pos : 1 ≤ m.zeroFreq.toNat
  freq_le : m.zeroFreq.toNat ≤ 0x1FFF

/-- The sum of the weights, as a number. -/
def FreqModel.weightTotal {n : Nat} (m : FreqModel n) : Nat := (m.weights.toList.map BitVec.toNat).sum

/-- The Small-model invariant (rule R144), which the table of a Byte model shares (rule R150). -/
structure FreqModel.Good {n : Nat} (m : FreqModel n) : Prop where
  weight_pos : ∀ i : Fin n, 1 ≤ m.weights[i].toNat
  total_pos : 1 ≤ m.totWeight.toNat
  total_le : m.totWeight.toNat ≤ 0x8000
  max_eq : m.maxUpdVal.toNat = 8 * n + 48
  till_pos : 1 ≤ m.tillRescale.toNat
  till_le : m.tillRescale.toNat ≤ m.updVal.toNat
  upd_le : m.updVal.toNat ≤ 8 * n + 48
  period : m.weightTotal + m.tillRescale.toNat = m.totWeight.toNat + m.updVal.toNat
  freq_zero : ∀ i : Fin n, i.val = 0 → m.freqs[i].toNat = 0
  freq_lt : ∀ i j : Fin n, i < j → m.freqs[i].toNat < m.freqs[j].toNat
  freq_top : ∀ i : Fin n, m.freqs[i].toNat < 0x8000

/-- Entry `s` of a secondary index is the highest symbol whose interval starts below `512*s` (rule R147). -/
def IsBucket (freqs : Vector U32 256) (s : Nat) (e : Fin 256) : Prop :=
  freqs[e].toNat < 512 * s ∧ ∀ k : Fin 256, freqs[k].toNat < 512 * s → k ≤ e

/-- The Byte-model invariant (rule R150): the table's, and the index is the one of rule R147. -/
structure ByteModel.Good (m : ByteModel) : Prop where
  base : m.base.Good
  first : m.secondary[0] = 0
  bucket : ∀ s : Fin 66, 0 < s.val → IsBucket m.base.freqs s.val m.secondary[s]

/-- Every model of the instance has its invariant. -/
structure State.ModelsGood (s : State) : Prop where
  small : ∀ m : SmallRef, (s.small m).Good
  byte : ∀ m : ByteRef, (s.byte m).Good
  bin : ∀ m : BinRef, (s.bin m).Good

/-! ## Range decoder (rules R32, R126, R127) -/

/-- The interval registers between two primitives: the cursor is inside the payload (rule R32), the range is not below
RAC_BOTTOM (rule R127), and `RD.low` exceeds `RD.range` by at most the number `e` of halvings that the range leaves room
for, so by at most 7 (rule R126). -/
structure RangeDecoder.Good (pay : List Byte) (rd : RangeDecoder) : Prop where
  stop_eq : rd.stop = pay.length
  cur_le : rd.cur ≤ rd.stop
  range_ge : 0x1000000 ≤ rd.range.toNat
  excess : ∃ e : Fin 8, rd.low.toNat ≤ rd.range.toNat + e.val ∧ (rd.range.toNat + 1) * 2 ^ e.val ≤ 0x100000000

/-- The interval registers are good for the latched payload. -/
def State.RdGood (s : State) : Prop := s.rd.Good s.inp.payload

/-- A state in which symbols can be decoded: the instance exists, its models and its interval registers are good. -/
structure State.CanDecode (s : State) : Prop where
  alive : s.alive = true
  models : s.ModelsGood
  rd : s.RdGood

/-! ## Samples and positions -/

/-- Sample (row `r`, column `c`) of plane `p`, as the datapaths see it: of WORK, or of REF under IN_PLACE (rule R241). -/
def State.sample (s : State) (p : Plane) (r c : Nat) : Byte := s.canvas.read (sampleAddr p r c)

/-- The block of plane `p` in the current macroblock lies inside the plane (rule R88). -/
def State.BlockFits (s : State) (p : Plane) : Prop :=
  (s.origin p).1 + p.bs ≤ s.planeH p ∧ (s.origin p).2 + p.bs ≤ s.planeW p

/-- The DC coordinates of the current macroblock's sub-blocks lie inside the history of plane `p` (rule R88). -/
def State.HistFits (s : State) (p : Plane) : Prop :=
  p.nb * s.seq.mbx + p.nb ≤ s.histW p ∧ p.nb * s.seq.mby + p.nb ≤ s.histH p

/-- The current macroblock is one of a region that passed VALIDATE (rules R75, R233). -/
def State.InRegion (s : State) : Prop :=
  regionOk s.params s.inp.region = true ∧ s.seq.mbx < s.inp.region.w.toNat / 16 ∧ s.seq.mby < s.inp.region.h.toNat / 16

/-- How many luma rows, and columns, one row or column of a plane stands for (rules R11, R76). -/
def subsample : Plane → Nat
  | .y => 1
  | _ => 2

/-- The address `a` holds a sample of the `h × w` rectangle of plane `p` at row `r0`, column `c0`. -/
def InRect (p : Plane) (r0 c0 h w a : Nat) : Prop := ∃ r c, r < h ∧ c < w ∧ a = sampleAddr p (r0 + r) (c0 + c)

/-! ## The instance between commands -/

/-- Every memory is in its canonical form. -/
structure State.Canonical (s : State) : Prop where
  ref : s.ref.wf = true
  work : s.work.wf = true
  hist : ∀ p, (s.coder p).dct.hist.wf = true

/-- What holds before and after every step, internal operations included: the memories are canonical, `max_upd_val` of every
model is the constant of its alphabet (rules R35, R36), the cursor never passes the end (rule R32), and an instance that
does not exist has no state (rule R58). -/
structure State.StepInv (s : State) : Prop where
  canonical : s.Canonical
  small_max : ∀ m : SmallRef, (s.small m).maxUpdVal.toNat = 8 * m.size + 48
  byte_max : ∀ m : ByteRef, (s.byte m).base.maxUpdVal.toNat = 2096
  cursor : s.rd.cur ≤ s.rd.stop
  dead : s.alive = false → s = { State.blank with cmds := s.cmds, issue := s.issue }

/-- The quality cache holds what the external functions give for its quality (rules R45, R86). -/
def State.CacheGood (s : State) : Prop :=
  ∀ q, s.fd.qCache = some q → qualityOk q = true ∧
    ∀ p, (s.coder p).dct.qmat = s.params.quantMatrix q p.isLuma ∧ (s.coder p).haar.scale = s.params.haarScaleAt q p.isLuma

/-- What a host may rely on between its commands, when no internal operation is selected: the models are good (rules R137,
R144, R150), the frame state is Idle, Committed or Aborted (rule R248), the error flag is up exactly after an abort (rule
R44), and the cache is sound (rule R86). -/
structure State.HostInv (s : State) : Prop where
  no_issue : s.issue = none
  canonical : s.Canonical
  models : s.ModelsGood
  settled : s.fd.state ≠ .decoding
  flag : s.fd.errFlag = true ↔ s.fd.state = .aborted
  cache : s.CacheGood

/-! ## What an operation leaves alone -/

/-- The plane memory the datapaths do not write: REF, or the unused copy under IN_PLACE (rule R241). -/
def State.offCanvas (s : State) : Store 8 :=
  match s.params.profile.abortWrites with
  | .discard => s.ref
  | .inPlace => s.work

/-- What no block of a frame changes: the instance and its parameters, the frame registers, the inputs, the result
registers, the commands, the matrices and scales, and the plane memory it does not write. -/
structure State.Kept (s t : State) : Prop where
  alive : t.alive = s.alive
  params : t.params = s.params
  fd : t.fd = s.fd
  inp : t.inp = s.inp
  status : t.status = s.status
  ret : t.ret = s.ret
  cmds : t.cmds = s.cmds
  issue : t.issue = s.issue
  off : t.offCanvas = s.offCanvas
  qmat : ∀ p, (t.coder p).dct.qmat = (s.coder p).dct.qmat
  scale : ∀ p, (t.coder p).haar.scale = (s.coder p).haar.scale

/-- What no step inside a block changes: the above, and the macroblock and plane it works on. -/
structure State.Steady (s t : State) : Prop extends State.Kept s t where
  mby : t.seq.mby = s.seq.mby
  mbx : t.seq.mbx = s.seq.mbx
  plane : t.seq.p = s.seq.p

/-- The five coders of a plane. -/
inductive Part where
  | bt | fill | image | dct | haar
deriving DecidableEq, Repr

/-- The coder that holds a Small model. -/
def smallPart : SmallRef → Part
  | .bt _ _ => .bt
  | .fillCoef _ => .fill
  | .vs _ => .image
  | .vq _ _ => .image
  | .dctDc _ => .dct
  | .haarCoef _ => .haar

/-- The coder that holds a Byte model. -/
def bytePart : ByteRef → Part
  | .pal _ => .image
  | .esc _ => .image
  | .ac _ => .dct
  | .hi _ => .haar

/-- Of all the coders, only the coder `x` of plane `p` may differ. -/
structure State.OnlyPart (s : State) (p : Plane) (x : Part) (t : State) : Prop where
  others : ∀ q, q ≠ p → t.coder q = s.coder q
  bt : x ≠ .bt → (t.coder p).bt = (s.coder p).bt
  fill : x ≠ .fill → (t.coder p).fill = (s.coder p).fill
  image : x ≠ .image → (t.coder p).image = (s.coder p).image
  dct : x ≠ .dct → (t.coder p).dct = (s.coder p).dct
  haar : x ≠ .haar → (t.coder p).haar = (s.coder p).haar

/-- Every byte of the planes outside the `h × w` rectangle of plane `p` at row `r0`, column `c0` reads as before. -/
def State.WritesIn (s : State) (p : Plane) (r0 c0 h w : Nat) (t : State) : Prop :=
  ∀ a, ¬ InRect p r0 c0 h w a → t.canvas.read a = s.canvas.read a

/-- The address `a` holds a sample of the command's region, in one of the three planes (rule R76). -/
def State.InRegionArea (s : State) (a : Nat) : Prop :=
  ∃ p, InRect p (s.inp.region.y.toNat / subsample p) (s.inp.region.x.toNat / subsample p)
    (s.inp.region.h.toNat / subsample p) (s.inp.region.w.toNat / subsample p) a

/-- Every byte of the planes outside the current block of plane `p` reads as before. -/
def State.WritesBlock (s : State) (p : Plane) (t : State) : Prop := s.WritesIn p (s.origin p).1 (s.origin p).2 p.bs p.bs t

/-! ## The rules' arithmetic, as numbers -/

/-- The payload bytes as one big-endian number (rule R72). -/
def bigEndian (l : List Byte) : Nat := l.foldl (fun n b => 256 * n + b.toNat) 0

/-- One iteration of NORMALISE, from `a` to `b`, as numbers (rule R117). -/
structure NormaliseRound (pol : ExhaustPolicy) (pay : List Byte) (a b : RangeDecoder) : Prop where
  range : b.range.toNat = 256 * a.range.toNat
  stop : b.stop = a.stop
  byte : a.cur < a.stop → b.cur = a.cur + 1 ∧ ∃ x : Byte, pay[a.cur]? = some x ∧
    if b.range.toNat < 256 * a.low.toNat % 2 ^ 32 + x.toNat then b.low.toNat = 1 ∧ b.err = true
    else b.low.toNat = 256 * a.low.toNat % 2 ^ 32 + x.toNat ∧ b.err = a.err
  exhausted : a.stop ≤ a.cur → b.cur = a.cur ∧
    if pol = .always ∨ 256 * a.low.toNat % 2 ^ 32 = 0 ∨ b.range.toNat < 256 * a.low.toNat % 2 ^ 32 then
      b.low.toNat = 1 ∧ b.err = true
    else b.low.toNat = 256 * a.low.toNat % 2 ^ 32 ∧ b.err = a.err

/-- NORMALISE on the interval registers after a primitive has narrowed them to these numbers (rule R116). -/
def State.narrowed (s : State) (range low : Nat) : Result :=
  exec .normalise (s.setRd { s.rd with range := BitVec.ofNat 32 range, low := BitVec.ofNat 32 low })

/-- M2_UPDATE with the bit `b`, from `x` to `y`, as numbers (rule R136). -/
structure BinModel.Updates (x y : BinModel) (b : Bool) : Prop where
  counted : x.tillRescale.toNat ≠ 1 →
    y.zeroWeight.toNat = x.zeroWeight.toNat + (if b then 0 else 1) ∧ y.totalWeight = x.totalWeight ∧
    y.zeroFreq = x.zeroFreq ∧ y.totalFreq = x.totalFreq ∧ y.updVal = x.updVal ∧
    y.tillRescale.toNat = x.tillRescale.toNat - 1
  rebuilt : x.tillRescale.toNat = 1 →
    let zero := x.zeroWeight.toNat + (if b then 0 else 1)
    let total := x.totalWeight.toNat + x.updVal.toNat
    y.zeroWeight.toNat = (if total ≤ 0x2000 then zero else (zero + 1) / 2) ∧
    y.totalWeight.toNat = (if total ≤ 0x2000 then total
      else if (total + 1) / 2 = (zero + 1) / 2 then (zero + 1) / 2 + 1 else (total + 1) / 2) ∧
    y.zeroFreq.toNat = y.zeroWeight.toNat * (0x80000000 / y.totalWeight.toNat) / 2 ^ 18 ∧
    y.totalFreq.toNat = y.totalWeight.toNat * (0x80000000 / y.totalWeight.toNat) / 2 ^ 18 ∧
    y.updVal.toNat = min (x.updVal.toNat * 5 / 4) 64 ∧ y.tillRescale = y.updVal

/-- The sum of the weights below symbol `i`: `cum` of rule R141. -/
def FreqModel.weightBelow {n : Nat} (m : FreqModel n) (i : Fin n) : Nat :=
  ((m.weights.toList.take i.val).map BitVec.toNat).sum

/-- MS_UPDATE with the symbol `v`, from `x` to `y`, as numbers, with MS_HALVE and MS_FREQS in it (rules R139 to R141). -/
structure FreqModel.Updates {n : Nat} (x y : FreqModel n) (v : Fin n) : Prop where
  ceiling : y.maxUpdVal = x.maxUpdVal
  counted : x.tillRescale.toNat ≠ 1 →
    (∀ i : Fin n, y.weights[i].toNat = x.weights[i].toNat + (if i = v then 1 else 0)) ∧ y.freqs = x.freqs ∧
    y.totWeight = x.totWeight ∧ y.updVal = x.updVal ∧ y.tillRescale.toNat = x.tillRescale.toNat - 1
  rebuilt : x.tillRescale.toNat = 1 →
    let total := x.totWeight.toNat + x.updVal.toNat
    (∀ i : Fin n, y.weights[i].toNat = if total ≤ 0x8000 then x.weights[i].toNat + (if i = v then 1 else 0)
      else (x.weights[i].toNat + (if i = v then 1 else 0) + 1) / 2) ∧
    y.totWeight.toNat = (if total ≤ 0x8000 then total else y.weightTotal) ∧
    (∀ i : Fin n, y.freqs[i].toNat = y.weightBelow i * (0x80000000 / y.totWeight.toNat) / 2 ^ 16) ∧
    y.updVal.toNat = min (x.updVal.toNat * 5 / 4) x.maxUpdVal.toNat ∧ y.tillRescale = y.updVal

/-- The entry of the DC history, `DCH[p][by][bx]` (rule R41). -/
def State.dch (s : State) (p : Plane) (bx dy : Nat) : I32 := (s.coder p).dct.hist.read (histAddr bx dy)

/-- `HAAR.blk[j][i]` (rule R47). -/
def State.haarAt (s : State) (j i : Nat) : Int := s.scratch.haarBlk[haarIndex j i]

/-! ## The rows a symbol value selects (rules R92 to R100) -/

def blockRow : Fin 5 → Instr
  | 0 => .fill | 1 => .image | 2 => .dct | 3 => .haar | 4 => .skip

def coefRow : Fin 12 → Instr
  | 0 => .coefC0 | 1 => .coefC1 | 2 => .coefC2 | 3 => .coefC3 | 4 => .coefC4 | 5 => .coefC5 | 6 => .coefC6
  | 7 => .coefC7 | 8 => .coefC8 | 9 => .coefC9 | 10 => .coefC10 | 11 => .coefC11

def vsRow : Fin 3 → Instr
  | 0 => .vs2 | 1 => .vs3 | 2 => .vs4

def vqRow : Fin 5 → Instr
  | 0 => .vqC0 | 1 => .vqC1 | 2 => .vqC2 | 3 => .vqC3 | 4 => .vqC4

/-- The AC_ILLEGAL row of run `k + 1`. -/
def illegalRow : Fin 14 → Instr
  | 0 => .acIllegalR1 | 1 => .acIllegalR2 | 2 => .acIllegalR3 | 3 => .acIllegalR4 | 4 => .acIllegalR5
  | 5 => .acIllegalR6 | 6 => .acIllegalR7 | 7 => .acIllegalR8 | 8 => .acIllegalR9 | 9 => .acIllegalR10
  | 10 => .acIllegalR11 | 11 => .acIllegalR12 | 12 => .acIllegalR13 | 13 => .acIllegalR14

/-- The AC_RL row of run `r` and class `k + 1`. -/
def runLevelRow (r : BitVec 4) : Fin 15 → Instr
  | 0 => .acRlC1 r | 1 => .acRlC2 r | 2 => .acRlC3 r | 3 => .acRlC4 r | 4 => .acRlC5 r | 5 => .acRlC6 r
  | 6 => .acRlC7 r | 7 => .acRlC8 r | 8 => .acRlC9 r | 9 => .acRlC10 r | 10 => .acRlC11 r | 11 => .acRlC12 r
  | 12 => .acRlC13 r | 13 => .acRlC14 r | 14 => .acRlC15 r

/-! ## The loops, as runs of operations

An operation that returns a value leaves it in `ret`; where a rule runs one inside another, the register is as it was
before (`setRet s.ret`). -/

/-- The palette entries `k` to `n - 1` (rule R173). -/
inductive PaletteRun (n : Nat) : Nat → State → State → Prop
  | done (s : State) : PaletteRun n n s s
  | entry {k : Nat} {s t u : State} : k < n → exec (.palEntry (BitVec.ofNat 2 k)) s = .next t → PaletteRun n (k + 1) t u →
      PaletteRun n k s u

/-- The class left of column `c` (rule R174): 0 at column 0. -/
def State.leftClass (s : State) (c : Nat) : Fin 5 := if c = 0 then 0 else s.scratch.img.a

/-- The class above column `c` (rule R174). -/
def State.aboveClass (s : State) (c : Nat) : Fin 5 := s.scratch.img.prevLine[Fin.ofNat 16 c]

/-- The class above and left of column `c` (rule R174): 0 at column 0. -/
def State.cornerClass (s : State) (c : Nat) : Fin 5 := if c = 0 then 0 else s.scratch.img.b

/-- The state in which the class of the pixel at row `r`, column `c` is decoded (rule R174). -/
def State.atPixel (s : State) (r c : Nat) : State :=
  (s.setSeq { s.seq with j := Fin.ofNat 16 r, i := Fin.ofNat 16 c }).setImg
    { s.scratch.img with a := s.leftClass c, b := s.aboveClass c }

/-- The pixels from row `r`, column `c` on (rule R174). The context is `A + 5*B + 25*C`. -/
inductive PixelRun (p : Plane) : Nat → Nat → State → State → Prop
  | done (s : State) : PixelRun p p.bs 0 s s
  | row {r : Nat} {s t : State} : r < p.bs → PixelRun p (r + 1) 0 s t → PixelRun p r p.bs s t
  | pixel {r c : Nat} {s u t w : State} (x : Fin 125) (v : Fin 5) : r < p.bs → c < p.bs →
      x.val = (s.leftClass c).val + 5 * (s.aboveClass c).val + 25 * (s.cornerClass c).val →
      exec (.decSmall (.vq p x)) (s.atPixel r c) = .next u → u.ret = v.val →
      exec (vqRow v) (u.setRet s.ret) = .next t → PixelRun p r (c + 1) t w → PixelRun p r c s w

/-- `n` tokens of the AC loop of the current plane, up to the one that ends it (rule R198). -/
inductive AcScan : Nat → State → State → Prop
  | done {s : State} : s.scratch.scan ≠ .running → AcScan 0 s s
  | token {n : Nat} {s u t w : State} (v : Byte) (i : Instr) : s.scratch.scan = .running →
      exec (.decByte (.ac s.seq.p)) s = .next u → u.ret = v.toNat → decode (.symbol .acToken v) = .ok i →
      exec i (u.setRet s.ret) = .next t → AcScan n t w → AcScan (n + 1) s w

/-- The sub-blocks of a DCT block from number `k` on (rule R190). -/
inductive DctRun (p : Plane) : Nat → State → State → Prop
  | done (s : State) : DctRun p (p.nb * p.nb) s s
  | malformed {k : Nat} {s u : State} : k < p.nb * p.nb →
      exec (.dctSub p (BitVec.ofNat 16 (p.nb * s.seq.mbx + k % p.nb)) (BitVec.ofNat 16 (p.nb * s.seq.mby + k / p.nb)))
        (s.setSeq { s.seq with sb := Fin.ofNat 4 k }) = .next u → u.ret = 0 →
      DctRun p k s (setBlkErr (u.setRet s.ret))
  | written {k : Nat} {s u v w : State} : k < p.nb * p.nb →
      exec (.dctSub p (BitVec.ofNat 16 (p.nb * s.seq.mbx + k % p.nb)) (BitVec.ofNat 16 (p.nb * s.seq.mby + k / p.nb)))
        (s.setSeq { s.seq with sb := Fin.ofNat 4 k }) = .next u → u.ret = 1 →
      exec (.idctWrite p (BitVec.ofNat 4 (8 * (k / p.nb))) (BitVec.ofNat 4 (8 * (k % p.nb)))) (u.setRet s.ret) = .next v →
      DctRun p (k + 1) v w → DctRun p k s w

/-- The coefficients from row `j`, column `i` on (rules R215 to R218). -/
inductive HaarRun (p : Plane) : Nat → Nat → State → State → Prop
  | done (s : State) : HaarRun p p.bs 0 s s
  | row {j : Nat} {s t : State} : j < p.bs → HaarRun p (j + 1) 0 s t → HaarRun p j p.bs s t
  | coef {j i : Nat} {s u t : State} : j < p.bs → i < p.bs →
      exec (if i < p.bs / 2 ∧ j < p.bs / 2 then .haarLl else .haarHf)
        (s.setSeq { s.seq with j := Fin.ofNat 16 j, i := Fin.ofNat 16 i }) = .next u →
      HaarRun p j (i + 1) ((u.setRet s.ret).setHaarBlk
        (s.scratch.haarBlk.set (haarIndex j i) (u.ret * (s.coder p).haar.scale))) t →
      HaarRun p j i s t

/-- The blocks of a list in turn, each followed by ERROR_CHECK, up to the first that raises an abort (rules R242, R245). -/
inductive WalkRun : List (Nat × Nat × Plane) → State → Option AbortKind → State → Prop
  | done (s : State) : WalkRun [] s none s
  | abort {mby mbx : Nat} {p : Plane} {l : List (Nat × Nat × Plane)} {s t u : State} (k : AbortKind) :
      exec (.blockStep p (BitVec.ofNat 16 mbx) (BitVec.ofNat 16 mby)) s = .next t → pendingAbort t = some k →
      exec .errorCheck t = .next u → WalkRun ((mby, mbx, p) :: l) s (some k) u
  | block {mby mbx : Nat} {p : Plane} {l : List (Nat × Nat × Plane)} {s t u v : State} {r : Option AbortKind} :
      exec (.blockStep p (BitVec.ofNat 16 mbx) (BitVec.ofNat 16 mby)) s = .next t → pendingAbort t = none →
      exec .errorCheck t = .next u → WalkRun l u r v → WalkRun ((mby, mbx, p) :: l) s r v

/-- A safe outcome: no assertion of rule R271 fails. -/
def NoFault (r : Result) : Prop := ∀ f, r ≠ .fault f

end Sys2Proof.Machine
end

