-- ==== Sys2Proof/Certificates/Slice0/Obligations.lean ====
section
/-! DEFINITION. The statements for the provers, from the numbered rules of the spec. `OBLIGATIONS.json` lists them with their
rules. A statement that rests on a choice of the model says so and names the log entry. Where a premise asks
for canonical memories (`State.Canonical`, log entries 13 and 14), every step keeps it (`StepInvKept`). -/

open Sys2Proof Sys2Proof.Machine

/-- Decoding the code of any well-formed operation gives the operation back. Rules R90, R112, R113. For every
well-formed operation, with every operand at every value its rule admits, decode of encode is the operation. The
payload symbols' codes are the table's formats and values; the codes of the rows without an encoding are the model's
own (log entry 9). -/
def Obligations.EncodeThenDecode : Prop :=
  ∀ i : Instr, i.wf = true → decode (encode i) = .ok i

/-- A code that decodes is the code of what it decodes to. Rules R92, R93, R95, R97, R100. No two codes decode to one
operation, and no operand number outside its field is accepted: a code that decodes to an operation is that
operation's own code. (The rules give codes to the payload symbols alone; the codes of the rows without an encoding,
their operand numbers among them, are the model's choice, log entry 9.) -/
def Obligations.DecodeThenEncode : Prop :=
  ∀ (c : Code) (i : Instr), decode c = .ok i → encode i = c

/-- The symbol values of the tables select the rows the tables name. Rules R92, R93, R95, R97, R100, R107, R108. For
every format, every value of its alphabet selects the row its rule tabulates; a value outside the alphabet selects
none; the AC tokens 0x10 to 0xE0 in steps of 16 are the illegal ones, 0x00 ends a block, 0xF0 skips 16, and any other
token is a run and a class. -/
def Obligations.SymbolCodes : Prop :=
  (∀ v : Fin 5, decode (.symbol .blockType (BitVec.ofNat 8 v.val)) = .ok (blockRow v)) ∧
  (∀ v : Fin 12, decode (.symbol .coefClass (BitVec.ofNat 8 v.val)) = .ok (coefRow v)) ∧
  (∀ v : Fin 3, decode (.symbol .vecSize (BitVec.ofNat 8 v.val)) = .ok (vsRow v)) ∧
  (∀ v : Fin 5, decode (.symbol .vqClass (BitVec.ofNat 8 v.val)) = .ok (vqRow v)) ∧
  (∀ v : Byte, 12 ≤ v.toNat → decode (.symbol .coefClass v) = .error .unreachableSymbol) ∧
  (∀ v : Byte, 5 ≤ v.toNat → decode (.symbol .blockType v) = .error .unreachableSymbol ∧
    decode (.symbol .vqClass v) = .error .unreachableSymbol) ∧
  (∀ v : Byte, 3 ≤ v.toNat → decode (.symbol .vecSize v) = .error .unreachableSymbol) ∧
  decode (.symbol .acToken 0x00) = .ok .acEob ∧ decode (.symbol .acToken 0xF0) = .ok .acZrl ∧
  (∀ k : Fin 14, decode (.symbol .acToken (BitVec.ofNat 8 (16 * (k.val + 1)))) = .ok (illegalRow k)) ∧
  (∀ (r : Fin 16) (k : Fin 15), decode (.symbol .acToken (BitVec.ofNat 8 (16 * r.val + (k.val + 1)))) =
    .ok (runLevelRow (BitVec.ofFin r) k))

/-- A step takes the next operation, decodes its code and runs its meaning. Rules R24, R113, R230, R276. With an
internal operation selected, step is exec of the operation it decodes to, the selection cleared. With none selected,
it is the host's first command, taken off the queue. With neither the core is idle and the state stays. A code that
stands for no operation is refused. A table word stored by withFetchWord is run by the next step. (The selection latch
and the queue are the model's choice, log entry 8, and so are the code of a table word and the refusal of a code
without an operation, log entry 9; that an idle step leaves the state is its reading of R276, log entry 21.) -/
def Obligations.StepRunsDecoded : Prop :=
  ∀ s : State,
  (∀ c i, s.issue = some c → decode c = .ok i → step s = exec i { s with issue := none }) ∧
  (∀ c e, s.issue = some c → decode c = .error e → step s = .refused (.undecodable e)) ∧
  (∀ h l i, s.issue = none → s.cmds = h :: l → decode (.command h) = .ok i → step s = exec i { s with cmds := l }) ∧
  (∀ h l e, s.issue = none → s.cmds = h :: l → decode (.command h) = .error e → step s = .refused (.undecodable e)) ∧
  (s.issue = none → s.cmds = [] → step s = .next s) ∧
  (∀ n w i, decodeTableWord n w = some i → step (s.withFetchWord n w) = exec i { s with issue := none })

/-- Reset is the state a construction leaves, and both invariants hold in it. Rules R285, R286, R231, R289.
State.reset is what CONSTRUCT(16, 16, DOC, ...) leaves of a blank state (the frame size, the external functions and
the plane content are the model's choices, log entries 1 and 2). The frame state is Idle, the flag is clear, the cache
is NONE, and for every plane last_type is SKIP, fill_val is 0 and every DC-history entry is 0 (rule R286). The step
invariant and the host invariant hold. (The elements without a value after construction hold the model's, log entries
3 to 5; the canonical memories of the invariants and the empty selection latch are its choice, log entries 13, 14 and
8.) -/
def Obligations.ResetState : Prop :=
  (∃ a : ConstructArgs, a.frameW = 16 ∧ a.frameH = 16 ∧ a.profile = Profile.doc ∧
    exec (.construct a) State.blank = .next State.reset) ∧
  State.reset.fd.state = .idle ∧ State.reset.fd.errFlag = false ∧ State.reset.fd.qCache = none ∧
  (∀ p, (State.reset.coder p).bt.lastType = 4 ∧ (State.reset.coder p).fill.fillVal = 0 ∧
    ∀ bx dy, State.reset.dch p bx dy = 0) ∧
  State.reset.StepInv ∧ State.reset.HostInv

/-- Every step of any operation keeps the canonical memories, the model constants and the cursor bound. Rules R32,
R35, R36, R58. From every state at all, internal operations included: if the memories are in canonical form,
max_upd_val of every model is 8*n + 48, the cursor is not past the end, and an instance that does not exist has no
state, then the same holds in the next state. (The canonical form is the model's choice, log entries 13 and 14; that
an instance which does not exist leaves exactly the state of no instance is its reading, log entry 16, the queue and
the selection latch apart, log entry 8.) -/
def Obligations.StepInvKept : Prop :=
  ∀ s t : State, s.StepInv → step s = .next t → t.StepInv

/-- A host command never faults, and keeps what a host relies on between commands. Rules R271, R248, R137, R144, R150,
R86. From every state with no internal operation selected, canonical memories, good models, the frame state not
Decoding, the flag up exactly after an abort and a sound quality cache, no step ends in a fault (no assertion of rule
R271 fails), and a next state has the same properties. (That no internal operation is selected speaks of the model's
selection latch, log entry 8, and the canonical form of the memories is its choice, log entries 13 and 14; the faults
that stand for the assertions are its reading, log entry 12.) -/
def Obligations.HostInvKept : Prop :=
  ∀ s : State, s.HostInv → NoFault (step s) ∧ ∀ t, step s = .next t → t.HostInv

/-- Every host command of an instance completes, and every payload decodes to a frame result. Rules R114, R230, R260,
R231, R232, R249, R250. On an instance that exists, between commands, every well-formed command completes and leaves
the host's later commands waiting. A DECODE_FRAME of any payload ends in one of three ways: turned away with status 2,
3, 5 or 6 and the frame registers as they were; Committed with status 0 and the flag clear; or Aborted with status 1
or 4 and the flag set. (The queue of commands is the model's choice, log entry 8; that CONSTRUCT runs where an
instance exists is its reading, log entry 16.) -/
def Obligations.EveryCommandCompletes : Prop :=
  ∀ (s : State) (h : HostCall) (l : List HostCall), s.HostInv → s.alive = true → s.cmds = h :: l →
  (decodeCommand h).wf = true →
  ∃ t, step s = .next t ∧ t.cmds = l ∧ ∀ a, h = .decodeFrame a →
    (t.fd = s.fd ∧ t.status.code ∈ [2, 3, 5, 6]) ∨
    (t.fd.state = .committed ∧ t.fd.errFlag = false ∧ t.status.code = 0) ∨
    (t.fd.state = .aborted ∧ t.fd.errFlag = true ∧ t.status.code ∈ [1, 4])

/-- A write is read back, leaves every other address alone and keeps the canonical form. Rule R79. For a canonical
memory: reading the written address gives the value, reading any other address gives what it gave, and the memory
stays canonical. Two samples of the planes, and two positions of a history, have different addresses. (The memory of
cells, its canonical form and the addresses are the model's choice: the spec gives planes and histories no addresses,
log entries 13 and 14.) -/
def Obligations.MemoryReadWrite : Prop :=
  (∀ (w : Nat) (m : Store w) (a : Nat) (v : BitVec w), m.wf = true →
    (m.write a v).wf = true ∧ (m.write a v).read a = v ∧ ∀ b, b ≠ a → (m.write a v).read b = m.read b) ∧
  (∀ (p q : Plane) (r c r' c' : Nat), r < 65536 → c < 65536 → r' < 65536 → c' < 65536 →
    sampleAddr p r c = sampleAddr q r' c' → p = q ∧ r = r' ∧ c = c') ∧
  (∀ x y x' y' : Nat, x < 65536 → x' < 65536 → histAddr x y = histAddr x' y' → x = x' ∧ y = y')

/-- The resets and constructions of the three model kinds write the tabulated values. Rules R135, R143, R145, R149.
M2_RESET writes the six values of rule R135. MS_CONSTRUCT and MS_RESET write the row of rule R143 for the alphabet,
MB_CONSTRUCT and MB_RESET the values of rule R149; a construction also fixes max_upd_val = 8*n + 48, a reset leaves
it. Nothing else of the state changes. -/
def Obligations.ModelResets : Prop :=
  ∀ s : State, s.alive = true →
  (∀ m : BinRef, exec (.m2Reset m) s = .next (s.setBin m
    { zeroWeight := 1, totalWeight := 2, zeroFreq := 0x1000, totalFreq := 0x2000, updVal := 4, tillRescale := 4 })) ∧
  (∀ m : SmallRef, ∃ y : FreqModel m.size,
    exec (.msConstruct m) s = .next (s.setSmall m y) ∧
    exec (.msReset m) s = .next (s.setSmall m { y with maxUpdVal := (s.small m).maxUpdVal }) ∧
    y.weights.toList.map BitVec.toNat = List.replicate m.size 1 ∧ y.totWeight.toNat = m.size ∧
    y.updVal.toNat = (m.size + 6) / 2 ∧ y.tillRescale = y.updVal ∧ y.maxUpdVal.toNat = 8 * m.size + 48 ∧
    y.freqs.toList.map BitVec.toNat = match m with
      | .vs _ => [0, 10922, 21845]
      | .bt _ _ | .vq _ _ => [0, 6553, 13107, 19660, 26214]
      | .fillCoef _ | .dctDc _ | .haarCoef _ =>
        [0, 2730, 5461, 8191, 10922, 13653, 16383, 19114, 21845, 24575, 27306, 30037]) ∧
  (∀ m : ByteRef, ∃ y : ByteModel,
    exec (.mbConstruct m) s = .next (s.setByte m y) ∧
    exec (.mbReset m) s = .next (s.setByte m { y with base := { y.base with maxUpdVal := (s.byte m).base.maxUpdVal } }) ∧
    (∀ i : Fin 256, y.base.weights[i].toNat = 1 ∧ y.base.freqs[i].toNat = 128 * i.val) ∧
    y.base.totWeight.toNat = 256 ∧ y.base.updVal.toNat = 131 ∧ y.base.tillRescale.toNat = 131 ∧
    y.base.maxUpdVal.toNat = 2096 ∧
    ∀ k : Fin 66, y.secondary[k].val = if k.val = 0 then 0 else if k.val ≤ 63 then 4 * k.val - 1 else 255)

/-- M2_UPDATE counts the bit, and at the end of a period adds, halves above 0x2000, rescales and decays. Rule R136. On
a Binary model with its invariant, M2_UPDATE writes that model alone: before the period's last symbol it counts a 0
and counts down; at the last it adds upd_val, halves both weights above 0x2000 with the forced difference, scales both
frequencies by 0x80000000 / total >> 18, decays upd_val by 5/4 capped at 64 and reloads the counter. -/
def Obligations.BinaryUpdate : Prop :=
  ∀ (s : State) (m : BinRef) (b : Bool), s.alive = true → (s.bin m).Good →
  ∃ y, exec (.m2Update m b) s = .next (s.setBin m y) ∧ (s.bin m).Updates y b

/-- MS_UPDATE counts the symbol, and at the end of a period adds, halves above 0x8000, rebuilds and decays. Rule R139.
On a Small model with its invariant, MS_UPDATE with a symbol of its alphabet writes that model alone: before the
period's last symbol it counts the symbol and counts down; at the last it adds upd_val, halves every weight above
0x8000, rebuilds every frequency from the weights below it, decays upd_val by 5/4 capped at max_upd_val and reloads
the counter. A symbol outside the alphabet fails an assertion. (That assertion is the model's reading, log entry 12.)
-/
def Obligations.SmallUpdate : Prop :=
  ∀ (s : State) (m : SmallRef) (v : BitVec 4), s.alive = true → (s.small m).Good →
  if h : v.toNat < m.size then
    ∃ y, exec (.msUpdate m v) s = .next (s.setSmall m y) ∧ (s.small m).Updates y ⟨v.toNat, h⟩
  else exec (.msUpdate m v) s = .fault .tableIndex

/-- MB_UPDATE is MS_UPDATE over 256 symbols, with the secondary index rebuilt in lock-step with the frequencies. Rule
R146. On a Byte model with its invariant, MB_UPDATE writes that model alone. Its table is updated as by MS_UPDATE with
n = 256. Its index is unchanged before the period's last symbol; at the last it is rebuilt from the new frequencies:
entry 0 is 0, and entry s is the highest symbol whose frequency is below 512*s. -/
def Obligations.ByteUpdate : Prop :=
  ∀ (s : State) (m : ByteRef) (v : Byte), s.alive = true → (s.byte m).Good →
  ∃ y, exec (.mbUpdate m v) s = .next (s.setByte m y) ∧ (s.byte m).base.Updates y.base v.toFin ∧
    ((s.byte m).base.tillRescale.toNat ≠ 1 → y.secondary = (s.byte m).secondary) ∧
    y.secondary[0] = 0 ∧ ∀ k : Fin 66, 0 < k.val → IsBucket y.base.freqs k.val y.secondary[k]

/-- MB_SECONDARY rebuilds the 66 entries from the frequencies. Rule R147. On a table that starts at 0, rises strictly
and stays below 0x8000, MB_SECONDARY writes the index of that model alone: entry 0 is 0, entry s for 1 <= s <= 65 is
the highest symbol with freqs < 512*s, and entries 64 and 65 are 255. -/
def Obligations.SecondaryIndex : Prop :=
  ∀ (s : State) (m : ByteRef), s.alive = true →
  (s.byte m).base.freqs[0].toNat = 0 →
  (∀ i j : Fin 256, i < j → (s.byte m).base.freqs[i].toNat < (s.byte m).base.freqs[j].toNat) →
  (∀ i : Fin 256, (s.byte m).base.freqs[i].toNat < 0x8000) →
  ∃ index : Vector (Fin 256) 66,
    exec (.mbSecondary m) s = .next (s.setByte m { s.byte m with secondary := index }) ∧
    index[0] = 0 ∧ (∀ k : Fin 66, 0 < k.val → IsBucket (s.byte m).base.freqs k.val index[k]) ∧
    index[64] = 255 ∧ index[65] = 255

/-- Every model update and reset keeps the model invariants. Rules R137, R144, R150, R151. M2_UPDATE, MS_UPDATE and
MB_UPDATE keep the invariants of all models of the instance (weights at least 1, totals in range, frequencies strictly
rising from 0 below 0x8000, zero_freq in 1..0x1FFF, the index the function of the frequencies), and M2_RESET,
MS_RESET, MB_RESET and the constructions do. -/
def Obligations.ModelInvariants : Prop :=
  ∀ s : State, s.alive = true → s.ModelsGood →
  (∀ m b, ∃ t, exec (.m2Update m b) s = .next t ∧ t.ModelsGood) ∧
  (∀ m v, v.toNat < m.size → ∃ t, exec (.msUpdate m v) s = .next t ∧ t.ModelsGood) ∧
  (∀ m v, ∃ t, exec (.mbUpdate m v) s = .next t ∧ t.ModelsGood) ∧
  (∀ m, ∃ t, exec (.m2Reset m) s = .next t ∧ t.ModelsGood) ∧
  (∀ m, ∃ t, exec (.msReset m) s = .next t ∧ t.ModelsGood) ∧
  (∀ m, ∃ t, exec (.mbReset m) s = .next t ∧ t.ModelsGood) ∧
  (∀ m, ∃ t, exec (.msConstruct m) s = .next t ∧ t.ModelsGood) ∧
  (∀ m, ∃ t, exec (.mbConstruct m) s = .next t ∧ t.ModelsGood)

/-- MS_HALVE halves every weight rounding up, keeps the last nonzero, and sums. Rules R140, R146. On a Small model,
and on the table of a Byte model, whose weights' sum leaves room for the rounding: every weight w becomes (w + 1) / 2,
the last one at least 1, tot_weight becomes their sum, and nothing else of the state changes. (That MS_HALVE takes the
table of a Byte model too is the model's reading of R146, log entry 26.) -/
def Obligations.HalveWeights : Prop :=
  ∀ s : State, s.alive = true →
  (∀ m : SmallRef, (s.small m).weightTotal + m.size < 2 ^ 32 → ∃ y : FreqModel m.size,
    exec (.msHalve (.small m)) s = .next (s.setSmall m y) ∧
    y = { s.small m with weights := y.weights, totWeight := y.totWeight } ∧ y.totWeight.toNat = y.weightTotal ∧
    ∀ i : Fin m.size, y.weights[i].toNat = if i.val = m.size - 1 then max 1 (((s.small m).weights[i].toNat + 1) / 2)
      else ((s.small m).weights[i].toNat + 1) / 2) ∧
  (∀ m : ByteRef, (s.byte m).base.weightTotal + 256 < 2 ^ 32 → ∃ y : FreqModel 256,
    exec (.msHalve (.byte m)) s = .next (s.setByte m { s.byte m with base := y }) ∧
    y = { (s.byte m).base with weights := y.weights, totWeight := y.totWeight } ∧ y.totWeight.toNat = y.weightTotal ∧
    ∀ i : Fin 256, y.weights[i].toNat = if i.val = 255 then max 1 (((s.byte m).base.weights[i].toNat + 1) / 2)
      else ((s.byte m).base.weights[i].toNat + 1) / 2)

/-- MS_FREQS rebuilds every cumulative frequency from the weights below it. Rules R141, R146. On a Small model, and on
the table of a Byte model, with a nonzero total that is at least the sum of the weights: freqs[i] becomes (weights
below i) * (0x80000000 / tot_weight) >> 16, and nothing else of the state changes. With a total of 0 the division
fails an assertion. (The assertion is the model's reading, log entry 12; that MS_FREQS takes the table of a Byte model
too is its reading of R146, log entry 26.) -/
def Obligations.RebuildFrequencies : Prop :=
  ∀ s : State, s.alive = true →
  (∀ m : SmallRef, (s.small m).totWeight = 0 → exec (.msFreqs (.small m)) s = .fault .divideByZero) ∧
  (∀ m : ByteRef, (s.byte m).base.totWeight = 0 → exec (.msFreqs (.byte m)) s = .fault .divideByZero) ∧
  (∀ m : SmallRef, 1 ≤ (s.small m).totWeight.toNat → (s.small m).weightTotal ≤ (s.small m).totWeight.toNat →
    ∃ f : Vector U32 m.size, exec (.msFreqs (.small m)) s = .next (s.setSmall m { s.small m with freqs := f }) ∧
    ∀ i : Fin m.size, f[i].toNat = (s.small m).weightBelow i * (0x80000000 / (s.small m).totWeight.toNat) / 2 ^ 16) ∧
  (∀ m : ByteRef, 1 ≤ (s.byte m).base.totWeight.toNat →
    (s.byte m).base.weightTotal ≤ (s.byte m).base.totWeight.toNat →
    ∃ f : Vector U32 256,
    exec (.msFreqs (.byte m)) s = .next (s.setByte m { s.byte m with base := { (s.byte m).base with freqs := f } }) ∧
    ∀ i : Fin 256, f[i].toNat =
      (s.byte m).base.weightBelow i * (0x80000000 / (s.byte m).base.totWeight.toNat) / 2 ^ 16)

/-- RD_INIT loads up to four payload bytes, most significant first, and clears the error flag. Rule R115. For any
payload of length L, RD_INIT writes the interval registers alone: range 0xFFFFFFFF, err false, end L, cur min(L, 4),
and low the big-endian value of the first min(L, 4) bytes. -/
def Obligations.DecoderInit : Prop :=
  ∀ s : State, s.alive = true → ∃ rd, exec .rdInit s = .next (s.setRd rd) ∧
  rd.range = 0xFFFFFFFF ∧ rd.err = false ∧ rd.stop = s.inp.payload.length ∧ rd.cur = min s.inp.payload.length 4 ∧
  rd.low.toNat = bigEndian (s.inp.payload.take 4)

/-- NORMALISE runs the rounds of the rule until range >= 0x01000000, and at most three. Rule R117. From a nonzero
range with the cursor in the payload, NORMALISE writes the interval registers alone and ends with range >= 0x01000000.
With range already there it changes nothing; otherwise one round of the rule (shift, next byte or substitution, the
check low > range) leads to a state from which NORMALISE ends alike. It reads at most 3 bytes, and at most 2 when
range >= 2^9 on entry (rule R118). -/
def Obligations.Normalise : Prop :=
  ∀ s : State, s.alive = true → s.rd.stop = s.inp.payload.length → s.rd.cur ≤ s.rd.stop → 1 ≤ s.rd.range.toNat →
  ∃ rd, exec .normalise s = .next (s.setRd rd) ∧ 0x1000000 ≤ rd.range.toNat ∧
    rd.cur ≤ s.rd.cur + 3 ∧ (2 ^ 9 ≤ s.rd.range.toNat → rd.cur ≤ s.rd.cur + 2) ∧
    (0x1000000 ≤ s.rd.range.toNat → rd = s.rd) ∧
    (s.rd.range.toNat < 0x1000000 → ∃ a, NormaliseRound s.policy s.inp.payload s.rd a ∧
      exec .normalise (s.setRd a) = .next (s.setRd rd))

/-- GET_BIT halves the range, compares, subtracts, renormalises and returns the bit. Rule R119. From a state that can
decode, GET_BIT completes: with half the range, the bit is 1 exactly when low >= half, then low loses half; NORMALISE
follows; the bit is returned. No model changes. -/
def Obligations.GetBit : Prop :=
  ∀ s : State, s.CanDecode →
  let half := s.rd.range.toNat / 2
  let b := decide (half ≤ s.rd.low.toNat)
  ∃ u, s.narrowed half (if b then s.rd.low.toNat - half else s.rd.low.toNat) = .next u ∧
    exec .getBit s = .next (u.setRet (if b then 1 else 0))

/-- GET_BITS(n) divides the range by 2^n, returns low div range and keeps the remainder. Rule R121. For 1 <= n <= 14
from a state that can decode, GET_BITS(n) completes: range becomes range >> n, the value is low div range, low becomes
the remainder, NORMALISE follows. On any payload the value is at most 2^n + 16 (rule R122). -/
def Obligations.GetBits : Prop :=
  ∀ (s : State) (n : BitVec 4), s.CanDecode → 1 ≤ n.toNat → n.toNat ≤ 14 →
  let part := s.rd.range.toNat / 2 ^ n.toNat
  let val := s.rd.low.toNat / part
  val ≤ 2 ^ n.toNat + 16 ∧ ∃ u, s.narrowed part (s.rd.low.toNat - part * val) = .next u ∧
    exec (.getBits n) s = .next (u.setRet val)

/-- DEC_BIN splits the interval at zero_freq * (range >> 13), renormalises, then updates the model. Rule R123. From a
state that can decode, DEC_BIN(m) completes: helper is zero_freq * (range >> 13); the bit is 1 exactly when low >=
helper, which takes helper off low and range; a 0 leaves range = helper. NORMALISE comes next, then M2_UPDATE(m, bit),
and the bit is returned. -/
def Obligations.DecBin : Prop :=
  ∀ (s : State) (m : BinRef), s.CanDecode →
  let helper := (s.bin m).zeroFreq.toNat * (s.rd.range.toNat / 2 ^ 13)
  let b := decide (helper ≤ s.rd.low.toNat)
  ∃ u v, s.narrowed (if b then s.rd.range.toNat - helper else helper)
      (if b then s.rd.low.toNat - helper else s.rd.low.toNat) = .next u ∧
    exec (.m2Update m b) u = .next v ∧ exec (.decBin m) s = .next (v.setRet (if b then 1 else 0))

/-- DEC_SMALL selects the highest symbol whose interval starts at or below low, renormalises, then updates. Rule R131.
From a state that can decode, DEC_SMALL(m) completes with the largest v of the alphabet with freqs[v] * (range >> 15)
<= low. low loses freqs[v]*rs; range becomes the distance to freqs[v+1]*rs, or to the old range for the top symbol.
NORMALISE comes next, then MS_UPDATE(m, v), and v is returned. -/
def Obligations.DecSmall : Prop :=
  ∀ (s : State) (m : SmallRef), s.CanDecode →
  let rs := s.rd.range.toNat / 2 ^ 15
  ∃ v : Fin m.size, (s.small m).freqs[v].toNat * rs ≤ s.rd.low.toNat ∧
    (∀ k : Fin m.size, (s.small m).freqs[k].toNat * rs ≤ s.rd.low.toNat → k ≤ v) ∧
    let prob := (s.small m).freqs[v].toNat * rs
    let prob2 := if h : v.val + 1 < m.size then (s.small m).freqs[v.val + 1].toNat * rs else s.rd.range.toNat
    ∃ u w, s.narrowed (prob2 - prob) (s.rd.low.toNat - prob) = .next u ∧
      exec (.msUpdate m (BitVec.ofNat 4 v.val)) u = .next w ∧ exec (.decSmall m) s = .next (w.setRet v.val)

/-- DEC_BYTE selects the highest symbol with freqs <= low div (range >> 15), renormalises, then updates. Rule R133.
From a state that can decode, DEC_BYTE(m) completes with the largest v with freqs[v] <= low div (range >> 15). low
loses freqs[v]*rs; range becomes the distance to freqs[v+1]*rs, or to the old range for 255. NORMALISE comes next,
then MB_UPDATE(m, v), and v is returned. -/
def Obligations.DecByte : Prop :=
  ∀ (s : State) (m : ByteRef), s.CanDecode →
  let rs := s.rd.range.toNat / 2 ^ 15
  ∃ v : Fin 256, (s.byte m).base.freqs[v].toNat ≤ s.rd.low.toNat / rs ∧
    (∀ k : Fin 256, (s.byte m).base.freqs[k].toNat ≤ s.rd.low.toNat / rs → k ≤ v) ∧
    let prob := (s.byte m).base.freqs[v].toNat * rs
    let prob2 := if h : v.val + 1 < 256 then (s.byte m).base.freqs[v.val + 1].toNat * rs else s.rd.range.toNat
    ∃ u w, s.narrowed (prob2 - prob) (s.rd.low.toNat - prob) = .next u ∧
      exec (.mbUpdate m (BitVec.ofNat 8 v.val)) u = .next w ∧ exec (.decByte m) s = .next (w.setRet v.val)

/-- range >= RAC_BOTTOM after every primitive, and after RD_INIT. Rule R127. From any state whatever, if one of the
five primitives, NORMALISE or RD_INIT answers a next state, range is at least 0x01000000 in it. (Where they answer
one, the statements of each primitive say.) -/
def Obligations.RangeBottom : Prop :=
  ∀ (s t : State) (i : Instr),
  (i = .getBit ∨ (∃ n, i = .getBits n) ∨ (∃ m, i = .decBin m) ∨ (∃ m, i = .decSmall m) ∨ (∃ m, i = .decByte m) ∨
    i = .normalise ∨ i = .rdInit) →
  exec i s = .next t → 0x1000000 ≤ t.rd.range.toNat

/-- RD_INIT makes a state that can decode, every primitive keeps it, and low never exceeds range + 7. Rule R126. On an
instance with good models, RD_INIT leads to a state that can decode, with low <= range. In a state that can decode,
low <= range + 7, and each of the five primitives completes in a state that can decode. -/
def Obligations.DecodingGoesOn : Prop :=
  (∀ s : State, s.alive = true → s.ModelsGood →
    ∃ t, exec .rdInit s = .next t ∧ t.CanDecode ∧ t.rd.low.toNat ≤ t.rd.range.toNat) ∧
  ∀ s : State, s.CanDecode → s.rd.low.toNat ≤ s.rd.range.toNat + 7 ∧
    (∃ t, exec .getBit s = .next t ∧ t.CanDecode) ∧
    (∀ n : BitVec 4, 1 ≤ n.toNat → n.toNat ≤ 14 → ∃ t, exec (.getBits n) s = .next t ∧ t.CanDecode) ∧
    (∀ m, ∃ t, exec (.decBin m) s = .next t ∧ t.CanDecode) ∧
    (∀ m, ∃ t, exec (.decSmall m) s = .next t ∧ t.CanDecode) ∧
    (∀ m, ∃ t, exec (.decByte m) s = .next t ∧ t.CanDecode)

/-- RD.err, once set, stays set through every operation but RD_INIT and the commands that build a new decoder. Rules
R33, R51. From any state, whatever the operation: if RD.err is set before it and it answers a next state, RD.err is
set after it, unless the operation is RD_INIT, DECODER_START (which runs it), DECODE_FRAME (which may), CONSTRUCT or
DESTROY. RD_INIT clears it. -/
def Obligations.ErrorFlagSticky : Prop :=
  ∀ (s t : State) (i : Instr), exec i s = .next t →
  (i = .rdInit → t.rd.err = false) ∧
  (s.rd.err = true → i ≠ .rdInit → i ≠ .decoderStart → (∀ a, i ≠ .decodeFrame a) → (∀ a, i ≠ .construct a) →
    i ≠ .destroy → t.rd.err = true)

/-- Under DISCARD no operation but a commit, a frame or a construction writes the reference planes. Rules R50, R70,
R246, R263. From any state under ABORT_WRITES = DISCARD: an operation that answers a next state leaves REF as it was,
unless it is COMMIT, DECODE_FRAME (which commits), CONSTRUCT or DESTROY. No block, walk or abort exposes a partial
write. -/
def Obligations.ReferenceWrittenByCommitOnly : Prop :=
  ∀ (s t : State) (i : Instr), s.params.profile.abortWrites = .discard → exec i s = .next t →
  i ≠ .commit → (∀ a, i ≠ .decodeFrame a) → (∀ a, i ≠ .construct a) → i ≠ .destroy → t.ref = s.ref

/-- BT_SELECT decodes with the model of the last type and records the new one. Rule R160. From a state that can
decode, BT_SELECT(p) completes: it is DEC_SMALL of BT[p].model[BT[p].last_type], whose symbol 0..4 becomes
BT[p].last_type and is returned. Nothing else changes. -/
def Obligations.SelectBlockType : Prop :=
  ∀ (s : State) (p : Plane), s.CanDecode →
  ∃ (v : Fin 5) (u : State), exec (.decSmall (.bt p (s.coder p).bt.lastType)) s = .next u ∧ u.ret = v.val ∧
    exec (.btSelect p) s =
      .next (u.setCoder p { u.coder p with bt := { (u.coder p).bt with lastType := v } })

/-- COEF_SIGN, COEF_EXTRA and the twelve class rows assemble the coefficient. Rules R93, R94, R162, R13. From a state
that can decode: COEF_SIGN is GET_BIT, the value negative exactly when the bit is SIGN_NEG, of magnitude 1 so far;
COEF_EXTRA(n) for 1 <= n <= 10 is GET_BITS(n), of magnitude 2^n + e with the sign decided before; class 0 returns 0;
class 1 is COEF_SIGN; a class v in 2..11 is COEF_SIGN then COEF_EXTRA(v - 1). (That a class row carries out what
follows the class symbol is the model's reading, log entry 11. That COEF_SIGN leaves -1 or 1 in the returned value,
and that COEF_EXTRA run alone takes its sign from the sign latch, are its choices, log entry 10.) -/
def Obligations.CoefficientOperands : Prop :=
  ∀ s : State, s.CanDecode →
  (∃ u, exec .getBit s = .next u ∧
    let neg := decide (u.ret = 1) == s.params.profile.signNeg.bit
    exec .coefSign s = .next ((u.setNeg neg).setRet (if neg then -1 else 1))) ∧
  (∀ n : BitVec 4, 1 ≤ n.toNat → n.toNat ≤ 10 → ∃ (u : State) (e : Nat), exec (.getBits n) s = .next u ∧ u.ret = e ∧
    exec (.coefExtra n) s = .next (u.setRet (if s.scratch.neg then -(2 ^ n.toNat + e : Int) else 2 ^ n.toNat + e))) ∧
  exec .coefC0 s = .next (s.setRet 0) ∧
  (∃ t, exec .coefSign s = .next t ∧ exec .coefC1 s = .next t) ∧
  (∀ v : Fin 12, 2 ≤ v.val → ∃ u t, exec .coefSign s = .next u ∧
    exec (.coefExtra (BitVec.ofNat 4 (v.val - 1))) (u.setRet s.ret) = .next t ∧ exec (coefRow v) s = .next t)

/-- DECODE_COEFF decodes a class and what follows it, and its result is bounded on every payload. Rules R162, R163,
R102. From a state that can decode, DECODE_COEFF(m) completes: DEC_SMALL(m) gives the class v, and the row of class v
gives the coefficient. On any payload its magnitude is at most 2^v + 16 <= 2064; it is 0 only for class 0, and at
least 2^(v-1) otherwise. It writes the model m, the interval, the sign latch and the returned value alone. (The two
latches are the model's choice, log entry 10; that the row of a class carries out what follows the class is its
reading, log entry 11.) -/
def Obligations.DecodeCoefficient : Prop :=
  ∀ (s : State) (m : CoefRef), s.CanDecode →
  ∃ (v : Fin 12) (u t : State), exec (.decSmall m.model) s = .next u ∧ u.ret = v.val ∧
    exec (coefRow v) (u.setRet s.ret) = .next t ∧ exec (.decodeCoeff m) s = .next t ∧
    t.ret.natAbs ≤ 2 ^ v.val + 16 ∧ t.ret.natAbs ≤ 2064 ∧
    (if v.val = 0 then t.ret = 0 else 2 ^ (v.val - 1) ≤ t.ret.natAbs) ∧
    t = { s.setSmall m.model (t.small m.model) with
          rd := t.rd, scratch := { s.scratch with neg := t.scratch.neg }, ret := t.ret }

/-- FILL adds a coefficient to fill_val and sets every sample of the block to its low byte. Rules R170, R171. From a
state that can decode whose current block lies in its plane, FILL completes: DECODE_COEFF of FILLC[p].coef gives the
delta, fill_val becomes the wrapped sum, every sample of the block reads fill_val mod 256. Every other byte of the
planes, every other coder and every register the delta's decoding leaves alone are unchanged. -/
def Obligations.FillBlock : Prop :=
  ∀ s : State, s.CanDecode → s.Canonical → s.BlockFits s.seq.p →
  ∃ u t, exec (.decodeCoeff (.fill s.seq.p)) s = .next u ∧ exec .fill s = .next t ∧
    (t.coder s.seq.p).fill.fillVal = wrapI32 ((s.coder s.seq.p).fill.fillVal.toInt + u.ret) ∧
    t = ((u.setRet s.ret).setCoder s.seq.p { u.coder s.seq.p with fill := (t.coder s.seq.p).fill }).setCanvas t.canvas ∧
    (t.coder s.seq.p).fill.coef = (u.coder s.seq.p).fill.coef ∧
    (∀ r c, r < s.seq.p.bs → c < s.seq.p.bs →
      ((t.sample s.seq.p ((s.origin s.seq.p).1 + r) ((s.origin s.seq.p).2 + c)).toNat : Int) =
        (t.coder s.seq.p).fill.fillVal.toInt % 256) ∧
    s.Steady t ∧ s.OnlyPart s.seq.p .fill t ∧ s.WritesBlock s.seq.p t

/-- SKIP changes nothing, and a vector-size symbol s sets vec_size to s + 2. Rules R178, R95. On an instance that
exists: SKIP completes with the state as it was; each of the three vector-size rows completes, sets vec_size to 2, 3
or 4, and changes nothing else. (The register that holds vec_size is the model's choice, log entry 10; that a
vector-size row runs by itself, its symbol decoded before, is its reading, log entry 11.) -/
def Obligations.SkipAndVectorSize : Prop :=
  ∀ s : State, s.alive = true → exec .skip s = .next s ∧
  ∀ v : Fin 3, ∃ t, exec (vsRow v) s = .next t ∧ vecSize t.scratch.img.vs = v.val + 2 ∧
    t = s.setImg { s.scratch.img with vs := t.scratch.img.vs }

/-- PAL_ENTRY stores a BYTE of the palette model, ESC_LITERAL writes a BYTE of the escape model as the sample. Rules
R96, R98, R173, R176. From a state that can decode: PAL_ENTRY(k) is DEC_BYTE(IMGC[p].pal), stored as vec[k] with the
other entries kept. ESC_LITERAL is DEC_BYTE(IMGC[p].esc), written at the current pixel of the block, every other byte
of the planes as it was; a pixel outside the plane fails an assertion. (That assertion is the model's reading of R88,
log entry 12; that an operand row decodes its own symbol is its reading, log entry 11.) -/
def Obligations.PaletteAndEscape : Prop :=
  ∀ s : State, s.CanDecode →
  (∀ k : BitVec 2, ∃ (v : Byte) (u : State), exec (.decByte (.pal s.seq.p)) s = .next u ∧ u.ret = v.toNat ∧
    exec (.palEntry k) s = .next ((u.setRet s.ret).setImg
      { s.scratch.img with vec := s.scratch.img.vec.set k.toNat v k.isLt })) ∧
  let row := (s.origin s.seq.p).1 + s.seq.j.val
  let col := (s.origin s.seq.p).2 + s.seq.i.val
  (¬ (row < s.planeH s.seq.p ∧ col < s.planeW s.seq.p) → exec .escLiteral s = .fault .sampleIndex) ∧
  (s.Canonical → row < s.planeH s.seq.p → col < s.planeW s.seq.p →
    ∃ (v : Byte) (u t : State), exec (.decByte (.esc s.seq.p)) s = .next u ∧ u.ret = v.toNat ∧
      exec .escLiteral s = .next t ∧ t = (u.setRet s.ret).setCanvas t.canvas ∧ t.sample s.seq.p row col = v ∧
      s.WritesIn s.seq.p row col 1 1 t)

/-- A VQ class below the limit writes its palette entry, any other decodes and writes an escape literal. Rules R174,
R175. From a state that can decode whose current pixel lies in its plane, the row of class a completes. The class
becomes the left class and the lookback entry of the column. Below the limit (vec_size under VEC_SIZE, 4 under FOUR)
the sample is vec[a], every other byte as it was; otherwise ESC_LITERAL follows. (That the row of a class runs without
decoding the class is the model's reading, log entry 11; that the left class and vec_size stand in latches is its
choice, log entry 10.) -/
def Obligations.VqClassToSample : Prop :=
  ∀ (s : State) (a : Fin 5), s.CanDecode → s.Canonical →
  (s.origin s.seq.p).1 + s.seq.j.val < s.planeH s.seq.p → (s.origin s.seq.p).2 + s.seq.i.val < s.planeW s.seq.p →
  let x := s.setImg { s.scratch.img with a := a, prevLine := s.scratch.img.prevLine.set s.seq.i a }
  let limit := match s.params.profile.vqLimit with
    | .vecSize => s.scratch.img.vs.val + 2
    | .four => 4
  if h : a.val < limit ∧ a.val < 4 then
    ∃ t, exec (vqRow a) s = .next t ∧ t = x.setCanvas t.canvas ∧
      t.sample s.seq.p ((s.origin s.seq.p).1 + s.seq.j.val) ((s.origin s.seq.p).2 + s.seq.i.val) =
        s.scratch.img.vec[a.val]'h.2 ∧
      s.WritesIn s.seq.p ((s.origin s.seq.p).1 + s.seq.j.val) ((s.origin s.seq.p).2 + s.seq.i.val) 1 1 t
  else limit ≤ a.val ∧ ∃ t, exec .escLiteral x = .next t ∧ exec (vqRow a) s = .next t

/-- IMAGE decodes a vector size, the palette, then one class per pixel in raster order, with the context A + 5*B +
25*C. Rules R173, R174, R179. From a state that can decode whose current block lies in its plane, IMAGE completes.
DEC_SMALL(IMGC[p].vs) gives v and its row sets vec_size = v + 2; that many palette entries follow; the unused entries
and the lookback buffer are cleared; then for every pixel in raster order the class is decoded with the model of its
context and its row is run. Samples outside the block, the other coders and the frame registers are unchanged. (That
the rows of the sizes, entries and classes run as operations of their own is the model's reading, log entry 11; the
latches they share are its choice, log entry 10.) -/
def Obligations.ImageBlock : Prop :=
  ∀ s : State, s.CanDecode → s.Canonical → s.BlockFits s.seq.p →
  ∃ (v : Fin 3) (u x w t : State), exec (.decSmall (.vs s.seq.p)) s = .next u ∧ u.ret = v.val ∧
    exec (vsRow v) (u.setRet s.ret) = .next x ∧ PaletteRun (v.val + 2) 0 x w ∧
    PixelRun s.seq.p 0 0 (w.setImg { w.scratch.img with
      vec := Vector.ofFn fun k => if k.val < v.val + 2 then w.scratch.img.vec[k] else 0
      prevLine := Vector.replicate 16 0 }) t ∧
    exec .image s = .next t ∧ s.Steady t ∧ s.OnlyPart s.seq.p .image t ∧ s.WritesBlock s.seq.p t

/-- DC_PREDICT takes the neighbours that exist, and MINGRAD the smaller gradient. Rules R194, R195, R196. MINGRAD
returns T when |T - TL| <= |L - TL| and L otherwise under TOP, and the other of the two under LEFT, the differences
without wrap. DC_PREDICT with both coordinates positive is MINGRAD of the three neighbours, in the left column it
returns the top one, in the top row the left one, and 0 at the origin. Where a neighbour it reads lies outside the
history it fails an assertion: with both coordinates positive exactly when the position itself is outside, in the left
column when the position above is, in the top row when the position to the left is; at the origin it reads none.
Otherwise it completes, and both change the returned value alone. (The assertion is the model's reading of R88, log
entry 12; the returned value's latch is its choice, log entry 10.) -/
def Obligations.DcPrediction : Prop :=
  ∀ s : State, s.alive = true →
  (∀ l t tl : I32, exec (.mingrad l t tl) s = .next (s.setRet
    (match s.params.profile.dcTie with
      | .top => if |t.toInt - tl.toInt| ≤ |l.toInt - tl.toInt| then t.toInt else l.toInt
      | .left => if |t.toInt - tl.toInt| ≤ |l.toInt - tl.toInt| then l.toInt else t.toInt))) ∧
  ∀ (p : Plane) (bx dy : U16),
    let x := bx.toNat
    let y := dy.toNat
    exec (.dcPredict p bx dy) s =
      if 0 < y ∧ 0 < x then
        if x < s.histW p ∧ y < s.histH p then
          exec (.mingrad (s.dch p (x - 1) y) (s.dch p x (y - 1)) (s.dch p (x - 1) (y - 1))) s
        else .fault .historyIndex
      else if 0 < y then
        if 0 < s.histW p ∧ y ≤ s.histH p then .next (s.setRet (s.dch p 0 (y - 1)).toInt) else .fault .historyIndex
      else if 0 < x then
        if x ≤ s.histW p ∧ 0 < s.histH p then .next (s.setRet (s.dch p (x - 1) 0).toInt) else .fault .historyIndex
      else .next (s.setRet 0)

/-- DC_STORE writes the sum to the history and its dequantised product to DCT.blk[0]. Rule R197. At a position of the
history, DC_STORE completes: DCH[p][by][bx] becomes the wrapped sum of delta and prediction, every other entry of
every history is as it was, DCT.blk[0] becomes the wrapped product of it with qmat[0], the other coefficients are as
they were, and nothing else changes. The history stays in canonical form. Outside the history it fails an assertion.
(That assertion is the model's reading of R88, log entry 12; the canonical form is its choice, log entry 14.) -/
def Obligations.DcStore : Prop :=
  ∀ (s : State) (p : Plane) (bx dy : U16) (delta pred : I32), s.alive = true → s.Canonical →
  (¬ (bx.toNat < s.histW p ∧ dy.toNat < s.histH p) → exec (.dcStore p bx dy delta pred) s = .fault .historyIndex) ∧
  (bx.toNat < s.histW p → dy.toNat < s.histH p → ∃ t, exec (.dcStore p bx dy delta pred) s = .next t ∧
    t.dch p bx.toNat dy.toNat = wrapI32 (delta.toInt + pred.toInt) ∧
    (∀ x y, x < 65536 → (x ≠ bx.toNat ∨ y ≠ dy.toNat) → t.dch p x y = s.dch p x y) ∧
    t.scratch.dctBlk = s.scratch.dctBlk.set 0
      (wrapI32 ((wrapI32 (delta.toInt + pred.toInt)).toInt * ((s.coder p).dct.qmat[0].toNat : Int))) ∧
    (t.coder p).dct.hist.wf = true ∧
    t = (s.setCoder p { s.coder p with dct := { (s.coder p).dct with hist := (t.coder p).dct.hist } }).setDctBlk
      t.scratch.dctBlk)

/-- AC_LEVEL decodes sign and extra bits, dequantises and stores the coefficient; AC_SIGN and AC_EXTRA are its
symbols. Rules R201, R202, R94, R101, R191. From a state that can decode: AC_SIGN is DEC_BIN(DCTC[p].sign), negative
exactly when the bit is SIGN_NEG; AC_EXTRA(n) for 1 <= n <= 14 is GET_BITS(n), of magnitude 2^n + e with the sign
decided before. AC_LEVEL(p, pos, c) for pos below 64 and c in 1..15 decodes the sign, and for c > 1 the extra bits,
and stores the wrapped product of the value with qmat[pos] under SCAN, qmat[ZIGZAG[pos]] under RASTER, at ZIGZAG[pos].
Nothing else changes. (That a symbol row runs by itself is the model's reading, log entry 11. That AC_SIGN leaves -1
or 1 in the returned value, and that AC_EXTRA run alone takes its sign from the sign latch, are its choices, log entry
10.) -/
def Obligations.AcLevel : Prop :=
  ∀ s : State, s.CanDecode →
  (∃ u, exec (.decBin (.sign s.seq.p)) s = .next u ∧
    let neg := decide (u.ret = 1) == s.params.profile.signNeg.bit
    exec .acSign s = .next ((u.setNeg neg).setRet (if neg then -1 else 1))) ∧
  (∀ n : BitVec 4, 1 ≤ n.toNat → n.toNat ≤ 14 → ∃ (u : State) (e : Nat), exec (.getBits n) s = .next u ∧ u.ret = e ∧
    exec (.acExtra n) s = .next (u.setRet (if s.scratch.neg then -(2 ^ n.toNat + e : Int) else 2 ^ n.toNat + e))) ∧
  ∀ (p : Plane) (pos : BitVec 6) (c : BitVec 4), 1 ≤ c.toNat →
    ∃ (u w : State) (mag : Nat), exec (.decBin (.sign p)) s = .next u ∧
      let neg := decide (u.ret = 1) == s.params.profile.signNeg.bit
      (if c.toNat = 1 then w = (u.setNeg neg).setRet s.ret ∧ mag = 1
        else ∃ (x : State) (e : Nat), exec (.getBits (BitVec.ofNat 4 (c.toNat - 1))) ((u.setNeg neg).setRet s.ret) = .next x ∧
          x.ret = e ∧ mag = 2 ^ (c.toNat - 1) + e ∧ w = x.setRet s.ret) ∧
      exec (.acLevel p pos c) s = .next (w.setDctBlk (s.scratch.dctBlk.set (zigzag pos.toFin)
        (wrapI32 ((if neg then -(mag : Int) else mag) * ((s.coder p).dct.qmat[match s.params.profile.qmatIndex with
          | .scan => pos.toFin
          | .raster => zigzag pos.toFin].toNat : Int)))))

/-- The zigzag table is the tabulated permutation. Rule R191. ZIGZAG lists the 64 raster positions of rule R191 in its
order; it is a permutation of 0..63 that keeps 0 and 63. -/
def Obligations.ZigzagTable : Prop :=
  (List.finRange 64).map (fun k => (zigzag k).val) =
    [ 0,  1,  8, 16,  9,  2,  3, 10, 17, 24, 32, 25, 18, 11,  4,  5, 12, 19, 26, 33, 40, 48, 41, 34, 27, 20, 13,  6,  7, 14,
     21, 28, 35, 42, 49, 56, 57, 50, 43, 36, 29, 22, 15, 23, 30, 37, 44, 51, 58, 59, 52, 45, 38, 31, 39, 46, 53, 60, 61, 54,
     47, 55, 62, 63] ∧
  (∀ i j : Fin 64, zigzag i = zigzag j → i = j) ∧ (∀ j : Fin 64, ∃ i, zigzag i = j) ∧ zigzag 0 = 0 ∧ zigzag 63 = 63

/-- The AC token rows move the position, decode a level where the run stays below 64, and flag the malformed cases.
Rules R199, R200, R201, R203, R205, R107. AC_EOB ends the scan with success at any position. AC_ZRL moves the position
by 16: the scan goes on below 64, succeeds at exactly 64, and past 64 is malformed with BLK.err set. Each of the 14
AC_ILLEGAL rows is malformed with BLK.err set. AC_RL of run r and class c moves by r: at 64 or beyond it is malformed
with BLK.err set and decodes nothing; below, AC_LEVEL is decoded there, and the position moves on by 1, with success
at exactly 64. (The latch of the scan's outcome is the model's choice, log entry 10. That a token row runs by itself,
and that it then sets BLK.err, which R205 leaves to DCT, is its reading, log entry 11.) -/
def Obligations.AcTokens : Prop :=
  ∀ s : State, s.alive = true →
  exec .acEob s = .next (s.setScan .ok) ∧
  exec .acZrl s = .next (
    if s.seq.pos + 16 < 64 then (s.setPos (s.seq.pos + 16)).setScan .running
    else if s.seq.pos + 16 = 64 then (s.setPos (s.seq.pos + 16)).setScan .ok
    else setBlkErr ((s.setPos (s.seq.pos + 16)).setScan .malformed)) ∧
  (∀ k : Fin 14, exec (illegalRow k) s = .next (setBlkErr (s.setScan .malformed))) ∧
  ∀ (r : BitVec 4) (k : Fin 15),
    (64 ≤ s.seq.pos + r.toNat → exec (runLevelRow r k) s =
      .next (setBlkErr ((s.setPos (s.seq.pos + r.toNat)).setScan .malformed))) ∧
    (s.CanDecode → s.seq.pos + r.toNat < 64 → ∃ u,
      exec (.acLevel s.seq.p (BitVec.ofNat 6 (s.seq.pos + r.toNat)) (BitVec.ofNat 4 (k.val + 1)))
        (s.setPos (s.seq.pos + r.toNat)) = .next u ∧
      exec (runLevelRow r k) s = .next ((u.setPos (s.seq.pos + r.toNat + 1)).setScan
        (if s.seq.pos + r.toNat + 1 < 64 then .running else .ok)))

/-- AC_DECODE runs tokens from position 1 to the one that ends the scan, at most 63. Rules R198, R206. From a state
that can decode, AC_DECODE(p) of the current plane completes: from position 1 it decodes tokens with DCTC[p].ac and
runs the row each selects, until one ends the scan; at most 63 are run. It returns 1 exactly when the scan succeeded.
BLK.err is left to the caller. AC_DECODE of any plane completes, returns 1 or 0, and writes no sample, no DC history,
and no coder but that plane's DCT coder. (That the row of a token runs by itself is the model's reading, log entry 11;
the latch of the scan's outcome is its choice, log entry 10.) -/
def Obligations.AcDecode : Prop :=
  ∀ s : State, s.CanDecode → s.Canonical →
  (∃ n w, AcScan n ((s.setPos 1).setScan .running) w ∧ 1 ≤ n ∧ n ≤ 63 ∧ w.scratch.scan ≠ .running ∧
    exec (.acDecode s.seq.p) s = .next ((w.setScratch { w.scratch with blkErr := s.scratch.blkErr }).setRet
      (if w.scratch.scan = .ok then 1 else 0))) ∧
  ∀ p, ∃ t, exec (.acDecode p) s = .next t ∧ (t.ret = 0 ∨ t.ret = 1) ∧ (s.setRet t.ret).Steady t ∧
    s.OnlyPart p .dct t ∧ t.canvas = s.canvas ∧ (t.coder p).dct.hist = (s.coder p).dct.hist

/-- DCT_SUB clears the block, decodes and predicts the DC, stores it, and decodes the AC scan. Rules R192, R193. From
a state that can decode, at a position of the history, DCT_SUB(p, bx, by) completes: with the coefficient block
cleared, DECODE_COEFF(DCTC[p].dc), DC_PREDICT, DC_STORE of the two and AC_DECODE run in this order, and what AC_DECODE
returns is returned. No sample is written. -/
def Obligations.DctSubBlock : Prop :=
  ∀ (s : State) (p : Plane) (bx dy : U16), s.CanDecode → s.Canonical → bx.toNat < s.histW p → dy.toNat < s.histH p →
  ∃ (u v w t : State) (pred : I32),
    exec (.decodeCoeff (.dctDc p)) (s.setDctBlk (Vector.replicate 64 0)) = .next u ∧
    exec (.dcPredict p bx dy) (u.setRet s.ret) = .next v ∧ v.ret = pred.toInt ∧
    exec (.dcStore p bx dy (wrapI32 u.ret) pred) (v.setRet s.ret) = .next w ∧
    exec (.acDecode p) w = .next t ∧ exec (.dctSub p bx dy) s = .next t ∧ (t.ret = 0 ∨ t.ret = 1) ∧
    (s.setRet t.ret).Steady t ∧ s.OnlyPart p .dct t ∧ t.canvas = s.canvas

/-- IDCT_WRITE writes the 64 samples the external transform gives. Rule R204. For a square inside the block of plane
p, itself inside the plane, IDCT_WRITE(p, r0, c0) completes: sample (r0 + r, c0 + c) of the block is entry 8*r + c of
IDCT_PUT of the coefficient block, whatever that function is; every other byte of the planes and every other register
is as it was. The memories stay in canonical form. (That form is the model's choice, log entry 13; the values of
IDCT_PUT are free, log entry 6.) -/
def Obligations.IdctWrite : Prop :=
  ∀ (s : State) (p : Plane) (r0 c0 : BitVec 4), s.alive = true → s.Canonical → s.BlockFits p →
  r0.toNat + 8 ≤ p.bs → c0.toNat + 8 ≤ p.bs →
  ∃ t, exec (.idctWrite p r0 c0) s = .next t ∧ t = s.setCanvas t.canvas ∧ t.Canonical ∧
    s.WritesIn p ((s.origin p).1 + r0.toNat) ((s.origin p).2 + c0.toNat) 8 8 t ∧
    ∀ r c : Fin 8, t.sample p ((s.origin p).1 + r0.toNat + r.val) ((s.origin p).2 + c0.toNat + c.val) =
      (s.params.inverseDct s.scratch.dctBlk)[8 * r.val + c.val]

/-- DCT decodes and writes its sub-blocks in raster order, and a malformed one ends the block with BLK.err set. Rule
R190. From a state that can decode whose current block lies in its plane and its history, DCT completes: for each
sub-block in raster order DCT_SUB at nb*mbx + i, nb*mby + j and, when it succeeds, IDCT_WRITE at 8*j, 8*i before the
next; when it does not, BLK.err is set and the block ends. Samples outside the block, the other coders and the frame
registers are unchanged. -/
def Obligations.DctBlock : Prop :=
  ∀ s : State, s.CanDecode → s.Canonical → s.BlockFits s.seq.p → s.HistFits s.seq.p →
  ∃ t, DctRun s.seq.p 0 s t ∧ exec .dct s = .next t ∧ s.Steady t ∧ s.OnlyPart s.seq.p .dct t ∧
    s.WritesBlock s.seq.p t

/-- HAAR reads its coefficients in raster order, scaled, then runs the butterfly; HAAR_LL and HAAR_HF are its reads.
Rules R215, R216, R217, R218, R103. From a state that can decode: HAAR_LL is DEC_BYTE(HAARC[p].hi), and HAAR_HF is
DECODE_COEFF(HAARC[p].coef). With the current block in its plane, HAAR completes: in raster order each coefficient
(HAAR_LL in the low-frequency quadrant, HAAR_HF elsewhere) is stored times HAARC[p].scale, and HAAR_BUTTERFLY follows.
Samples outside the block, the other coders and the frame registers are unchanged. (That HAAR_LL and HAAR_HF run by
themselves is the model's reading, log entry 11; that they leave the coefficient in the returned value is its choice,
log entry 10.) -/
def Obligations.HaarBlock : Prop :=
  ∀ s : State, s.CanDecode →
  (∃ t, exec (.decByte (.hi s.seq.p)) s = .next t ∧ exec .haarLl s = .next t ∧ 0 ≤ t.ret ∧ t.ret ≤ 255) ∧
  (∃ t, exec (.decodeCoeff (.haar s.seq.p)) s = .next t ∧ exec .haarHf s = .next t ∧ t.ret.natAbs ≤ 2064) ∧
  (s.Canonical → s.BlockFits s.seq.p →
    ∃ u t, HaarRun s.seq.p 0 0 s u ∧ exec (.haarButterfly s.seq.p) u = .next t ∧ exec .haar s = .next t ∧
      s.Steady t ∧ s.OnlyPart s.seq.p .haar t ∧ s.WritesBlock s.seq.p t)

/-- HAAR_BUTTERFLY writes the four clipped sums of each cluster. Rule R220. With the block of plane p in its plane and
h half its side, HAAR_BUTTERFLY(p) completes: from A, B, C, D at the same place of the four quadrants, the samples of
cluster (j, i) are clip(A-B-(C-D)), clip(A+B-(C+D)) on row 2j and clip(A-B+C-D), clip(A+B+C+D) on row 2j+1. Every
other byte of the planes and every other register is as it was. The memories stay in canonical form. (That form is the
model's choice, log entry 13.) -/
def Obligations.HaarButterfly : Prop :=
  ∀ (s : State) (p : Plane), s.alive = true → s.Canonical → s.BlockFits p →
  ∃ t, exec (.haarButterfly p) s = .next t ∧ t = s.setCanvas t.canvas ∧ t.Canonical ∧ s.WritesBlock p t ∧
    ∀ j i, j < p.bs / 2 → i < p.bs / 2 →
      let a := s.haarAt j i
      let b := s.haarAt j (i + p.bs / 2)
      let c := s.haarAt (j + p.bs / 2) i
      let d := s.haarAt (j + p.bs / 2) (i + p.bs / 2)
      let row := (s.origin p).1 + 2 * j
      let col := (s.origin p).2 + 2 * i
      (t.sample p row col).toNat = (min (max ((a - b) - (c - d)) 0) 255).toNat ∧
      (t.sample p row (col + 1)).toNat = (min (max ((a + b) - (c + d)) 0) 255).toNat ∧
      (t.sample p (row + 1) col).toNat = (min (max ((a - b) + (c - d)) 0) 255).toNat ∧
      (t.sample p (row + 1) (col + 1)).toNat = (min (max ((a + b) + (c + d)) 0) 255).toNat

/-- VALIDATE, EMPTY_KEY_CHECK and SKIP_CHECK return the tabulated status, or nothing. Rules R233, R234, R235, R264,
R265. VALIDATE returns InvalidRegion when a size is no multiple of 16 or the region leaves the frame, else
InvalidQuality when the quality is outside 1..100; EMPTY_KEY_CHECK returns EmptyKeyframe for an empty keyframe under
REJECT; SKIP_CHECK returns SkippedAfterError for a non-keyframe while the flag is set. A check that returns writes the
status, and nothing else but the returned value changes. (That a check alone leaves 1 or 0 in the returned value is
the model's, log entry 18.) -/
def Obligations.CommandChecks : Prop :=
  ∀ s : State, s.alive = true →
  let g := s.inp.region
  exec .validate s = .next (
    if g.w.toNat % 16 ≠ 0 ∨ g.h.toNat % 16 ≠ 0 ∨ s.params.frameW.toNat < g.x.toNat + g.w.toNat ∨
      s.params.frameH.toNat < g.y.toNat + g.h.toNat then (s.setStatus .invalidRegion).setRet 1
    else if s.inp.quality.toNat < 1 ∨ 100 < s.inp.quality.toNat then (s.setStatus .invalidQuality).setRet 1
    else s.setRet 0) ∧
  exec .emptyKeyCheck s = .next (
    if s.params.profile.emptyKeyframe = .reject ∧ s.inp.keyframe = true ∧ s.inp.payload.length = 0 then
      (s.setStatus .emptyKeyframe).setRet 1
    else s.setRet 0) ∧
  exec .skipCheck s = .next (
    if s.inp.keyframe = false ∧ s.fd.errFlag = true then (s.setStatus .skippedAfterError).setRet 1 else s.setRet 0)

/-- KEYFRAME_RESET puts every model, last_type, fill_val and DC history at its reset value, and nothing else. Rules
R238, R240, R249. With the models' constants in place, KEYFRAME_RESET completes, as does RESET_FOR_KEYFRAME with the
same state: every model of every plane is at its reset value, last_type is SKIP, fill_val 0, every DC-history entry 0;
qmat, scale and every other register and plane are as they were. Running it again changes nothing (rule R287).
EVERY_FRAME_RESET is it under EVERY_PAYLOAD_FRAME, and nothing under KEYFRAME. -/
def Obligations.KeyframeReset : Prop :=
  ∀ s : State, s.alive = true → (∀ m : SmallRef, (s.small m).maxUpdVal.toNat = 8 * m.size + 48) →
  (∀ m : ByteRef, (s.byte m).base.maxUpdVal.toNat = 2096) →
  ∃ t, exec .keyframeReset s = .next t ∧ exec .resetForKeyframe s = .next t ∧ t = { s with coders := t.coders } ∧
    (∀ m : SmallRef, t.small m = FreqModel.initial m.size) ∧ (∀ m : ByteRef, t.byte m = ByteModel.initial) ∧
    (∀ m : BinRef, t.bin m = BinModel.initial) ∧
    (∀ p, (t.coder p).bt.lastType = 4 ∧ (t.coder p).fill.fillVal = 0 ∧ (∀ x y, t.dch p x y = 0) ∧
      (t.coder p).dct.qmat = (s.coder p).dct.qmat ∧ (t.coder p).haar.scale = (s.coder p).haar.scale) ∧
    exec .keyframeReset t = .next t ∧
    exec .everyFrameReset s = .next (match s.params.profile.resetPolicy with
      | .keyframe => s
      | .everyPayloadFrame => t)

/-- FRAME_START clears the flag, enters Decoding, and resets for a keyframe under KEYFRAME. Rule R236. With the
models' constants in place, FRAME_START completes: the flag is cleared and the frame state is Decoding; then, for a
keyframe under RESET_POLICY = KEYFRAME, KEYFRAME_RESET runs; otherwise nothing else changes. -/
def Obligations.FrameStart : Prop :=
  ∀ s : State, s.alive = true → (∀ m : SmallRef, (s.small m).maxUpdVal.toNat = 8 * m.size + 48) →
  (∀ m : ByteRef, (s.byte m).base.maxUpdVal.toNat = 2096) →
  let x := { s with fd := { s.fd with errFlag := false, state := .decoding } }
  if s.params.profile.resetPolicy = .keyframe ∧ s.inp.keyframe = true then
    ∃ t, exec .keyframeReset x = .next t ∧ exec .frameStart s = .next t
  else exec .frameStart s = .next x

/-- QUALITY_CACHE regenerates the matrices and scales exactly when the quality differs from the cached one. Rule R237.
With the cached quality equal to IN.quality nothing changes. Otherwise qmat of every plane becomes GEN_QUANT(quality,
is_luma), scale becomes HAAR_SCALE(quality, is_luma), which by default is 17 - (7*quality) div 50 (rule R21), the
cache records the quality, and nothing else changes. The external functions are whatever the instance was built with.
-/
def Obligations.QualityCache : Prop :=
  ∀ s : State, s.alive = true →
  (s.fd.qCache = some s.inp.quality → exec .qualityCache s = .next s) ∧
  (s.fd.qCache ≠ some s.inp.quality → ∃ t, exec .qualityCache s = .next t ∧
    t = { s with coders := t.coders, fd := { s.fd with qCache := some s.inp.quality } } ∧
    ∀ p : Plane, t.coder p = { s.coder p with
        dct := { (s.coder p).dct with qmat := (t.coder p).dct.qmat }
        haar := { (s.coder p).haar with scale := (t.coder p).haar.scale } } ∧
      (t.coder p).dct.qmat = s.params.quantMatrix s.inp.quality p.isLuma ∧
      (t.coder p).haar.scale = s.params.haarScaleAt s.inp.quality p.isLuma ∧
      (s.params.haarScale = .default → (t.coder p).haar.scale = 17 - ((7 * s.inp.quality.toNat / 50 : Nat) : Int)))

/-- The quality cache cannot be observed: a frame decodes alike from the cached and from the empty cache. Rules R86,
R45, R237. Between commands, with a sound cache: an accepted DECODE_FRAME from the state with FD.q_cache emptied
answers exactly what it answers from the state itself, in every register and plane; a command that is turned away
answers states that differ in FD.q_cache alone. -/
def Obligations.CacheUnobservable : Prop :=
  ∀ (s : State) (a : FrameArgs), s.alive = true → s.HostInv →
  let bare := s.setFd { s.fd with qCache := none }
  (turnedAway { s with inp := a } = none → exec (.decodeFrame a) bare = exec (.decodeFrame a) s) ∧
  (turnedAway { s with inp := a } ≠ none → ∃ t, exec (.decodeFrame a) s = .next t ∧
    exec (.decodeFrame a) bare = .next (t.setFd { t.fd with qCache := none }))

/-- DECODER_START builds a decoder and copies REF to WORK; COMMIT makes WORK the reference; EMPTY_COMMIT leaves REF.
Rules R239, R241, R247. DECODER_START completes: it is RD_INIT, and the planes the blocks write read as REF does; REF
is unchanged, and the WORK field holds a copy of it. COMMIT completes: REF becomes the planes the blocks wrote (under
IN_PLACE it is them already), the state Committed, the status OK. EMPTY_COMMIT completes with Committed and OK and REF
unchanged. Nothing else changes. (Under IN_PLACE R241 makes WORK the planes of REF themselves: that the model then
writes its REF field, and that its separate WORK field holds an unused copy, is its choice, log entry 15.) -/
def Obligations.StartAndCommit : Prop :=
  ∀ s : State, s.alive = true →
  (∃ u, exec .rdInit s = .next u ∧ exec .decoderStart s = .next { u with work := s.ref } ∧
    State.canvas { u with work := s.ref } = s.ref ∧ u.ref = s.ref) ∧
  exec .commit s = .next { s with
    ref := (match s.params.profile.abortWrites with
      | .discard => s.work
      | .inPlace => s.ref)
    fd := { s.fd with state := .committed }
    status := .ok } ∧
  exec .emptyCommit s = .next { s with fd := { s.fd with state := .committed }, status := .ok }

/-- ERROR_CHECK raises TruncatedInput before MalformedBlock, and an abort sets the flag and discards WORK. Rules R245,
R246, R263, R265. ERROR_CHECK with RD.err set takes the abort TruncatedInput, else with BLK.err set the abort
MalformedBlock, else changes nothing. ABORT(kind) completes: the flag is set, the frame state is Aborted, the status
is the kind's code (1 or 4), REF is unchanged, the models, histories and every other register are kept, and under
DISCARD the planes' working copy is discarded (it holds what REF holds, log entry 15). -/
def Obligations.ErrorCheckAndAbort : Prop :=
  ∀ s : State, s.alive = true →
  (∀ k : AbortKind, exec (.abort k) s = .next { s with
    fd := { s.fd with errFlag := true, state := .aborted }
    status := (match k with
      | .truncatedInput => .truncatedInput
      | .malformedBlock => .malformedBlock)
    work := (match s.params.profile.abortWrites with
      | .discard => s.ref
      | .inPlace => s.work) }) ∧
  exec .errorCheck s = (if s.rd.err = true then exec (.abort .truncatedInput) s
    else if s.scratch.blkErr = true then exec (.abort .malformedBlock) s
    else .next s)

/-- BLOCK_STEP clears BLK.err, selects the type and runs that datapath on the block. Rule R243. For a macroblock of an
accepted region, from a state that can decode, BLOCK_STEP(p, mbx, mby) completes: with BLK.err cleared and the
position set, BT_SELECT(p) gives the type, and the row of that type runs. Samples outside the block, the coders of the
other planes and the frame registers are unchanged, and the state can decode on. The memories stay in canonical form.
(That form is the model's choice, log entries 13 and 14; that the row of a type runs as an operation of its own is its
reading, log entry 11.) -/
def Obligations.BlockStep : Prop :=
  ∀ (s : State) (p : Plane) (mbx mby : U16), s.CanDecode → s.Canonical → regionOk s.params s.inp.region = true →
  mbx.toNat < s.inp.region.w.toNat / 16 → mby.toNat < s.inp.region.h.toNat / 16 →
  let x := clearBlkErr (s.setSeq { s.seq with p := p, mbx := mbx.toNat, mby := mby.toNat })
  ∃ (v : Fin 5) (u t : State), exec (.btSelect p) x = .next u ∧ u.ret = v.val ∧
    exec (blockRow v) (u.setRet s.ret) = .next t ∧ exec (.blockStep p mbx mby) s = .next t ∧
    t.CanDecode ∧ t.Canonical ∧ s.Kept t ∧ (∀ q, q ≠ p → t.coder q = s.coder q) ∧ x.WritesBlock p t

/-- MB_WALK runs BLOCK_STEP and ERROR_CHECK over the region's blocks, row-major, three planes each. Rule R242. For an
accepted region, from a state that can decode, MB_WALK completes: the list of blocks has three entries per macroblock,
entry 3*(mby*MBW + mbx) + p being plane p of macroblock (mbx, mby); BLOCK_STEP and ERROR_CHECK run on each in turn,
until a check raises an abort or the list ends. Samples outside the region are unchanged. -/
def Obligations.MacroblockWalk : Prop :=
  (∀ w h : Nat, (walkOrder w h).length = 3 * (w * h) ∧ ∀ mby mbx (p : Plane), mbx < w → mby < h →
    (walkOrder w h)[3 * (mby * w + mbx) + p.idx]? = some (mby, mbx, p)) ∧
  ∀ s : State, s.CanDecode → s.Canonical → regionOk s.params s.inp.region = true →
    ∃ r t, WalkRun (walkOrder (s.inp.region.w.toNat / 16) (s.inp.region.h.toNat / 16)) s r t ∧
      exec .mbWalk s = .next t ∧ ∀ a, ¬ s.InRegionArea a →
        (r = none → t.canvas.read a = s.canvas.read a) ∧ t.ref.read a = s.ref.read a

/-- DECODE_FRAME is the sequence of frame steps of the rule. Rule R232. Between commands, DECODE_FRAME latches its
inputs and runs VALIDATE, EMPTY_KEY_CHECK and SKIP_CHECK; the first that returns ends the command. Else FRAME_START,
QUALITY_CACHE, and for an empty payload EMPTY_COMMIT; otherwise EVERY_FRAME_RESET, DECODER_START, the walk over the
region's blocks, and COMMIT unless the walk raised an abort. Every one of these completes. (That a check run by itself
returns 1 to end the command and 0 to go on is the model's choice, log entry 18; so are the latches, log entry 17.) -/
def Obligations.DecodeFrameSequence : Prop :=
  ∀ (s : State) (a : FrameArgs), s.alive = true → s.HostInv →
  ∃ v e k, exec .validate { s with inp := a } = .next v ∧ exec .emptyKeyCheck { s with inp := a } = .next e ∧
    exec .skipCheck { s with inp := a } = .next k ∧
    if v.ret = 1 then exec (.decodeFrame a) s = .next (v.setRet s.ret)
    else if e.ret = 1 then exec (.decodeFrame a) s = .next (e.setRet s.ret)
    else if k.ret = 1 then exec (.decodeFrame a) s = .next (k.setRet s.ret)
    else ∃ f q, exec .frameStart { s with inp := a } = .next f ∧ exec .qualityCache f = .next q ∧
      if a.payload = [] then ∃ t, exec .emptyCommit q = .next t ∧ exec (.decodeFrame a) s = .next t
      else ∃ g d r w, exec .everyFrameReset q = .next g ∧ exec .decoderStart g = .next d ∧
        WalkRun (walkOrder (a.region.w.toNat / 16) (a.region.h.toNat / 16)) d r w ∧ exec .mbWalk d = .next w ∧
        match r with
        | some _ => exec (.decodeFrame a) s = .next w
        | none => ∃ t, exec .commit w = .next t ∧ exec (.decodeFrame a) s = .next t

/-- For every status but OK the reference planes are as before, and no frame writes a sample outside its region. Rules
R252, R264, R267, R75, R246, R247. Between commands, a DECODE_FRAME that ends with another status than OK leaves REF
as it was, under ABORT_WRITES = DISCARD. Whatever the status and the profile, every byte of REF outside the region's
area reads as before. A command turned away changes nothing but the input latches and the status. (That the latches
then hold its operands is the model's choice, log entry 17.) -/
def Obligations.FrameOutput : Prop :=
  ∀ (s : State) (a : FrameArgs), s.alive = true → s.HostInv →
  ∃ t, exec (.decodeFrame a) s = .next t ∧
    (t.status ≠ .ok → s.params.profile.abortWrites = .discard → t.ref = s.ref) ∧
    (∀ x, ¬ State.InRegionArea { s with inp := a } x → t.ref.read x = s.ref.read x) ∧
    (t.status = .invalidRegion ∨ t.status = .invalidQuality ∨ t.status = .emptyKeyframe ∨ t.status = .skippedAfterError →
      t = { s with inp := a, status := t.status })

/-- CONSTRUCT stores the parameters and puts every element at its construction value. Rules R231, R286, R57. CONSTRUCT
completes in every state: the parameters are stored, REF is INIT_PLANES, the frame state is Idle, the flag clear, the
cache NONE; for every plane all models are at their reset values, last_type is SKIP, fill_val 0 and every DC-history
entry 0. The host's later commands stay. Of the elements that the rule gives no value nothing is said here. (That
CONSTRUCT runs over an instance, and after DESTROY, is the model's reading, log entry 16; the queue of later commands
is its choice, log entry 8.) -/
def Obligations.Construct : Prop :=
  ∀ (s : State) (a : ConstructArgs), ∃ t, exec (.construct a) s = .next t ∧ t.alive = true ∧
  t.params = { frameW := a.frameW, frameH := a.frameH, profile := a.profile, genQuant := a.genQuant,
               idctPut := a.idctPut, haarScale := a.haarScale } ∧
  t.ref = a.initPlanes ∧ t.fd = { state := .idle, errFlag := false, qCache := none } ∧ t.cmds = s.cmds ∧
  (∀ m : SmallRef, t.small m = FreqModel.initial m.size) ∧ (∀ m : ByteRef, t.byte m = ByteModel.initial) ∧
  (∀ m : BinRef, t.bin m = BinModel.initial) ∧
  ∀ p, (t.coder p).bt.lastType = 4 ∧ (t.coder p).fill.fillVal = 0 ∧ ∀ x y, t.dch p x y = 0

/-- DESTROY ends the instance, and every operation after it but CONSTRUCT is refused. Rules R58, R250. DESTROY
completes: no instance is left, and nothing of it (the state is that of no instance, the host's later commands apart).
On a state with no instance every operation but CONSTRUCT is refused. (The refusal, and that nothing but the state of
no instance is left, are the model's reading, log entry 16; the queue of later commands is its choice, log entry 8.)
-/
def Obligations.Destroy : Prop :=
  (∀ s : State, s.alive = true → exec .destroy s = .next { State.blank with cmds := s.cmds }) ∧
  State.blank.alive = false ∧
  ∀ (s : State) (i : Instr), s.alive = false → (∀ a, i ≠ .construct a) → exec i s = .refused .destroyed
end

