-- ==== Sys2Proof/Laws/State.lean ====
section
/-! SUPPORT. One lemma per field (and per derived reading) for each register update: what the update writes, and that it leaves
the rest alone. -/

namespace Sys2Proof.Machine

variable (s : State)


/-! ### `setCoder` -/

@[simp] theorem setCoder_alive (p : Plane) (c : PlaneCoders) : (s.setCoder p c).alive = s.alive := rfl
@[simp] theorem setCoder_params (p : Plane) (c : PlaneCoders) : (s.setCoder p c).params = s.params := rfl
@[simp] theorem setCoder_coders (p : Plane) (c : PlaneCoders) : (s.setCoder p c).coders = s.coders.set p c := rfl
@[simp] theorem setCoder_fd (p : Plane) (c : PlaneCoders) : (s.setCoder p c).fd = s.fd := rfl
@[simp] theorem setCoder_rd (p : Plane) (c : PlaneCoders) : (s.setCoder p c).rd = s.rd := rfl
@[simp] theorem setCoder_seq (p : Plane) (c : PlaneCoders) : (s.setCoder p c).seq = s.seq := rfl
@[simp] theorem setCoder_scratch (p : Plane) (c : PlaneCoders) : (s.setCoder p c).scratch = s.scratch := rfl
@[simp] theorem setCoder_inp (p : Plane) (c : PlaneCoders) : (s.setCoder p c).inp = s.inp := rfl
@[simp] theorem setCoder_status (p : Plane) (c : PlaneCoders) : (s.setCoder p c).status = s.status := rfl
@[simp] theorem setCoder_ref (p : Plane) (c : PlaneCoders) : (s.setCoder p c).ref = s.ref := rfl
@[simp] theorem setCoder_work (p : Plane) (c : PlaneCoders) : (s.setCoder p c).work = s.work := rfl
@[simp] theorem setCoder_ret (p : Plane) (c : PlaneCoders) : (s.setCoder p c).ret = s.ret := rfl
@[simp] theorem setCoder_cmds (p : Plane) (c : PlaneCoders) : (s.setCoder p c).cmds = s.cmds := rfl
@[simp] theorem setCoder_issue (p : Plane) (c : PlaneCoders) : (s.setCoder p c).issue = s.issue := rfl
@[simp] theorem setCoder_policy (p : Plane) (c : PlaneCoders) : (s.setCoder p c).policy = s.policy := rfl
@[simp] theorem setCoder_planeW (p : Plane) (c : PlaneCoders) (q : Plane) : (s.setCoder p c).planeW q = s.planeW q := by cases q <;> rfl
@[simp] theorem setCoder_planeH (p : Plane) (c : PlaneCoders) (q : Plane) : (s.setCoder p c).planeH q = s.planeH q := by cases q <;> rfl
@[simp] theorem setCoder_histW (p : Plane) (c : PlaneCoders) (q : Plane) : (s.setCoder p c).histW q = s.histW q := by cases q <;> rfl
@[simp] theorem setCoder_histH (p : Plane) (c : PlaneCoders) (q : Plane) : (s.setCoder p c).histH q = s.histH q := by cases q <;> rfl
@[simp] theorem setCoder_origin (p : Plane) (c : PlaneCoders) (q : Plane) : (s.setCoder p c).origin q = s.origin q := by cases q <;> rfl
@[simp] theorem setCoder_canvas (p : Plane) (c : PlaneCoders) : (s.setCoder p c).canvas = s.canvas := rfl

/-! ### `setBin` -/

@[simp] theorem setBin_alive (m : BinRef) (v : BinModel) : (s.setBin m v).alive = s.alive := by cases m; rfl
@[simp] theorem setBin_params (m : BinRef) (v : BinModel) : (s.setBin m v).params = s.params := by cases m; rfl
@[simp] theorem setBin_fd (m : BinRef) (v : BinModel) : (s.setBin m v).fd = s.fd := by cases m; rfl
@[simp] theorem setBin_rd (m : BinRef) (v : BinModel) : (s.setBin m v).rd = s.rd := by cases m; rfl
@[simp] theorem setBin_seq (m : BinRef) (v : BinModel) : (s.setBin m v).seq = s.seq := by cases m; rfl
@[simp] theorem setBin_scratch (m : BinRef) (v : BinModel) : (s.setBin m v).scratch = s.scratch := by cases m; rfl
@[simp] theorem setBin_inp (m : BinRef) (v : BinModel) : (s.setBin m v).inp = s.inp := by cases m; rfl
@[simp] theorem setBin_status (m : BinRef) (v : BinModel) : (s.setBin m v).status = s.status := by cases m; rfl
@[simp] theorem setBin_ref (m : BinRef) (v : BinModel) : (s.setBin m v).ref = s.ref := by cases m; rfl
@[simp] theorem setBin_work (m : BinRef) (v : BinModel) : (s.setBin m v).work = s.work := by cases m; rfl
@[simp] theorem setBin_ret (m : BinRef) (v : BinModel) : (s.setBin m v).ret = s.ret := by cases m; rfl
@[simp] theorem setBin_cmds (m : BinRef) (v : BinModel) : (s.setBin m v).cmds = s.cmds := by cases m; rfl
@[simp] theorem setBin_issue (m : BinRef) (v : BinModel) : (s.setBin m v).issue = s.issue := by cases m; rfl
@[simp] theorem setBin_policy (m : BinRef) (v : BinModel) : (s.setBin m v).policy = s.policy := by cases m; rfl
@[simp] theorem setBin_planeW (m : BinRef) (v : BinModel) (q : Plane) : (s.setBin m v).planeW q = s.planeW q := by cases m; cases q <;> rfl
@[simp] theorem setBin_planeH (m : BinRef) (v : BinModel) (q : Plane) : (s.setBin m v).planeH q = s.planeH q := by cases m; cases q <;> rfl
@[simp] theorem setBin_histW (m : BinRef) (v : BinModel) (q : Plane) : (s.setBin m v).histW q = s.histW q := by cases m; cases q <;> rfl
@[simp] theorem setBin_histH (m : BinRef) (v : BinModel) (q : Plane) : (s.setBin m v).histH q = s.histH q := by cases m; cases q <;> rfl
@[simp] theorem setBin_origin (m : BinRef) (v : BinModel) (q : Plane) : (s.setBin m v).origin q = s.origin q := by cases m; cases q <;> rfl
@[simp] theorem setBin_canvas (m : BinRef) (v : BinModel) : (s.setBin m v).canvas = s.canvas := by cases m; rfl

/-! ### `setSmall` -/

@[simp] theorem setSmall_alive (m : SmallRef) (v : FreqModel m.size) : (s.setSmall m v).alive = s.alive := by cases m <;> rfl
@[simp] theorem setSmall_params (m : SmallRef) (v : FreqModel m.size) : (s.setSmall m v).params = s.params := by cases m <;> rfl
@[simp] theorem setSmall_fd (m : SmallRef) (v : FreqModel m.size) : (s.setSmall m v).fd = s.fd := by cases m <;> rfl
@[simp] theorem setSmall_rd (m : SmallRef) (v : FreqModel m.size) : (s.setSmall m v).rd = s.rd := by cases m <;> rfl
@[simp] theorem setSmall_seq (m : SmallRef) (v : FreqModel m.size) : (s.setSmall m v).seq = s.seq := by cases m <;> rfl
@[simp] theorem setSmall_scratch (m : SmallRef) (v : FreqModel m.size) : (s.setSmall m v).scratch = s.scratch := by cases m <;> rfl
@[simp] theorem setSmall_inp (m : SmallRef) (v : FreqModel m.size) : (s.setSmall m v).inp = s.inp := by cases m <;> rfl
@[simp] theorem setSmall_status (m : SmallRef) (v : FreqModel m.size) : (s.setSmall m v).status = s.status := by cases m <;> rfl
@[simp] theorem setSmall_ref (m : SmallRef) (v : FreqModel m.size) : (s.setSmall m v).ref = s.ref := by cases m <;> rfl
@[simp] theorem setSmall_work (m : SmallRef) (v : FreqModel m.size) : (s.setSmall m v).work = s.work := by cases m <;> rfl
@[simp] theorem setSmall_ret (m : SmallRef) (v : FreqModel m.size) : (s.setSmall m v).ret = s.ret := by cases m <;> rfl
@[simp] theorem setSmall_cmds (m : SmallRef) (v : FreqModel m.size) : (s.setSmall m v).cmds = s.cmds := by cases m <;> rfl
@[simp] theorem setSmall_issue (m : SmallRef) (v : FreqModel m.size) : (s.setSmall m v).issue = s.issue := by cases m <;> rfl
@[simp] theorem setSmall_policy (m : SmallRef) (v : FreqModel m.size) : (s.setSmall m v).policy = s.policy := by cases m <;> rfl
@[simp] theorem setSmall_planeW (m : SmallRef) (v : FreqModel m.size) (q : Plane) : (s.setSmall m v).planeW q = s.planeW q := by cases m <;> cases q <;> rfl
@[simp] theorem setSmall_planeH (m : SmallRef) (v : FreqModel m.size) (q : Plane) : (s.setSmall m v).planeH q = s.planeH q := by cases m <;> cases q <;> rfl
@[simp] theorem setSmall_histW (m : SmallRef) (v : FreqModel m.size) (q : Plane) : (s.setSmall m v).histW q = s.histW q := by cases m <;> cases q <;> rfl
@[simp] theorem setSmall_histH (m : SmallRef) (v : FreqModel m.size) (q : Plane) : (s.setSmall m v).histH q = s.histH q := by cases m <;> cases q <;> rfl
@[simp] theorem setSmall_origin (m : SmallRef) (v : FreqModel m.size) (q : Plane) : (s.setSmall m v).origin q = s.origin q := by cases m <;> cases q <;> rfl
@[simp] theorem setSmall_canvas (m : SmallRef) (v : FreqModel m.size) : (s.setSmall m v).canvas = s.canvas := by cases m <;> rfl

/-! ### `setByte` -/

@[simp] theorem setByte_alive (m : ByteRef) (v : ByteModel) : (s.setByte m v).alive = s.alive := by cases m <;> rfl
@[simp] theorem setByte_params (m : ByteRef) (v : ByteModel) : (s.setByte m v).params = s.params := by cases m <;> rfl
@[simp] theorem setByte_fd (m : ByteRef) (v : ByteModel) : (s.setByte m v).fd = s.fd := by cases m <;> rfl
@[simp] theorem setByte_rd (m : ByteRef) (v : ByteModel) : (s.setByte m v).rd = s.rd := by cases m <;> rfl
@[simp] theorem setByte_seq (m : ByteRef) (v : ByteModel) : (s.setByte m v).seq = s.seq := by cases m <;> rfl
@[simp] theorem setByte_scratch (m : ByteRef) (v : ByteModel) : (s.setByte m v).scratch = s.scratch := by cases m <;> rfl
@[simp] theorem setByte_inp (m : ByteRef) (v : ByteModel) : (s.setByte m v).inp = s.inp := by cases m <;> rfl
@[simp] theorem setByte_status (m : ByteRef) (v : ByteModel) : (s.setByte m v).status = s.status := by cases m <;> rfl
@[simp] theorem setByte_ref (m : ByteRef) (v : ByteModel) : (s.setByte m v).ref = s.ref := by cases m <;> rfl
@[simp] theorem setByte_work (m : ByteRef) (v : ByteModel) : (s.setByte m v).work = s.work := by cases m <;> rfl
@[simp] theorem setByte_ret (m : ByteRef) (v : ByteModel) : (s.setByte m v).ret = s.ret := by cases m <;> rfl
@[simp] theorem setByte_cmds (m : ByteRef) (v : ByteModel) : (s.setByte m v).cmds = s.cmds := by cases m <;> rfl
@[simp] theorem setByte_issue (m : ByteRef) (v : ByteModel) : (s.setByte m v).issue = s.issue := by cases m <;> rfl
@[simp] theorem setByte_policy (m : ByteRef) (v : ByteModel) : (s.setByte m v).policy = s.policy := by cases m <;> rfl
@[simp] theorem setByte_planeW (m : ByteRef) (v : ByteModel) (q : Plane) : (s.setByte m v).planeW q = s.planeW q := by cases m <;> cases q <;> rfl
@[simp] theorem setByte_planeH (m : ByteRef) (v : ByteModel) (q : Plane) : (s.setByte m v).planeH q = s.planeH q := by cases m <;> cases q <;> rfl
@[simp] theorem setByte_histW (m : ByteRef) (v : ByteModel) (q : Plane) : (s.setByte m v).histW q = s.histW q := by cases m <;> cases q <;> rfl
@[simp] theorem setByte_histH (m : ByteRef) (v : ByteModel) (q : Plane) : (s.setByte m v).histH q = s.histH q := by cases m <;> cases q <;> rfl
@[simp] theorem setByte_origin (m : ByteRef) (v : ByteModel) (q : Plane) : (s.setByte m v).origin q = s.origin q := by cases m <;> cases q <;> rfl
@[simp] theorem setByte_canvas (m : ByteRef) (v : ByteModel) : (s.setByte m v).canvas = s.canvas := by cases m <;> rfl

/-! ### `setRd` -/

@[simp] theorem setRd_alive (x : RangeDecoder) : (s.setRd x).alive = s.alive := rfl
@[simp] theorem setRd_params (x : RangeDecoder) : (s.setRd x).params = s.params := rfl
@[simp] theorem setRd_coders (x : RangeDecoder) : (s.setRd x).coders = s.coders := rfl
@[simp] theorem setRd_fd (x : RangeDecoder) : (s.setRd x).fd = s.fd := rfl
@[simp] theorem setRd_rd (x : RangeDecoder) : (s.setRd x).rd = x := rfl
@[simp] theorem setRd_seq (x : RangeDecoder) : (s.setRd x).seq = s.seq := rfl
@[simp] theorem setRd_scratch (x : RangeDecoder) : (s.setRd x).scratch = s.scratch := rfl
@[simp] theorem setRd_inp (x : RangeDecoder) : (s.setRd x).inp = s.inp := rfl
@[simp] theorem setRd_status (x : RangeDecoder) : (s.setRd x).status = s.status := rfl
@[simp] theorem setRd_ref (x : RangeDecoder) : (s.setRd x).ref = s.ref := rfl
@[simp] theorem setRd_work (x : RangeDecoder) : (s.setRd x).work = s.work := rfl
@[simp] theorem setRd_ret (x : RangeDecoder) : (s.setRd x).ret = s.ret := rfl
@[simp] theorem setRd_cmds (x : RangeDecoder) : (s.setRd x).cmds = s.cmds := rfl
@[simp] theorem setRd_issue (x : RangeDecoder) : (s.setRd x).issue = s.issue := rfl
@[simp] theorem setRd_coder (x : RangeDecoder) (q : Plane) : (s.setRd x).coder q = s.coder q := rfl
@[simp] theorem setRd_small (x : RangeDecoder) (r : SmallRef) : (s.setRd x).small r = s.small r := by cases r <;> rfl
@[simp] theorem setRd_byte (x : RangeDecoder) (r : ByteRef) : (s.setRd x).byte r = s.byte r := by cases r <;> rfl
@[simp] theorem setRd_bin (x : RangeDecoder) (r : BinRef) : (s.setRd x).bin r = s.bin r := by cases r; rfl
@[simp] theorem setRd_policy (x : RangeDecoder) : (s.setRd x).policy = s.policy := rfl
@[simp] theorem setRd_planeW (x : RangeDecoder) (q : Plane) : (s.setRd x).planeW q = s.planeW q := by cases q <;> rfl
@[simp] theorem setRd_planeH (x : RangeDecoder) (q : Plane) : (s.setRd x).planeH q = s.planeH q := by cases q <;> rfl
@[simp] theorem setRd_histW (x : RangeDecoder) (q : Plane) : (s.setRd x).histW q = s.histW q := by cases q <;> rfl
@[simp] theorem setRd_histH (x : RangeDecoder) (q : Plane) : (s.setRd x).histH q = s.histH q := by cases q <;> rfl
@[simp] theorem setRd_origin (x : RangeDecoder) (q : Plane) : (s.setRd x).origin q = s.origin q := by cases q <;> rfl
@[simp] theorem setRd_canvas (x : RangeDecoder) : (s.setRd x).canvas = s.canvas := rfl

/-! ### `setRet` -/

@[simp] theorem setRet_alive (v : Int) : (s.setRet v).alive = s.alive := rfl
@[simp] theorem setRet_params (v : Int) : (s.setRet v).params = s.params := rfl
@[simp] theorem setRet_coders (v : Int) : (s.setRet v).coders = s.coders := rfl
@[simp] theorem setRet_fd (v : Int) : (s.setRet v).fd = s.fd := rfl
@[simp] theorem setRet_rd (v : Int) : (s.setRet v).rd = s.rd := rfl
@[simp] theorem setRet_seq (v : Int) : (s.setRet v).seq = s.seq := rfl
@[simp] theorem setRet_scratch (v : Int) : (s.setRet v).scratch = s.scratch := rfl
@[simp] theorem setRet_inp (v : Int) : (s.setRet v).inp = s.inp := rfl
@[simp] theorem setRet_status (v : Int) : (s.setRet v).status = s.status := rfl
@[simp] theorem setRet_ref (v : Int) : (s.setRet v).ref = s.ref := rfl
@[simp] theorem setRet_work (v : Int) : (s.setRet v).work = s.work := rfl
@[simp] theorem setRet_ret (v : Int) : (s.setRet v).ret = v := rfl
@[simp] theorem setRet_cmds (v : Int) : (s.setRet v).cmds = s.cmds := rfl
@[simp] theorem setRet_issue (v : Int) : (s.setRet v).issue = s.issue := rfl
@[simp] theorem setRet_coder (v : Int) (q : Plane) : (s.setRet v).coder q = s.coder q := rfl
@[simp] theorem setRet_small (v : Int) (r : SmallRef) : (s.setRet v).small r = s.small r := by cases r <;> rfl
@[simp] theorem setRet_byte (v : Int) (r : ByteRef) : (s.setRet v).byte r = s.byte r := by cases r <;> rfl
@[simp] theorem setRet_bin (v : Int) (r : BinRef) : (s.setRet v).bin r = s.bin r := by cases r; rfl
@[simp] theorem setRet_policy (v : Int) : (s.setRet v).policy = s.policy := rfl
@[simp] theorem setRet_planeW (v : Int) (q : Plane) : (s.setRet v).planeW q = s.planeW q := by cases q <;> rfl
@[simp] theorem setRet_planeH (v : Int) (q : Plane) : (s.setRet v).planeH q = s.planeH q := by cases q <;> rfl
@[simp] theorem setRet_histW (v : Int) (q : Plane) : (s.setRet v).histW q = s.histW q := by cases q <;> rfl
@[simp] theorem setRet_histH (v : Int) (q : Plane) : (s.setRet v).histH q = s.histH q := by cases q <;> rfl
@[simp] theorem setRet_origin (v : Int) (q : Plane) : (s.setRet v).origin q = s.origin q := by cases q <;> rfl
@[simp] theorem setRet_canvas (v : Int) : (s.setRet v).canvas = s.canvas := rfl

/-! ### `setStatus` -/

@[simp] theorem setStatus_alive (c : Status) : (s.setStatus c).alive = s.alive := rfl
@[simp] theorem setStatus_params (c : Status) : (s.setStatus c).params = s.params := rfl
@[simp] theorem setStatus_coders (c : Status) : (s.setStatus c).coders = s.coders := rfl
@[simp] theorem setStatus_fd (c : Status) : (s.setStatus c).fd = s.fd := rfl
@[simp] theorem setStatus_rd (c : Status) : (s.setStatus c).rd = s.rd := rfl
@[simp] theorem setStatus_seq (c : Status) : (s.setStatus c).seq = s.seq := rfl
@[simp] theorem setStatus_scratch (c : Status) : (s.setStatus c).scratch = s.scratch := rfl
@[simp] theorem setStatus_inp (c : Status) : (s.setStatus c).inp = s.inp := rfl
@[simp] theorem setStatus_status (c : Status) : (s.setStatus c).status = c := rfl
@[simp] theorem setStatus_ref (c : Status) : (s.setStatus c).ref = s.ref := rfl
@[simp] theorem setStatus_work (c : Status) : (s.setStatus c).work = s.work := rfl
@[simp] theorem setStatus_ret (c : Status) : (s.setStatus c).ret = s.ret := rfl
@[simp] theorem setStatus_cmds (c : Status) : (s.setStatus c).cmds = s.cmds := rfl
@[simp] theorem setStatus_issue (c : Status) : (s.setStatus c).issue = s.issue := rfl
@[simp] theorem setStatus_coder (c : Status) (q : Plane) : (s.setStatus c).coder q = s.coder q := rfl
@[simp] theorem setStatus_small (c : Status) (r : SmallRef) : (s.setStatus c).small r = s.small r := by cases r <;> rfl
@[simp] theorem setStatus_byte (c : Status) (r : ByteRef) : (s.setStatus c).byte r = s.byte r := by cases r <;> rfl
@[simp] theorem setStatus_bin (c : Status) (r : BinRef) : (s.setStatus c).bin r = s.bin r := by cases r; rfl
@[simp] theorem setStatus_policy (c : Status) : (s.setStatus c).policy = s.policy := rfl
@[simp] theorem setStatus_planeW (c : Status) (q : Plane) : (s.setStatus c).planeW q = s.planeW q := by cases q <;> rfl
@[simp] theorem setStatus_planeH (c : Status) (q : Plane) : (s.setStatus c).planeH q = s.planeH q := by cases q <;> rfl
@[simp] theorem setStatus_histW (c : Status) (q : Plane) : (s.setStatus c).histW q = s.histW q := by cases q <;> rfl
@[simp] theorem setStatus_histH (c : Status) (q : Plane) : (s.setStatus c).histH q = s.histH q := by cases q <;> rfl
@[simp] theorem setStatus_origin (c : Status) (q : Plane) : (s.setStatus c).origin q = s.origin q := by cases q <;> rfl
@[simp] theorem setStatus_canvas (c : Status) : (s.setStatus c).canvas = s.canvas := rfl

/-! ### `setScratch` -/

@[simp] theorem setScratch_alive (x : Scratch) : (s.setScratch x).alive = s.alive := rfl
@[simp] theorem setScratch_params (x : Scratch) : (s.setScratch x).params = s.params := rfl
@[simp] theorem setScratch_coders (x : Scratch) : (s.setScratch x).coders = s.coders := rfl
@[simp] theorem setScratch_fd (x : Scratch) : (s.setScratch x).fd = s.fd := rfl
@[simp] theorem setScratch_rd (x : Scratch) : (s.setScratch x).rd = s.rd := rfl
@[simp] theorem setScratch_seq (x : Scratch) : (s.setScratch x).seq = s.seq := rfl
@[simp] theorem setScratch_scratch (x : Scratch) : (s.setScratch x).scratch = x := rfl
@[simp] theorem setScratch_inp (x : Scratch) : (s.setScratch x).inp = s.inp := rfl
@[simp] theorem setScratch_status (x : Scratch) : (s.setScratch x).status = s.status := rfl
@[simp] theorem setScratch_ref (x : Scratch) : (s.setScratch x).ref = s.ref := rfl
@[simp] theorem setScratch_work (x : Scratch) : (s.setScratch x).work = s.work := rfl
@[simp] theorem setScratch_ret (x : Scratch) : (s.setScratch x).ret = s.ret := rfl
@[simp] theorem setScratch_cmds (x : Scratch) : (s.setScratch x).cmds = s.cmds := rfl
@[simp] theorem setScratch_issue (x : Scratch) : (s.setScratch x).issue = s.issue := rfl
@[simp] theorem setScratch_coder (x : Scratch) (q : Plane) : (s.setScratch x).coder q = s.coder q := rfl
@[simp] theorem setScratch_small (x : Scratch) (r : SmallRef) : (s.setScratch x).small r = s.small r := by cases r <;> rfl
@[simp] theorem setScratch_byte (x : Scratch) (r : ByteRef) : (s.setScratch x).byte r = s.byte r := by cases r <;> rfl
@[simp] theorem setScratch_bin (x : Scratch) (r : BinRef) : (s.setScratch x).bin r = s.bin r := by cases r; rfl
@[simp] theorem setScratch_policy (x : Scratch) : (s.setScratch x).policy = s.policy := rfl
@[simp] theorem setScratch_planeW (x : Scratch) (q : Plane) : (s.setScratch x).planeW q = s.planeW q := by cases q <;> rfl
@[simp] theorem setScratch_planeH (x : Scratch) (q : Plane) : (s.setScratch x).planeH q = s.planeH q := by cases q <;> rfl
@[simp] theorem setScratch_histW (x : Scratch) (q : Plane) : (s.setScratch x).histW q = s.histW q := by cases q <;> rfl
@[simp] theorem setScratch_histH (x : Scratch) (q : Plane) : (s.setScratch x).histH q = s.histH q := by cases q <;> rfl
@[simp] theorem setScratch_origin (x : Scratch) (q : Plane) : (s.setScratch x).origin q = s.origin q := by cases q <;> rfl
@[simp] theorem setScratch_canvas (x : Scratch) : (s.setScratch x).canvas = s.canvas := rfl

/-! ### `setImg` -/

@[simp] theorem setImg_alive (x : ImageScratch) : (s.setImg x).alive = s.alive := rfl
@[simp] theorem setImg_params (x : ImageScratch) : (s.setImg x).params = s.params := rfl
@[simp] theorem setImg_coders (x : ImageScratch) : (s.setImg x).coders = s.coders := rfl
@[simp] theorem setImg_fd (x : ImageScratch) : (s.setImg x).fd = s.fd := rfl
@[simp] theorem setImg_rd (x : ImageScratch) : (s.setImg x).rd = s.rd := rfl
@[simp] theorem setImg_seq (x : ImageScratch) : (s.setImg x).seq = s.seq := rfl
@[simp] theorem setImg_scratch (x : ImageScratch) : (s.setImg x).scratch = { s.scratch with img := x } := rfl
@[simp] theorem setImg_inp (x : ImageScratch) : (s.setImg x).inp = s.inp := rfl
@[simp] theorem setImg_status (x : ImageScratch) : (s.setImg x).status = s.status := rfl
@[simp] theorem setImg_ref (x : ImageScratch) : (s.setImg x).ref = s.ref := rfl
@[simp] theorem setImg_work (x : ImageScratch) : (s.setImg x).work = s.work := rfl
@[simp] theorem setImg_ret (x : ImageScratch) : (s.setImg x).ret = s.ret := rfl
@[simp] theorem setImg_cmds (x : ImageScratch) : (s.setImg x).cmds = s.cmds := rfl
@[simp] theorem setImg_issue (x : ImageScratch) : (s.setImg x).issue = s.issue := rfl
@[simp] theorem setImg_coder (x : ImageScratch) (q : Plane) : (s.setImg x).coder q = s.coder q := rfl
@[simp] theorem setImg_small (x : ImageScratch) (r : SmallRef) : (s.setImg x).small r = s.small r := by cases r <;> rfl
@[simp] theorem setImg_byte (x : ImageScratch) (r : ByteRef) : (s.setImg x).byte r = s.byte r := by cases r <;> rfl
@[simp] theorem setImg_bin (x : ImageScratch) (r : BinRef) : (s.setImg x).bin r = s.bin r := by cases r; rfl
@[simp] theorem setImg_policy (x : ImageScratch) : (s.setImg x).policy = s.policy := rfl
@[simp] theorem setImg_planeW (x : ImageScratch) (q : Plane) : (s.setImg x).planeW q = s.planeW q := by cases q <;> rfl
@[simp] theorem setImg_planeH (x : ImageScratch) (q : Plane) : (s.setImg x).planeH q = s.planeH q := by cases q <;> rfl
@[simp] theorem setImg_histW (x : ImageScratch) (q : Plane) : (s.setImg x).histW q = s.histW q := by cases q <;> rfl
@[simp] theorem setImg_histH (x : ImageScratch) (q : Plane) : (s.setImg x).histH q = s.histH q := by cases q <;> rfl
@[simp] theorem setImg_origin (x : ImageScratch) (q : Plane) : (s.setImg x).origin q = s.origin q := by cases q <;> rfl
@[simp] theorem setImg_canvas (x : ImageScratch) : (s.setImg x).canvas = s.canvas := rfl

/-! ### `setSeq` -/

@[simp] theorem setSeq_alive (x : Sequencer) : (s.setSeq x).alive = s.alive := rfl
@[simp] theorem setSeq_params (x : Sequencer) : (s.setSeq x).params = s.params := rfl
@[simp] theorem setSeq_coders (x : Sequencer) : (s.setSeq x).coders = s.coders := rfl
@[simp] theorem setSeq_fd (x : Sequencer) : (s.setSeq x).fd = s.fd := rfl
@[simp] theorem setSeq_rd (x : Sequencer) : (s.setSeq x).rd = s.rd := rfl
@[simp] theorem setSeq_seq (x : Sequencer) : (s.setSeq x).seq = x := rfl
@[simp] theorem setSeq_scratch (x : Sequencer) : (s.setSeq x).scratch = s.scratch := rfl
@[simp] theorem setSeq_inp (x : Sequencer) : (s.setSeq x).inp = s.inp := rfl
@[simp] theorem setSeq_status (x : Sequencer) : (s.setSeq x).status = s.status := rfl
@[simp] theorem setSeq_ref (x : Sequencer) : (s.setSeq x).ref = s.ref := rfl
@[simp] theorem setSeq_work (x : Sequencer) : (s.setSeq x).work = s.work := rfl
@[simp] theorem setSeq_ret (x : Sequencer) : (s.setSeq x).ret = s.ret := rfl
@[simp] theorem setSeq_cmds (x : Sequencer) : (s.setSeq x).cmds = s.cmds := rfl
@[simp] theorem setSeq_issue (x : Sequencer) : (s.setSeq x).issue = s.issue := rfl
@[simp] theorem setSeq_coder (x : Sequencer) (q : Plane) : (s.setSeq x).coder q = s.coder q := rfl
@[simp] theorem setSeq_small (x : Sequencer) (r : SmallRef) : (s.setSeq x).small r = s.small r := by cases r <;> rfl
@[simp] theorem setSeq_byte (x : Sequencer) (r : ByteRef) : (s.setSeq x).byte r = s.byte r := by cases r <;> rfl
@[simp] theorem setSeq_bin (x : Sequencer) (r : BinRef) : (s.setSeq x).bin r = s.bin r := by cases r; rfl
@[simp] theorem setSeq_policy (x : Sequencer) : (s.setSeq x).policy = s.policy := rfl
@[simp] theorem setSeq_planeW (x : Sequencer) (q : Plane) : (s.setSeq x).planeW q = s.planeW q := by cases q <;> rfl
@[simp] theorem setSeq_planeH (x : Sequencer) (q : Plane) : (s.setSeq x).planeH q = s.planeH q := by cases q <;> rfl
@[simp] theorem setSeq_histW (x : Sequencer) (q : Plane) : (s.setSeq x).histW q = s.histW q := by cases q <;> rfl
@[simp] theorem setSeq_histH (x : Sequencer) (q : Plane) : (s.setSeq x).histH q = s.histH q := by cases q <;> rfl
@[simp] theorem setSeq_canvas (x : Sequencer) : (s.setSeq x).canvas = s.canvas := rfl

/-! ### `setPos` -/

@[simp] theorem setPos_alive (k : Nat) : (s.setPos k).alive = s.alive := rfl
@[simp] theorem setPos_params (k : Nat) : (s.setPos k).params = s.params := rfl
@[simp] theorem setPos_coders (k : Nat) : (s.setPos k).coders = s.coders := rfl
@[simp] theorem setPos_fd (k : Nat) : (s.setPos k).fd = s.fd := rfl
@[simp] theorem setPos_rd (k : Nat) : (s.setPos k).rd = s.rd := rfl
@[simp] theorem setPos_seq (k : Nat) : (s.setPos k).seq = { s.seq with pos := k } := rfl
@[simp] theorem setPos_scratch (k : Nat) : (s.setPos k).scratch = s.scratch := rfl
@[simp] theorem setPos_inp (k : Nat) : (s.setPos k).inp = s.inp := rfl
@[simp] theorem setPos_status (k : Nat) : (s.setPos k).status = s.status := rfl
@[simp] theorem setPos_ref (k : Nat) : (s.setPos k).ref = s.ref := rfl
@[simp] theorem setPos_work (k : Nat) : (s.setPos k).work = s.work := rfl
@[simp] theorem setPos_ret (k : Nat) : (s.setPos k).ret = s.ret := rfl
@[simp] theorem setPos_cmds (k : Nat) : (s.setPos k).cmds = s.cmds := rfl
@[simp] theorem setPos_issue (k : Nat) : (s.setPos k).issue = s.issue := rfl
@[simp] theorem setPos_coder (k : Nat) (q : Plane) : (s.setPos k).coder q = s.coder q := rfl
@[simp] theorem setPos_small (k : Nat) (r : SmallRef) : (s.setPos k).small r = s.small r := by cases r <;> rfl
@[simp] theorem setPos_byte (k : Nat) (r : ByteRef) : (s.setPos k).byte r = s.byte r := by cases r <;> rfl
@[simp] theorem setPos_bin (k : Nat) (r : BinRef) : (s.setPos k).bin r = s.bin r := by cases r; rfl
@[simp] theorem setPos_policy (k : Nat) : (s.setPos k).policy = s.policy := rfl
@[simp] theorem setPos_planeW (k : Nat) (q : Plane) : (s.setPos k).planeW q = s.planeW q := by cases q <;> rfl
@[simp] theorem setPos_planeH (k : Nat) (q : Plane) : (s.setPos k).planeH q = s.planeH q := by cases q <;> rfl
@[simp] theorem setPos_histW (k : Nat) (q : Plane) : (s.setPos k).histW q = s.histW q := by cases q <;> rfl
@[simp] theorem setPos_histH (k : Nat) (q : Plane) : (s.setPos k).histH q = s.histH q := by cases q <;> rfl
@[simp] theorem setPos_origin (k : Nat) (q : Plane) : (s.setPos k).origin q = s.origin q := by cases q <;> rfl
@[simp] theorem setPos_canvas (k : Nat) : (s.setPos k).canvas = s.canvas := rfl

/-! ### `setFd` -/

@[simp] theorem setFd_alive (x : FrameControl) : (s.setFd x).alive = s.alive := rfl
@[simp] theorem setFd_params (x : FrameControl) : (s.setFd x).params = s.params := rfl
@[simp] theorem setFd_coders (x : FrameControl) : (s.setFd x).coders = s.coders := rfl
@[simp] theorem setFd_fd (x : FrameControl) : (s.setFd x).fd = x := rfl
@[simp] theorem setFd_rd (x : FrameControl) : (s.setFd x).rd = s.rd := rfl
@[simp] theorem setFd_seq (x : FrameControl) : (s.setFd x).seq = s.seq := rfl
@[simp] theorem setFd_scratch (x : FrameControl) : (s.setFd x).scratch = s.scratch := rfl
@[simp] theorem setFd_inp (x : FrameControl) : (s.setFd x).inp = s.inp := rfl
@[simp] theorem setFd_status (x : FrameControl) : (s.setFd x).status = s.status := rfl
@[simp] theorem setFd_ref (x : FrameControl) : (s.setFd x).ref = s.ref := rfl
@[simp] theorem setFd_work (x : FrameControl) : (s.setFd x).work = s.work := rfl
@[simp] theorem setFd_ret (x : FrameControl) : (s.setFd x).ret = s.ret := rfl
@[simp] theorem setFd_cmds (x : FrameControl) : (s.setFd x).cmds = s.cmds := rfl
@[simp] theorem setFd_issue (x : FrameControl) : (s.setFd x).issue = s.issue := rfl
@[simp] theorem setFd_coder (x : FrameControl) (q : Plane) : (s.setFd x).coder q = s.coder q := rfl
@[simp] theorem setFd_small (x : FrameControl) (r : SmallRef) : (s.setFd x).small r = s.small r := by cases r <;> rfl
@[simp] theorem setFd_byte (x : FrameControl) (r : ByteRef) : (s.setFd x).byte r = s.byte r := by cases r <;> rfl
@[simp] theorem setFd_bin (x : FrameControl) (r : BinRef) : (s.setFd x).bin r = s.bin r := by cases r; rfl
@[simp] theorem setFd_policy (x : FrameControl) : (s.setFd x).policy = s.policy := rfl
@[simp] theorem setFd_planeW (x : FrameControl) (q : Plane) : (s.setFd x).planeW q = s.planeW q := by cases q <;> rfl
@[simp] theorem setFd_planeH (x : FrameControl) (q : Plane) : (s.setFd x).planeH q = s.planeH q := by cases q <;> rfl
@[simp] theorem setFd_histW (x : FrameControl) (q : Plane) : (s.setFd x).histW q = s.histW q := by cases q <;> rfl
@[simp] theorem setFd_histH (x : FrameControl) (q : Plane) : (s.setFd x).histH q = s.histH q := by cases q <;> rfl
@[simp] theorem setFd_origin (x : FrameControl) (q : Plane) : (s.setFd x).origin q = s.origin q := by cases q <;> rfl
@[simp] theorem setFd_canvas (x : FrameControl) : (s.setFd x).canvas = s.canvas := rfl

/-! ### `setNeg` -/

@[simp] theorem setNeg_alive (b : Bool) : (s.setNeg b).alive = s.alive := rfl
@[simp] theorem setNeg_params (b : Bool) : (s.setNeg b).params = s.params := rfl
@[simp] theorem setNeg_coders (b : Bool) : (s.setNeg b).coders = s.coders := rfl
@[simp] theorem setNeg_fd (b : Bool) : (s.setNeg b).fd = s.fd := rfl
@[simp] theorem setNeg_rd (b : Bool) : (s.setNeg b).rd = s.rd := rfl
@[simp] theorem setNeg_seq (b : Bool) : (s.setNeg b).seq = s.seq := rfl
@[simp] theorem setNeg_scratch (b : Bool) : (s.setNeg b).scratch = { s.scratch with neg := b } := rfl
@[simp] theorem setNeg_inp (b : Bool) : (s.setNeg b).inp = s.inp := rfl
@[simp] theorem setNeg_status (b : Bool) : (s.setNeg b).status = s.status := rfl
@[simp] theorem setNeg_ref (b : Bool) : (s.setNeg b).ref = s.ref := rfl
@[simp] theorem setNeg_work (b : Bool) : (s.setNeg b).work = s.work := rfl
@[simp] theorem setNeg_ret (b : Bool) : (s.setNeg b).ret = s.ret := rfl
@[simp] theorem setNeg_cmds (b : Bool) : (s.setNeg b).cmds = s.cmds := rfl
@[simp] theorem setNeg_issue (b : Bool) : (s.setNeg b).issue = s.issue := rfl
@[simp] theorem setNeg_coder (b : Bool) (q : Plane) : (s.setNeg b).coder q = s.coder q := rfl
@[simp] theorem setNeg_small (b : Bool) (r : SmallRef) : (s.setNeg b).small r = s.small r := by cases r <;> rfl
@[simp] theorem setNeg_byte (b : Bool) (r : ByteRef) : (s.setNeg b).byte r = s.byte r := by cases r <;> rfl
@[simp] theorem setNeg_bin (b : Bool) (r : BinRef) : (s.setNeg b).bin r = s.bin r := by cases r; rfl
@[simp] theorem setNeg_policy (b : Bool) : (s.setNeg b).policy = s.policy := rfl
@[simp] theorem setNeg_planeW (b : Bool) (q : Plane) : (s.setNeg b).planeW q = s.planeW q := by cases q <;> rfl
@[simp] theorem setNeg_planeH (b : Bool) (q : Plane) : (s.setNeg b).planeH q = s.planeH q := by cases q <;> rfl
@[simp] theorem setNeg_histW (b : Bool) (q : Plane) : (s.setNeg b).histW q = s.histW q := by cases q <;> rfl
@[simp] theorem setNeg_histH (b : Bool) (q : Plane) : (s.setNeg b).histH q = s.histH q := by cases q <;> rfl
@[simp] theorem setNeg_origin (b : Bool) (q : Plane) : (s.setNeg b).origin q = s.origin q := by cases q <;> rfl
@[simp] theorem setNeg_canvas (b : Bool) : (s.setNeg b).canvas = s.canvas := rfl

/-! ### `setScan` -/

@[simp] theorem setScan_alive (x : ScanStatus) : (s.setScan x).alive = s.alive := rfl
@[simp] theorem setScan_params (x : ScanStatus) : (s.setScan x).params = s.params := rfl
@[simp] theorem setScan_coders (x : ScanStatus) : (s.setScan x).coders = s.coders := rfl
@[simp] theorem setScan_fd (x : ScanStatus) : (s.setScan x).fd = s.fd := rfl
@[simp] theorem setScan_rd (x : ScanStatus) : (s.setScan x).rd = s.rd := rfl
@[simp] theorem setScan_seq (x : ScanStatus) : (s.setScan x).seq = s.seq := rfl
@[simp] theorem setScan_scratch (x : ScanStatus) : (s.setScan x).scratch = { s.scratch with scan := x } := rfl
@[simp] theorem setScan_inp (x : ScanStatus) : (s.setScan x).inp = s.inp := rfl
@[simp] theorem setScan_status (x : ScanStatus) : (s.setScan x).status = s.status := rfl
@[simp] theorem setScan_ref (x : ScanStatus) : (s.setScan x).ref = s.ref := rfl
@[simp] theorem setScan_work (x : ScanStatus) : (s.setScan x).work = s.work := rfl
@[simp] theorem setScan_ret (x : ScanStatus) : (s.setScan x).ret = s.ret := rfl
@[simp] theorem setScan_cmds (x : ScanStatus) : (s.setScan x).cmds = s.cmds := rfl
@[simp] theorem setScan_issue (x : ScanStatus) : (s.setScan x).issue = s.issue := rfl
@[simp] theorem setScan_coder (x : ScanStatus) (q : Plane) : (s.setScan x).coder q = s.coder q := rfl
@[simp] theorem setScan_small (x : ScanStatus) (r : SmallRef) : (s.setScan x).small r = s.small r := by cases r <;> rfl
@[simp] theorem setScan_byte (x : ScanStatus) (r : ByteRef) : (s.setScan x).byte r = s.byte r := by cases r <;> rfl
@[simp] theorem setScan_bin (x : ScanStatus) (r : BinRef) : (s.setScan x).bin r = s.bin r := by cases r; rfl
@[simp] theorem setScan_policy (x : ScanStatus) : (s.setScan x).policy = s.policy := rfl
@[simp] theorem setScan_planeW (x : ScanStatus) (q : Plane) : (s.setScan x).planeW q = s.planeW q := by cases q <;> rfl
@[simp] theorem setScan_planeH (x : ScanStatus) (q : Plane) : (s.setScan x).planeH q = s.planeH q := by cases q <;> rfl
@[simp] theorem setScan_histW (x : ScanStatus) (q : Plane) : (s.setScan x).histW q = s.histW q := by cases q <;> rfl
@[simp] theorem setScan_histH (x : ScanStatus) (q : Plane) : (s.setScan x).histH q = s.histH q := by cases q <;> rfl
@[simp] theorem setScan_origin (x : ScanStatus) (q : Plane) : (s.setScan x).origin q = s.origin q := by cases q <;> rfl
@[simp] theorem setScan_canvas (x : ScanStatus) : (s.setScan x).canvas = s.canvas := rfl

/-! ### `setDctBlk` -/

@[simp] theorem setDctBlk_alive (b : CoeffBlock) : (s.setDctBlk b).alive = s.alive := rfl
@[simp] theorem setDctBlk_params (b : CoeffBlock) : (s.setDctBlk b).params = s.params := rfl
@[simp] theorem setDctBlk_coders (b : CoeffBlock) : (s.setDctBlk b).coders = s.coders := rfl
@[simp] theorem setDctBlk_fd (b : CoeffBlock) : (s.setDctBlk b).fd = s.fd := rfl
@[simp] theorem setDctBlk_rd (b : CoeffBlock) : (s.setDctBlk b).rd = s.rd := rfl
@[simp] theorem setDctBlk_seq (b : CoeffBlock) : (s.setDctBlk b).seq = s.seq := rfl
@[simp] theorem setDctBlk_scratch (b : CoeffBlock) : (s.setDctBlk b).scratch = { s.scratch with dctBlk := b } := rfl
@[simp] theorem setDctBlk_inp (b : CoeffBlock) : (s.setDctBlk b).inp = s.inp := rfl
@[simp] theorem setDctBlk_status (b : CoeffBlock) : (s.setDctBlk b).status = s.status := rfl
@[simp] theorem setDctBlk_ref (b : CoeffBlock) : (s.setDctBlk b).ref = s.ref := rfl
@[simp] theorem setDctBlk_work (b : CoeffBlock) : (s.setDctBlk b).work = s.work := rfl
@[simp] theorem setDctBlk_ret (b : CoeffBlock) : (s.setDctBlk b).ret = s.ret := rfl
@[simp] theorem setDctBlk_cmds (b : CoeffBlock) : (s.setDctBlk b).cmds = s.cmds := rfl
@[simp] theorem setDctBlk_issue (b : CoeffBlock) : (s.setDctBlk b).issue = s.issue := rfl
@[simp] theorem setDctBlk_coder (b : CoeffBlock) (q : Plane) : (s.setDctBlk b).coder q = s.coder q := rfl
@[simp] theorem setDctBlk_small (b : CoeffBlock) (r : SmallRef) : (s.setDctBlk b).small r = s.small r := by cases r <;> rfl
@[simp] theorem setDctBlk_byte (b : CoeffBlock) (r : ByteRef) : (s.setDctBlk b).byte r = s.byte r := by cases r <;> rfl
@[simp] theorem setDctBlk_bin (b : CoeffBlock) (r : BinRef) : (s.setDctBlk b).bin r = s.bin r := by cases r; rfl
@[simp] theorem setDctBlk_policy (b : CoeffBlock) : (s.setDctBlk b).policy = s.policy := rfl
@[simp] theorem setDctBlk_planeW (b : CoeffBlock) (q : Plane) : (s.setDctBlk b).planeW q = s.planeW q := by cases q <;> rfl
@[simp] theorem setDctBlk_planeH (b : CoeffBlock) (q : Plane) : (s.setDctBlk b).planeH q = s.planeH q := by cases q <;> rfl
@[simp] theorem setDctBlk_histW (b : CoeffBlock) (q : Plane) : (s.setDctBlk b).histW q = s.histW q := by cases q <;> rfl
@[simp] theorem setDctBlk_histH (b : CoeffBlock) (q : Plane) : (s.setDctBlk b).histH q = s.histH q := by cases q <;> rfl
@[simp] theorem setDctBlk_origin (b : CoeffBlock) (q : Plane) : (s.setDctBlk b).origin q = s.origin q := by cases q <;> rfl
@[simp] theorem setDctBlk_canvas (b : CoeffBlock) : (s.setDctBlk b).canvas = s.canvas := rfl

/-! ### `setHaarBlk` -/

@[simp] theorem setHaarBlk_alive (b : Vector Int 256) : (s.setHaarBlk b).alive = s.alive := rfl
@[simp] theorem setHaarBlk_params (b : Vector Int 256) : (s.setHaarBlk b).params = s.params := rfl
@[simp] theorem setHaarBlk_coders (b : Vector Int 256) : (s.setHaarBlk b).coders = s.coders := rfl
@[simp] theorem setHaarBlk_fd (b : Vector Int 256) : (s.setHaarBlk b).fd = s.fd := rfl
@[simp] theorem setHaarBlk_rd (b : Vector Int 256) : (s.setHaarBlk b).rd = s.rd := rfl
@[simp] theorem setHaarBlk_seq (b : Vector Int 256) : (s.setHaarBlk b).seq = s.seq := rfl
@[simp] theorem setHaarBlk_scratch (b : Vector Int 256) : (s.setHaarBlk b).scratch = { s.scratch with haarBlk := b } := rfl
@[simp] theorem setHaarBlk_inp (b : Vector Int 256) : (s.setHaarBlk b).inp = s.inp := rfl
@[simp] theorem setHaarBlk_status (b : Vector Int 256) : (s.setHaarBlk b).status = s.status := rfl
@[simp] theorem setHaarBlk_ref (b : Vector Int 256) : (s.setHaarBlk b).ref = s.ref := rfl
@[simp] theorem setHaarBlk_work (b : Vector Int 256) : (s.setHaarBlk b).work = s.work := rfl
@[simp] theorem setHaarBlk_ret (b : Vector Int 256) : (s.setHaarBlk b).ret = s.ret := rfl
@[simp] theorem setHaarBlk_cmds (b : Vector Int 256) : (s.setHaarBlk b).cmds = s.cmds := rfl
@[simp] theorem setHaarBlk_issue (b : Vector Int 256) : (s.setHaarBlk b).issue = s.issue := rfl
@[simp] theorem setHaarBlk_coder (b : Vector Int 256) (q : Plane) : (s.setHaarBlk b).coder q = s.coder q := rfl
@[simp] theorem setHaarBlk_small (b : Vector Int 256) (r : SmallRef) : (s.setHaarBlk b).small r = s.small r := by cases r <;> rfl
@[simp] theorem setHaarBlk_byte (b : Vector Int 256) (r : ByteRef) : (s.setHaarBlk b).byte r = s.byte r := by cases r <;> rfl
@[simp] theorem setHaarBlk_bin (b : Vector Int 256) (r : BinRef) : (s.setHaarBlk b).bin r = s.bin r := by cases r; rfl
@[simp] theorem setHaarBlk_policy (b : Vector Int 256) : (s.setHaarBlk b).policy = s.policy := rfl
@[simp] theorem setHaarBlk_planeW (b : Vector Int 256) (q : Plane) : (s.setHaarBlk b).planeW q = s.planeW q := by cases q <;> rfl
@[simp] theorem setHaarBlk_planeH (b : Vector Int 256) (q : Plane) : (s.setHaarBlk b).planeH q = s.planeH q := by cases q <;> rfl
@[simp] theorem setHaarBlk_histW (b : Vector Int 256) (q : Plane) : (s.setHaarBlk b).histW q = s.histW q := by cases q <;> rfl
@[simp] theorem setHaarBlk_histH (b : Vector Int 256) (q : Plane) : (s.setHaarBlk b).histH q = s.histH q := by cases q <;> rfl
@[simp] theorem setHaarBlk_origin (b : Vector Int 256) (q : Plane) : (s.setHaarBlk b).origin q = s.origin q := by cases q <;> rfl
@[simp] theorem setHaarBlk_canvas (b : Vector Int 256) : (s.setHaarBlk b).canvas = s.canvas := rfl

/-! ### `setCanvas` -/

@[simp] theorem setCanvas_alive (m : Store 8) : (s.setCanvas m).alive = s.alive := by unfold State.setCanvas; split <;> rfl
@[simp] theorem setCanvas_params (m : Store 8) : (s.setCanvas m).params = s.params := by unfold State.setCanvas; split <;> rfl
@[simp] theorem setCanvas_coders (m : Store 8) : (s.setCanvas m).coders = s.coders := by unfold State.setCanvas; split <;> rfl
@[simp] theorem setCanvas_fd (m : Store 8) : (s.setCanvas m).fd = s.fd := by unfold State.setCanvas; split <;> rfl
@[simp] theorem setCanvas_rd (m : Store 8) : (s.setCanvas m).rd = s.rd := by unfold State.setCanvas; split <;> rfl
@[simp] theorem setCanvas_seq (m : Store 8) : (s.setCanvas m).seq = s.seq := by unfold State.setCanvas; split <;> rfl
@[simp] theorem setCanvas_scratch (m : Store 8) : (s.setCanvas m).scratch = s.scratch := by unfold State.setCanvas; split <;> rfl
@[simp] theorem setCanvas_inp (m : Store 8) : (s.setCanvas m).inp = s.inp := by unfold State.setCanvas; split <;> rfl
@[simp] theorem setCanvas_status (m : Store 8) : (s.setCanvas m).status = s.status := by unfold State.setCanvas; split <;> rfl
@[simp] theorem setCanvas_ret (m : Store 8) : (s.setCanvas m).ret = s.ret := by unfold State.setCanvas; split <;> rfl
@[simp] theorem setCanvas_cmds (m : Store 8) : (s.setCanvas m).cmds = s.cmds := by unfold State.setCanvas; split <;> rfl
@[simp] theorem setCanvas_issue (m : Store 8) : (s.setCanvas m).issue = s.issue := by unfold State.setCanvas; split <;> rfl
@[simp] theorem setCanvas_coder (m : Store 8) (q : Plane) : (s.setCanvas m).coder q = s.coder q := by unfold State.setCanvas; split <;> rfl
@[simp] theorem setCanvas_small (m : Store 8) (r : SmallRef) : (s.setCanvas m).small r = s.small r := by unfold State.setCanvas; split <;> cases r <;> rfl
@[simp] theorem setCanvas_byte (m : Store 8) (r : ByteRef) : (s.setCanvas m).byte r = s.byte r := by unfold State.setCanvas; split <;> cases r <;> rfl
@[simp] theorem setCanvas_bin (m : Store 8) (r : BinRef) : (s.setCanvas m).bin r = s.bin r := by unfold State.setCanvas; cases r; split <;> rfl
@[simp] theorem setCanvas_policy (m : Store 8) : (s.setCanvas m).policy = s.policy := by unfold State.setCanvas; split <;> rfl
@[simp] theorem setCanvas_planeW (m : Store 8) (q : Plane) : (s.setCanvas m).planeW q = s.planeW q := by unfold State.setCanvas; split <;> cases q <;> rfl
@[simp] theorem setCanvas_planeH (m : Store 8) (q : Plane) : (s.setCanvas m).planeH q = s.planeH q := by unfold State.setCanvas; split <;> cases q <;> rfl
@[simp] theorem setCanvas_histW (m : Store 8) (q : Plane) : (s.setCanvas m).histW q = s.histW q := by unfold State.setCanvas; split <;> cases q <;> rfl
@[simp] theorem setCanvas_histH (m : Store 8) (q : Plane) : (s.setCanvas m).histH q = s.histH q := by unfold State.setCanvas; split <;> cases q <;> rfl
@[simp] theorem setCanvas_origin (m : Store 8) (q : Plane) : (s.setCanvas m).origin q = s.origin q := by unfold State.setCanvas; split <;> cases q <;> rfl

/-! ### `setBlkErr` -/

@[simp] theorem setBlkErr_alive : (setBlkErr s).alive = s.alive := rfl
@[simp] theorem setBlkErr_params : (setBlkErr s).params = s.params := rfl
@[simp] theorem setBlkErr_coders : (setBlkErr s).coders = s.coders := rfl
@[simp] theorem setBlkErr_fd : (setBlkErr s).fd = s.fd := rfl
@[simp] theorem setBlkErr_rd : (setBlkErr s).rd = s.rd := rfl
@[simp] theorem setBlkErr_seq : (setBlkErr s).seq = s.seq := rfl
@[simp] theorem setBlkErr_scratch : (setBlkErr s).scratch = { s.scratch with blkErr := true } := rfl
@[simp] theorem setBlkErr_inp : (setBlkErr s).inp = s.inp := rfl
@[simp] theorem setBlkErr_status : (setBlkErr s).status = s.status := rfl
@[simp] theorem setBlkErr_ref : (setBlkErr s).ref = s.ref := rfl
@[simp] theorem setBlkErr_work : (setBlkErr s).work = s.work := rfl
@[simp] theorem setBlkErr_ret : (setBlkErr s).ret = s.ret := rfl
@[simp] theorem setBlkErr_cmds : (setBlkErr s).cmds = s.cmds := rfl
@[simp] theorem setBlkErr_issue : (setBlkErr s).issue = s.issue := rfl
@[simp] theorem setBlkErr_coder (q : Plane) : (setBlkErr s).coder q = s.coder q := rfl
@[simp] theorem setBlkErr_small (r : SmallRef) : (setBlkErr s).small r = s.small r := by cases r <;> rfl
@[simp] theorem setBlkErr_byte (r : ByteRef) : (setBlkErr s).byte r = s.byte r := by cases r <;> rfl
@[simp] theorem setBlkErr_bin (r : BinRef) : (setBlkErr s).bin r = s.bin r := by cases r; rfl
@[simp] theorem setBlkErr_policy : (setBlkErr s).policy = s.policy := rfl
@[simp] theorem setBlkErr_planeW (q : Plane) : (setBlkErr s).planeW q = s.planeW q := by cases q <;> rfl
@[simp] theorem setBlkErr_planeH (q : Plane) : (setBlkErr s).planeH q = s.planeH q := by cases q <;> rfl
@[simp] theorem setBlkErr_histW (q : Plane) : (setBlkErr s).histW q = s.histW q := by cases q <;> rfl
@[simp] theorem setBlkErr_histH (q : Plane) : (setBlkErr s).histH q = s.histH q := by cases q <;> rfl
@[simp] theorem setBlkErr_origin (q : Plane) : (setBlkErr s).origin q = s.origin q := by cases q <;> rfl
@[simp] theorem setBlkErr_canvas : (setBlkErr s).canvas = s.canvas := rfl

/-! ### `clearBlkErr` -/

@[simp] theorem clearBlkErr_alive : (clearBlkErr s).alive = s.alive := rfl
@[simp] theorem clearBlkErr_params : (clearBlkErr s).params = s.params := rfl
@[simp] theorem clearBlkErr_coders : (clearBlkErr s).coders = s.coders := rfl
@[simp] theorem clearBlkErr_fd : (clearBlkErr s).fd = s.fd := rfl
@[simp] theorem clearBlkErr_rd : (clearBlkErr s).rd = s.rd := rfl
@[simp] theorem clearBlkErr_seq : (clearBlkErr s).seq = s.seq := rfl
@[simp] theorem clearBlkErr_scratch : (clearBlkErr s).scratch = { s.scratch with blkErr := false } := rfl
@[simp] theorem clearBlkErr_inp : (clearBlkErr s).inp = s.inp := rfl
@[simp] theorem clearBlkErr_status : (clearBlkErr s).status = s.status := rfl
@[simp] theorem clearBlkErr_ref : (clearBlkErr s).ref = s.ref := rfl
@[simp] theorem clearBlkErr_work : (clearBlkErr s).work = s.work := rfl
@[simp] theorem clearBlkErr_ret : (clearBlkErr s).ret = s.ret := rfl
@[simp] theorem clearBlkErr_cmds : (clearBlkErr s).cmds = s.cmds := rfl
@[simp] theorem clearBlkErr_issue : (clearBlkErr s).issue = s.issue := rfl
@[simp] theorem clearBlkErr_coder (q : Plane) : (clearBlkErr s).coder q = s.coder q := rfl
@[simp] theorem clearBlkErr_small (r : SmallRef) : (clearBlkErr s).small r = s.small r := by cases r <;> rfl
@[simp] theorem clearBlkErr_byte (r : ByteRef) : (clearBlkErr s).byte r = s.byte r := by cases r <;> rfl
@[simp] theorem clearBlkErr_bin (r : BinRef) : (clearBlkErr s).bin r = s.bin r := by cases r; rfl
@[simp] theorem clearBlkErr_policy : (clearBlkErr s).policy = s.policy := rfl
@[simp] theorem clearBlkErr_planeW (q : Plane) : (clearBlkErr s).planeW q = s.planeW q := by cases q <;> rfl
@[simp] theorem clearBlkErr_planeH (q : Plane) : (clearBlkErr s).planeH q = s.planeH q := by cases q <;> rfl
@[simp] theorem clearBlkErr_histW (q : Plane) : (clearBlkErr s).histW q = s.histW q := by cases q <;> rfl
@[simp] theorem clearBlkErr_histH (q : Plane) : (clearBlkErr s).histH q = s.histH q := by cases q <;> rfl
@[simp] theorem clearBlkErr_origin (q : Plane) : (clearBlkErr s).origin q = s.origin q := by cases q <;> rfl
@[simp] theorem clearBlkErr_canvas : (clearBlkErr s).canvas = s.canvas := rfl

/-! ### `enterFrame` -/

@[simp] theorem enterFrame_alive : (enterFrame s).alive = s.alive := rfl
@[simp] theorem enterFrame_params : (enterFrame s).params = s.params := rfl
@[simp] theorem enterFrame_coders : (enterFrame s).coders = s.coders := rfl
@[simp] theorem enterFrame_fd : (enterFrame s).fd = { s.fd with errFlag := false, state := .decoding } := rfl
@[simp] theorem enterFrame_rd : (enterFrame s).rd = s.rd := rfl
@[simp] theorem enterFrame_seq : (enterFrame s).seq = s.seq := rfl
@[simp] theorem enterFrame_scratch : (enterFrame s).scratch = s.scratch := rfl
@[simp] theorem enterFrame_inp : (enterFrame s).inp = s.inp := rfl
@[simp] theorem enterFrame_status : (enterFrame s).status = s.status := rfl
@[simp] theorem enterFrame_ref : (enterFrame s).ref = s.ref := rfl
@[simp] theorem enterFrame_work : (enterFrame s).work = s.work := rfl
@[simp] theorem enterFrame_ret : (enterFrame s).ret = s.ret := rfl
@[simp] theorem enterFrame_cmds : (enterFrame s).cmds = s.cmds := rfl
@[simp] theorem enterFrame_issue : (enterFrame s).issue = s.issue := rfl
@[simp] theorem enterFrame_coder (q : Plane) : (enterFrame s).coder q = s.coder q := rfl
@[simp] theorem enterFrame_small (r : SmallRef) : (enterFrame s).small r = s.small r := by cases r <;> rfl
@[simp] theorem enterFrame_byte (r : ByteRef) : (enterFrame s).byte r = s.byte r := by cases r <;> rfl
@[simp] theorem enterFrame_bin (r : BinRef) : (enterFrame s).bin r = s.bin r := by cases r; rfl
@[simp] theorem enterFrame_policy : (enterFrame s).policy = s.policy := rfl
@[simp] theorem enterFrame_planeW (q : Plane) : (enterFrame s).planeW q = s.planeW q := by cases q <;> rfl
@[simp] theorem enterFrame_planeH (q : Plane) : (enterFrame s).planeH q = s.planeH q := by cases q <;> rfl
@[simp] theorem enterFrame_histW (q : Plane) : (enterFrame s).histW q = s.histW q := by cases q <;> rfl
@[simp] theorem enterFrame_histH (q : Plane) : (enterFrame s).histH q = s.histH q := by cases q <;> rfl
@[simp] theorem enterFrame_origin (q : Plane) : (enterFrame s).origin q = s.origin q := by cases q <;> rfl
@[simp] theorem enterFrame_canvas : (enterFrame s).canvas = s.canvas := rfl

/-! ### `setLastType` -/

@[simp] theorem setLastType_alive (p : Plane) (t : Fin 5) : (setLastType p t s).alive = s.alive := rfl
@[simp] theorem setLastType_params (p : Plane) (t : Fin 5) : (setLastType p t s).params = s.params := rfl
@[simp] theorem setLastType_fd (p : Plane) (t : Fin 5) : (setLastType p t s).fd = s.fd := rfl
@[simp] theorem setLastType_rd (p : Plane) (t : Fin 5) : (setLastType p t s).rd = s.rd := rfl
@[simp] theorem setLastType_seq (p : Plane) (t : Fin 5) : (setLastType p t s).seq = s.seq := rfl
@[simp] theorem setLastType_scratch (p : Plane) (t : Fin 5) : (setLastType p t s).scratch = s.scratch := rfl
@[simp] theorem setLastType_inp (p : Plane) (t : Fin 5) : (setLastType p t s).inp = s.inp := rfl
@[simp] theorem setLastType_status (p : Plane) (t : Fin 5) : (setLastType p t s).status = s.status := rfl
@[simp] theorem setLastType_ref (p : Plane) (t : Fin 5) : (setLastType p t s).ref = s.ref := rfl
@[simp] theorem setLastType_work (p : Plane) (t : Fin 5) : (setLastType p t s).work = s.work := rfl
@[simp] theorem setLastType_ret (p : Plane) (t : Fin 5) : (setLastType p t s).ret = s.ret := rfl
@[simp] theorem setLastType_cmds (p : Plane) (t : Fin 5) : (setLastType p t s).cmds = s.cmds := rfl
@[simp] theorem setLastType_issue (p : Plane) (t : Fin 5) : (setLastType p t s).issue = s.issue := rfl
@[simp] theorem setLastType_policy (p : Plane) (t : Fin 5) : (setLastType p t s).policy = s.policy := rfl
@[simp] theorem setLastType_planeW (p : Plane) (t : Fin 5) (q : Plane) : (setLastType p t s).planeW q = s.planeW q := by cases q <;> rfl
@[simp] theorem setLastType_planeH (p : Plane) (t : Fin 5) (q : Plane) : (setLastType p t s).planeH q = s.planeH q := by cases q <;> rfl
@[simp] theorem setLastType_histW (p : Plane) (t : Fin 5) (q : Plane) : (setLastType p t s).histW q = s.histW q := by cases q <;> rfl
@[simp] theorem setLastType_histH (p : Plane) (t : Fin 5) (q : Plane) : (setLastType p t s).histH q = s.histH q := by cases q <;> rfl
@[simp] theorem setLastType_origin (p : Plane) (t : Fin 5) (q : Plane) : (setLastType p t s).origin q = s.origin q := by cases q <;> rfl
@[simp] theorem setLastType_canvas (p : Plane) (t : Fin 5) : (setLastType p t s).canvas = s.canvas := rfl

/-! ### `setFillVal` -/

@[simp] theorem setFillVal_alive (p : Plane) (v : I32) : (setFillVal p v s).alive = s.alive := rfl
@[simp] theorem setFillVal_params (p : Plane) (v : I32) : (setFillVal p v s).params = s.params := rfl
@[simp] theorem setFillVal_fd (p : Plane) (v : I32) : (setFillVal p v s).fd = s.fd := rfl
@[simp] theorem setFillVal_rd (p : Plane) (v : I32) : (setFillVal p v s).rd = s.rd := rfl
@[simp] theorem setFillVal_seq (p : Plane) (v : I32) : (setFillVal p v s).seq = s.seq := rfl
@[simp] theorem setFillVal_scratch (p : Plane) (v : I32) : (setFillVal p v s).scratch = s.scratch := rfl
@[simp] theorem setFillVal_inp (p : Plane) (v : I32) : (setFillVal p v s).inp = s.inp := rfl
@[simp] theorem setFillVal_status (p : Plane) (v : I32) : (setFillVal p v s).status = s.status := rfl
@[simp] theorem setFillVal_ref (p : Plane) (v : I32) : (setFillVal p v s).ref = s.ref := rfl
@[simp] theorem setFillVal_work (p : Plane) (v : I32) : (setFillVal p v s).work = s.work := rfl
@[simp] theorem setFillVal_ret (p : Plane) (v : I32) : (setFillVal p v s).ret = s.ret := rfl
@[simp] theorem setFillVal_cmds (p : Plane) (v : I32) : (setFillVal p v s).cmds = s.cmds := rfl
@[simp] theorem setFillVal_issue (p : Plane) (v : I32) : (setFillVal p v s).issue = s.issue := rfl
@[simp] theorem setFillVal_policy (p : Plane) (v : I32) : (setFillVal p v s).policy = s.policy := rfl
@[simp] theorem setFillVal_planeW (p : Plane) (v : I32) (q : Plane) : (setFillVal p v s).planeW q = s.planeW q := by cases q <;> rfl
@[simp] theorem setFillVal_planeH (p : Plane) (v : I32) (q : Plane) : (setFillVal p v s).planeH q = s.planeH q := by cases q <;> rfl
@[simp] theorem setFillVal_histW (p : Plane) (v : I32) (q : Plane) : (setFillVal p v s).histW q = s.histW q := by cases q <;> rfl
@[simp] theorem setFillVal_histH (p : Plane) (v : I32) (q : Plane) : (setFillVal p v s).histH q = s.histH q := by cases q <;> rfl
@[simp] theorem setFillVal_origin (p : Plane) (v : I32) (q : Plane) : (setFillVal p v s).origin q = s.origin q := by cases q <;> rfl
@[simp] theorem setFillVal_canvas (p : Plane) (v : I32) : (setFillVal p v s).canvas = s.canvas := rfl

/-! ### `setVecSize` -/

@[simp] theorem setVecSize_alive (v : Fin 3) : (setVecSize v s).alive = s.alive := rfl
@[simp] theorem setVecSize_params (v : Fin 3) : (setVecSize v s).params = s.params := rfl
@[simp] theorem setVecSize_coders (v : Fin 3) : (setVecSize v s).coders = s.coders := rfl
@[simp] theorem setVecSize_fd (v : Fin 3) : (setVecSize v s).fd = s.fd := rfl
@[simp] theorem setVecSize_rd (v : Fin 3) : (setVecSize v s).rd = s.rd := rfl
@[simp] theorem setVecSize_seq (v : Fin 3) : (setVecSize v s).seq = s.seq := rfl
@[simp] theorem setVecSize_scratch (v : Fin 3) : (setVecSize v s).scratch = { s.scratch with img := { s.scratch.img with vs := v } } := rfl
@[simp] theorem setVecSize_inp (v : Fin 3) : (setVecSize v s).inp = s.inp := rfl
@[simp] theorem setVecSize_status (v : Fin 3) : (setVecSize v s).status = s.status := rfl
@[simp] theorem setVecSize_ref (v : Fin 3) : (setVecSize v s).ref = s.ref := rfl
@[simp] theorem setVecSize_work (v : Fin 3) : (setVecSize v s).work = s.work := rfl
@[simp] theorem setVecSize_ret (v : Fin 3) : (setVecSize v s).ret = s.ret := rfl
@[simp] theorem setVecSize_cmds (v : Fin 3) : (setVecSize v s).cmds = s.cmds := rfl
@[simp] theorem setVecSize_issue (v : Fin 3) : (setVecSize v s).issue = s.issue := rfl
@[simp] theorem setVecSize_coder (v : Fin 3) (q : Plane) : (setVecSize v s).coder q = s.coder q := rfl
@[simp] theorem setVecSize_small (v : Fin 3) (r : SmallRef) : (setVecSize v s).small r = s.small r := by cases r <;> rfl
@[simp] theorem setVecSize_byte (v : Fin 3) (r : ByteRef) : (setVecSize v s).byte r = s.byte r := by cases r <;> rfl
@[simp] theorem setVecSize_bin (v : Fin 3) (r : BinRef) : (setVecSize v s).bin r = s.bin r := by cases r; rfl
@[simp] theorem setVecSize_policy (v : Fin 3) : (setVecSize v s).policy = s.policy := rfl
@[simp] theorem setVecSize_planeW (v : Fin 3) (q : Plane) : (setVecSize v s).planeW q = s.planeW q := by cases q <;> rfl
@[simp] theorem setVecSize_planeH (v : Fin 3) (q : Plane) : (setVecSize v s).planeH q = s.planeH q := by cases q <;> rfl
@[simp] theorem setVecSize_histW (v : Fin 3) (q : Plane) : (setVecSize v s).histW q = s.histW q := by cases q <;> rfl
@[simp] theorem setVecSize_histH (v : Fin 3) (q : Plane) : (setVecSize v s).histH q = s.histH q := by cases q <;> rfl
@[simp] theorem setVecSize_origin (v : Fin 3) (q : Plane) : (setVecSize v s).origin q = s.origin q := by cases q <;> rfl
@[simp] theorem setVecSize_canvas (v : Fin 3) : (setVecSize v s).canvas = s.canvas := rfl

/-! ### `clearImage` -/

@[simp] theorem clearImage_alive : (clearImage s).alive = s.alive := rfl
@[simp] theorem clearImage_params : (clearImage s).params = s.params := rfl
@[simp] theorem clearImage_coders : (clearImage s).coders = s.coders := rfl
@[simp] theorem clearImage_fd : (clearImage s).fd = s.fd := rfl
@[simp] theorem clearImage_rd : (clearImage s).rd = s.rd := rfl
@[simp] theorem clearImage_seq : (clearImage s).seq = s.seq := rfl
@[simp] theorem clearImage_inp : (clearImage s).inp = s.inp := rfl
@[simp] theorem clearImage_status : (clearImage s).status = s.status := rfl
@[simp] theorem clearImage_ref : (clearImage s).ref = s.ref := rfl
@[simp] theorem clearImage_work : (clearImage s).work = s.work := rfl
@[simp] theorem clearImage_ret : (clearImage s).ret = s.ret := rfl
@[simp] theorem clearImage_cmds : (clearImage s).cmds = s.cmds := rfl
@[simp] theorem clearImage_issue : (clearImage s).issue = s.issue := rfl
@[simp] theorem clearImage_coder (q : Plane) : (clearImage s).coder q = s.coder q := rfl
@[simp] theorem clearImage_small (r : SmallRef) : (clearImage s).small r = s.small r := by cases r <;> rfl
@[simp] theorem clearImage_byte (r : ByteRef) : (clearImage s).byte r = s.byte r := by cases r <;> rfl
@[simp] theorem clearImage_bin (r : BinRef) : (clearImage s).bin r = s.bin r := by cases r; rfl
@[simp] theorem clearImage_policy : (clearImage s).policy = s.policy := rfl
@[simp] theorem clearImage_planeW (q : Plane) : (clearImage s).planeW q = s.planeW q := by cases q <;> rfl
@[simp] theorem clearImage_planeH (q : Plane) : (clearImage s).planeH q = s.planeH q := by cases q <;> rfl
@[simp] theorem clearImage_histW (q : Plane) : (clearImage s).histW q = s.histW q := by cases q <;> rfl
@[simp] theorem clearImage_histH (q : Plane) : (clearImage s).histH q = s.histH q := by cases q <;> rfl
@[simp] theorem clearImage_origin (q : Plane) : (clearImage s).origin q = s.origin q := by cases q <;> rfl
@[simp] theorem clearImage_canvas : (clearImage s).canvas = s.canvas := rfl

/-! ### `setDc` -/

@[simp] theorem setDc_alive (p : Plane) (v : I32) : (setDc p v s).alive = s.alive := rfl
@[simp] theorem setDc_params (p : Plane) (v : I32) : (setDc p v s).params = s.params := rfl
@[simp] theorem setDc_coders (p : Plane) (v : I32) : (setDc p v s).coders = s.coders := rfl
@[simp] theorem setDc_fd (p : Plane) (v : I32) : (setDc p v s).fd = s.fd := rfl
@[simp] theorem setDc_rd (p : Plane) (v : I32) : (setDc p v s).rd = s.rd := rfl
@[simp] theorem setDc_seq (p : Plane) (v : I32) : (setDc p v s).seq = s.seq := rfl
@[simp] theorem setDc_inp (p : Plane) (v : I32) : (setDc p v s).inp = s.inp := rfl
@[simp] theorem setDc_status (p : Plane) (v : I32) : (setDc p v s).status = s.status := rfl
@[simp] theorem setDc_ref (p : Plane) (v : I32) : (setDc p v s).ref = s.ref := rfl
@[simp] theorem setDc_work (p : Plane) (v : I32) : (setDc p v s).work = s.work := rfl
@[simp] theorem setDc_ret (p : Plane) (v : I32) : (setDc p v s).ret = s.ret := rfl
@[simp] theorem setDc_cmds (p : Plane) (v : I32) : (setDc p v s).cmds = s.cmds := rfl
@[simp] theorem setDc_issue (p : Plane) (v : I32) : (setDc p v s).issue = s.issue := rfl
@[simp] theorem setDc_coder (p : Plane) (v : I32) (q : Plane) : (setDc p v s).coder q = s.coder q := rfl
@[simp] theorem setDc_small (p : Plane) (v : I32) (r : SmallRef) : (setDc p v s).small r = s.small r := by cases r <;> rfl
@[simp] theorem setDc_byte (p : Plane) (v : I32) (r : ByteRef) : (setDc p v s).byte r = s.byte r := by cases r <;> rfl
@[simp] theorem setDc_bin (p : Plane) (v : I32) (r : BinRef) : (setDc p v s).bin r = s.bin r := by cases r; rfl
@[simp] theorem setDc_policy (p : Plane) (v : I32) : (setDc p v s).policy = s.policy := rfl
@[simp] theorem setDc_planeW (p : Plane) (v : I32) (q : Plane) : (setDc p v s).planeW q = s.planeW q := by cases q <;> rfl
@[simp] theorem setDc_planeH (p : Plane) (v : I32) (q : Plane) : (setDc p v s).planeH q = s.planeH q := by cases q <;> rfl
@[simp] theorem setDc_histW (p : Plane) (v : I32) (q : Plane) : (setDc p v s).histW q = s.histW q := by cases q <;> rfl
@[simp] theorem setDc_histH (p : Plane) (v : I32) (q : Plane) : (setDc p v s).histH q = s.histH q := by cases q <;> rfl
@[simp] theorem setDc_origin (p : Plane) (v : I32) (q : Plane) : (setDc p v s).origin q = s.origin q := by cases q <;> rfl
@[simp] theorem setDc_canvas (p : Plane) (v : I32) : (setDc p v s).canvas = s.canvas := rfl

/-! ### `acEob` -/

@[simp] theorem acEob_alive : (acEob s).alive = s.alive := rfl
@[simp] theorem acEob_params : (acEob s).params = s.params := rfl
@[simp] theorem acEob_coders : (acEob s).coders = s.coders := rfl
@[simp] theorem acEob_fd : (acEob s).fd = s.fd := rfl
@[simp] theorem acEob_rd : (acEob s).rd = s.rd := rfl
@[simp] theorem acEob_seq : (acEob s).seq = s.seq := rfl
@[simp] theorem acEob_scratch : (acEob s).scratch = { s.scratch with scan := .ok } := rfl
@[simp] theorem acEob_inp : (acEob s).inp = s.inp := rfl
@[simp] theorem acEob_status : (acEob s).status = s.status := rfl
@[simp] theorem acEob_ref : (acEob s).ref = s.ref := rfl
@[simp] theorem acEob_work : (acEob s).work = s.work := rfl
@[simp] theorem acEob_ret : (acEob s).ret = s.ret := rfl
@[simp] theorem acEob_cmds : (acEob s).cmds = s.cmds := rfl
@[simp] theorem acEob_issue : (acEob s).issue = s.issue := rfl
@[simp] theorem acEob_coder (q : Plane) : (acEob s).coder q = s.coder q := rfl
@[simp] theorem acEob_small (r : SmallRef) : (acEob s).small r = s.small r := by cases r <;> rfl
@[simp] theorem acEob_byte (r : ByteRef) : (acEob s).byte r = s.byte r := by cases r <;> rfl
@[simp] theorem acEob_bin (r : BinRef) : (acEob s).bin r = s.bin r := by cases r; rfl
@[simp] theorem acEob_policy : (acEob s).policy = s.policy := rfl
@[simp] theorem acEob_planeW (q : Plane) : (acEob s).planeW q = s.planeW q := by cases q <;> rfl
@[simp] theorem acEob_planeH (q : Plane) : (acEob s).planeH q = s.planeH q := by cases q <;> rfl
@[simp] theorem acEob_histW (q : Plane) : (acEob s).histW q = s.histW q := by cases q <;> rfl
@[simp] theorem acEob_histH (q : Plane) : (acEob s).histH q = s.histH q := by cases q <;> rfl
@[simp] theorem acEob_origin (q : Plane) : (acEob s).origin q = s.origin q := by cases q <;> rfl
@[simp] theorem acEob_canvas : (acEob s).canvas = s.canvas := rfl

/-! ### `acZrl` -/

@[simp] theorem acZrl_alive : (acZrl s).alive = s.alive := rfl
@[simp] theorem acZrl_params : (acZrl s).params = s.params := rfl
@[simp] theorem acZrl_coders : (acZrl s).coders = s.coders := rfl
@[simp] theorem acZrl_fd : (acZrl s).fd = s.fd := rfl
@[simp] theorem acZrl_rd : (acZrl s).rd = s.rd := rfl
@[simp] theorem acZrl_seq : (acZrl s).seq = { s.seq with pos := s.seq.pos + 16 } := rfl
@[simp] theorem acZrl_scratch : (acZrl s).scratch = { s.scratch with scan := scanAt (s.seq.pos + 16) } := rfl
@[simp] theorem acZrl_inp : (acZrl s).inp = s.inp := rfl
@[simp] theorem acZrl_status : (acZrl s).status = s.status := rfl
@[simp] theorem acZrl_ref : (acZrl s).ref = s.ref := rfl
@[simp] theorem acZrl_work : (acZrl s).work = s.work := rfl
@[simp] theorem acZrl_ret : (acZrl s).ret = s.ret := rfl
@[simp] theorem acZrl_cmds : (acZrl s).cmds = s.cmds := rfl
@[simp] theorem acZrl_issue : (acZrl s).issue = s.issue := rfl
@[simp] theorem acZrl_coder (q : Plane) : (acZrl s).coder q = s.coder q := rfl
@[simp] theorem acZrl_small (r : SmallRef) : (acZrl s).small r = s.small r := by cases r <;> rfl
@[simp] theorem acZrl_byte (r : ByteRef) : (acZrl s).byte r = s.byte r := by cases r <;> rfl
@[simp] theorem acZrl_bin (r : BinRef) : (acZrl s).bin r = s.bin r := by cases r; rfl
@[simp] theorem acZrl_policy : (acZrl s).policy = s.policy := rfl
@[simp] theorem acZrl_planeW (q : Plane) : (acZrl s).planeW q = s.planeW q := by cases q <;> rfl
@[simp] theorem acZrl_planeH (q : Plane) : (acZrl s).planeH q = s.planeH q := by cases q <;> rfl
@[simp] theorem acZrl_histW (q : Plane) : (acZrl s).histW q = s.histW q := by cases q <;> rfl
@[simp] theorem acZrl_histH (q : Plane) : (acZrl s).histH q = s.histH q := by cases q <;> rfl
@[simp] theorem acZrl_origin (q : Plane) : (acZrl s).origin q = s.origin q := by cases q <;> rfl
@[simp] theorem acZrl_canvas : (acZrl s).canvas = s.canvas := rfl

/-! ### `acIllegal` -/

@[simp] theorem acIllegal_alive : (acIllegal s).alive = s.alive := rfl
@[simp] theorem acIllegal_params : (acIllegal s).params = s.params := rfl
@[simp] theorem acIllegal_coders : (acIllegal s).coders = s.coders := rfl
@[simp] theorem acIllegal_fd : (acIllegal s).fd = s.fd := rfl
@[simp] theorem acIllegal_rd : (acIllegal s).rd = s.rd := rfl
@[simp] theorem acIllegal_seq : (acIllegal s).seq = s.seq := rfl
@[simp] theorem acIllegal_scratch : (acIllegal s).scratch = { s.scratch with scan := .malformed } := rfl
@[simp] theorem acIllegal_inp : (acIllegal s).inp = s.inp := rfl
@[simp] theorem acIllegal_status : (acIllegal s).status = s.status := rfl
@[simp] theorem acIllegal_ref : (acIllegal s).ref = s.ref := rfl
@[simp] theorem acIllegal_work : (acIllegal s).work = s.work := rfl
@[simp] theorem acIllegal_ret : (acIllegal s).ret = s.ret := rfl
@[simp] theorem acIllegal_cmds : (acIllegal s).cmds = s.cmds := rfl
@[simp] theorem acIllegal_issue : (acIllegal s).issue = s.issue := rfl
@[simp] theorem acIllegal_coder (q : Plane) : (acIllegal s).coder q = s.coder q := rfl
@[simp] theorem acIllegal_small (r : SmallRef) : (acIllegal s).small r = s.small r := by cases r <;> rfl
@[simp] theorem acIllegal_byte (r : ByteRef) : (acIllegal s).byte r = s.byte r := by cases r <;> rfl
@[simp] theorem acIllegal_bin (r : BinRef) : (acIllegal s).bin r = s.bin r := by cases r; rfl
@[simp] theorem acIllegal_policy : (acIllegal s).policy = s.policy := rfl
@[simp] theorem acIllegal_planeW (q : Plane) : (acIllegal s).planeW q = s.planeW q := by cases q <;> rfl
@[simp] theorem acIllegal_planeH (q : Plane) : (acIllegal s).planeH q = s.planeH q := by cases q <;> rfl
@[simp] theorem acIllegal_histW (q : Plane) : (acIllegal s).histW q = s.histW q := by cases q <;> rfl
@[simp] theorem acIllegal_histH (q : Plane) : (acIllegal s).histH q = s.histH q := by cases q <;> rfl
@[simp] theorem acIllegal_origin (q : Plane) : (acIllegal s).origin q = s.origin q := by cases q <;> rfl
@[simp] theorem acIllegal_canvas : (acIllegal s).canvas = s.canvas := rfl

/-! ### `flagMalformed` -/

@[simp] theorem flagMalformed_alive : (flagMalformed s).alive = s.alive := by unfold flagMalformed; split <;> rfl
@[simp] theorem flagMalformed_params : (flagMalformed s).params = s.params := by unfold flagMalformed; split <;> rfl
@[simp] theorem flagMalformed_coders : (flagMalformed s).coders = s.coders := by unfold flagMalformed; split <;> rfl
@[simp] theorem flagMalformed_fd : (flagMalformed s).fd = s.fd := by unfold flagMalformed; split <;> rfl
@[simp] theorem flagMalformed_rd : (flagMalformed s).rd = s.rd := by unfold flagMalformed; split <;> rfl
@[simp] theorem flagMalformed_seq : (flagMalformed s).seq = s.seq := by unfold flagMalformed; split <;> rfl
@[simp] theorem flagMalformed_inp : (flagMalformed s).inp = s.inp := by unfold flagMalformed; split <;> rfl
@[simp] theorem flagMalformed_status : (flagMalformed s).status = s.status := by unfold flagMalformed; split <;> rfl
@[simp] theorem flagMalformed_ref : (flagMalformed s).ref = s.ref := by unfold flagMalformed; split <;> rfl
@[simp] theorem flagMalformed_work : (flagMalformed s).work = s.work := by unfold flagMalformed; split <;> rfl
@[simp] theorem flagMalformed_ret : (flagMalformed s).ret = s.ret := by unfold flagMalformed; split <;> rfl
@[simp] theorem flagMalformed_cmds : (flagMalformed s).cmds = s.cmds := by unfold flagMalformed; split <;> rfl
@[simp] theorem flagMalformed_issue : (flagMalformed s).issue = s.issue := by unfold flagMalformed; split <;> rfl
@[simp] theorem flagMalformed_coder (q : Plane) : (flagMalformed s).coder q = s.coder q := by unfold flagMalformed; split <;> rfl
@[simp] theorem flagMalformed_small (r : SmallRef) : (flagMalformed s).small r = s.small r := by unfold flagMalformed; split <;> cases r <;> rfl
@[simp] theorem flagMalformed_byte (r : ByteRef) : (flagMalformed s).byte r = s.byte r := by unfold flagMalformed; split <;> cases r <;> rfl
@[simp] theorem flagMalformed_bin (r : BinRef) : (flagMalformed s).bin r = s.bin r := by unfold flagMalformed; cases r; split <;> rfl
@[simp] theorem flagMalformed_policy : (flagMalformed s).policy = s.policy := by unfold flagMalformed; split <;> rfl
@[simp] theorem flagMalformed_planeW (q : Plane) : (flagMalformed s).planeW q = s.planeW q := by unfold flagMalformed; split <;> cases q <;> rfl
@[simp] theorem flagMalformed_planeH (q : Plane) : (flagMalformed s).planeH q = s.planeH q := by unfold flagMalformed; split <;> cases q <;> rfl
@[simp] theorem flagMalformed_histW (q : Plane) : (flagMalformed s).histW q = s.histW q := by unfold flagMalformed; split <;> cases q <;> rfl
@[simp] theorem flagMalformed_histH (q : Plane) : (flagMalformed s).histH q = s.histH q := by unfold flagMalformed; split <;> cases q <;> rfl
@[simp] theorem flagMalformed_origin (q : Plane) : (flagMalformed s).origin q = s.origin q := by unfold flagMalformed; split <;> cases q <;> rfl
@[simp] theorem flagMalformed_canvas : (flagMalformed s).canvas = s.canvas := by unfold flagMalformed; split <;> rfl

/-! ### `clearHist` -/

@[simp] theorem clearHist_alive (p : Plane) : (clearHist p s).alive = s.alive := rfl
@[simp] theorem clearHist_params (p : Plane) : (clearHist p s).params = s.params := rfl
@[simp] theorem clearHist_fd (p : Plane) : (clearHist p s).fd = s.fd := rfl
@[simp] theorem clearHist_rd (p : Plane) : (clearHist p s).rd = s.rd := rfl
@[simp] theorem clearHist_seq (p : Plane) : (clearHist p s).seq = s.seq := rfl
@[simp] theorem clearHist_scratch (p : Plane) : (clearHist p s).scratch = s.scratch := rfl
@[simp] theorem clearHist_inp (p : Plane) : (clearHist p s).inp = s.inp := rfl
@[simp] theorem clearHist_status (p : Plane) : (clearHist p s).status = s.status := rfl
@[simp] theorem clearHist_ref (p : Plane) : (clearHist p s).ref = s.ref := rfl
@[simp] theorem clearHist_work (p : Plane) : (clearHist p s).work = s.work := rfl
@[simp] theorem clearHist_ret (p : Plane) : (clearHist p s).ret = s.ret := rfl
@[simp] theorem clearHist_cmds (p : Plane) : (clearHist p s).cmds = s.cmds := rfl
@[simp] theorem clearHist_issue (p : Plane) : (clearHist p s).issue = s.issue := rfl
@[simp] theorem clearHist_policy (p : Plane) : (clearHist p s).policy = s.policy := rfl
@[simp] theorem clearHist_planeW (p : Plane) (q : Plane) : (clearHist p s).planeW q = s.planeW q := by cases q <;> rfl
@[simp] theorem clearHist_planeH (p : Plane) (q : Plane) : (clearHist p s).planeH q = s.planeH q := by cases q <;> rfl
@[simp] theorem clearHist_histW (p : Plane) (q : Plane) : (clearHist p s).histW q = s.histW q := by cases q <;> rfl
@[simp] theorem clearHist_histH (p : Plane) (q : Plane) : (clearHist p s).histH q = s.histH q := by cases q <;> rfl
@[simp] theorem clearHist_origin (p : Plane) (q : Plane) : (clearHist p s).origin q = s.origin q := by cases q <;> rfl
@[simp] theorem clearHist_canvas (p : Plane) : (clearHist p s).canvas = s.canvas := rfl

/-! ### `loadQuality` -/

@[simp] theorem loadQuality_alive (v : Byte) (p : Plane) : (loadQuality v p s).alive = s.alive := rfl
@[simp] theorem loadQuality_params (v : Byte) (p : Plane) : (loadQuality v p s).params = s.params := rfl
@[simp] theorem loadQuality_fd (v : Byte) (p : Plane) : (loadQuality v p s).fd = s.fd := rfl
@[simp] theorem loadQuality_rd (v : Byte) (p : Plane) : (loadQuality v p s).rd = s.rd := rfl
@[simp] theorem loadQuality_seq (v : Byte) (p : Plane) : (loadQuality v p s).seq = s.seq := rfl
@[simp] theorem loadQuality_scratch (v : Byte) (p : Plane) : (loadQuality v p s).scratch = s.scratch := rfl
@[simp] theorem loadQuality_inp (v : Byte) (p : Plane) : (loadQuality v p s).inp = s.inp := rfl
@[simp] theorem loadQuality_status (v : Byte) (p : Plane) : (loadQuality v p s).status = s.status := rfl
@[simp] theorem loadQuality_ref (v : Byte) (p : Plane) : (loadQuality v p s).ref = s.ref := rfl
@[simp] theorem loadQuality_work (v : Byte) (p : Plane) : (loadQuality v p s).work = s.work := rfl
@[simp] theorem loadQuality_ret (v : Byte) (p : Plane) : (loadQuality v p s).ret = s.ret := rfl
@[simp] theorem loadQuality_cmds (v : Byte) (p : Plane) : (loadQuality v p s).cmds = s.cmds := rfl
@[simp] theorem loadQuality_issue (v : Byte) (p : Plane) : (loadQuality v p s).issue = s.issue := rfl
@[simp] theorem loadQuality_policy (v : Byte) (p : Plane) : (loadQuality v p s).policy = s.policy := rfl
@[simp] theorem loadQuality_planeW (v : Byte) (p : Plane) (q : Plane) : (loadQuality v p s).planeW q = s.planeW q := by cases q <;> rfl
@[simp] theorem loadQuality_planeH (v : Byte) (p : Plane) (q : Plane) : (loadQuality v p s).planeH q = s.planeH q := by cases q <;> rfl
@[simp] theorem loadQuality_histW (v : Byte) (p : Plane) (q : Plane) : (loadQuality v p s).histW q = s.histW q := by cases q <;> rfl
@[simp] theorem loadQuality_histH (v : Byte) (p : Plane) (q : Plane) : (loadQuality v p s).histH q = s.histH q := by cases q <;> rfl
@[simp] theorem loadQuality_origin (v : Byte) (p : Plane) (q : Plane) : (loadQuality v p s).origin q = s.origin q := by cases q <;> rfl
@[simp] theorem loadQuality_canvas (v : Byte) (p : Plane) : (loadQuality v p s).canvas = s.canvas := rfl

/-! ### `emptyCommit` -/

@[simp] theorem emptyCommit_alive : (emptyCommit s).alive = s.alive := rfl
@[simp] theorem emptyCommit_params : (emptyCommit s).params = s.params := rfl
@[simp] theorem emptyCommit_coders : (emptyCommit s).coders = s.coders := rfl
@[simp] theorem emptyCommit_fd : (emptyCommit s).fd = { s.fd with state := .committed } := rfl
@[simp] theorem emptyCommit_rd : (emptyCommit s).rd = s.rd := rfl
@[simp] theorem emptyCommit_seq : (emptyCommit s).seq = s.seq := rfl
@[simp] theorem emptyCommit_scratch : (emptyCommit s).scratch = s.scratch := rfl
@[simp] theorem emptyCommit_inp : (emptyCommit s).inp = s.inp := rfl
@[simp] theorem emptyCommit_status : (emptyCommit s).status = .ok := rfl
@[simp] theorem emptyCommit_ref : (emptyCommit s).ref = s.ref := rfl
@[simp] theorem emptyCommit_work : (emptyCommit s).work = s.work := rfl
@[simp] theorem emptyCommit_ret : (emptyCommit s).ret = s.ret := rfl
@[simp] theorem emptyCommit_cmds : (emptyCommit s).cmds = s.cmds := rfl
@[simp] theorem emptyCommit_issue : (emptyCommit s).issue = s.issue := rfl
@[simp] theorem emptyCommit_coder (q : Plane) : (emptyCommit s).coder q = s.coder q := rfl
@[simp] theorem emptyCommit_small (r : SmallRef) : (emptyCommit s).small r = s.small r := by cases r <;> rfl
@[simp] theorem emptyCommit_byte (r : ByteRef) : (emptyCommit s).byte r = s.byte r := by cases r <;> rfl
@[simp] theorem emptyCommit_bin (r : BinRef) : (emptyCommit s).bin r = s.bin r := by cases r; rfl
@[simp] theorem emptyCommit_policy : (emptyCommit s).policy = s.policy := rfl
@[simp] theorem emptyCommit_planeW (q : Plane) : (emptyCommit s).planeW q = s.planeW q := by cases q <;> rfl
@[simp] theorem emptyCommit_planeH (q : Plane) : (emptyCommit s).planeH q = s.planeH q := by cases q <;> rfl
@[simp] theorem emptyCommit_histW (q : Plane) : (emptyCommit s).histW q = s.histW q := by cases q <;> rfl
@[simp] theorem emptyCommit_histH (q : Plane) : (emptyCommit s).histH q = s.histH q := by cases q <;> rfl
@[simp] theorem emptyCommit_origin (q : Plane) : (emptyCommit s).origin q = s.origin q := by cases q <;> rfl
@[simp] theorem emptyCommit_canvas : (emptyCommit s).canvas = s.canvas := rfl

/-! ### `abortFrame` -/

@[simp] theorem abortFrame_alive (k : AbortKind) : (abortFrame k s).alive = s.alive := by unfold abortFrame; dsimp only; split <;> rfl
@[simp] theorem abortFrame_params (k : AbortKind) : (abortFrame k s).params = s.params := by unfold abortFrame; dsimp only; split <;> rfl
@[simp] theorem abortFrame_coders (k : AbortKind) : (abortFrame k s).coders = s.coders := by unfold abortFrame; dsimp only; split <;> rfl
@[simp] theorem abortFrame_fd (k : AbortKind) : (abortFrame k s).fd = { s.fd with errFlag := true, state := .aborted } := by unfold abortFrame; dsimp only; split <;> rfl
@[simp] theorem abortFrame_rd (k : AbortKind) : (abortFrame k s).rd = s.rd := by unfold abortFrame; dsimp only; split <;> rfl
@[simp] theorem abortFrame_seq (k : AbortKind) : (abortFrame k s).seq = s.seq := by unfold abortFrame; dsimp only; split <;> rfl
@[simp] theorem abortFrame_scratch (k : AbortKind) : (abortFrame k s).scratch = s.scratch := by unfold abortFrame; dsimp only; split <;> rfl
@[simp] theorem abortFrame_inp (k : AbortKind) : (abortFrame k s).inp = s.inp := by unfold abortFrame; dsimp only; split <;> rfl
@[simp] theorem abortFrame_status (k : AbortKind) : (abortFrame k s).status = k.status := by unfold abortFrame; dsimp only; split <;> rfl
@[simp] theorem abortFrame_ref (k : AbortKind) : (abortFrame k s).ref = s.ref := by unfold abortFrame; dsimp only; split <;> rfl
@[simp] theorem abortFrame_ret (k : AbortKind) : (abortFrame k s).ret = s.ret := by unfold abortFrame; dsimp only; split <;> rfl
@[simp] theorem abortFrame_cmds (k : AbortKind) : (abortFrame k s).cmds = s.cmds := by unfold abortFrame; dsimp only; split <;> rfl
@[simp] theorem abortFrame_issue (k : AbortKind) : (abortFrame k s).issue = s.issue := by unfold abortFrame; dsimp only; split <;> rfl
@[simp] theorem abortFrame_coder (k : AbortKind) (q : Plane) : (abortFrame k s).coder q = s.coder q := by unfold abortFrame; dsimp only; split <;> rfl
@[simp] theorem abortFrame_small (k : AbortKind) (r : SmallRef) : (abortFrame k s).small r = s.small r := by unfold abortFrame; dsimp only; split <;> cases r <;> rfl
@[simp] theorem abortFrame_byte (k : AbortKind) (r : ByteRef) : (abortFrame k s).byte r = s.byte r := by unfold abortFrame; dsimp only; split <;> cases r <;> rfl
@[simp] theorem abortFrame_bin (k : AbortKind) (r : BinRef) : (abortFrame k s).bin r = s.bin r := by unfold abortFrame; dsimp only; cases r; split <;> rfl
@[simp] theorem abortFrame_policy (k : AbortKind) : (abortFrame k s).policy = s.policy := by unfold abortFrame; dsimp only; split <;> rfl
@[simp] theorem abortFrame_planeW (k : AbortKind) (q : Plane) : (abortFrame k s).planeW q = s.planeW q := by unfold abortFrame; dsimp only; split <;> cases q <;> rfl
@[simp] theorem abortFrame_planeH (k : AbortKind) (q : Plane) : (abortFrame k s).planeH q = s.planeH q := by unfold abortFrame; dsimp only; split <;> cases q <;> rfl
@[simp] theorem abortFrame_histW (k : AbortKind) (q : Plane) : (abortFrame k s).histW q = s.histW q := by unfold abortFrame; dsimp only; split <;> cases q <;> rfl
@[simp] theorem abortFrame_histH (k : AbortKind) (q : Plane) : (abortFrame k s).histH q = s.histH q := by unfold abortFrame; dsimp only; split <;> cases q <;> rfl
@[simp] theorem abortFrame_origin (k : AbortKind) (q : Plane) : (abortFrame k s).origin q = s.origin q := by unfold abortFrame; dsimp only; split <;> cases q <;> rfl

/-! ### `withIssue` -/

@[simp] theorem withIssue_alive (c : Code) : (s.withIssue c).alive = s.alive := rfl
@[simp] theorem withIssue_params (c : Code) : (s.withIssue c).params = s.params := rfl
@[simp] theorem withIssue_coders (c : Code) : (s.withIssue c).coders = s.coders := rfl
@[simp] theorem withIssue_fd (c : Code) : (s.withIssue c).fd = s.fd := rfl
@[simp] theorem withIssue_rd (c : Code) : (s.withIssue c).rd = s.rd := rfl
@[simp] theorem withIssue_seq (c : Code) : (s.withIssue c).seq = s.seq := rfl
@[simp] theorem withIssue_scratch (c : Code) : (s.withIssue c).scratch = s.scratch := rfl
@[simp] theorem withIssue_inp (c : Code) : (s.withIssue c).inp = s.inp := rfl
@[simp] theorem withIssue_status (c : Code) : (s.withIssue c).status = s.status := rfl
@[simp] theorem withIssue_ref (c : Code) : (s.withIssue c).ref = s.ref := rfl
@[simp] theorem withIssue_work (c : Code) : (s.withIssue c).work = s.work := rfl
@[simp] theorem withIssue_ret (c : Code) : (s.withIssue c).ret = s.ret := rfl
@[simp] theorem withIssue_cmds (c : Code) : (s.withIssue c).cmds = s.cmds := rfl
@[simp] theorem withIssue_issue (c : Code) : (s.withIssue c).issue = some c := rfl
@[simp] theorem withIssue_coder (c : Code) (q : Plane) : (s.withIssue c).coder q = s.coder q := rfl
@[simp] theorem withIssue_small (c : Code) (r : SmallRef) : (s.withIssue c).small r = s.small r := by cases r <;> rfl
@[simp] theorem withIssue_byte (c : Code) (r : ByteRef) : (s.withIssue c).byte r = s.byte r := by cases r <;> rfl
@[simp] theorem withIssue_bin (c : Code) (r : BinRef) : (s.withIssue c).bin r = s.bin r := by cases r; rfl
@[simp] theorem withIssue_policy (c : Code) : (s.withIssue c).policy = s.policy := rfl
@[simp] theorem withIssue_planeW (c : Code) (q : Plane) : (s.withIssue c).planeW q = s.planeW q := by cases q <;> rfl
@[simp] theorem withIssue_planeH (c : Code) (q : Plane) : (s.withIssue c).planeH q = s.planeH q := by cases q <;> rfl
@[simp] theorem withIssue_histW (c : Code) (q : Plane) : (s.withIssue c).histW q = s.histW q := by cases q <;> rfl
@[simp] theorem withIssue_histH (c : Code) (q : Plane) : (s.withIssue c).histH q = s.histH q := by cases q <;> rfl
@[simp] theorem withIssue_origin (c : Code) (q : Plane) : (s.withIssue c).origin q = s.origin q := by cases q <;> rfl
@[simp] theorem withIssue_canvas (c : Code) : (s.withIssue c).canvas = s.canvas := rfl

end Sys2Proof.Machine
end

