-- ==== Sys2Proof/Laws/Coders.lean ====
section
/-! SUPPORT. What a write to one model register or one coder field reads back as, everywhere in the coders. -/

namespace Sys2Proof.Machine

@[simp] theorem get_set_same {α : Type} (x : PerPlane α) (p : Plane) (v : α) : (x.set p v).get p = v := by cases p <;> rfl

theorem get_set_ne {α : Type} (x : PerPlane α) {p q : Plane} (v : α) (h : q ≠ p) : (x.set p v).get q = x.get q := by
  cases p <;> cases q <;> first | rfl | exact absurd rfl h

/-- Two values for the planes are equal when they agree on each. -/
theorem perPlane_ext {α : Type} {x y : PerPlane α} (h : ∀ p, x.get p = y.get p) : x = y := by
  cases x; cases y
  simp only [PerPlane.mk.injEq]
  exact ⟨h .y, h .c1, h .c2⟩

variable (s : State)

@[simp] theorem setCoder_coder_same (p : Plane) (c : PlaneCoders) : (s.setCoder p c).coder p = c := by
  cases p <;> rfl

theorem setCoder_coder_ne {p q : Plane} (c : PlaneCoders) (h : q ≠ p) : (s.setCoder p c).coder q = s.coder q :=
  get_set_ne _ _ h

/-! ## Model registers -/

@[simp] theorem setSmall_small_same (m : SmallRef) (v : FreqModel m.size) : (s.setSmall m v).small m = v := by
  cases m <;> simp [State.setSmall, State.small]

/-- A Small model is read from the coder of its plane alone. -/
theorem small_congr {s t : State} {r : SmallRef} (h : t.coder r.plane = s.coder r.plane) : t.small r = s.small r := by
  cases r <;> simp only [SmallRef.plane] at h <;> simp [State.small, h]

/-- A Byte model is read from the coder of its plane alone. -/
theorem byte_congr {s t : State} {r : ByteRef} (h : t.coder r.plane = s.coder r.plane) : t.byte r = s.byte r := by
  cases r <;> simp only [ByteRef.plane] at h <;> simp [State.byte, h]

/-- A Binary model is read from the coder of its plane alone. -/
theorem bin_congr {s t : State} {r : BinRef} (h : t.coder r.plane = s.coder r.plane) : t.bin r = s.bin r := by
  cases r; simp only [BinRef.plane] at h; simp [State.bin, h]

theorem setSmall_coder_ne {m : SmallRef} {q : Plane} (v : FreqModel m.size) (h : q ≠ m.plane) :
    (s.setSmall m v).coder q = s.coder q := by
  cases m <;> exact setCoder_coder_ne s _ h

theorem setByte_coder_ne {m : ByteRef} {q : Plane} (v : ByteModel) (h : q ≠ m.plane) :
    (s.setByte m v).coder q = s.coder q := by
  cases m <;> exact setCoder_coder_ne s _ h

theorem setBin_coder_ne {m : BinRef} {q : Plane} (v : BinModel) (h : q ≠ m.plane) :
    (s.setBin m v).coder q = s.coder q := by
  cases m; exact setCoder_coder_ne s _ h

theorem setSmall_small_ne {m r : SmallRef} (v : FreqModel m.size) (h : r ≠ m) :
    (s.setSmall m v).small r = s.small r := by
  by_cases hp : r.plane = m.plane
  · cases m <;> cases r <;> simp only [SmallRef.plane] at hp <;> subst hp <;> simp only [State.setSmall, State.small]
    all_goals first
      | exact absurd rfl h
      | simp
    all_goals
      rename_i i _ j
      refine Vector.getElem_set_ne (i := i.val) (j := j.val) _ _ fun e => h ?_
      rw [Fin.ext e]
  · exact small_congr (setSmall_coder_ne s v hp)

@[simp] theorem setByte_byte_same (m : ByteRef) (v : ByteModel) : (s.setByte m v).byte m = v := by
  cases m <;> simp [State.setByte, State.byte]

theorem setByte_byte_ne {m r : ByteRef} (v : ByteModel) (h : r ≠ m) : (s.setByte m v).byte r = s.byte r := by
  cases m <;> cases r <;> rename_i a b <;> cases a <;> cases b <;> first | rfl | exact absurd rfl h

@[simp] theorem setBin_bin_same (m : BinRef) (v : BinModel) : (s.setBin m v).bin m = v := by
  cases m; simp [State.setBin, State.bin]

theorem setBin_bin_ne {m r : BinRef} (v : BinModel) (h : r ≠ m) : (s.setBin m v).bin r = s.bin r := by
  cases m; cases r; rename_i a b; cases a <;> cases b <;> first | rfl | exact absurd rfl h


/-! ### `setSmall`, the rest of the coders -/

@[simp] theorem setSmall_lastType (m : SmallRef) (v : FreqModel m.size) (q : Plane) : ((s.setSmall m v).coder q).bt.lastType = (s.coder q).bt.lastType := by
  by_cases h : q = m.plane
  · subst h; cases m <;> simp [State.setSmall, SmallRef.plane]
  · rw [setSmall_coder_ne s v h]

@[simp] theorem setSmall_fillVal (m : SmallRef) (v : FreqModel m.size) (q : Plane) : ((s.setSmall m v).coder q).fill.fillVal = (s.coder q).fill.fillVal := by
  by_cases h : q = m.plane
  · subst h; cases m <;> simp [State.setSmall, SmallRef.plane]
  · rw [setSmall_coder_ne s v h]

@[simp] theorem setSmall_qmat (m : SmallRef) (v : FreqModel m.size) (q : Plane) : ((s.setSmall m v).coder q).dct.qmat = (s.coder q).dct.qmat := by
  by_cases h : q = m.plane
  · subst h; cases m <;> simp [State.setSmall, SmallRef.plane]
  · rw [setSmall_coder_ne s v h]

@[simp] theorem setSmall_hist (m : SmallRef) (v : FreqModel m.size) (q : Plane) : ((s.setSmall m v).coder q).dct.hist = (s.coder q).dct.hist := by
  by_cases h : q = m.plane
  · subst h; cases m <;> simp [State.setSmall, SmallRef.plane]
  · rw [setSmall_coder_ne s v h]

@[simp] theorem setSmall_scale (m : SmallRef) (v : FreqModel m.size) (q : Plane) : ((s.setSmall m v).coder q).haar.scale = (s.coder q).haar.scale := by
  by_cases h : q = m.plane
  · subst h; cases m <;> simp [State.setSmall, SmallRef.plane]
  · rw [setSmall_coder_ne s v h]

@[simp] theorem setSmall_byte (m : SmallRef) (v : FreqModel m.size) (r : ByteRef) : (s.setSmall m v).byte r = s.byte r := by
  by_cases h : r.plane = m.plane
  · cases m <;> cases r <;> simp only [ByteRef.plane, SmallRef.plane] at h <;> subst h <;>
      simp [State.setSmall, State.byte]
  · exact byte_congr (setSmall_coder_ne s v h)

@[simp] theorem setSmall_bin (m : SmallRef) (v : FreqModel m.size) (r : BinRef) : (s.setSmall m v).bin r = s.bin r := by
  by_cases h : r.plane = m.plane
  · cases m <;> cases r <;> simp only [BinRef.plane, SmallRef.plane] at h <;> subst h <;>
      simp [State.setSmall, State.bin]
  · exact bin_congr (setSmall_coder_ne s v h)


/-! ### `setByte`, the rest of the coders -/

@[simp] theorem setByte_lastType (m : ByteRef) (v : ByteModel) (q : Plane) : ((s.setByte m v).coder q).bt.lastType = (s.coder q).bt.lastType := by
  by_cases h : q = m.plane
  · subst h; cases m <;> simp [State.setByte, ByteRef.plane]
  · rw [setByte_coder_ne s v h]

@[simp] theorem setByte_fillVal (m : ByteRef) (v : ByteModel) (q : Plane) : ((s.setByte m v).coder q).fill.fillVal = (s.coder q).fill.fillVal := by
  by_cases h : q = m.plane
  · subst h; cases m <;> simp [State.setByte, ByteRef.plane]
  · rw [setByte_coder_ne s v h]

@[simp] theorem setByte_qmat (m : ByteRef) (v : ByteModel) (q : Plane) : ((s.setByte m v).coder q).dct.qmat = (s.coder q).dct.qmat := by
  by_cases h : q = m.plane
  · subst h; cases m <;> simp [State.setByte, ByteRef.plane]
  · rw [setByte_coder_ne s v h]

@[simp] theorem setByte_hist (m : ByteRef) (v : ByteModel) (q : Plane) : ((s.setByte m v).coder q).dct.hist = (s.coder q).dct.hist := by
  by_cases h : q = m.plane
  · subst h; cases m <;> simp [State.setByte, ByteRef.plane]
  · rw [setByte_coder_ne s v h]

@[simp] theorem setByte_scale (m : ByteRef) (v : ByteModel) (q : Plane) : ((s.setByte m v).coder q).haar.scale = (s.coder q).haar.scale := by
  by_cases h : q = m.plane
  · subst h; cases m <;> simp [State.setByte, ByteRef.plane]
  · rw [setByte_coder_ne s v h]

@[simp] theorem setByte_small (m : ByteRef) (v : ByteModel) (r : SmallRef) : (s.setByte m v).small r = s.small r := by
  by_cases h : r.plane = m.plane
  · cases m <;> cases r <;> simp only [SmallRef.plane, ByteRef.plane] at h <;> subst h <;>
      simp [State.setByte, State.small]
  · exact small_congr (setByte_coder_ne s v h)

@[simp] theorem setByte_bin (m : ByteRef) (v : ByteModel) (r : BinRef) : (s.setByte m v).bin r = s.bin r := by
  by_cases h : r.plane = m.plane
  · cases m <;> cases r <;> simp only [BinRef.plane, ByteRef.plane] at h <;> subst h <;>
      simp [State.setByte, State.bin]
  · exact bin_congr (setByte_coder_ne s v h)


/-! ### `setBin`, the rest of the coders -/

@[simp] theorem setBin_lastType (m : BinRef) (v : BinModel) (q : Plane) : ((s.setBin m v).coder q).bt.lastType = (s.coder q).bt.lastType := by
  cases m; rename_i p; cases p <;> cases q <;> rfl

@[simp] theorem setBin_fillVal (m : BinRef) (v : BinModel) (q : Plane) : ((s.setBin m v).coder q).fill.fillVal = (s.coder q).fill.fillVal := by
  cases m; rename_i p; cases p <;> cases q <;> rfl

@[simp] theorem setBin_qmat (m : BinRef) (v : BinModel) (q : Plane) : ((s.setBin m v).coder q).dct.qmat = (s.coder q).dct.qmat := by
  cases m; rename_i p; cases p <;> cases q <;> rfl

@[simp] theorem setBin_hist (m : BinRef) (v : BinModel) (q : Plane) : ((s.setBin m v).coder q).dct.hist = (s.coder q).dct.hist := by
  cases m; rename_i p; cases p <;> cases q <;> rfl

@[simp] theorem setBin_scale (m : BinRef) (v : BinModel) (q : Plane) : ((s.setBin m v).coder q).haar.scale = (s.coder q).haar.scale := by
  cases m; rename_i p; cases p <;> cases q <;> rfl

@[simp] theorem setBin_small (m : BinRef) (v : BinModel) (r : SmallRef) : (s.setBin m v).small r = s.small r := by
  by_cases h : r.plane = m.plane
  · cases m <;> cases r <;> simp only [SmallRef.plane, BinRef.plane] at h <;> subst h <;>
      simp [State.setBin, State.small]
  · exact small_congr (setBin_coder_ne s v h)

@[simp] theorem setBin_byte (m : BinRef) (v : BinModel) (r : ByteRef) : (s.setBin m v).byte r = s.byte r := by
  by_cases h : r.plane = m.plane
  · cases m <;> cases r <;> simp only [ByteRef.plane, BinRef.plane] at h <;> subst h <;>
      simp [State.setBin, State.byte]
  · exact byte_congr (setBin_coder_ne s v h)


/-! ### `setLastType`, the rest of the coders -/

@[simp] theorem setLastType_fillVal (p : Plane) (t : Fin 5) (q : Plane) : ((setLastType p t s).coder q).fill.fillVal = (s.coder q).fill.fillVal := by cases p <;> cases q <;> rfl

@[simp] theorem setLastType_qmat (p : Plane) (t : Fin 5) (q : Plane) : ((setLastType p t s).coder q).dct.qmat = (s.coder q).dct.qmat := by cases p <;> cases q <;> rfl

@[simp] theorem setLastType_hist (p : Plane) (t : Fin 5) (q : Plane) : ((setLastType p t s).coder q).dct.hist = (s.coder q).dct.hist := by cases p <;> cases q <;> rfl

@[simp] theorem setLastType_scale (p : Plane) (t : Fin 5) (q : Plane) : ((setLastType p t s).coder q).haar.scale = (s.coder q).haar.scale := by cases p <;> cases q <;> rfl

@[simp] theorem setLastType_small (p : Plane) (t : Fin 5) (r : SmallRef) : (setLastType p t s).small r = s.small r := by
  by_cases h : r.plane = p
  · cases r <;> simp only [SmallRef.plane] at h <;> subst h <;> simp [setLastType, State.small]
  · exact small_congr (setCoder_coder_ne s _ h)

@[simp] theorem setLastType_byte (p : Plane) (t : Fin 5) (r : ByteRef) : (setLastType p t s).byte r = s.byte r := by
  by_cases h : r.plane = p
  · cases r <;> simp only [ByteRef.plane] at h <;> subst h <;> simp [setLastType, State.byte]
  · exact byte_congr (setCoder_coder_ne s _ h)

@[simp] theorem setLastType_bin (p : Plane) (t : Fin 5) (r : BinRef) : (setLastType p t s).bin r = s.bin r := by
  by_cases h : r.plane = p
  · cases r; simp only [BinRef.plane] at h; subst h; simp [setLastType, State.bin]
  · exact bin_congr (setCoder_coder_ne s _ h)


/-! ### `setFillVal`, the rest of the coders -/

@[simp] theorem setFillVal_lastType (p : Plane) (v : I32) (q : Plane) : ((setFillVal p v s).coder q).bt.lastType = (s.coder q).bt.lastType := by cases p <;> cases q <;> rfl

@[simp] theorem setFillVal_qmat (p : Plane) (v : I32) (q : Plane) : ((setFillVal p v s).coder q).dct.qmat = (s.coder q).dct.qmat := by cases p <;> cases q <;> rfl

@[simp] theorem setFillVal_hist (p : Plane) (v : I32) (q : Plane) : ((setFillVal p v s).coder q).dct.hist = (s.coder q).dct.hist := by cases p <;> cases q <;> rfl

@[simp] theorem setFillVal_scale (p : Plane) (v : I32) (q : Plane) : ((setFillVal p v s).coder q).haar.scale = (s.coder q).haar.scale := by cases p <;> cases q <;> rfl

@[simp] theorem setFillVal_small (p : Plane) (v : I32) (r : SmallRef) : (setFillVal p v s).small r = s.small r := by
  by_cases h : r.plane = p
  · cases r <;> simp only [SmallRef.plane] at h <;> subst h <;> simp [setFillVal, State.small]
  · exact small_congr (setCoder_coder_ne s _ h)

@[simp] theorem setFillVal_byte (p : Plane) (v : I32) (r : ByteRef) : (setFillVal p v s).byte r = s.byte r := by
  by_cases h : r.plane = p
  · cases r <;> simp only [ByteRef.plane] at h <;> subst h <;> simp [setFillVal, State.byte]
  · exact byte_congr (setCoder_coder_ne s _ h)

@[simp] theorem setFillVal_bin (p : Plane) (v : I32) (r : BinRef) : (setFillVal p v s).bin r = s.bin r := by
  by_cases h : r.plane = p
  · cases r; simp only [BinRef.plane] at h; subst h; simp [setFillVal, State.bin]
  · exact bin_congr (setCoder_coder_ne s _ h)


/-! ### `clearHist`, the rest of the coders -/

@[simp] theorem clearHist_lastType (p : Plane) (q : Plane) : ((clearHist p s).coder q).bt.lastType = (s.coder q).bt.lastType := by cases p <;> cases q <;> rfl

@[simp] theorem clearHist_fillVal (p : Plane) (q : Plane) : ((clearHist p s).coder q).fill.fillVal = (s.coder q).fill.fillVal := by cases p <;> cases q <;> rfl

@[simp] theorem clearHist_qmat (p : Plane) (q : Plane) : ((clearHist p s).coder q).dct.qmat = (s.coder q).dct.qmat := by cases p <;> cases q <;> rfl

@[simp] theorem clearHist_scale (p : Plane) (q : Plane) : ((clearHist p s).coder q).haar.scale = (s.coder q).haar.scale := by cases p <;> cases q <;> rfl

@[simp] theorem clearHist_small (p : Plane) (r : SmallRef) : (clearHist p s).small r = s.small r := by
  by_cases h : r.plane = p
  · cases r <;> simp only [SmallRef.plane] at h <;> subst h <;> simp [clearHist, State.small]
  · exact small_congr (setCoder_coder_ne s _ h)

@[simp] theorem clearHist_byte (p : Plane) (r : ByteRef) : (clearHist p s).byte r = s.byte r := by
  by_cases h : r.plane = p
  · cases r <;> simp only [ByteRef.plane] at h <;> subst h <;> simp [clearHist, State.byte]
  · exact byte_congr (setCoder_coder_ne s _ h)

@[simp] theorem clearHist_bin (p : Plane) (r : BinRef) : (clearHist p s).bin r = s.bin r := by
  by_cases h : r.plane = p
  · cases r; simp only [BinRef.plane] at h; subst h; simp [clearHist, State.bin]
  · exact bin_congr (setCoder_coder_ne s _ h)


/-! ### `loadQuality`, the rest of the coders -/

@[simp] theorem loadQuality_lastType (v : Byte) (p : Plane) (q : Plane) : ((loadQuality v p s).coder q).bt.lastType = (s.coder q).bt.lastType := by cases p <;> cases q <;> rfl

@[simp] theorem loadQuality_fillVal (v : Byte) (p : Plane) (q : Plane) : ((loadQuality v p s).coder q).fill.fillVal = (s.coder q).fill.fillVal := by cases p <;> cases q <;> rfl

@[simp] theorem loadQuality_hist (v : Byte) (p : Plane) (q : Plane) : ((loadQuality v p s).coder q).dct.hist = (s.coder q).dct.hist := by cases p <;> cases q <;> rfl

@[simp] theorem loadQuality_small (v : Byte) (p : Plane) (r : SmallRef) : (loadQuality v p s).small r = s.small r := by
  by_cases h : r.plane = p
  · cases r <;> simp only [SmallRef.plane] at h <;> subst h <;> simp [loadQuality, State.small]
  · exact small_congr (setCoder_coder_ne s _ h)

@[simp] theorem loadQuality_byte (v : Byte) (p : Plane) (r : ByteRef) : (loadQuality v p s).byte r = s.byte r := by
  by_cases h : r.plane = p
  · cases r <;> simp only [ByteRef.plane] at h <;> subst h <;> simp [loadQuality, State.byte]
  · exact byte_congr (setCoder_coder_ne s _ h)

@[simp] theorem loadQuality_bin (v : Byte) (p : Plane) (r : BinRef) : (loadQuality v p s).bin r = s.bin r := by
  by_cases h : r.plane = p
  · cases r; simp only [BinRef.plane] at h; subst h; simp [loadQuality, State.bin]
  · exact bin_congr (setCoder_coder_ne s _ h)

end Sys2Proof.Machine
end

