-- ==== Sys2Proof/Laws/Memory.lean ====
section
/-! SUPPORT. The sparse memories: a write is read back at its address and nowhere else, and every operation keeps the canonical
form. -/

namespace Sys2Proof

variable {w : Nat}

/-! ## Reading back -/

theorem cellAt_putCell_same (d : BitVec w) (l : List (Nat × BitVec w)) (o : Option Nat) (a : Nat) (v : BitVec w)
    (h : risingFrom o l = true) : cellAt d (putCell d l a v) a = v := by
  induction l generalizing o with
  | nil => by_cases hv : v = d <;> simp [putCell, cellAt, hv]
  | cons e t ih =>
    obtain ⟨b, u⟩ := e
    have ht : risingFrom (some b) t = true := by cases o <;> simp_all [risingFrom]
    have low : ∀ (t : List (Nat × BitVec w)) (b : Nat), risingFrom (some b) t = true → a ≤ b → cellAt d t a = d := by
      intro t
      induction t with
      | nil => intros; rfl
      | cons e t iht =>
        obtain ⟨c, x⟩ := e
        intro b hr hb
        simp only [risingFrom, Bool.and_eq_true, decide_eq_true_eq] at hr
        simp only [cellAt]
        rw [if_neg (by omega)]
        exact iht c hr.2 (by omega)
    unfold putCell
    split
    · split
      · rename_i h1 h2
        subst h2
        simp only [cellAt]
        rw [if_neg (by omega)]
        exact low t b ht (by omega)
      · simp [cellAt]
    · split
      · rename_i h1 h2
        subst h2
        split
        · rename_i h3; subst h3; exact low t a ht (le_refl a)
        · simp [cellAt]
      · rename_i h1 h2
        simp only [cellAt]
        rw [if_neg h2]
        exact ih _ ht

theorem cellAt_putCell_ne (d : BitVec w) (l : List (Nat × BitVec w)) (a b : Nat) (v : BitVec w) (h : b ≠ a) :
    cellAt d (putCell d l a v) b = cellAt d l b := by
  induction l with
  | nil => by_cases hv : v = d <;> simp [putCell, cellAt, hv, h]
  | cons e t ih =>
    obtain ⟨c, u⟩ := e
    unfold putCell
    split
    · split <;> simp [cellAt, h]
    · split
      · rename_i h1 h2; subst h2; split <;> simp [cellAt, h]
      · simp only [cellAt, ih]

/-- A canonical memory reads back what was written. -/
theorem read_write_same (m : Store w) (a : Nat) (v : BitVec w) (h : m.wf = true) : (m.write a v).read a = v := by
  simp only [Store.wf, Bool.and_eq_true] at h
  exact cellAt_putCell_same _ _ none a v h.1

/-- A write leaves every other address alone. -/
theorem read_write_ne (m : Store w) {a b : Nat} (v : BitVec w) (h : b ≠ a) : (m.write a v).read b = m.read b :=
  cellAt_putCell_ne _ _ _ _ _ h

@[simp] theorem write_dflt (m : Store w) (a : Nat) (v : BitVec w) : (m.write a v).dflt = m.dflt := rfl

/-! ## The canonical form -/

theorem risingFrom_putCell (d : BitVec w) (l : List (Nat × BitVec w)) (o : Option Nat) (a : Nat) (v : BitVec w)
    (h : risingFrom o l = true) (ho : ∀ b ∈ o, b < a) : risingFrom o (putCell d l a v) = true := by
  induction l generalizing o with
  | nil =>
    unfold putCell
    split
    · cases o <;> rfl
    · cases o with
      | none => rfl
      | some b => simpa [risingFrom] using ho b rfl
  | cons e t ih =>
    obtain ⟨b, u⟩ := e
    have ht : risingFrom (some b) t = true := by cases o <;> simp_all [risingFrom]
    have hb : ∀ c ∈ o, c < b := by
      intro c hc; cases o with
      | none => cases hc
      | some x => simp only [Option.mem_some_iff] at hc; subst hc; simp [risingFrom] at h; exact h.1
    have cons : ∀ (x : Nat) (y : BitVec w) (r : List (Nat × BitVec w)), (∀ c ∈ o, c < x) →
        risingFrom (some x) r = true → risingFrom o ((x, y) :: r) = true := by
      intro x y r hx hr
      cases o with
      | none => exact hr
      | some c => simp [risingFrom, hx c rfl, hr]
    unfold putCell
    split
    · rename_i hab
      split
      · exact h
      · exact cons _ _ _ ho (by simp [risingFrom, hab, ht])
    · split
      · rename_i h1 h2
        subst h2
        split
        · cases t with
          | nil => cases o <;> rfl
          | cons e r =>
            obtain ⟨c, x⟩ := e
            simp only [risingFrom, Bool.and_eq_true, decide_eq_true_eq] at ht
            exact cons _ _ _ (fun k hk => Nat.lt_trans (ho k hk) ht.1) ht.2
        · exact cons _ _ _ ho ht
      · rename_i h1 h2
        exact cons _ _ _ hb (ih _ ht (by intro c hc; simp only [Option.mem_some_iff] at hc; omega))

theorem putCell_all (d : BitVec w) (l : List (Nat × BitVec w)) (a : Nat) (v : BitVec w)
    (h : ∀ c ∈ l, c.2 ≠ d) : ∀ c ∈ putCell d l a v, c.2 ≠ d := by
  induction l with
  | nil =>
    unfold putCell
    split
    · simp
    · rename_i hv; intro c hc; simp only [List.mem_singleton] at hc; subst hc; exact hv
  | cons e t ih =>
    obtain ⟨b, u⟩ := e
    have h0 := h (b, u) (by simp)
    have ht : ∀ c ∈ t, c.2 ≠ d := fun c hc => h c (List.mem_cons_of_mem _ hc)
    intro c hc
    unfold putCell at hc
    split at hc
    · split at hc
      · exact h c hc
      · rename_i hv
        rcases List.mem_cons.mp hc with rfl | hc
        · exact hv
        · exact h c hc
    · split at hc
      · split at hc
        · exact ht c hc
        · rename_i hv
          rcases List.mem_cons.mp hc with rfl | hc
          · exact hv
          · exact ht c hc
      · rcases List.mem_cons.mp hc with rfl | hc
        · exact h0
        · exact ih ht c hc

/-- A write keeps the canonical form. -/
theorem write_wf (m : Store w) (a : Nat) (v : BitVec w) (h : m.wf = true) : (m.write a v).wf = true := by
  simp only [Store.wf, Bool.and_eq_true, List.all_eq_true, decide_eq_true_eq] at h ⊢
  refine ⟨risingFrom_putCell _ _ none a v h.1 (by simp), fun c hc => ?_⟩
  simpa [Store.write] using putCell_all _ _ a v (by simpa using h.2) c hc

theorem writeRow_wf (m : Store 8) (addr : Nat → Nat) (v : Nat → Byte) (n : Nat) (h : m.wf = true) :
    (m.writeRow addr v n).wf = true := by
  induction n with
  | zero => exact h
  | succ n ih => exact write_wf _ _ _ ih

theorem writeRows_wf (m : Store 8) (addr : Nat → Nat → Nat) (v : Nat → Nat → Byte) (k n : Nat) (h : m.wf = true) :
    (m.writeRows addr v k n).wf = true := by
  induction n with
  | zero => exact h
  | succ n ih => exact writeRow_wf _ _ _ _ ih

@[simp] theorem writeRow_dflt (m : Store 8) (addr : Nat → Nat) (v : Nat → Byte) (n : Nat) :
    (m.writeRow addr v n).dflt = m.dflt := by
  induction n with
  | zero => rfl
  | succ n ih => exact ih

@[simp] theorem writeRows_dflt (m : Store 8) (addr : Nat → Nat → Nat) (v : Nat → Nat → Byte) (k n : Nat) :
    (m.writeRows addr v k n).dflt = m.dflt := by
  induction n with
  | zero => rfl
  | succ n ih => exact (writeRow_dflt _ _ _ _).trans ih

/-! ## Rectangles -/

theorem read_writeRow_ne (m : Store 8) (addr : Nat → Nat) (v : Nat → Byte) (n a : Nat) (h : ∀ c, c < n → a ≠ addr c) :
    (m.writeRow addr v n).read a = m.read a := by
  induction n with
  | zero => rfl
  | succ n ih =>
    rw [Store.writeRow, read_write_ne _ _ (h n (Nat.lt_succ_self n))]
    exact ih fun c hc => h c (Nat.lt_succ_of_lt hc)

theorem read_writeRow (m : Store 8) (addr : Nat → Nat) (v : Nat → Byte) (n c : Nat) (hm : m.wf = true) (hc : c < n)
    (hinj : ∀ c c', c < n → c' < n → addr c = addr c' → c = c') : (m.writeRow addr v n).read (addr c) = v c := by
  induction n with
  | zero => omega
  | succ n ih =>
    rw [Store.writeRow]
    by_cases h : c = n
    · subst h; exact read_write_same _ _ _ (writeRow_wf _ _ _ _ hm)
    · rw [read_write_ne _ _ fun e => h (hinj c n (by omega) (by omega) e)]
      exact ih (by omega) fun c c' h1 h2 => hinj c c' (by omega) (by omega)

/-- An address outside the rectangle keeps its value. -/
theorem read_writeRows_ne (m : Store 8) (addr : Nat → Nat → Nat) (v : Nat → Nat → Byte) (k n a : Nat)
    (h : ∀ r c, r < n → c < k → a ≠ addr r c) : (m.writeRows addr v k n).read a = m.read a := by
  induction n with
  | zero => rfl
  | succ n ih =>
    rw [Store.writeRows, read_writeRow_ne _ _ _ _ _ fun c hc => h n c (Nat.lt_succ_self n) hc]
    exact ih fun r c hr hc => h r c (Nat.lt_succ_of_lt hr) hc

/-- A canonical memory reads back every sample of a rectangle written with distinct addresses. -/
theorem read_writeRows (m : Store 8) (addr : Nat → Nat → Nat) (v : Nat → Nat → Byte) (k n r c : Nat) (hm : m.wf = true)
    (hr : r < n) (hc : c < k)
    (hinj : ∀ r c r' c', r < n → c < k → r' < n → c' < k → addr r c = addr r' c' → r = r' ∧ c = c') :
    (m.writeRows addr v k n).read (addr r c) = v r c := by
  induction n with
  | zero => omega
  | succ n ih =>
    rw [Store.writeRows]
    by_cases h : r = n
    · subst h
      exact read_writeRow _ _ _ _ _ (writeRows_wf _ _ _ _ _ hm) hc fun c c' h1 h2 e => (hinj r c r c' hr h1 hr h2 e).2
    · rw [read_writeRow_ne _ _ _ _ _ fun c' hc' e => h (hinj r c n c' hr hc (by omega) hc' e).1]
      exact ih (by omega) fun r c r' c' h1 h2 h3 h4 => hinj r c r' c' (by omega) h2 (by omega) h4

namespace Machine

/-- Samples of one plane have distinct addresses, columns being below 65536. -/
theorem sampleAddr_inj {p : Plane} {r c r' c' : Nat} (h1 : c < 65536) (h2 : c' < 65536)
    (h : sampleAddr p r c = sampleAddr p r' c') : r = r' ∧ c = c' := by
  unfold sampleAddr at h; omega

/-- Samples of two planes have distinct addresses, rows and columns being below 65536. -/
theorem sampleAddr_ne {p q : Plane} {r c r' c' : Nat} (hp : p ≠ q) (h1 : r < 65536) (h2 : r' < 65536)
    (h3 : c < 65536) (h4 : c' < 65536) : sampleAddr p r c ≠ sampleAddr q r' c' := by
  cases p <;> cases q <;> simp [sampleAddr, Plane.idx] at hp ⊢ <;> omega

/-- History positions have distinct addresses, columns being below 65536. -/
theorem histAddr_inj {x y x' y' : Nat} (h1 : x < 65536) (h2 : x' < 65536) (h : histAddr x y = histAddr x' y') :
    x = x' ∧ y = y' := by
  unfold histAddr at h; omega

end Machine

end Sys2Proof
end

