-- ==== Sys2Proof/Laws/Loops.lean ====
section
/-! SUPPORT. One induction for each loop form of `00_scope.md` rule R23: what holds through the rounds holds after the loop. -/

namespace Sys2Proof.Machine

variable {σ : Type}

/-- A loop whose every round succeeds and carries `P` on to the next index succeeds. -/
theorem forFrom_ok (P : Nat → σ → Prop) (f : Nat → σ → Res σ) (lo n : Nat) (s : σ)
    (h : ∀ k s, lo ≤ k → k < lo + n → P k s → ∃ t, f k s = .ok t ∧ P (k + 1) t) (h0 : P lo s) :
    ∃ t, forFrom f lo n s = .ok t ∧ P (lo + n) t := by
  induction n generalizing lo s with
  | zero => exact ⟨s, rfl, h0⟩
  | succ n ih =>
    obtain ⟨t, ht, hp⟩ := h lo s (le_refl _) (by omega) h0
    obtain ⟨u, hu, hq⟩ := ih (lo + 1) t (fun k s h1 h2 => h k s (by omega) (by omega)) hp
    refine ⟨u, ?_, by rwa [Nat.add_right_comm] at hq⟩
    simp [forFrom, ht, Except.bind, hu]

/-- The same from index 0. -/
theorem forRange_ok (P : Nat → σ → Prop) (f : Nat → σ → Res σ) (n : Nat) (s : σ)
    (h : ∀ k s, k < n → P k s → ∃ t, f k s = .ok t ∧ P (k + 1) t) (h0 : P 0 s) :
    ∃ t, forRange n f s = .ok t ∧ P n t := by
  have := forFrom_ok P f 0 n s (fun k s _ h2 hp => h k s (by omega) hp) h0
  simpa [forRange] using this

/-- What every round that succeeds keeps, a loop that succeeds keeps. -/
theorem forFrom_keeps (P : σ → Prop) (f : Nat → σ → Res σ) (lo n : Nat) (s t : σ)
    (h : ∀ k s t, f k s = .ok t → P s → P t) (ht : forFrom f lo n s = .ok t) (h0 : P s) : P t := by
  induction n generalizing lo s with
  | zero => simp only [forFrom, Except.ok.injEq] at ht; exact ht ▸ h0
  | succ n ih =>
    simp only [forFrom] at ht
    cases hf : f lo s with
    | error e => simp [hf, Except.bind] at ht
    | ok u => exact ih (lo + 1) u (by simpa [hf, Except.bind] using ht) (h _ _ _ hf h0)

theorem forRange_keeps (P : σ → Prop) (f : Nat → σ → Res σ) (n : Nat) (s t : σ)
    (h : ∀ k s t, f k s = .ok t → P s → P t) (ht : forRange n f s = .ok t) (h0 : P s) : P t :=
  forFrom_keeps P f 0 n s t h ht h0

/-- `bind` succeeds exactly when both parts do. -/
theorem bind_eq_ok {α β : Type} {x : Res α} {f : α → Res β} {b : β} (h : x.bind f = .ok b) :
    ∃ a, x = .ok a ∧ f a = .ok b := by
  cases x with
  | error e => simp [Except.bind] at h
  | ok a => exact ⟨a, rfl, h⟩

/-- `map` succeeds exactly when its argument does. -/
theorem map_eq_ok {α β : Type} {x : Res α} {f : α → β} {b : β} (h : x.map f = .ok b) : ∃ a, x = .ok a ∧ f a = b := by
  cases x with
  | error e => simp [Except.map] at h
  | ok a => exact ⟨a, rfl, by simpa [Except.map] using h⟩

@[simp] theorem ok_bind {α β : Type} (a : α) (f : α → Res β) : (Except.ok a : Res α).bind f = f a := rfl

@[simp] theorem ok_map {α β : Type} (a : α) (f : α → β) : (Except.ok a : Res α).map f = .ok (f a) := rfl

/-- A meaning of a live instance whose operation succeeds answers its state. -/
theorem live_ok {s t : State} {f : State → Res State} (ha : s.alive = true) (h : f s = .ok t) : live s f = .next t := by
  simp [live, ha, h]

/-- A meaning that answers a state: the instance is alive and the operation succeeded. -/
theorem live_eq_next {s t : State} {f : State → Res State} (h : live s f = .next t) : s.alive = true ∧ f s = .ok t := by
  unfold live at h
  split at h
  · rename_i ha
    split at h
    · rename_i u hu; exact ⟨ha, by cases h; exact hu⟩
    · cases h
  · cases h

end Sys2Proof.Machine
end

