-- ==== Sys2Proof/Laws/Models.lean ====
section
/-! SUPPORT. What the adaptive models' operations do, in numbers, and that they keep the invariants of rules R137, R144 and
R150. -/

namespace Sys2Proof.Machine

@[simp] theorem minU32_toNat (a b : U32) : (minU32 a b).toNat = min a.toNat b.toNat := by
  unfold minU32; split <;> bv_omega

theorem add_toNat {a b : U32} (h : a.toNat + b.toNat < 2 ^ 32) : (a + b).toNat = a.toNat + b.toNat := by
  rw [BitVec.toNat_add]; exact Nat.mod_eq_of_lt h

theorem mul_toNat {a b : U32} (h : a.toNat * b.toNat < 2 ^ 32) : (a * b).toNat = a.toNat * b.toNat := by
  rw [BitVec.toNat_mul]; exact Nat.mod_eq_of_lt h

theorem shr_toNat (a : U32) (k : Nat) : (a >>> k).toNat = a.toNat / 2 ^ k := by
  simp [Nat.shiftRight_eq_div_pow]

/-- `(w + 1) >> 1`, in numbers. -/
theorem halved_toNat {w : U32} (h : w.toNat + 1 < 2 ^ 32) : ((w + 1) >>> 1).toNat = (w.toNat + 1) / 2 := by
  rw [shr_toNat, add_toNat (by simpa using h)]; rfl

/-- The decay of `upd_val`, in numbers (rules R136, R139). -/
theorem decay_toNat (u c : U32) (h : u.toNat ≤ 0x10000) :
    (minU32 ((u * 5) >>> 2) c).toNat = min (u.toNat * 5 / 4) c.toNat := by
  rw [minU32_toNat, shr_toNat, mul_toNat (by simp; omega)]; rfl

/-- A scaled weight `(w * (0x8000_0000 div t)) >> k`, in numbers: nothing wraps while `w <= t`. -/
theorem scaled_toNat {w t : U32} (k : Nat) (h : w.toNat ≤ t.toNat) :
    ((w * (0x80000000 / t)) >>> k).toNat = w.toNat * (0x80000000 / t.toNat) / 2 ^ k := by
  have hd : (0x80000000 / t : U32).toNat = 0x80000000 / t.toNat := by simp [BitVec.toNat_udiv]
  rw [shr_toNat, mul_toNat, hd]
  rw [hd]
  calc w.toNat * (0x80000000 / t.toNat) ≤ t.toNat * (0x80000000 / t.toNat) := Nat.mul_le_mul_right _ h
    _ ≤ 0x80000000 := Nat.mul_div_le _ _
    _ < 2 ^ 32 := by decide

/-! ## Binary model -/

theorem BinModel.reset_good : BinModel.reset.Good := by
  constructor <;> decide

theorem BinModel.initial_eq : BinModel.initial = BinModel.reset := rfl

/-- `total_weight` after the rebuild's addition and halving (rule R136). -/
def binTotal (z t : Nat) : Nat :=
  if t ≤ 0x2000 then t else if (t + 1) / 2 = (z + 1) / 2 then (z + 1) / 2 + 1 else (t + 1) / 2

/-- `zero_weight` after the rebuild's halving (rule R136). -/
def binZero (z t : Nat) : Nat := if t ≤ 0x2000 then z else (z + 1) / 2

/-- After a rebuild, `zero_weight < total_weight <= 0x2000` (rule R137). -/
theorem binTotal_spec {z t : Nat} (h : z < t) (ht : t ≤ 0x2040) (hz : 1 ≤ z) (h2 : 2 ≤ t) :
    binZero z t < binTotal z t ∧ 2 ≤ binTotal z t ∧ binTotal z t ≤ 0x2000 ∧ 1 ≤ binZero z t := by
  unfold binTotal binZero
  by_cases hc : t ≤ 0x2000
  · simp only [if_pos hc]; omega
  · simp only [if_neg hc]
    by_cases he : (t + 1) / 2 = (z + 1) / 2
    · simp only [if_pos he]; omega
    · simp only [if_neg he]; omega

/-- The rebuild, in numbers (rule R136), when no weight wraps. -/
theorem BinModel.rebuild_spec (m : BinModel) (hz : m.zeroWeight.toNat < m.totalWeight.toNat + m.updVal.toNat)
    (ht : 1 ≤ m.totalWeight.toNat) (htl : m.totalWeight.toNat ≤ 0x2000) (hul : m.updVal.toNat ≤ 64) :
    ∃ m', m.rebuild = .ok m' ∧
      m'.totalWeight.toNat = binTotal m.zeroWeight.toNat (m.totalWeight.toNat + m.updVal.toNat) ∧
      m'.zeroWeight.toNat = binZero m.zeroWeight.toNat (m.totalWeight.toNat + m.updVal.toNat) ∧
      m'.updVal.toNat = min (m.updVal.toNat * 5 / 4) 64 ∧ m'.tillRescale.toNat = min (m.updVal.toNat * 5 / 4) 64 ∧
      m'.zeroFreq.toNat = m'.zeroWeight.toNat * (0x80000000 / m'.totalWeight.toNat) / 2 ^ 18 ∧
      m'.totalFreq.toNat = m'.totalWeight.toNat * (0x80000000 / m'.totalWeight.toNat) / 2 ^ 18 := by
  have hT : (m.totalWeight + m.updVal).toNat = m.totalWeight.toNat + m.updVal.toNat := add_toNat (by omega)
  have hd := decay_toNat m.updVal 64 (by omega)
  unfold BinModel.rebuild BinModel.limit
  by_cases hc : (0x2000 : U32) < m.totalWeight + m.updVal
  · have hc' : 0x2000 < m.totalWeight.toNat + m.updVal.toNat := by
      rw [← hT]; simpa using BitVec.lt_def.mp hc
    have h1 : ((m.totalWeight + m.updVal + 1) >>> 1).toNat = (m.totalWeight.toNat + m.updVal.toNat + 1) / 2 := by
      rw [halved_toNat (by omega), hT]
    have h2 : ((m.zeroWeight + 1) >>> 1).toNat = (m.zeroWeight.toNat + 1) / 2 := halved_toNat (by omega)
    have he : ((m.totalWeight + m.updVal + 1) >>> 1 = (m.zeroWeight + 1) >>> 1) ↔
        (m.totalWeight.toNat + m.updVal.toNat + 1) / 2 = (m.zeroWeight.toNat + 1) / 2 := by
      rw [← BitVec.toNat_inj, h1, h2]
    have h3 : (if (m.totalWeight + m.updVal + 1) >>> 1 = (m.zeroWeight + 1) >>> 1 then (m.zeroWeight + 1) >>> 1 + 1
        else (m.totalWeight + m.updVal + 1) >>> 1).toNat =
        binTotal m.zeroWeight.toNat (m.totalWeight.toNat + m.updVal.toNat) := by
      unfold binTotal
      rw [if_neg (show ¬ m.totalWeight.toNat + m.updVal.toNat ≤ 0x2000 by omega)]
      by_cases hq : (m.totalWeight + m.updVal + 1) >>> 1 = (m.zeroWeight + 1) >>> 1
      · rw [if_pos hq, if_pos (he.mp hq), add_toNat (by rw [h2]; simp; omega), h2]; rfl
      · rw [if_neg hq, if_neg fun e => hq (he.mpr e), h1]
    have h4 : binTotal m.zeroWeight.toNat (m.totalWeight.toNat + m.updVal.toNat) ≥ (m.zeroWeight.toNat + 1) / 2 ∧
        1 ≤ binTotal m.zeroWeight.toNat (m.totalWeight.toNat + m.updVal.toNat) := by
      unfold binTotal; split <;> [omega; split] <;> omega
    rw [if_pos (show (0x2000 : U32) < m.grow.totalWeight from hc)]
    unfold BinModel.rescale
    rw [if_neg (by intro e; rw [← BitVec.toNat_inj] at e; exact absurd (h3.symm.trans e) (by simp; omega))]
    refine ⟨_, rfl, h3, ?_, hd, hd, ?_, ?_⟩
    · simp only [binZero]; rw [if_neg (by omega)]; exact h2
    · exact scaled_toNat 18 (le_of_eq_of_le h2 (le_of_le_of_eq h4.1 h3.symm))
    · exact scaled_toNat 18 (le_refl _)
  · have hc' : m.totalWeight.toNat + m.updVal.toNat ≤ 0x2000 := by
      rw [← hT]; have := BitVec.lt_def.not.mp hc; simpa using this
    rw [if_neg (show ¬ (0x2000 : U32) < m.grow.totalWeight from hc)]
    unfold BinModel.rescale
    rw [if_neg (by intro e; rw [← BitVec.toNat_inj] at e; exact absurd (hT.symm.trans e) (by simp; omega))]
    refine ⟨_, rfl, ?_, ?_, hd, hd, scaled_toNat 18 (le_of_le_of_eq (Nat.le_of_lt hz) hT.symm), scaled_toNat 18 (le_refl _)⟩
    · simp only [binTotal, if_pos hc']; exact hT
    · simp only [binZero, if_pos hc']; rfl

/-- The first two lines of M2_UPDATE, in numbers. -/
theorem BinModel.count_spec (m : BinModel) (b : Bool) (h : m.Good) :
    (m.count b).zeroWeight.toNat = m.zeroWeight.toNat + (if b then 0 else 1) ∧
      (m.count b).tillRescale.toNat = m.tillRescale.toNat - 1 := by
  obtain ⟨h1, h2, h3, h4, h5, h6, h7, h8, h9⟩ := h
  constructor
  · cases b
    · exact add_toNat (by simp; omega)
    · rfl
  · show (m.tillRescale - 1).toNat = _
    bv_omega

/-- An update succeeds and keeps the invariant (rules R136, R137). -/
theorem BinModel.update_good (m : BinModel) (b : Bool) (h : m.Good) : ∃ m', m.update b = .ok m' ∧ m'.Good := by
  obtain ⟨hz, ht⟩ := BinModel.count_spec m b h
  obtain ⟨h1, h2, h3, h4, h5, h6, h7, h8, h9⟩ := h
  have hb : (if b then 0 else 1) ≤ 1 := by cases b <;> simp
  have ht0 : (m.count b).totalWeight = m.totalWeight := rfl
  have hu0 : (m.count b).updVal = m.updVal := rfl
  unfold BinModel.update
  by_cases hd : (m.count b).tillRescale = 0
  · have hc : m.tillRescale.toNat - 1 = 0 := by rw [← ht, hd]; rfl
    obtain ⟨m', hm, k1, k2, k3, k4, k5, k6⟩ := BinModel.rebuild_spec (m.count b) (by rw [hz, ht0, hu0]; omega)
      (by rw [ht0]; omega) (by rw [ht0]; omega) (by rw [hu0]; omega)
    rw [ht0, hu0, hz] at k1 k2
    rw [hu0] at k3 k4
    obtain ⟨hlt, hge, hle, hpos⟩ := binTotal_spec (z := m.zeroWeight.toNat + if b then 0 else 1)
      (t := m.totalWeight.toNat + m.updVal.toNat) (by omega) (by omega) (by omega) (by omega)
    rw [← k1, ← k2] at hlt
    rw [← k1] at hle hge
    rw [← k2] at hpos
    have hsc : 2 ^ 18 ≤ 0x80000000 / m'.totalWeight.toNat := by
      rw [Nat.le_div_iff_mul_le (by omega)]; omega
    refine ⟨m', (if_pos hd).trans hm, hpos, hge, hle, by omega, by omega, by omega, by omega, ?_, ?_⟩
    · rw [k5, Nat.le_div_iff_mul_le (by decide)]
      calc 1 * 2 ^ 18 ≤ 1 * (0x80000000 / m'.totalWeight.toNat) := by omega
        _ ≤ _ := Nat.mul_le_mul_right _ hpos
    · rw [k5]
      have : m'.zeroWeight.toNat * (0x80000000 / m'.totalWeight.toNat) < 0x1FFF * 2 ^ 18 + 2 ^ 18 := by
        have e : (m'.zeroWeight.toNat + 1) * (0x80000000 / m'.totalWeight.toNat) ≤ 0x80000000 :=
          (Nat.mul_le_mul_right _ hlt).trans (Nat.mul_div_le _ _)
        rw [Nat.add_mul] at e
        omega
      omega
  · refine ⟨m.count b, if_neg hd, ?_⟩
    have hn : m.tillRescale.toNat - 1 ≠ 0 := by
      rw [← ht]; intro e; exact hd (BitVec.toNat_inj.mp (by simpa using e))
    refine ⟨by omega, by rw [ht0]; omega, by rw [ht0]; omega, by omega, by rw [hu0]; omega, by rw [hu0]; omega, ?_, h8, h9⟩
    rw [ht0, hu0, hz, ht]; omega

/-! ## Frequency tables: weights -/

/-- The sum of a list of weights, as a number. -/
def weightNat (l : List U32) : Nat := (l.map BitVec.toNat).sum

@[simp] theorem weightNat_nil : weightNat [] = 0 := rfl

@[simp] theorem weightNat_cons (w : U32) (l : List U32) : weightNat (w :: l) = w.toNat + weightNat l := by
  simp [weightNat]

theorem FreqModel.weightTotal_eq {n : Nat} (m : FreqModel n) : m.weightTotal = weightNat m.weights.toList := rfl

/-- The sum does not wrap below `2^32`. -/
theorem weightSum_toNat (l : List U32) (h : weightNat l < 2 ^ 32) : (weightSum l).toNat = weightNat l := by
  induction l with
  | nil => rfl
  | cons w t ih =>
    rw [weightNat_cons] at h ⊢
    rw [weightSum, add_toNat (by rw [ih (by omega)]; omega), ih (by omega)]

/-- Every weight is at most the sum. -/
theorem le_weightNat (l : List U32) (i : Nat) (h : i < l.length) : l[i].toNat ≤ weightNat l := by
  induction l generalizing i with
  | nil => simp at h
  | cons w t ih =>
    cases i with
    | zero => simp
    | succ i => have := ih i (by simpa using h); simp; omega

/-- The weights below a symbol sum to at most the weights up to another above it. -/
theorem weightNat_take_lt (l : List U32) (i j : Nat) (hij : i < j) (hj : j ≤ l.length) :
    weightNat (l.take i) + l[i].toNat ≤ weightNat (l.take j) := by
  induction l generalizing i j with
  | nil => simp at hj; omega
  | cons w t ih =>
    cases j with
    | zero => omega
    | succ j =>
      cases i with
      | zero => simp
      | succ i => have := ih i j (by omega) (by simpa using hj); simp; omega

theorem weightNat_take_le (l : List U32) (j : Nat) : weightNat (l.take j) ≤ weightNat l := by
  induction l generalizing j with
  | nil => simp
  | cons w t ih =>
    cases j with
    | zero => simp
    | succ j => have := ih j; simp; omega

theorem weightNat_set (l : List U32) (i : Nat) (x : U32) (h : i < l.length) :
    weightNat (l.set i x) + l[i].toNat = weightNat l + x.toNat := by
  induction l generalizing i with
  | nil => simp at h
  | cons w t ih =>
    cases i with
    | zero => simp; omega
    | succ i => have := ih i (by simpa using h); simp; omega

/-- Halving a list of positive weights: between half the sum and that plus one for each weight. -/
theorem weightNat_halve (l : List U32) (h : weightNat l + 1 < 2 ^ 32) :
    2 * weightNat (l.map fun w : U32 => (w + 1) >>> 1) ≤ weightNat l + l.length ∧
      weightNat l ≤ 2 * weightNat (l.map fun w : U32 => (w + 1) >>> 1) := by
  induction l with
  | nil => simp
  | cons w t ih =>
    rw [weightNat_cons] at h
    obtain ⟨h1, h2⟩ := ih (by omega)
    have h3 : ((w + 1) >>> 1).toNat = (w.toNat + 1) / 2 := halved_toNat (by omega)
    simp only [List.map_cons, weightNat_cons, List.length_cons, h3]
    omega

/-- Positive weights sum to at least their number. -/
theorem length_le_weightNat (l : List U32) (h : ∀ w ∈ l, 1 ≤ w.toNat) : l.length ≤ weightNat l := by
  induction l with
  | nil => simp
  | cons w t ih =>
    have h1 := h w (by simp)
    have h2 := ih fun x hx => h x (by simp [hx])
    simp only [List.length_cons, weightNat_cons]; omega

/-- The cumulative table, entry by entry (rule R141). -/
theorem cumFreqs_getElem (scale cum : U32) (l : List U32) (i : Nat) (h : i < (cumFreqs scale cum l).length) :
    (cumFreqs scale cum l)[i] = ((cum + weightSum (l.take i)) * scale) >>> freqShift := by
  induction l generalizing cum i with
  | nil => simp [cumFreqs] at h
  | cons w t ih =>
    cases i with
    | zero => simp [cumFreqs, weightSum]
    | succ i =>
      simp only [cumFreqs, List.getElem_cons_succ, List.take_succ_cons, weightSum]
      rw [ih, BitVec.add_assoc]

/-! ## Frequency tables: the operations -/

variable {n : Nat}

/-- MS_FREQS in numbers (rule R141): the weights below a symbol, scaled. It changes nothing but the frequencies. -/
theorem FreqModel.rebuildFreqs_spec (m : FreqModel n) (h0 : 1 ≤ m.totWeight.toNat)
    (hs : m.weightTotal ≤ m.totWeight.toNat) :
    ∃ m', m.rebuildFreqs = .ok m' ∧ m' = { m with freqs := m'.freqs } ∧
      ∀ i : Fin n, m'.freqs[i].toNat =
        weightNat (m.weights.toList.take i) * (0x80000000 / m.totWeight.toNat) / 2 ^ 16 := by
  unfold FreqModel.rebuildFreqs
  rw [if_neg (by intro e; rw [e] at h0; exact absurd h0 (by decide))]
  refine ⟨_, rfl, rfl, fun i => ?_⟩
  have hle : weightNat (m.weights.toList.take i) ≤ m.totWeight.toNat :=
    (weightNat_take_le _ _).trans hs
  have hw : (weightSum (m.weights.toList.take i)).toNat = weightNat (m.weights.toList.take i) :=
    weightSum_toNat _ (by omega)
  show ((cumFreqs (0x80000000 / m.totWeight) 0 m.weights.toList)[i.val]'(by simp)).toNat = _
  rw [cumFreqs_getElem, show (0 : U32) + _ = _ from BitVec.zero_add _, freqShift, scaled_toNat 16 (by rw [hw]; exact hle), hw]

/-- MS_HALVE in numbers (rule R140): every weight halved, the total their sum, and the end-weight guard idle (rule R152). -/
theorem FreqModel.halve_spec (m : FreqModel n) (hp : ∀ i : Fin n, 1 ≤ m.weights[i].toNat)
    (hs : m.weightTotal + 1 < 2 ^ 32) :
    m.halve = { m with weights := m.halve.weights, totWeight := m.halve.totWeight } ∧
      (∀ i : Fin n, m.halve.weights[i].toNat = (m.weights[i].toNat + 1) / 2) ∧
      m.halve.totWeight.toNat = m.halve.weightTotal ∧
      2 * m.halve.weightTotal ≤ m.weightTotal + n ∧ m.weightTotal ≤ 2 * m.halve.weightTotal := by
  have hw : ∀ i : Fin n, ((m.weights[i] + 1) >>> 1).toNat = (m.weights[i].toNat + 1) / 2 := fun i => by
    have : m.weights[i].toNat ≤ weightNat m.weights.toList := le_weightNat m.weights.toList i (by simp)
    rw [FreqModel.weightTotal_eq] at hs
    exact halved_toNat (by omega)
  have hg : m.halve = { m with
      weights := Vector.ofFn fun i => (m.weights[i] + 1) >>> 1
      totWeight := weightSum (Vector.ofFn fun i => (m.weights[i] + 1) >>> 1 : Vector U32 n).toList } := by
    unfold FreqModel.halve FreqModel.guardLast
    dsimp only
    split
    · rename_i hn
      rw [if_neg]
      intro e
      have h1 := hw ⟨n - 1, hn⟩
      have h2 := hp ⟨n - 1, hn⟩
      rw [Vector.getElem_ofFn] at e
      rw [show (m.weights[(⟨n - 1, hn⟩ : Fin n)] + 1) >>> 1 = 0 from e] at h1
      have h3 : (0 : U32).toNat = 0 := rfl
      omega
    · rfl
  have hl : (Vector.ofFn fun i : Fin n => (m.weights[i] + 1) >>> 1).toList =
      m.weights.toList.map fun w : U32 => (w + 1) >>> 1 := by
    apply List.ext_getElem <;> simp
  rw [FreqModel.weightTotal_eq] at hs
  obtain ⟨h1, h2⟩ := weightNat_halve m.weights.toList hs
  have hn : n ≤ weightNat m.weights.toList := by
    have := length_le_weightNat m.weights.toList fun w hw => by
      obtain ⟨i, hi, rfl⟩ := List.getElem_of_mem hw
      exact hp ⟨i, by simpa using hi⟩
    simpa using this
  simp only [Vector.length_toList] at h1
  refine ⟨by rw [hg], fun i => by rw [hg]; simpa using hw i, ?_, ?_, ?_⟩ <;>
    rw [hg] <;> simp only [FreqModel.weightTotal_eq, hl]
  · exact weightSum_toNat _ (by omega)
  · exact h1
  · exact h2

/-- `freqs` after MS_FREQS on a table whose total is the sum of its positive weights (rule R144 items 4 and 5). -/
theorem FreqModel.rebuildFreqs_good (m : FreqModel n) (hn : 0 < n) (hp : ∀ i : Fin n, 1 ≤ m.weights[i].toNat)
    (ht : m.totWeight.toNat = m.weightTotal) (hle : m.totWeight.toNat ≤ 0x8000) :
    ∃ m', m.rebuildFreqs = .ok m' ∧ m' = { m with freqs := m'.freqs } ∧
      (∀ i : Fin n, i.val = 0 → m'.freqs[i].toNat = 0) ∧
      (∀ i j : Fin n, i < j → m'.freqs[i].toNat < m'.freqs[j].toNat) ∧
      ∀ i : Fin n, m'.freqs[i].toNat < 0x8000 := by
  have h0 : 1 ≤ m.weightTotal := by
    have h1 := hp ⟨0, hn⟩
    have h2 := le_weightNat m.weights.toList 0 (by simpa using hn)
    rw [FreqModel.weightTotal_eq]
    exact h1.trans h2
  obtain ⟨m', hm, hr, hf⟩ := m.rebuildFreqs_spec (by omega) (by omega)
  have hsc : 2 ^ 16 ≤ 0x80000000 / m.totWeight.toNat := by
    rw [Nat.le_div_iff_mul_le (by omega)]; omega
  refine ⟨m', hm, hr, fun i hi => by rw [hf i, hi]; simp, fun i j hij => ?_, fun i => ?_⟩
  · have h3 := weightNat_take_lt m.weights.toList i.val j.val hij (by simp)
    have h4 : 1 ≤ (m.weights.toList[i.val]'(by simp)).toNat := hp i
    rw [hf i, hf j]
    refine Nat.lt_of_lt_of_le ?_ (Nat.div_le_div_right (Nat.mul_le_mul_right _
      (show weightNat (m.weights.toList.take i) + 1 ≤ _ by omega)))
    rw [Nat.add_mul, Nat.one_mul]
    calc _ < weightNat (m.weights.toList.take i) * (0x80000000 / m.totWeight.toNat) / 2 ^ 16 + 1 := Nat.lt_succ_self _
      _ = (weightNat (m.weights.toList.take i) * (0x80000000 / m.totWeight.toNat) + 2 ^ 16) / 2 ^ 16 := by
        rw [Nat.add_div_right _ (by decide)]
      _ ≤ _ := Nat.div_le_div_right (by omega)
  · have h3 : weightNat (m.weights.toList.take i) < m.totWeight.toNat := by
      have h5 := weightNat_take_lt m.weights.toList i.val n i.isLt (by simp)
      have h4 : 1 ≤ (m.weights.toList[i.val]'(by simp)).toNat := hp i
      have h6 := weightNat_take_le m.weights.toList n
      rw [ht, FreqModel.weightTotal_eq]; omega
    rw [hf i, Nat.div_lt_iff_lt_mul (by decide)]
    calc _ < m.totWeight.toNat * (0x80000000 / m.totWeight.toNat) :=
          Nat.mul_lt_mul_of_pos_right h3 (by omega)
      _ ≤ 0x80000000 := Nat.mul_div_le _ _
      _ = _ := rfl

/-- The first two lines of MS_UPDATE, in numbers. -/
theorem FreqModel.count_spec (m : FreqModel n) (v : Fin n) (h : m.Good) (hn : n ≤ 256) :
    (∀ i : Fin n, (m.count v).weights[i].toNat = m.weights[i].toNat + if i = v then 1 else 0) ∧
      (m.count v).weightTotal = m.weightTotal + 1 ∧ (m.count v).tillRescale.toNat = m.tillRescale.toNat - 1 := by
  have hv : m.weights[v].toNat ≤ m.weightTotal := le_weightNat m.weights.toList v (by simp)
  have hb : m.weightTotal ≤ 0x10000 := by
    have := h.period; have := h.total_le; have := h.upd_le; omega
  have hw : (m.weights[v] + 1).toNat = m.weights[v].toNat + 1 :=
    add_toNat (by have : (1 : U32).toNat = 1 := rfl; omega)
  refine ⟨fun i => ?_, ?_, ?_⟩
  · by_cases hi : i = v
    · subst hi
      rw [if_pos rfl, ← hw]
      simp [FreqModel.count]
    · rw [if_neg hi, Nat.add_zero]
      have hne : v.val ≠ i.val := fun e => hi (Fin.ext e.symm)
      simp [FreqModel.count, hne]
  · have := weightNat_set m.weights.toList v (m.weights[v] + 1) (by simp)
    rw [FreqModel.weightTotal_eq, FreqModel.weightTotal_eq]
    have he : (m.count v).weights.toList = m.weights.toList.set v (m.weights[v] + 1) := by
      simp [FreqModel.count, Vector.toList_set]
    rw [he]
    have hx : (m.weights.toList[v.val]'(by simp)).toNat = m.weights[v].toNat := by simp
    omega
  · have := h.till_pos
    show (m.tillRescale - 1).toNat = _
    bv_omega

/-- The rebuild up to the frequencies, at the end of a period (rules R139, R144). -/
theorem FreqModel.rescale_good (m : FreqModel n) (hn : 0 < n) (hn' : n ≤ 256)
    (hp : ∀ i : Fin n, 1 ≤ m.weights[i].toNat) (ht : m.weightTotal = m.totWeight.toNat + m.updVal.toNat)
    (hle : m.totWeight.toNat ≤ 0x8000) (hu : m.updVal.toNat ≤ 8 * n + 48) :
    ∃ m', m.rescale = .ok m' ∧
      (m' = { m with weights := m'.weights, totWeight := m'.totWeight, freqs := m'.freqs }) ∧
      (∀ i : Fin n, m'.weights[i].toNat =
        if m.totWeight.toNat + m.updVal.toNat ≤ 0x8000 then m.weights[i].toNat else (m.weights[i].toNat + 1) / 2) ∧
      m'.totWeight.toNat = m'.weightTotal ∧ 1 ≤ m'.totWeight.toNat ∧ m'.totWeight.toNat ≤ 0x8000 ∧
      (∀ i : Fin n, i.val = 0 → m'.freqs[i].toNat = 0) ∧
      (∀ i j : Fin n, i < j → m'.freqs[i].toNat < m'.freqs[j].toNat) ∧
      ∀ i : Fin n, m'.freqs[i].toNat < 0x8000 := by
  have hg : m.grow.totWeight.toNat = m.totWeight.toNat + m.updVal.toNat := add_toNat (by omega)
  have hpos : ∀ k : FreqModel n, (∀ i : Fin n, 1 ≤ k.weights[i].toNat) → 1 ≤ k.weightTotal := fun k hk => by
    have h1 := hk ⟨0, hn⟩
    have h2 := le_weightNat k.weights.toList 0 (by simpa using hn)
    exact h1.trans h2
  unfold FreqModel.rescale FreqModel.limit
  by_cases hc : (0x8000 : U32) < m.grow.totWeight
  · have hc' : 0x8000 < m.totWeight.toNat + m.updVal.toNat := by
      rw [← hg]; simpa using BitVec.lt_def.mp hc
    obtain ⟨e1, e2, e3, e4, e5⟩ := m.grow.halve_spec hp (show m.weightTotal + 1 < 2 ^ 32 by omega)
    have e2' : ∀ i : Fin n, m.grow.halve.weights[i].toNat = (m.weights[i].toNat + 1) / 2 := e2
    have hp' : ∀ i : Fin n, 1 ≤ m.grow.halve.weights[i].toNat := fun i => by
      have := hp i; rw [e2' i]; omega
    have e4' : 2 * m.grow.halve.weightTotal ≤ m.weightTotal + n := e4
    obtain ⟨m', hm, hr, hz, hlt, htop⟩ := m.grow.halve.rebuildFreqs_good hn hp' e3 (by omega)
    have hw : m'.weights = m.grow.halve.weights := by rw [hr]
    have htw : m'.totWeight = m.grow.halve.totWeight := by rw [hr]
    have hwt : m'.weightTotal = m.grow.halve.weightTotal := by unfold FreqModel.weightTotal; rw [hw]
    have := hpos _ hp'
    rw [if_pos hc]
    refine ⟨m', hm, ?_, fun i => ?_, by rw [htw, hwt, e3], by rw [htw]; omega, by rw [htw]; omega, hz, hlt, htop⟩
    · rw [hr, e1]; rfl
    · rw [hw, if_neg (by omega)]; exact e2' i
  · have hc' : m.totWeight.toNat + m.updVal.toNat ≤ 0x8000 := by
      rw [← hg]; have := BitVec.lt_def.not.mp hc; simpa using this
    obtain ⟨m', hm, hr, hz, hlt, htop⟩ := m.grow.rebuildFreqs_good hn hp (by rw [hg]; exact ht.symm) (by omega)
    have hw : m'.weights = m.weights := by rw [hr]; rfl
    have htw : m'.totWeight = m.grow.totWeight := by rw [hr]
    have hwt : m'.weightTotal = m.weightTotal := by unfold FreqModel.weightTotal; rw [hw]
    have := hpos _ hp
    rw [if_neg hc]
    refine ⟨m', hm, by rw [hr]; rfl, fun i => by rw [hw, if_pos hc'], by rw [htw, hwt, hg, ht], by rw [htw]; omega,
      by rw [htw]; omega, hz, hlt, htop⟩

/-- The decay and the reload, in numbers (rule R139). -/
theorem FreqModel.decay_spec (m : FreqModel n) (hu : m.updVal.toNat ≤ 0x10000) :
    m.decay.updVal.toNat = min (m.updVal.toNat * 5 / 4) m.maxUpdVal.toNat ∧ m.decay.tillRescale = m.decay.updVal :=
  ⟨decay_toNat _ _ hu, rfl⟩

/-- What the decay of a rescaled table needs to be good. -/
theorem FreqModel.decay_good (m : FreqModel n) (hp : ∀ i : Fin n, 1 ≤ m.weights[i].toNat)
    (ht : m.totWeight.toNat = m.weightTotal) (h1 : 1 ≤ m.totWeight.toNat) (hle : m.totWeight.toNat ≤ 0x8000)
    (hm : m.maxUpdVal.toNat = 8 * n + 48) (hu1 : 1 ≤ m.updVal.toNat) (hu : m.updVal.toNat ≤ 8 * n + 48) (hn : n ≤ 256)
    (hz : ∀ i : Fin n, i.val = 0 → m.freqs[i].toNat = 0)
    (hlt : ∀ i j : Fin n, i < j → m.freqs[i].toNat < m.freqs[j].toNat) (htop : ∀ i : Fin n, m.freqs[i].toNat < 0x8000) :
    m.decay.Good := by
  obtain ⟨hd, hdt⟩ := m.decay_spec (by omega)
  have hdt' : m.decay.tillRescale.toNat = m.decay.updVal.toNat := by rw [hdt]
  refine ⟨hp, h1, hle, hm, by omega, by omega, by omega, ?_, hz, hlt, htop⟩
  show m.weightTotal + m.decay.tillRescale.toNat = m.totWeight.toNat + m.decay.updVal.toNat
  omega

/-- An update succeeds and keeps the invariant (rules R139, R144). -/
theorem FreqModel.update_good (m : FreqModel n) (v : Fin n) (h : m.Good) (hn : n ≤ 256) :
    ∃ m', m.update v = .ok m' ∧ m'.Good := by
  obtain ⟨hw, hs, ht⟩ := m.count_spec v h hn
  have hp : ∀ i : Fin n, 1 ≤ (m.count v).weights[i].toNat := fun i => by
    have := h.weight_pos i; rw [hw i]; omega
  have h1 := h.till_pos; have h2 := h.till_le; have h3 := h.period; have h4 := h.total_le; have h5 := h.upd_le
  unfold FreqModel.update
  by_cases hd : (m.count v).tillRescale = 0
  · have hd' : m.tillRescale.toNat - 1 = 0 := by rw [← ht, hd]; rfl
    obtain ⟨m', hm, hr, hw', e1, e2, e3, e4, e5, e6⟩ := (m.count v).rescale_good v.pos hn hp
      (show _ = m.totWeight.toNat + m.updVal.toNat by omega) h4 h5
    refine ⟨m'.decay, by rw [if_pos hd, hm]; rfl, m'.decay_good (fun i => ?_) e1 e2 e3 ?_ ?_ ?_ hn e4 e5 e6⟩
    · have := hp i; rw [hw' i]; split <;> omega
    · rw [hr]; exact h.max_eq
    · rw [hr]; show 1 ≤ m.updVal.toNat; omega
    · rw [hr]; exact h5
  · refine ⟨m.count v, if_neg hd, hp, h.total_pos, h4, h.max_eq, ?_, ?_, h5, ?_, h.freq_zero, h.freq_lt, h.freq_top⟩
    · rw [ht]
      have : m.tillRescale.toNat - 1 ≠ 0 := by
        rw [← ht]; intro e; exact hd (BitVec.toNat_inj.mp (by simpa using e))
      omega
    · rw [ht]; exact (Nat.sub_le _ _).trans h2
    · rw [ht, hs]; show _ = m.totWeight.toNat + m.updVal.toNat; omega

/-! ## Frequency tables: reset -/

theorem weightNat_replicate (k : Nat) : weightNat (List.replicate k 1) = k := by
  induction k with
  | zero => rfl
  | succ k ih => rw [List.replicate_succ, weightNat_cons, ih]; show 1 + k = k + 1; omega

/-- The table part of MS_RESET (rule R142): the values of rules R143 and R149, whatever the model held. -/
theorem FreqModel.reset_rescale (m : FreqModel n) (hn : 2 ≤ n) (hn' : n ≤ 256) :
    (m.closing.count ⟨n - 1, by omega⟩).tillRescale = 0 ∧
      (m.closing.count ⟨n - 1, by omega⟩).rescale = .ok { FreqModel.initial n with
        updVal := BitVec.ofNat 32 n, maxUpdVal := m.maxUpdVal, tillRescale := 0 } := by
  refine ⟨show (1 : U32) - 1 = 0 by decide, ?_⟩
  have hw : (m.closing.count ⟨n - 1, by omega⟩).weights = Vector.replicate n 1 := by
    apply Vector.ext
    intro i hi
    by_cases h : i = n - 1
    · subst h; simp [FreqModel.count, FreqModel.closing]
    · have h' : n - 1 ≠ i := fun e => h e.symm
      simp [FreqModel.count, FreqModel.closing, h, h']
  have hnn : (BitVec.ofNat 32 n).toNat = n := by rw [BitVec.toNat_ofNat]; exact Nat.mod_eq_of_lt (by omega)
  have htw : (m.closing.count ⟨n - 1, by omega⟩).grow.totWeight = BitVec.ofNat 32 n := by
    show (0 : U32) + BitVec.ofNat 32 n = _
    exact BitVec.zero_add _
  unfold FreqModel.rescale FreqModel.limit
  rw [if_neg (by rw [htw, BitVec.lt_def, hnn]; show ¬ 0x8000 < n; omega)]
  have hgw : (m.closing.count ⟨n - 1, by omega⟩).grow.weights.toList = List.replicate n 1 := by
    show (m.closing.count ⟨n - 1, by omega⟩).weights.toList = _
    rw [hw]; simp
  obtain ⟨m', hm, hr, hf⟩ := (m.closing.count ⟨n - 1, by omega⟩).grow.rebuildFreqs_spec (by rw [htw, hnn]; omega)
    (by rw [htw, hnn, FreqModel.weightTotal_eq, hgw, weightNat_replicate])
  rw [hm, hr]
  have hfq : m'.freqs = (FreqModel.initial n).freqs := by
    apply Vector.ext
    intro i hi
    have h1 := hf ⟨i, hi⟩
    have h2 : weightNat (List.take i (List.replicate n (1 : U32))) = i := by
      rw [List.take_replicate, weightNat_replicate]; omega
    rw [← BitVec.toNat_inj]
    simp only [Fin.getElem_fin] at h1
    rw [h1, hgw, h2, htw, hnn]
    simp only [FreqModel.initial, Vector.getElem_ofFn, BitVec.toNat_ofNat, Nat.shiftRight_eq_div_pow]
    refine (Nat.mod_eq_of_lt ?_).symm
    calc i * (0x80000000 / n) / 2 ^ 16 ≤ i * (0x80000000 / n) := Nat.div_le_self _ _
      _ ≤ n * (0x80000000 / n) := Nat.mul_le_mul_right _ (by omega)
      _ ≤ 0x80000000 := Nat.mul_div_le _ _
      _ < 2 ^ 32 := by decide
  have hgw' : (m.closing.count ⟨n - 1, by omega⟩).grow.weights = Vector.replicate n 1 := hw
  have hts : (m.closing.count ⟨n - 1, by omega⟩).grow.tillRescale = 0 := show (1 : U32) - 1 = 0 by decide
  rw [hfq, hgw', htw, hts]
  rfl

/-- MS_RESET writes the values of rule R143, and leaves `max_upd_val` (rule R142). -/
theorem FreqModel.reset_eq (m : FreqModel n) (hn : 2 ≤ n) (hn' : n ≤ 256) :
    m.reset = .ok { FreqModel.initial n with maxUpdVal := m.maxUpdVal } := by
  obtain ⟨h1, h2⟩ := m.reset_rescale hn hn'
  unfold FreqModel.reset
  rw [dif_pos (by omega)]
  unfold FreqModel.update
  rw [if_pos h1, h2]
  rfl

/-- MS_CONSTRUCT writes the values of rule R143 (rule R138). -/
theorem FreqModel.construct_eq (m : FreqModel n) (hn : 2 ≤ n) (hn' : n ≤ 256) :
    m.construct = .ok (FreqModel.initial n) := by
  unfold FreqModel.construct
  rw [FreqModel.reset_eq _ hn hn']
  rfl

/-- The reset table is good (rule R144). -/
theorem FreqModel.initial_good (hn : 2 ≤ n) (hn' : n ≤ 256) : (FreqModel.initial n).Good := by
  have hnn : (BitVec.ofNat 32 n).toNat = n := by rw [BitVec.toNat_ofNat]; exact Nat.mod_eq_of_lt (by omega)
  have hp : ∀ i : Fin n, 1 ≤ (FreqModel.initial n).weights[i].toNat := fun i => by simp [FreqModel.initial]
  have hs : (FreqModel.initial n).weightTotal = n := by
    rw [FreqModel.weightTotal_eq]
    show weightNat (Vector.replicate n (1 : U32)).toList = n
    rw [Vector.toList_replicate, weightNat_replicate]
  have hm : (BitVec.ofNat 32 (8 * n + 48)).toNat = 8 * n + 48 := by
    rw [BitVec.toNat_ofNat]; exact Nat.mod_eq_of_lt (by omega)
  have hu : (BitVec.ofNat 32 ((n + 6) / 2)).toNat = (n + 6) / 2 := by
    rw [BitVec.toNat_ofNat]; exact Nat.mod_eq_of_lt (by omega)
  -- the frequencies are those a rebuild of this table gives
  let m : FreqModel n := { FreqModel.initial n with updVal := BitVec.ofNat 32 n, tillRescale := 0 }
  obtain ⟨h1, h2⟩ := (FreqModel.initial n).reset_rescale hn hn'
  obtain ⟨m', h3, -, -, -, -, -, hz, hlt, htop⟩ := ((FreqModel.initial n).closing.count ⟨n - 1, by omega⟩).rescale_good
    (by omega) hn' (fun i => by
      by_cases h : i.val = n - 1
      · have : n - 1 = i.val := h.symm
        simp [FreqModel.count, FreqModel.closing, this]
      · have : n - 1 ≠ i.val := fun e => h e.symm
        simp [FreqModel.count, FreqModel.closing, h, this])
    (by
      have hw : ((FreqModel.initial n).closing.count ⟨n - 1, by omega⟩).weights = Vector.replicate n 1 := by
        apply Vector.ext
        intro i hi
        by_cases h : i = n - 1
        · subst h; simp [FreqModel.count, FreqModel.closing]
        · have h' : n - 1 ≠ i := fun e => h e.symm
          simp [FreqModel.count, FreqModel.closing, h, h']
      rw [FreqModel.weightTotal_eq, hw]
      show weightNat _ = (0 : U32).toNat + (BitVec.ofNat 32 n).toNat
      rw [hnn, Vector.toList_replicate, weightNat_replicate]
      simp)
    (show (0 : U32).toNat ≤ 0x8000 by decide) (show (BitVec.ofNat 32 n).toNat ≤ _ by omega)
  rw [h2] at h3
  cases h3
  refine ⟨hp, ?_, ?_, hm, ?_, ?_, ?_, ?_, hz, hlt, htop⟩
  · show 1 ≤ (BitVec.ofNat 32 n).toNat; omega
  · show (BitVec.ofNat 32 n).toNat ≤ _; omega
  · show 1 ≤ (BitVec.ofNat 32 ((n + 6) / 2)).toNat; omega
  · exact le_refl _
  · show (BitVec.ofNat 32 ((n + 6) / 2)).toNat ≤ _; omega
  · rw [hs]
    show n + (BitVec.ofNat 32 ((n + 6) / 2)).toNat = (BitVec.ofNat 32 n).toNat + (BitVec.ofNat 32 ((n + 6) / 2)).toNat
    omega

/-! ## Byte model -/

/-- Entry `p` of the loop of MB_SECONDARY: one below the first symbol whose frequency reaches bucket `p` (rule R147). -/
theorem secondaryFrom_getElem? (l : List U32) (i s p : Nat) (h : s ≤ p) :
    (secondaryFrom l i s)[p - s]? =
      (l.findIdx? fun f : U32 => decide (p ≤ (f >>> bucketShift).toNat)).map fun j => i + j - 1 := by
  induction l generalizing i s with
  | nil => simp [secondaryFrom]
  | cons f t ih =>
    simp only [secondaryFrom, List.findIdx?_cons]
    generalize (f >>> bucketShift).toNat = a
    by_cases hf : p ≤ a
    · rw [List.getElem?_append_left (by rw [List.length_replicate]; omega), List.getElem?_replicate, if_pos (by omega),
        if_pos (by simpa using hf)]
      rfl
    · rw [List.getElem?_append_right (by rw [List.length_replicate]; omega), List.length_replicate,
        show p - s - (a + 1 - s) = p - max s (a + 1) by omega, ih (i + 1) (max s (a + 1)) (by omega),
        if_neg (by simpa using hf), Option.map_map]
      congr 1
      funext j
      simp only [Function.comp]
      omega

/-- MB_SECONDARY on a strictly rising table (rule R147): it succeeds, changes the index alone, and every entry is the
highest symbol whose interval starts below its bucket. -/
theorem ByteModel.rebuildSecondary_spec (m : ByteModel)
    (hz : ∀ i : Fin 256, i.val = 0 → m.base.freqs[i].toNat = 0)
    (hlt : ∀ i j : Fin 256, i < j → m.base.freqs[i].toNat < m.base.freqs[j].toNat)
    (htop : ∀ i : Fin 256, m.base.freqs[i].toNat < 0x8000) :
    ∃ m', m.rebuildSecondary = .ok m' ∧ m' = { m with secondary := m'.secondary } ∧ m'.secondary[0] = 0 ∧
      ∀ s : Fin 66, 0 < s.val → IsBucket m.base.freqs s.val m'.secondary[s] := by
  have hget : ∀ (j : Nat) (hj : j < m.base.freqs.toList.length), m.base.freqs.toList[j] =
      m.base.freqs[(⟨j, by simpa using hj⟩ : Fin 256)] := fun j hj => by simp
  have hall : ∀ f ∈ m.base.freqs.toList, f.toNat < 0x8000 := fun f hf => by
    obtain ⟨j, hj, rfl⟩ := List.getElem_of_mem hf
    rw [hget j hj]; exact htop _
  have hmono : ∀ i j : Fin 256, i ≤ j → m.base.freqs[i].toNat ≤ m.base.freqs[j].toNat := fun i j h => by
    rcases Nat.lt_or_eq_of_le h with h | h
    · exact Nat.le_of_lt (hlt i j h)
    · rw [Fin.ext h]
  have hbk : ∀ (f : U32) (p : Nat), p ≤ (f >>> bucketShift).toNat ↔ 512 * p ≤ f.toNat := fun f p => by
    rw [bucketShift, shr_toNat, Nat.le_div_iff_mul_le (by decide)]; omega
  unfold ByteModel.rebuildSecondary
  dsimp only
  rw [if_pos]
  · refine ⟨_, rfl, rfl, rfl, fun s hs => ?_⟩
    have hlist : ∀ e : Fin 256, (secondaryList m.base.freqs.toList)[s.val]? = some e →
        (Vector.mk ⟨secondaryList m.base.freqs.toList⟩ (by simp [secondaryList_length]) : Vector (Fin 256) 66)[s] = e := by
      intro e he
      obtain ⟨_, h⟩ := List.getElem?_eq_some_iff.mp he
      exact h
    have hidx : (secondaryList m.base.freqs.toList)[s.val]? =
        ((secondaryFrom m.base.freqs.toList 0 1 ++ List.replicate 66 255)[s.val - 1]?).map (Fin.ofNat 256) := by
      unfold secondaryList
      rw [List.getElem?_map, List.getElem?_take_of_lt s.isLt, List.cons_append, List.getElem?_cons, if_neg (by omega)]
    have hsec := secondaryFrom_getElem? m.base.freqs.toList 0 1 s.val hs
    cases hj : m.base.freqs.toList.findIdx? fun f : U32 => decide (s.val ≤ (f >>> bucketShift).toNat) with
    | some j =>
      rw [hj] at hsec
      obtain ⟨hj1, hj2, hj3⟩ := List.findIdx?_eq_some_iff_getElem.mp hj
      have hj4 : j < 256 := by simpa using hj1
      rw [decide_eq_true_eq, hbk, hget j hj1] at hj2
      have hj5 : 0 < j := by
        rcases Nat.eq_zero_or_pos j with e | e
        · have := hz ⟨j, hj4⟩ e; omega
        · exact e
      have hj6 : ∀ k (hk : k < j), m.base.freqs[(⟨k, by omega⟩ : Fin 256)].toNat < 512 * s.val := fun k hk => by
        have := hj3 k hk
        rw [Bool.not_eq_true, decide_eq_false_iff_not, hbk, hget k (by simp; omega)] at this
        omega
      rw [hlist ⟨j - 1, by omega⟩ ?_]
      · refine ⟨hj6 (j - 1) (by omega), fun k hk => ?_⟩
        by_contra hc
        have h1 : (⟨j, hj4⟩ : Fin 256) ≤ k := by
          rw [Fin.le_def] at hc ⊢; simp only at hc ⊢; omega
        have := hmono _ _ h1
        omega
      · rw [hidx, List.getElem?_append_left, hsec]
        · simp only [Option.map_some, Option.some.injEq, Nat.zero_add]
          apply Fin.ext; simp [Fin.ofNat]; omega
        · exact (List.getElem?_eq_some_iff.mp hsec).1
    | none =>
      rw [hj] at hsec
      have hlen : (secondaryFrom m.base.freqs.toList 0 1).length ≤ s.val - 1 := by
        simpa using hsec
      have hn := List.findIdx?_eq_none_iff.mp hj
      rw [hlist 255 ?_]
      · refine ⟨?_, fun k _ => Fin.le_last k⟩
        have := hn _ (List.getElem_mem (l := m.base.freqs.toList) (n := 255) (by simp))
        rw [decide_eq_false_iff_not, hbk, hget 255 (by simp)] at this
        have e : (⟨255, by simp⟩ : Fin 256) = 255 := rfl
        rw [e] at this
        omega
      · rw [hidx, List.getElem?_append_right hlen, List.getElem?_replicate, if_pos (by have := s.isLt; omega)]
        rfl
  · simp only [Bool.and_eq_true, List.all_eq_true, decide_eq_true_eq]
    constructor
    · intro f hf
      have := hall f hf
      rw [BitVec.le_def, bucketShift, shr_toNat]
      show _ ≤ 65
      omega
    · intro f hf
      have h0 : m.base.freqs.toList.take 1 = [m.base.freqs[(0 : Fin 256)]] := by
        apply List.ext_getElem
        · simp
        · intro i h1 h2
          simp only [List.length_singleton] at h2
          have : i = 0 := by omega
          subst this
          simp
      rw [h0, List.mem_singleton] at hf
      subst hf
      have := hz 0 rfl
      rw [← BitVec.toNat_inj, bucketShift, shr_toNat, this]; rfl

/-- The index of rule R147 is determined by the table. -/
theorem isBucket_unique {freqs : Vector U32 256} {s : Nat} {a b : Fin 256} (ha : IsBucket freqs s a)
    (hb : IsBucket freqs s b) : a = b :=
  Fin.le_antisymm (hb.2 a ha.1) (ha.2 b hb.1)

/-- An update succeeds and keeps the invariant (rules R146, R150). -/
theorem ByteModel.update_good (m : ByteModel) (v : Fin 256) (h : m.Good) : ∃ m', m.update v = .ok m' ∧ m'.Good := by
  obtain ⟨hw, hs, ht⟩ := m.base.count_spec v h.base (le_refl _)
  have hp : ∀ i : Fin 256, 1 ≤ (m.base.count v).weights[i].toNat := fun i => by
    have := h.base.weight_pos i; rw [hw i]; omega
  have h1 := h.base.till_pos; have h2 := h.base.till_le; have h3 := h.base.period; have h4 := h.base.total_le
  have h5 := h.base.upd_le
  unfold ByteModel.update
  dsimp only
  by_cases hd : (m.base.count v).tillRescale = 0
  · have hd' : m.base.tillRescale.toNat - 1 = 0 := by rw [← ht, hd]; rfl
    obtain ⟨b, hb, hr, hw', e1, e2, e3, e4, e5, e6⟩ := (m.base.count v).rescale_good v.pos (le_refl _) hp
      (show _ = m.base.totWeight.toNat + m.base.updVal.toNat by omega) h4 h5
    obtain ⟨m', hm', hr', hf', hbk⟩ := ByteModel.rebuildSecondary_spec { m with base := b } e4 e5 e6
    have hbase : m'.base = b := by rw [hr']
    refine ⟨{ m' with base := m'.base.decay }, by rw [if_pos hd, hb]; simp only [Except.bind, hm']; rfl, ?_, hf', ?_⟩
    · show m'.base.decay.Good
      rw [hbase]
      refine b.decay_good (fun i => ?_) e1 e2 e3 ?_ ?_ ?_ (le_refl _) e4 e5 e6
      · have := hp i; rw [hw' i]; split <;> omega
      · rw [hr]; exact h.base.max_eq
      · rw [hr]; show 1 ≤ m.base.updVal.toNat; omega
      · rw [hr]; exact h5
    · intro s hs
      show IsBucket m'.base.freqs s.val m'.secondary[s]
      rw [hbase]
      exact hbk s hs
  · refine ⟨{ m with base := m.base.count v }, if_neg hd, ?_, h.first, h.bucket⟩
    obtain ⟨k, hk, hg⟩ := m.base.update_good v h.base (le_refl _)
    unfold FreqModel.update at hk
    rw [if_neg hd] at hk
    cases hk
    exact hg

/-- The index of the reset table (rule R149). -/
theorem ByteModel.initial_bucket (s : Fin 66) (hs : 0 < s.val) :
    IsBucket (FreqModel.initial 256).freqs s.val ByteModel.initial.secondary[s] := by
  have hf : ∀ i : Fin 256, (FreqModel.initial 256).freqs[i].toNat = 128 * i.val := fun i => by
    simp only [FreqModel.initial, Fin.getElem_fin, Vector.getElem_ofFn, BitVec.toNat_ofNat, Nat.shiftRight_eq_div_pow]
    have := i.isLt
    omega
  have hsec : ByteModel.initial.secondary[s] = if s.val ≤ 63 then Fin.ofNat 256 (4 * s.val - 1) else 255 := by
    simp [ByteModel.initial]
  have hv : ByteModel.initial.secondary[s].val = if s.val ≤ 63 then 4 * s.val - 1 else 255 := by
    rw [hsec]; split
    · simp only [Fin.ofNat]; omega
    · rfl
  have hlt := s.isLt
  refine ⟨?_, fun k hk => ?_⟩
  · rw [hf, hv]; split <;> omega
  · rw [hf] at hk
    rw [Fin.le_def, hv]
    have := k.isLt
    split <;> omega

/-- The reset Byte model is good (rules R149, R150). -/
theorem ByteModel.initial_good : ByteModel.initial.Good :=
  ⟨FreqModel.initial_good (by decide) (le_refl _), rfl, ByteModel.initial_bucket⟩

/-- MB_RESET writes the values of rule R149, and leaves `max_upd_val` (rule R148). -/
theorem ByteModel.reset_eq (m : ByteModel) :
    m.reset = .ok { ByteModel.initial with base := { FreqModel.initial 256 with maxUpdVal := m.base.maxUpdVal } } := by
  obtain ⟨h1, h2⟩ := m.base.reset_rescale (by decide) (le_refl _)
  have hg := FreqModel.initial_good (n := 256) (by decide) (le_refl _)
  obtain ⟨m', hm', hr', hf', hbk⟩ := ByteModel.rebuildSecondary_spec
    { base := { FreqModel.initial 256 with
        updVal := BitVec.ofNat 32 256, maxUpdVal := m.base.maxUpdVal, tillRescale := 0 }, secondary := m.secondary }
    hg.freq_zero hg.freq_lt hg.freq_top
  have hsec : m'.secondary = ByteModel.initial.secondary := by
    apply Vector.ext
    intro i hi
    by_cases h0 : i = 0
    · subst h0; exact hf'
    · exact isBucket_unique (hbk ⟨i, hi⟩ (Nat.pos_of_ne_zero h0)) (ByteModel.initial_bucket ⟨i, hi⟩ (Nat.pos_of_ne_zero h0))
  unfold ByteModel.reset ByteModel.update
  dsimp only
  rw [show (255 : Fin 256) = ⟨256 - 1, by decide⟩ from rfl, if_pos h1, h2, ok_bind, hm', hr', hsec]
  rfl

/-- MB_CONSTRUCT writes the values of rule R149 (rule R145). -/
theorem ByteModel.construct_eq (m : ByteModel) : m.construct = .ok ByteModel.initial := by
  unfold ByteModel.construct
  rw [ByteModel.reset_eq]
  rfl

end Sys2Proof.Machine
end

