-- ==== Sys2Proof/Laws/RangeDecoder.lean ====
section
/-! SUPPORT. What the RangeDecoder's operations do, in numbers: each of them succeeds on good registers and leaves good ones
(rules R116 to R134). -/

namespace Sys2Proof.Machine

variable {pay : List Byte} {pol : ExhaustPolicy}

/-- How far `RD.low` may exceed `RD.range` (rule R126). -/
def RangeDecoder.Excess (rd : RangeDecoder) : Prop :=
  ∃ e : Fin 8, rd.low.toNat ≤ rd.range.toNat + e.val ∧ (rd.range.toNat + 1) * 2 ^ e.val ≤ 0x100000000

theorem excess_of_le {rd : RangeDecoder} (h : rd.low.toNat ≤ rd.range.toNat) : rd.Excess :=
  ⟨0, by simpa using h, by have := rd.range.isLt; simp; omega⟩

/-- `RD.low <= RD.range + 7` (rule R126). -/
theorem RangeDecoder.Good.low_le {rd : RangeDecoder} (h : rd.Good pay) : rd.low.toNat ≤ rd.range.toNat + 7 := by
  obtain ⟨e, he, -⟩ := h.excess
  have := e.isLt
  omega

/-! ## Renormalisation -/

/-- A read of the payload inside it (rule R71). -/
theorem payloadByte_ok {i : Nat} (h : i < pay.length) : payloadByte pay i = .ok pay[i] := by
  unfold payloadByte
  rw [List.getElem?_eq_getElem h]

/-- One NORMALISE iteration (rule R117): it succeeds, the range moves up by a byte, the cursor stays inside the payload,
and `RD.low <= RD.range` afterwards. -/
theorem RangeDecoder.normStep_spec (rd : RangeDecoder) (hs : rd.stop = pay.length) (hc : rd.cur ≤ rd.stop)
    (h1 : 1 ≤ rd.range.toNat) (h2 : rd.range.toNat < 0x1000000) :
    ∃ t, rd.normStep pol pay = .ok t ∧ t.range.toNat = rd.range.toNat * 256 ∧ t.stop = rd.stop ∧ t.cur ≤ t.stop ∧
      t.low.toNat ≤ t.range.toNat := by
  have hr : (rd.range <<< 8).toNat = rd.range.toNat * 256 := by
    rw [BitVec.toNat_shiftLeft, Nat.shiftLeft_eq]; exact Nat.mod_eq_of_lt (by omega)
  have fin : ∀ u : RangeDecoder, u.range = rd.range <<< 8 → u.stop = rd.stop → u.cur ≤ u.stop →
      ∃ t, (Except.ok u : Res RangeDecoder).map (fun rd => if rd.range < rd.low then rd.substitute else rd) = .ok t ∧
        t.range.toNat = rd.range.toNat * 256 ∧ t.stop = rd.stop ∧ t.cur ≤ t.stop ∧ t.low.toNat ≤ t.range.toNat := by
    intro u hu1 hu2 hu3
    by_cases h : u.range < u.low
    · refine ⟨u.substitute, by simp [Except.map, h], by rw [← hr, ← hu1]; rfl, hu2, hu3, ?_⟩
      show (1 : U32).toNat ≤ u.range.toNat
      rw [hu1, hr]
      show 1 ≤ _
      omega
    · exact ⟨u, by simp [Except.map, h], by rw [hu1, hr], hu2, hu3, by simpa [BitVec.lt_def] using h⟩
  unfold RangeDecoder.normStep RangeDecoder.refill
  dsimp only
  by_cases hlt : rd.cur < rd.stop
  · rw [if_pos hlt, payloadByte_ok (by omega), ok_map]
    exact fin _ rfl rfl (by show rd.cur + 1 ≤ rd.stop; omega)
  · rw [if_neg hlt]
    by_cases hp : pol = .always ∨ rd.low <<< 8 = 0
    · rw [if_pos hp]; exact fin _ rfl rfl hc
    · rw [if_neg hp]; exact fin _ rfl rfl hc

/-- NORMALISE ends with good registers when enough iterations are left. -/
theorem RangeDecoder.normLoop_good (n : Nat) (rd : RangeDecoder) (hs : rd.stop = pay.length) (hc : rd.cur ≤ rd.stop)
    (hr : 0x1000000 ≤ rd.range.toNat * 256 ^ n) (he : 0x1000000 ≤ rd.range.toNat → rd.Excess) :
    ∃ t, rd.normLoop pol pay n = .ok t ∧ t.Good pay := by
  have hb : racBottom.toNat = 0x1000000 := rfl
  induction n generalizing rd with
  | zero =>
    have hr' : 0x1000000 ≤ rd.range.toNat := by simpa using hr
    exact ⟨rd, by rw [RangeDecoder.normLoop, if_neg (by rw [BitVec.lt_def, hb]; omega)], hs, hc, hr', he hr'⟩
  | succ n ih =>
    rw [RangeDecoder.normLoop]
    by_cases h : rd.range < racBottom
    · rw [if_pos h]
      rw [BitVec.lt_def, hb] at h
      have h1 : 1 ≤ rd.range.toNat := by
        rcases Nat.eq_zero_or_pos rd.range.toNat with e | e
        · rw [e] at hr; omega
        · exact e
      obtain ⟨t, ht, k1, k2, k3, k4⟩ := rd.normStep_spec (pol := pol) hs hc h1 h
      rw [ht, ok_bind]
      exact ih t (by rw [k2, hs]) k3 (by rw [k1, Nat.mul_assoc, ← Nat.pow_succ']; exact hr) fun _ => excess_of_le k4
    · rw [if_neg h]
      have hr' : 0x1000000 ≤ rd.range.toNat := by rw [BitVec.lt_def, hb] at h; omega
      exact ⟨rd, rfl, hs, hc, hr', he hr'⟩

/-- NORMALISE, and so the last interval step of a primitive, ends with good registers unless the range is 0 (rules R116 to
R118). -/
theorem RangeDecoder.renorm_good (rd : RangeDecoder) (hs : rd.stop = pay.length) (hc : rd.cur ≤ rd.stop)
    (h1 : 1 ≤ rd.range.toNat) (he : 0x1000000 ≤ rd.range.toNat → rd.Excess) : ∃ t, rd.renorm pol pay = .ok t ∧ t.Good pay := by
  unfold RangeDecoder.renorm
  by_cases h : rd.range < racBottom
  · rw [if_pos h]
    exact rd.normLoop_good 3 hs hc (by omega) he
  · rw [if_neg h]
    have hb : racBottom.toNat = 0x1000000 := rfl
    rw [BitVec.lt_def, hb] at h
    exact ⟨rd, rfl, hs, hc, by omega, he (by omega)⟩

/-- Outside the renormalisation condition, NORMALISE does nothing (rule R116). -/
theorem RangeDecoder.normalise_of_ge (rd : RangeDecoder) (h : 0x1000000 ≤ rd.range.toNat) :
    rd.normalise pol pay = .ok rd := by
  unfold RangeDecoder.normalise RangeDecoder.normLoop
  rw [if_neg (by rw [BitVec.lt_def]; show ¬ _ < 0x1000000; omega)]

/-- The last interval step of a primitive is NORMALISE (rule R116). -/
theorem RangeDecoder.renorm_eq_normalise (rd : RangeDecoder) : rd.renorm pol pay = rd.normalise pol pay := by
  unfold RangeDecoder.renorm
  by_cases h : rd.range < racBottom
  · rw [if_pos h]
  · rw [if_neg h, RangeDecoder.normalise_of_ge]
    rw [BitVec.lt_def] at h
    have : racBottom.toNat = 0x1000000 := rfl
    omega

/-- Whatever the registers were, a renormalisation that ends leaves the range at RAC_BOTTOM or more (rule R127). -/
theorem RangeDecoder.normLoop_range (n : Nat) (rd t : RangeDecoder) (h : rd.normLoop pol pay n = .ok t) :
    0x1000000 ≤ t.range.toNat := by
  have hb : racBottom.toNat = 0x1000000 := rfl
  induction n generalizing rd with
  | zero =>
    rw [RangeDecoder.normLoop] at h
    split at h
    · cases h
    · cases h; rename_i h; rw [BitVec.lt_def, hb] at h; omega
  | succ n ih =>
    rw [RangeDecoder.normLoop] at h
    split at h
    · obtain ⟨u, -, hu⟩ := bind_eq_ok h
      exact ih u hu
    · cases h; rename_i h; rw [BitVec.lt_def, hb] at h; omega

theorem RangeDecoder.renorm_range (rd t : RangeDecoder) (h : rd.renorm pol pay = .ok t) : 0x1000000 ≤ t.range.toNat := by
  rw [RangeDecoder.renorm_eq_normalise] at h
  exact RangeDecoder.normLoop_range 3 rd t h

/-! ## Construction -/

/-- RD_INIT succeeds, and its registers are good (rules R115, R126, R127). -/
theorem RangeDecoder.init_good (pay : List Byte) : ∃ rd, RangeDecoder.init pay = .ok rd ∧ rd.Good pay := by
  unfold RangeDecoder.init
  dsimp only
  obtain ⟨t, ht, h1, h2⟩ := forRange_ok (fun k (rd : RangeDecoder) => rd.stop = pay.length ∧ rd.cur = k)
    (fun _ rd => RangeDecoder.shiftIn pay rd) (min pay.length 4)
    { range := 0, low := 0, cur := 0, stop := pay.length, err := false }
    (fun k rd hk hp => by
      unfold RangeDecoder.shiftIn
      rw [payloadByte_ok (by omega), ok_map]
      exact ⟨_, rfl, hp.1, by show rd.cur + 1 = k + 1; omega⟩) ⟨rfl, rfl⟩
  rw [ht, ok_map]
  refine ⟨_, rfl, h1, ?_, ?_, excess_of_le ?_⟩
  · show t.cur ≤ t.stop; omega
  · show _ ≤ (0xFFFFFFFF : U32).toNat; decide
  · show t.low.toNat ≤ (0xFFFFFFFF : U32).toNat
    have := t.low.isLt
    have : (0xFFFFFFFF : U32).toNat = 2 ^ 32 - 1 := rfl
    omega

/-! ## Raw bits -/

/-- GET_BIT succeeds and keeps the registers good (rules R119, R126, R127). -/
theorem RangeDecoder.getBit_good (rd : RangeDecoder) (h : rd.Good pay) :
    ∃ t, rd.halveRange.2.renorm pol pay = .ok t ∧ rd.getBit pol pay = .ok (rd.halveRange.1, t) ∧ t.Good pay := by
  have hr : (rd.range >>> 1).toNat = rd.range.toNat / 2 := shr_toNat _ _
  have hge := h.range_ge
  obtain ⟨e, he1, he2⟩ := h.excess
  have hg : ∃ t, rd.halveRange.2.renorm pol pay = .ok t ∧ t.Good pay := by
    unfold RangeDecoder.halveRange
    dsimp only
    by_cases hc : rd.range >>> 1 ≤ rd.low
    · rw [if_pos hc]
      have hle : rd.range.toNat / 2 ≤ rd.low.toNat := by rw [BitVec.le_def, hr] at hc; exact hc
      have hl : (rd.low - rd.range >>> 1).toNat = rd.low.toNat - rd.range.toNat / 2 := by
        rw [BitVec.toNat_sub_of_le hc, hr]
      refine RangeDecoder.renorm_good _ h.stop_eq h.cur_le (by show 1 ≤ (rd.range >>> 1).toNat; omega) fun hbig => ?_
      have hbig : 0x1000000 ≤ (rd.range >>> 1).toNat := hbig
      have hlt : e.val < 8 := e.isLt
      rcases Nat.mod_two_eq_zero_or_one rd.range.toNat with hm | hm
      · refine ⟨e, ?_, ?_⟩
        · show (rd.low - rd.range >>> 1).toNat ≤ (rd.range >>> 1).toNat + e.val
          rw [hl, hr]; omega
        · show ((rd.range >>> 1).toNat + 1) * 2 ^ e.val ≤ _
          rw [hr]; exact (Nat.mul_le_mul_right _ (by omega)).trans he2
      · have h7 : e.val < 7 := by
          rcases Nat.lt_or_ge e.val 7 with h | h
          · exact h
          · have : e.val = 7 := by omega
            rw [this] at he2; omega
        refine ⟨⟨e.val + 1, by omega⟩, ?_, ?_⟩
        · show (rd.low - rd.range >>> 1).toNat ≤ (rd.range >>> 1).toNat + (e.val + 1)
          rw [hl, hr]; omega
        · show ((rd.range >>> 1).toNat + 1) * 2 ^ (e.val + 1) ≤ _
          rw [hr, Nat.pow_succ', ← Nat.mul_assoc]
          exact (Nat.mul_le_mul_right _ (by omega)).trans he2
    · rw [if_neg hc]
      refine RangeDecoder.renorm_good _ h.stop_eq h.cur_le (by show 1 ≤ (rd.range >>> 1).toNat; omega) (fun _ => excess_of_le ?_)
      rw [BitVec.le_def] at hc
      exact Nat.le_of_lt (Nat.lt_of_not_le hc)
  obtain ⟨t, ht, hg⟩ := hg
  exact ⟨t, ht, by unfold RangeDecoder.getBit; rw [ht]; rfl, hg⟩

/-- GET_BITS(n) succeeds, keeps the registers good, and its value is at most `2^n + 16` (rules R121, R122, R126, R127). -/
theorem RangeDecoder.getBits_good (rd : RangeDecoder) (h : rd.Good pay) (n : Nat) (hn : n ≤ 14) :
    ∃ t, RangeDecoder.renorm pol pay { rd with range := rd.range >>> n, low := rd.low - (rd.range >>> n) * (rd.low / (rd.range >>> n)) } = .ok t ∧
      rd.getBits pol pay n = .ok (rd.low / (rd.range >>> n), t) ∧ t.Good pay ∧
      (rd.low / (rd.range >>> n)).toNat ≤ 2 ^ n + 16 := by
  have hr : (rd.range >>> n).toNat = rd.range.toNat / 2 ^ n := shr_toNat _ _
  have hge := h.range_ge
  have hlow := h.low_le
  have hp : 0 < 2 ^ n := Nat.pos_of_ne_zero (by positivity)
  have hpn : 2 ^ n ≤ 2 ^ 14 := Nat.pow_le_pow_right (by decide) hn
  have hbig : 1024 ≤ rd.range.toNat / 2 ^ n := by
    rw [Nat.le_div_iff_mul_le hp]; omega
  have hv : (rd.low / (rd.range >>> n)).toNat = rd.low.toNat / (rd.range.toNat / 2 ^ n) := by
    rw [BitVec.toNat_udiv, hr]
  have hmul : ((rd.range >>> n) * (rd.low / (rd.range >>> n))).toNat =
      rd.range.toNat / 2 ^ n * (rd.low.toNat / (rd.range.toNat / 2 ^ n)) := by
    rw [mul_toNat, hr, hv]
    rw [hr, hv]
    exact Nat.lt_of_le_of_lt (Nat.mul_div_le _ _) rd.low.isLt
  have hsub : (rd.low - (rd.range >>> n) * (rd.low / (rd.range >>> n))).toNat =
      rd.low.toNat % (rd.range.toNat / 2 ^ n) := by
    rw [BitVec.toNat_sub_of_le (by rw [BitVec.le_def, hmul]; exact Nat.mul_div_le _ _), hmul]
    have := Nat.div_add_mod rd.low.toNat (rd.range.toNat / 2 ^ n)
    omega
  obtain ⟨t, ht, hg⟩ := RangeDecoder.renorm_good (pol := pol) (pay := pay)
    { rd with range := rd.range >>> n, low := rd.low - (rd.range >>> n) * (rd.low / (rd.range >>> n)) }
    h.stop_eq h.cur_le (by show 1 ≤ (rd.range >>> n).toNat; omega) (fun _ => excess_of_le (by
      show (rd.low - (rd.range >>> n) * (rd.low / (rd.range >>> n))).toNat ≤ (rd.range >>> n).toNat
      rw [hsub, hr]; exact Nat.le_of_lt (Nat.mod_lt _ (by omega))))
  refine ⟨t, ht, ?_, hg, ?_⟩
  · unfold RangeDecoder.getBits
    rw [if_neg (by intro e; rw [e] at hr; have : (0 : U32).toNat = 0 := rfl; omega)]
    dsimp only
    rw [ht]
    rfl
  · rw [hv]
    have h1 : rd.range.toNat < (rd.range.toNat / 2 ^ n + 1) * 2 ^ n := by
      have := Nat.lt_succ_self (rd.range.toNat / 2 ^ n)
      exact (Nat.div_lt_iff_lt_mul hp).mp this
    have h2 : rd.low.toNat < (2 ^ n + 17) * (rd.range.toNat / 2 ^ n) := by
      rw [Nat.add_mul, Nat.one_mul] at h1
      rw [Nat.add_mul, Nat.mul_comm (2 ^ n)]
      omega
    have := (Nat.div_lt_iff_lt_mul (by omega : 0 < rd.range.toNat / 2 ^ n)).mpr h2
    omega

/-! ## Binary symbols -/

/-- DEC_BIN's split of the interval, in numbers (rule R123). -/
theorem RangeDecoder.splitBin_spec (rd : RangeDecoder) (h : rd.Good pay) (z : U32) (h1 : 1 ≤ z.toNat) (h2 : z.toNat ≤ 0x1FFF) :
    (z * (rd.range >>> model2Scale)).toNat = z.toNat * (rd.range.toNat / 2 ^ 13) ∧
      0 < z.toNat * (rd.range.toNat / 2 ^ 13) ∧ z.toNat * (rd.range.toNat / 2 ^ 13) < rd.range.toNat := by
  have hr : (rd.range >>> model2Scale).toNat = rd.range.toNat / 2 ^ 13 := shr_toNat _ _
  have hge := h.range_ge
  have hlt := rd.range.isLt
  have hm : z.toNat * (rd.range.toNat / 2 ^ 13) ≤ 0x1FFF * (rd.range.toNat / 2 ^ 13) := Nat.mul_le_mul_right _ h2
  have hp : 1 * (rd.range.toNat / 2 ^ 13) ≤ z.toNat * (rd.range.toNat / 2 ^ 13) := Nat.mul_le_mul_right _ h1
  exact ⟨by rw [mul_toNat, hr]; rw [hr]; omega, by omega, by omega⟩

/-- DEC_BIN succeeds and keeps the registers and the model good (rules R123, R126, R127, R137). -/
theorem RangeDecoder.decBin_good (rd : RangeDecoder) (h : rd.Good pay) (m : BinModel) (hm : m.Good) :
    ∃ t m', (rd.splitBin m.zeroFreq).2.renorm pol pay = .ok t ∧ m.update (rd.splitBin m.zeroFreq).1 = .ok m' ∧
      rd.decBin pol pay m = .ok ((rd.splitBin m.zeroFreq).1, m', t) ∧ t.Good pay ∧ m'.Good := by
  obtain ⟨hh, hh1, hh2⟩ := rd.splitBin_spec h m.zeroFreq hm.freq_pos hm.freq_le
  obtain ⟨m', hm', hg'⟩ := m.update_good (rd.splitBin m.zeroFreq).1 hm
  have hg : ∃ t, (rd.splitBin m.zeroFreq).2.renorm pol pay = .ok t ∧ t.Good pay := by
    unfold RangeDecoder.splitBin
    dsimp only
    by_cases hc : m.zeroFreq * (rd.range >>> model2Scale) ≤ rd.low
    · rw [if_pos hc]
      have hl := BitVec.toNat_sub_of_le hc
      have hrr : (rd.range - m.zeroFreq * (rd.range >>> model2Scale)).toNat = rd.range.toNat - _ :=
        BitVec.toNat_sub_of_le (by rw [BitVec.le_def, hh]; omega)
      rw [BitVec.le_def, hh] at hc
      rw [hh] at hl hrr
      refine RangeDecoder.renorm_good _ h.stop_eq h.cur_le ?_ ?_
      · show 1 ≤ (rd.range - _).toNat; omega
      · obtain ⟨e, he1, he2⟩ := h.excess
        refine fun _ => ⟨e, ?_, ?_⟩
        · show (rd.low - _).toNat ≤ (rd.range - _).toNat + e.val; omega
        · show ((rd.range - _).toNat + 1) * 2 ^ e.val ≤ _
          exact (Nat.mul_le_mul_right _ (by omega)).trans he2
    · rw [if_neg hc]
      rw [BitVec.le_def, hh] at hc
      refine RangeDecoder.renorm_good _ h.stop_eq h.cur_le ?_ (fun _ => excess_of_le ?_)
      · show 1 ≤ (m.zeroFreq * (rd.range >>> model2Scale)).toNat; omega
      · show rd.low.toNat ≤ (m.zeroFreq * (rd.range >>> model2Scale)).toNat; omega
  obtain ⟨t, ht, htg⟩ := hg
  exact ⟨t, m', ht, hm', by unfold RangeDecoder.decBin; dsimp only; rw [ht, ok_bind, hm']; rfl, htg, hg'⟩

/-! ## Table symbols -/

/-- A narrowed interval renormalises to good registers (rules R126, R127, R128). -/
theorem RangeDecoder.narrow_good (rd : RangeDecoder) (h : rd.Good pay) (a b : U32) (hab : a.toNat < b.toNat)
    (hbr : b.toNat ≤ rd.range.toNat) (hal : a.toNat ≤ rd.low.toNat) (hlb : rd.low.toNat < b.toNat ∨ b = rd.range) :
    ∃ t, (rd.narrow a b).renorm pol pay = .ok t ∧ t.Good pay := by
  have hl : (rd.low - a).toNat = rd.low.toNat - a.toNat := BitVec.toNat_sub_of_le hal
  have hr : (b - a).toNat = b.toNat - a.toNat := BitVec.toNat_sub_of_le (Nat.le_of_lt hab)
  refine RangeDecoder.renorm_good _ h.stop_eq h.cur_le ?_ ?_
  · show 1 ≤ (b - a).toNat; omega
  · rcases hlb with hlb | rfl
    · exact fun _ => excess_of_le (by show (rd.low - a).toNat ≤ (b - a).toNat; omega)
    · obtain ⟨e, he1, he2⟩ := h.excess
      refine fun _ => ⟨e, ?_, ?_⟩
      · show (rd.low - a).toNat ≤ (rd.range - a).toNat + e.val; omega
      · show ((rd.range - a).toNat + 1) * 2 ^ e.val ≤ _
        exact (Nat.mul_le_mul_right _ (by omega)).trans he2

variable {n : Nat}

/-- The table of a good model rises. -/
theorem FreqModel.Good.freq_mono {m : FreqModel n} (hm : m.Good) (i j : Fin n) (h : i.val ≤ j.val) :
    m.freqs[i].toNat ≤ m.freqs[j].toNat := by
  rcases Nat.lt_or_eq_of_le h with h | h
  · exact Nat.le_of_lt (hm.freq_lt i j h)
  · cases Fin.ext h; exact le_refl _

/-- The upper end of a symbol's interval: the next entry, or the range for the top symbol (rules R91, R131). -/
def upperEnd (m : FreqModel n) (rs range : U32) (k : Nat) : U32 := if h : k < n then m.freqs[k] * rs else range

theorem freqAt_ok (m : FreqModel n) (i : Fin n) : m.freqAt i.val = .ok m.freqs[i] := by
  unfold FreqModel.freqAt; simp

/-- An interval bound `freqs[i] * (range >> 15)`, in numbers: nothing wraps (rule R129). -/
theorem bound_toNat (m : FreqModel n) (hm : m.Good) (rd : RangeDecoder) (i : Fin n) :
    (m.freqs[i] * (rd.range >>> modelScale)).toNat = m.freqs[i].toNat * (rd.range.toNat / 2 ^ 15) ∧
      m.freqs[i].toNat * (rd.range.toNat / 2 ^ 15) ≤ rd.range.toNat := by
  have hr : (rd.range >>> modelScale).toNat = rd.range.toNat / 2 ^ 15 := shr_toNat _ _
  have hlt := rd.range.isLt
  have hf := hm.freq_top i
  have h1 : m.freqs[i].toNat * (rd.range.toNat / 2 ^ 15) ≤ 0x8000 * (rd.range.toNat / 2 ^ 15) :=
    Nat.mul_le_mul_right _ (Nat.le_of_lt hf)
  exact ⟨by rw [mul_toNat, hr]; rw [hr]; omega, by omega⟩

/-- The search loop of DEC_SMALL finds the symbol whose interval holds `low` (rules R130, R131). -/
theorem smallSearch_spec (m : FreqModel n) (hm : m.Good) (rd : RangeDecoder) (k val hi hi2 : Nat) (prob prob2 : U32)
    (hv : val < hi) (hh : hi < hi2) (hn : hi2 ≤ n) (hmid : hi = (val + hi2) / 2) (hk : hi2 ≤ val + k + 1)
    (hp : ∀ h : val < n, prob = m.freqs[val] * (rd.range >>> modelScale))
    (hp2 : prob2 = upperEnd m (rd.range >>> modelScale) rd.range hi2)
    (hlo : ∀ h : val < n, m.freqs[val].toNat * (rd.range.toNat / 2 ^ 15) ≤ rd.low.toNat)
    (hup : ∀ h : hi2 < n, rd.low.toNat < m.freqs[hi2].toNat * (rd.range.toNat / 2 ^ 15)) :
    ∃ v : Fin n, smallSearch m (rd.range >>> modelScale) rd.low k val hi hi2 prob prob2 =
        .ok (v.val, m.freqs[v] * (rd.range >>> modelScale), upperEnd m (rd.range >>> modelScale) rd.range (v.val + 1)) ∧
      m.freqs[v].toNat * (rd.range.toNat / 2 ^ 15) ≤ rd.low.toNat ∧
      ∀ h : v.val + 1 < n, rd.low.toNat < m.freqs[v.val + 1].toNat * (rd.range.toNat / 2 ^ 15) := by
  induction k generalizing val hi hi2 prob prob2 with
  | zero => omega
  | succ k ih =>
    have hin : hi < n := by omega
    have hb := bound_toNat m hm rd ⟨hi, hin⟩
    simp only [Fin.getElem_fin] at hb
    rw [smallSearch, show m.freqAt hi = .ok m.freqs[hi] from freqAt_ok m ⟨hi, hin⟩, ok_bind]
    dsimp only
    by_cases hc : m.freqs[hi] * (rd.range >>> modelScale) ≤ rd.low
    · rw [if_pos hc]
      rw [BitVec.le_def, hb.1] at hc
      by_cases he : (hi2 + hi) / 2 = hi
      · have : hi2 = hi + 1 := by omega
        subst this
        rw [if_pos he]
        exact ⟨⟨hi, hin⟩, by rw [hp2]; rfl, hc, hup⟩
      · rw [if_neg he]
        exact ih hi _ hi2 _ _ (by omega) (by omega) hn (by omega) (by omega) (fun _ => rfl) hp2 (fun _ => hc) hup
    · rw [if_neg hc]
      rw [BitVec.le_def, hb.1] at hc
      have hvn : val < n := by omega
      by_cases he : (hi + val) / 2 = val
      · have : hi = val + 1 := by omega
        subst this
        rw [if_pos he]
        refine ⟨⟨val, hvn⟩, ?_, hlo hvn, fun _ => Nat.lt_of_not_le hc⟩
        rw [hp hvn]
        simp [upperEnd, hin]
      · rw [if_neg he]
        exact ih val _ hi _ _ (by omega) (by omega) (by omega) (by omega) (by omega) hp (by simp [upperEnd, hin]) hlo
          fun _ => by omega

theorem symbolOf_val (v : Fin n) : symbolOf n v.val = .ok v := by
  unfold symbolOf; rw [dif_pos v.isLt]

/-- DEC_SMALL succeeds, selects the highest symbol whose interval does not start above `low`, and keeps the registers and the
model good (rules R126, R127, R130, R131, R144). -/
theorem RangeDecoder.decSmall_good (rd : RangeDecoder) (h : rd.Good pay) (m : FreqModel n) (hm : m.Good) (hn : 2 ≤ n)
    (hn' : n ≤ 256) :
    ∃ (v : Fin n) (t : RangeDecoder) (m' : FreqModel n),
      (m.freqs[v].toNat * (rd.range.toNat / 2 ^ 15) ≤ rd.low.toNat ∧
        ∀ k : Fin n, m.freqs[k].toNat * (rd.range.toNat / 2 ^ 15) ≤ rd.low.toNat → k ≤ v) ∧
      (rd.narrow (m.freqs[v] * (rd.range >>> modelScale))
        (upperEnd m (rd.range >>> modelScale) rd.range (v.val + 1))).renorm pol pay = .ok t ∧
      m.update v = .ok m' ∧ rd.decSmall pol pay m = .ok (v, m', t) ∧ t.Good pay ∧ m'.Good := by
  have hge := h.range_ge
  have hz : ∀ h : 0 < n, m.freqs[0] = 0 := fun h => BitVec.toNat_inj.mp (hm.freq_zero ⟨0, h⟩ rfl)
  obtain ⟨v, hs, hv1, hv2⟩ := smallSearch_spec m hm rd n 0 (n / 2) n 0 rd.range (by omega) (by omega) (le_refl _)
    (by omega) (by omega) (fun h => by rw [hz h]; exact (BitVec.zero_mul).symm) (by simp [upperEnd])
    (fun h => by rw [hz h]; show 0 * _ ≤ _; omega) (fun h => by omega)
  have hb := bound_toNat m hm rd v
  have hmax : ∀ k : Fin n, m.freqs[k].toNat * (rd.range.toNat / 2 ^ 15) ≤ rd.low.toNat → k ≤ v := by
    intro k hk
    by_contra hc
    rw [Fin.le_def] at hc
    have h1 : v.val + 1 < n := by have := k.isLt; omega
    have h2 := hv2 h1
    have h3 : m.freqs[(⟨v.val + 1, h1⟩ : Fin n)].toNat ≤ m.freqs[k].toNat :=
      hm.freq_mono ⟨v.val + 1, h1⟩ k (by show v.val + 1 ≤ k.val; omega)
    have h4 : m.freqs[v.val + 1].toNat * (rd.range.toNat / 2 ^ 15) ≤ m.freqs[k].toNat * (rd.range.toNat / 2 ^ 15) :=
      Nat.mul_le_mul_right _ h3
    omega
  obtain ⟨m', hm', hg'⟩ := m.update_good v hm hn'
  have hnar : ∃ t, (rd.narrow (m.freqs[v] * (rd.range >>> modelScale))
      (upperEnd m (rd.range >>> modelScale) rd.range (v.val + 1))).renorm pol pay = .ok t ∧ t.Good pay := by
    refine rd.narrow_good h _ _ ?_ ?_ (by rw [hb.1]; exact hv1) ?_ <;> unfold upperEnd
    all_goals by_cases hl : v.val + 1 < n
    · rw [dif_pos hl, hb.1]
      have hb2 := bound_toNat m hm rd ⟨v.val + 1, hl⟩
      simp only [Fin.getElem_fin] at hb2
      rw [hb2.1]
      exact Nat.mul_lt_mul_of_pos_right (hm.freq_lt v ⟨v.val + 1, hl⟩ (Nat.lt_succ_self _)) (by omega)
    · rw [dif_neg hl, hb.1]
      have hf := hm.freq_top v
      have : m.freqs[v].toNat * (rd.range.toNat / 2 ^ 15) ≤ 0x7FFF * (rd.range.toNat / 2 ^ 15) :=
        Nat.mul_le_mul_right _ (by omega)
      omega
    · rw [dif_pos hl]
      have hb2 := bound_toNat m hm rd ⟨v.val + 1, hl⟩
      simp only [Fin.getElem_fin] at hb2
      rw [hb2.1]; exact hb2.2
    · rw [dif_neg hl]
    · rw [dif_pos hl]
      have hb2 := bound_toNat m hm rd ⟨v.val + 1, hl⟩
      simp only [Fin.getElem_fin] at hb2
      left; rw [hb2.1]; exact hv2 hl
    · rw [dif_neg hl]; exact Or.inr rfl
  obtain ⟨t, ht, htg⟩ := hnar
  refine ⟨v, t, m', ⟨hv1, hmax⟩, ht, hm', ?_, htg, hg'⟩
  unfold RangeDecoder.decSmall
  rw [hs, ok_bind]
  dsimp only
  rw [symbolOf_val, ok_bind, ht, ok_bind, hm']
  rfl

/-- The bucket search of DEC_BYTE finds the highest symbol whose frequency is at most `helper` (rules R132, R133). -/
theorem byteSearch_spec (m : FreqModel 256) (hm : m.Good) (helper : U32) (k val hi : Nat) (hv : val < hi) (hh : hi ≤ 256)
    (hk : hi ≤ val + k + 1) (hlo : ∀ h : val < 256, m.freqs[val].toNat ≤ helper.toNat)
    (hup : ∀ j : Fin 256, m.freqs[j].toNat ≤ helper.toNat → j.val < hi) :
    ∃ v : Fin 256, byteSearch m helper k val hi hi = .ok v.val ∧ m.freqs[v].toNat ≤ helper.toNat ∧
      ∀ j : Fin 256, m.freqs[j].toNat ≤ helper.toNat → j ≤ v := by
  have done : hi ≤ val + 1 → ∃ v : Fin 256, v.val = val ∧ m.freqs[v].toNat ≤ helper.toNat ∧
      ∀ j : Fin 256, m.freqs[j].toNat ≤ helper.toNat → j ≤ v := fun h =>
    ⟨⟨val, by omega⟩, rfl, hlo (by omega), fun j hj => by have := hup j hj; rw [Fin.le_def]; show j.val ≤ val; omega⟩
  induction k generalizing val hi with
  | zero =>
    obtain ⟨v, h1, h2⟩ := done (by omega)
    exact ⟨v, by rw [byteSearch, h1], h2⟩
  | succ k ih =>
    rw [byteSearch]
    by_cases hc : val + 1 < hi
    · rw [if_pos hc]
      have hs : (hi + val) / 2 < 256 := by omega
      dsimp only
      rw [show m.freqAt ((hi + val) / 2) = .ok m.freqs[(hi + val) / 2] from freqAt_ok m ⟨_, hs⟩, ok_bind]
      by_cases hf : m.freqs[(hi + val) / 2] ≤ helper
      · rw [if_pos hf]
        rw [BitVec.le_def] at hf
        refine ih _ _ (by omega) hh (by omega) (fun _ => hf) hup fun h => ?_
        exact ⟨⟨(hi + val) / 2, hs⟩, rfl, hf, fun j hj => by
          have := hup j hj; rw [Fin.le_def]; show j.val ≤ (hi + val) / 2; omega⟩
      · rw [if_neg hf]
        rw [BitVec.le_def] at hf
        have hup' : ∀ j : Fin 256, m.freqs[j].toNat ≤ helper.toNat → j.val < (hi + val) / 2 := fun j hj => by
          by_contra hc
          have h3 : m.freqs[(⟨(hi + val) / 2, hs⟩ : Fin 256)].toNat ≤ m.freqs[j].toNat :=
            hm.freq_mono ⟨_, hs⟩ j (by show (hi + val) / 2 ≤ j.val; omega)
          simp only [Fin.getElem_fin] at h3 hj
          omega
        refine ih _ _ (by omega) (by omega) (by omega) hlo hup' fun h => ?_
        exact ⟨⟨val, by omega⟩, rfl, hlo (by omega), fun j hj => by
          have := hup' j hj; rw [Fin.le_def]; show j.val ≤ val; omega⟩
    · rw [if_neg hc]
      obtain ⟨v, h1, h2⟩ := done (by omega)
      exact ⟨v, by rw [h1], h2⟩

/-- The symbol DEC_BYTE selects (rules R132 to R134). -/
theorem ByteModel.select_spec (m : ByteModel) (hm : m.Good) (helper : U32) (hh : helper.toNat < 0x8200) :
    ∃ v : Fin 256, m.select helper = .ok v ∧ m.base.freqs[v].toNat ≤ helper.toNat ∧
      ∀ j : Fin 256, m.base.freqs[j].toNat ≤ helper.toNat → j ≤ v := by
  have hs : (helper >>> bucketShift).toNat = helper.toNat / 512 := shr_toNat _ _
  have hs65 : helper.toNat / 512 < 65 := by omega
  let a : Fin 66 := ⟨helper.toNat / 512, by omega⟩
  let b : Fin 66 := ⟨helper.toNat / 512 + 1, by omega⟩
  have hlo : m.base.freqs[m.secondary[a]].toNat ≤ helper.toNat := by
    by_cases h0 : helper.toNat / 512 = 0
    · have h1 : ∀ x : Fin 66, x.val = 0 → m.secondary[x] = 0 := fun x hx => by
        cases x with | mk v hv => cases hx; exact hm.first
      have h1 := h1 a h0
      have h2 : ∀ y : Fin 256, y = 0 → m.base.freqs[y].toNat = 0 := fun y hy => hm.base.freq_zero y (by rw [hy]; rfl)
      rw [h2 _ h1]; omega
    · have := (hm.bucket a (Nat.pos_of_ne_zero h0)).1
      have h2 : 512 * a.val ≤ helper.toNat := by show 512 * (helper.toNat / 512) ≤ _; omega
      omega
  have hup : ∀ j : Fin 256, m.base.freqs[j].toNat ≤ helper.toNat → j.val < m.secondary[b].val + 1 := fun j hj => by
    have h1 := (hm.bucket b (Nat.succ_pos _)).2 j (by show _ < 512 * (helper.toNat / 512 + 1); omega)
    rw [Fin.le_def] at h1
    omega
  have hab : m.secondary[a].val < m.secondary[b].val + 1 := hup _ hlo
  obtain ⟨v, hv, h1, h2⟩ := byteSearch_spec m.base hm.base helper 256 m.secondary[a].val (m.secondary[b].val + 1) hab
    (by have := m.secondary[b].isLt; omega) (by omega) (fun _ => hlo) hup
  refine ⟨v, ?_, h1, h2⟩
  unfold ByteModel.select ByteModel.bucket
  have ea : m.secondary[helper.toNat / 512]? = some m.secondary[a] := Vector.getElem?_eq_getElem _
  have eb : m.secondary[helper.toNat / 512 + 1]? = some m.secondary[b] := Vector.getElem?_eq_getElem _
  rw [hs, ea, eb, ok_bind]
  dsimp only
  rw [hv, ok_bind, symbolOf_val]

/-- DEC_BYTE succeeds, selects the highest symbol whose frequency is at most `low div (range >> 15)`, and keeps the registers
and the model good (rules R126, R127, R132 to R134, R150). -/
theorem RangeDecoder.decByte_good (rd : RangeDecoder) (h : rd.Good pay) (m : ByteModel) (hm : m.Good) :
    ∃ (v : Fin 256) (t : RangeDecoder) (m' : ByteModel),
      (m.base.freqs[v].toNat ≤ rd.low.toNat / (rd.range.toNat / 2 ^ 15) ∧
        ∀ k : Fin 256, m.base.freqs[k].toNat ≤ rd.low.toNat / (rd.range.toNat / 2 ^ 15) → k ≤ v) ∧
      (rd.narrow (m.bounds (rd.range >>> modelScale) rd.range v).1
        (m.bounds (rd.range >>> modelScale) rd.range v).2).renorm pol pay = .ok t ∧
      m.update v = .ok m' ∧ rd.decByte pol pay m = .ok (v, m', t) ∧ t.Good pay ∧ m'.Good := by
  have hge := h.range_ge
  have hlow := h.low_le
  have hr : (rd.range >>> modelScale).toNat = rd.range.toNat / 2 ^ 15 := shr_toNat _ _
  have hrs : 512 ≤ rd.range.toNat / 2 ^ 15 := by omega
  have hq : (rd.low / (rd.range >>> modelScale)).toNat = rd.low.toNat / (rd.range.toNat / 2 ^ 15) := by
    rw [BitVec.toNat_udiv, hr]
  have hql : rd.low.toNat / (rd.range.toNat / 2 ^ 15) < 0x8200 := by
    rw [Nat.div_lt_iff_lt_mul (by omega)]; omega
  obtain ⟨v, hsel, hv1, hv2⟩ := m.select_spec hm (rd.low / (rd.range >>> modelScale)) (by rw [hq]; exact hql)
  rw [hq] at hv1 hv2
  obtain ⟨m', hm', hg'⟩ := m.update_good v hm
  have hb := bound_toNat m.base hm.base rd v
  have hvl : m.base.freqs[v].toNat * (rd.range.toNat / 2 ^ 15) ≤ rd.low.toNat :=
    (Nat.le_div_iff_mul_le (by omega)).mp hv1
  have hnar : ∃ t, (rd.narrow (m.bounds (rd.range >>> modelScale) rd.range v).1
      (m.bounds (rd.range >>> modelScale) rd.range v).2).renorm pol pay = .ok t ∧ t.Good pay := by
    unfold ByteModel.bounds
    dsimp only
    by_cases hl : v.val + 1 < 256
    · have hb2 := bound_toNat m.base hm.base rd ⟨v.val + 1, hl⟩
      simp only [Fin.getElem_fin] at hb2
      rw [dif_pos hl]
      refine rd.narrow_good h _ _ ?_ ?_ ?_ (Or.inl ?_)
      · rw [hb.1, hb2.1]
        exact Nat.mul_lt_mul_of_pos_right (hm.base.freq_lt v ⟨v.val + 1, hl⟩ (Nat.lt_succ_self _)) (by omega)
      · rw [hb2.1]; exact hb2.2
      · rw [hb.1]; exact hvl
      · rw [hb2.1]
        by_contra hc
        have h1 := hv2 ⟨v.val + 1, hl⟩ ((Nat.le_div_iff_mul_le (by omega)).mpr (by simp only [Fin.getElem_fin]; omega))
        rw [Fin.le_def] at h1
        simp only at h1
        omega
    · rw [dif_neg hl]
      refine rd.narrow_good h _ _ ?_ (le_refl _) ?_ (Or.inr rfl)
      · rw [hb.1]
        have hf := hm.base.freq_top v
        have : m.base.freqs[v].toNat * (rd.range.toNat / 2 ^ 15) ≤ 0x7FFF * (rd.range.toNat / 2 ^ 15) :=
          Nat.mul_le_mul_right _ (by omega)
        omega
      · rw [hb.1]; exact hvl
  obtain ⟨t, ht, htg⟩ := hnar
  refine ⟨v, t, m', ⟨hv1, hv2⟩, ht, hm', ?_, htg, hg'⟩
  unfold RangeDecoder.decByte
  dsimp only
  rw [if_neg (by intro e; rw [e] at hr; have : (0 : U32).toNat = 0 := rfl; omega), hsel, ok_bind, ht, ok_bind, hm']
  rfl

end Sys2Proof.Machine
end

