-- ==== Sys2Proof/Laws/Frames.lean ====
section
/-! SUPPORT. The frame relations of `Safety.lean` compose, and each register update stands in them. -/

namespace Sys2Proof.Machine

/-! ## Composition -/

theorem State.Kept.refl (s : State) : s.Kept s := ⟨rfl, rfl, rfl, rfl, rfl, rfl, rfl, rfl, rfl, fun _ => rfl, fun _ => rfl⟩

theorem State.Kept.trans {s t u : State} (h : s.Kept t) (k : t.Kept u) : s.Kept u :=
  ⟨k.alive.trans h.alive, k.params.trans h.params, k.fd.trans h.fd, k.inp.trans h.inp, k.status.trans h.status,
    k.ret.trans h.ret, k.cmds.trans h.cmds, k.issue.trans h.issue, k.off.trans h.off,
    fun p => (k.qmat p).trans (h.qmat p), fun p => (k.scale p).trans (h.scale p)⟩

theorem State.Steady.refl (s : State) : s.Steady s := ⟨State.Kept.refl s, rfl, rfl, rfl⟩

theorem State.Steady.trans {s t u : State} (h : s.Steady t) (k : t.Steady u) : s.Steady u :=
  ⟨h.toKept.trans k.toKept, k.mby.trans h.mby, k.mbx.trans h.mbx, k.plane.trans h.plane⟩

theorem State.OnlyPart.refl (s : State) (p : Plane) (x : Part) : s.OnlyPart p x s :=
  ⟨fun _ _ => rfl, fun _ => rfl, fun _ => rfl, fun _ => rfl, fun _ => rfl, fun _ => rfl⟩

theorem State.OnlyPart.trans {s t u : State} {p : Plane} {x : Part} (h : s.OnlyPart p x t) (k : t.OnlyPart p x u) :
    s.OnlyPart p x u :=
  ⟨fun q hq => (k.others q hq).trans (h.others q hq), fun e => (k.bt e).trans (h.bt e),
    fun e => (k.fill e).trans (h.fill e), fun e => (k.image e).trans (h.image e), fun e => (k.dct e).trans (h.dct e),
    fun e => (k.haar e).trans (h.haar e)⟩

/-- A step that leaves the coders alone. -/
theorem State.OnlyPart.of_coders {s t : State} (h : t.coders = s.coders) (p : Plane) (x : Part) : s.OnlyPart p x t := by
  have hc : ∀ q, t.coder q = s.coder q := fun q => by unfold State.coder; rw [h]
  exact ⟨fun q _ => hc q, fun _ => by rw [hc], fun _ => by rw [hc], fun _ => by rw [hc], fun _ => by rw [hc],
    fun _ => by rw [hc]⟩

theorem State.WritesIn.refl (s : State) (p : Plane) (r0 c0 h w : Nat) : s.WritesIn p r0 c0 h w s := fun _ _ => rfl

theorem State.WritesIn.trans {s t u : State} {p : Plane} {r0 c0 h w : Nat} (a : s.WritesIn p r0 c0 h w t)
    (b : t.WritesIn p r0 c0 h w u) : s.WritesIn p r0 c0 h w u := fun x hx => (b x hx).trans (a x hx)

/-- A step that leaves the planes alone. -/
theorem State.WritesIn.of_canvas {s t : State} (h : t.canvas = s.canvas) (p : Plane) (r0 c0 k w : Nat) :
    s.WritesIn p r0 c0 k w t := fun _ _ => by rw [h]

theorem State.Steady.origin {s t : State} (h : s.Steady t) (p : Plane) : t.origin p = s.origin p := by
  unfold State.origin; rw [h.inp, h.mby, h.mbx]

theorem State.Kept.planeW {s t : State} (h : s.Kept t) (p : Plane) : t.planeW p = s.planeW p := by
  unfold State.planeW; rw [h.params]

theorem State.Kept.planeH {s t : State} (h : s.Kept t) (p : Plane) : t.planeH p = s.planeH p := by
  unfold State.planeH; rw [h.params]

theorem State.Kept.histW {s t : State} (h : s.Kept t) (p : Plane) : t.histW p = s.histW p := by
  unfold State.histW; rw [h.params]

theorem State.Kept.histH {s t : State} (h : s.Kept t) (p : Plane) : t.histH p = s.histH p := by
  unfold State.histH; rw [h.params]

theorem State.Steady.blockFits {s t : State} (h : s.Steady t) (p : Plane) : t.BlockFits p ↔ s.BlockFits p := by
  unfold State.BlockFits; rw [h.origin, h.planeW, h.planeH]

theorem State.Steady.histFits {s t : State} (h : s.Steady t) (p : Plane) : t.HistFits p ↔ s.HistFits p := by
  unfold State.HistFits; rw [h.mbx, h.mby, h.histW, h.histH]

theorem State.WritesBlock.of_canvas {s t : State} (h : t.canvas = s.canvas) (p : Plane) : s.WritesBlock p t :=
  fun _ _ => by rw [h]

/-- Writes to the current block compose. -/
theorem State.WritesBlock.trans {s t u : State} {p : Plane} (a : s.WritesBlock p t) (b : t.WritesBlock p u)
    (h : s.Steady t) : s.WritesBlock p u := by
  unfold State.WritesBlock at b
  rw [h.origin] at b
  exact State.WritesIn.trans a b

/-! ## Register updates that leave the coders and the planes alone -/

/-- Only the interval registers, the scratch and the block counters of the sequencer differ. -/
theorem State.Steady.of_eqs {s t : State} (h1 : t.alive = s.alive) (h2 : t.params = s.params) (h3 : t.fd = s.fd)
    (h4 : t.inp = s.inp) (h5 : t.status = s.status) (h6 : t.ret = s.ret) (h7 : t.cmds = s.cmds) (h8 : t.issue = s.issue)
    (h9 : t.ref = s.ref) (h10 : t.work = s.work) (h11 : t.coders = s.coders) (h12 : t.seq.mby = s.seq.mby)
    (h13 : t.seq.mbx = s.seq.mbx) (h14 : t.seq.p = s.seq.p) : s.Steady t :=
  ⟨⟨h1, h2, h3, h4, h5, h6, h7, h8, by unfold State.offCanvas; rw [h2, h9, h10],
    fun p => by unfold State.coder; rw [h11], fun p => by unfold State.coder; rw [h11]⟩, h12, h13, h14⟩

variable (s : State)

theorem steady_setRd (x : RangeDecoder) : s.Steady (s.setRd x) :=
  .of_eqs rfl rfl rfl rfl rfl rfl rfl rfl rfl rfl rfl rfl rfl rfl

theorem steady_setScratch (x : Scratch) : s.Steady (s.setScratch x) :=
  .of_eqs rfl rfl rfl rfl rfl rfl rfl rfl rfl rfl rfl rfl rfl rfl

theorem steady_setImg (x : ImageScratch) : s.Steady (s.setImg x) :=
  .of_eqs rfl rfl rfl rfl rfl rfl rfl rfl rfl rfl rfl rfl rfl rfl

theorem steady_setPos (k : Nat) : s.Steady (s.setPos k) :=
  .of_eqs rfl rfl rfl rfl rfl rfl rfl rfl rfl rfl rfl rfl rfl rfl

theorem steady_setNeg (b : Bool) : s.Steady (s.setNeg b) :=
  .of_eqs rfl rfl rfl rfl rfl rfl rfl rfl rfl rfl rfl rfl rfl rfl

theorem steady_setScan (x : ScanStatus) : s.Steady (s.setScan x) :=
  .of_eqs rfl rfl rfl rfl rfl rfl rfl rfl rfl rfl rfl rfl rfl rfl

theorem steady_setDctBlk (b : CoeffBlock) : s.Steady (s.setDctBlk b) :=
  .of_eqs rfl rfl rfl rfl rfl rfl rfl rfl rfl rfl rfl rfl rfl rfl

theorem steady_setHaarBlk (b : Vector Int 256) : s.Steady (s.setHaarBlk b) :=
  .of_eqs rfl rfl rfl rfl rfl rfl rfl rfl rfl rfl rfl rfl rfl rfl

theorem steady_setBlkErr : s.Steady (setBlkErr s) :=
  .of_eqs rfl rfl rfl rfl rfl rfl rfl rfl rfl rfl rfl rfl rfl rfl

/-- A move of the block counters. -/
theorem steady_setSeq (q : Sequencer) (h1 : q.mby = s.seq.mby) (h2 : q.mbx = s.seq.mbx) (h3 : q.p = s.seq.p) :
    s.Steady (s.setSeq q) :=
  .of_eqs rfl rfl rfl rfl rfl rfl rfl rfl rfl rfl rfl h1 h2 h3

/-! ## Model registers -/

/-- A write to a coder that keeps its matrix and its scale. -/
theorem steady_setCoder (p : Plane) (c : PlaneCoders) (h1 : c.dct.qmat = (s.coder p).dct.qmat)
    (h2 : c.haar.scale = (s.coder p).haar.scale) : s.Steady (s.setCoder p c) := by
  refine ⟨⟨rfl, rfl, rfl, rfl, rfl, rfl, rfl, rfl, rfl, fun q => ?_, fun q => ?_⟩, rfl, rfl, rfl⟩ <;>
    by_cases hq : q = p
  · subst hq; simpa using h1
  · rw [setCoder_coder_ne s c hq]
  · subst hq; simpa using h2
  · rw [setCoder_coder_ne s c hq]

theorem steady_setSmall (m : SmallRef) (v : FreqModel m.size) : s.Steady (s.setSmall m v) := by
  cases m <;> exact steady_setCoder s _ _ rfl rfl

theorem steady_setByte (m : ByteRef) (v : ByteModel) : s.Steady (s.setByte m v) := by
  cases m <;> exact steady_setCoder s _ _ rfl rfl

theorem steady_setBin (m : BinRef) (v : BinModel) : s.Steady (s.setBin m v) := by
  cases m; exact steady_setCoder s _ _ rfl rfl

theorem steady_setFillVal (p : Plane) (v : I32) : s.Steady (setFillVal p v s) := steady_setCoder s _ _ rfl rfl

theorem steady_setLastType (p : Plane) (t : Fin 5) : s.Steady (setLastType p t s) := steady_setCoder s _ _ rfl rfl

/-- A write to a coder that keeps all parts but one. -/
theorem onlyPart_setCoder (p : Plane) (c : PlaneCoders) (x : Part) (h1 : x ≠ .bt → c.bt = (s.coder p).bt)
    (h2 : x ≠ .fill → c.fill = (s.coder p).fill) (h3 : x ≠ .image → c.image = (s.coder p).image)
    (h4 : x ≠ .dct → c.dct = (s.coder p).dct) (h5 : x ≠ .haar → c.haar = (s.coder p).haar) :
    s.OnlyPart p x (s.setCoder p c) :=
  ⟨fun _ hq => setCoder_coder_ne s c hq, by simpa using h1, by simpa using h2, by simpa using h3, by simpa using h4,
    by simpa using h5⟩

theorem onlyPart_setSmall (m : SmallRef) (v : FreqModel m.size) : s.OnlyPart m.plane (smallPart m) (s.setSmall m v) := by
  cases m <;> exact onlyPart_setCoder s _ _ _ (fun h => by first | rfl | exact absurd rfl h)
    (fun h => by first | rfl | exact absurd rfl h) (fun h => by first | rfl | exact absurd rfl h)
    (fun h => by first | rfl | exact absurd rfl h) (fun h => by first | rfl | exact absurd rfl h)

theorem onlyPart_setByte (m : ByteRef) (v : ByteModel) : s.OnlyPart m.plane (bytePart m) (s.setByte m v) := by
  cases m <;> exact onlyPart_setCoder s _ _ _ (fun h => by first | rfl | exact absurd rfl h)
    (fun h => by first | rfl | exact absurd rfl h) (fun h => by first | rfl | exact absurd rfl h)
    (fun h => by first | rfl | exact absurd rfl h) (fun h => by first | rfl | exact absurd rfl h)

theorem onlyPart_setBin (m : BinRef) (v : BinModel) : s.OnlyPart m.plane .dct (s.setBin m v) := by
  cases m; exact onlyPart_setCoder s _ _ _ (fun _ => rfl) (fun _ => rfl) (fun _ => rfl) (fun h => absurd rfl h) (fun _ => rfl)

theorem onlyPart_setFillVal (p : Plane) (v : I32) : s.OnlyPart p .fill (setFillVal p v s) :=
  onlyPart_setCoder s _ _ _ (fun _ => rfl) (fun h => absurd rfl h) (fun _ => rfl) (fun _ => rfl) (fun _ => rfl)

theorem onlyPart_setLastType (p : Plane) (t : Fin 5) : s.OnlyPart p .bt (setLastType p t s) :=
  onlyPart_setCoder s _ _ _ (fun h => absurd rfl h) (fun _ => rfl) (fun _ => rfl) (fun _ => rfl) (fun _ => rfl)

/-! ## Sample planes -/

@[simp] theorem setCanvas_canvas (m : Store 8) : (s.setCanvas m).canvas = m := by
  cases h : s.params.profile.abortWrites <;> simp [State.setCanvas, State.canvas, h]

@[simp] theorem setCanvas_offCanvas (m : Store 8) : (s.setCanvas m).offCanvas = s.offCanvas := by
  cases h : s.params.profile.abortWrites <;> simp [State.setCanvas, State.offCanvas, h]

theorem steady_setCanvas (m : Store 8) : s.Steady (s.setCanvas m) := by
  refine ⟨⟨?_, ?_, ?_, ?_, ?_, ?_, ?_, ?_, ?_, ?_, ?_⟩, ?_, ?_, ?_⟩ <;> simp

/-! ## Goodness -/

variable {s}

theorem State.ModelsGood.of_coders {t : State} (h : s.ModelsGood) (e : t.coders = s.coders) : t.ModelsGood := by
  have hc : ∀ q, t.coder q = s.coder q := fun q => by unfold State.coder; rw [e]
  exact ⟨fun m => by rw [small_congr (hc _)]; exact h.small m, fun m => by rw [byte_congr (hc _)]; exact h.byte m,
    fun m => by rw [bin_congr (hc _)]; exact h.bin m⟩

theorem State.ModelsGood.setSmall (h : s.ModelsGood) (m : SmallRef) (v : FreqModel m.size) (hv : v.Good) :
    (s.setSmall m v).ModelsGood := by
  refine ⟨fun r => ?_, fun r => by simpa using h.byte r, fun r => by simpa using h.bin r⟩
  by_cases e : r = m
  · subst e; simpa using hv
  · rw [setSmall_small_ne s v e]; exact h.small r

theorem State.ModelsGood.setByte (h : s.ModelsGood) (m : ByteRef) (v : ByteModel) (hv : v.Good) :
    (s.setByte m v).ModelsGood := by
  refine ⟨fun r => by simpa using h.small r, fun r => ?_, fun r => by simpa using h.bin r⟩
  by_cases e : r = m
  · subst e; simpa using hv
  · rw [setByte_byte_ne s v e]; exact h.byte r

theorem State.ModelsGood.setBin (h : s.ModelsGood) (m : BinRef) (v : BinModel) (hv : v.Good) :
    (s.setBin m v).ModelsGood := by
  refine ⟨fun r => by simpa using h.small r, fun r => by simpa using h.byte r, fun r => ?_⟩
  by_cases e : r = m
  · subst e; simpa using hv
  · rw [setBin_bin_ne s v e]; exact h.bin r

theorem State.ModelsGood.setFillVal (h : s.ModelsGood) (p : Plane) (v : I32) : (setFillVal p v s).ModelsGood :=
  ⟨fun r => by simpa using h.small r, fun r => by simpa using h.byte r, fun r => by simpa using h.bin r⟩

theorem State.ModelsGood.setLastType (h : s.ModelsGood) (p : Plane) (t : Fin 5) : (setLastType p t s).ModelsGood :=
  ⟨fun r => by simpa using h.small r, fun r => by simpa using h.byte r, fun r => by simpa using h.bin r⟩

/-- A size the models have. -/
theorem size_le (m : SmallRef) : 2 ≤ m.size ∧ m.size ≤ 256 := by
  cases m <;> simp [SmallRef.size]

theorem initial_models : State.blank.ModelsGood := by
  refine ⟨fun m => ?_, fun m => ?_, fun m => ?_⟩
  · have : State.blank.small m = FreqModel.initial m.size := by
      have hc : ∀ p, State.blank.coder p = PlaneCoders.initial := fun p => by cases p <;> rfl
      cases m <;> simp [State.small, hc, PlaneCoders.initial]
    rw [this]
    exact FreqModel.initial_good (size_le m).1 (size_le m).2
  · have : State.blank.byte m = ByteModel.initial := by
      cases m <;> rename_i p <;> cases p <;> rfl
    rw [this]
    exact ByteModel.initial_good
  · have : State.blank.bin m = BinModel.reset := by
      cases m; rename_i p; cases p <;> rfl
    rw [this]
    exact BinModel.reset_good

end Sys2Proof.Machine
end

