-- ==== Sys2Proof/Laws/Symbols.lean ====
section
/-! SUPPORT. The symbol primitives, the selector and the coefficient decode on a state that can decode: each succeeds, leaves a
state that can decode, and changes the interval registers, the models of its plane and kind, and the sign latch alone. -/

namespace Sys2Proof.Machine

/-- A state that can decode, with canonical memories. -/
structure State.Ready (s : State) : Prop extends State.CanDecode s where
  canonical : s.Canonical

/-- What decoding symbols of the coder `x` of plane `p` leads to. -/
structure State.Decodes (s : State) (p : Plane) (x : Part) (t : State) : Prop where
  ready : t.Ready
  steady : s.Steady t
  only : s.OnlyPart p x t
  eq : t = { s with rd := t.rd, coders := t.coders, scratch := { s.scratch with neg := t.scratch.neg } }
  hist : ∀ q, (t.coder q).dct.hist = (s.coder q).dct.hist
  fillVal : ∀ q, (t.coder q).fill.fillVal = (s.coder q).fill.fillVal

theorem State.Decodes.trans {s t u : State} {p : Plane} {x : Part} (h : s.Decodes p x t) (k : t.Decodes p x u) :
    s.Decodes p x u :=
  ⟨k.ready, h.steady.trans k.steady, h.only.trans k.only, by rw [k.eq, h.eq], fun q => (k.hist q).trans (h.hist q),
    fun q => (k.fillVal q).trans (h.fillVal q)⟩

theorem State.Decodes.refl {s : State} (h : s.Ready) (p : Plane) (x : Part) : s.Decodes p x s :=
  ⟨h, .refl s, .refl s p x, rfl, fun _ => rfl, fun _ => rfl⟩

theorem State.Decodes.canvas {s t : State} {p : Plane} {x : Part} (h : s.Decodes p x t) : t.canvas = s.canvas := by
  rw [h.eq]; rfl

theorem State.Decodes.seq {s t : State} {p : Plane} {x : Part} (h : s.Decodes p x t) : t.seq = s.seq := by
  rw [h.eq]

theorem State.Decodes.scratch {s t : State} {p : Plane} {x : Part} (h : s.Decodes p x t) :
    t.scratch = { s.scratch with neg := t.scratch.neg } := by
  rw [h.eq]

/-- Readiness depends on these fields alone. -/
theorem State.Ready.of_eqs {s t : State} (h : s.Ready) (h1 : t.alive = s.alive) (h2 : t.coders = s.coders)
    (h3 : t.rd = s.rd) (h4 : t.inp = s.inp) (h5 : t.ref = s.ref) (h6 : t.work = s.work) : t.Ready :=
  ⟨⟨h1.trans h.alive, h.models.of_coders h2, by unfold State.RdGood; rw [h3, h4]; exact h.rd⟩,
    by rw [h5]; exact h.canonical.ref, by rw [h6]; exact h.canonical.work,
    fun p => by unfold State.coder; rw [h2]; exact h.canonical.hist p⟩

theorem State.Ready.setRd {s : State} (h : s.Ready) (x : RangeDecoder) (hx : x.Good s.inp.payload) : (s.setRd x).Ready :=
  ⟨⟨h.alive, h.models.of_coders (by rfl), hx⟩, h.canonical.ref, h.canonical.work, h.canonical.hist⟩

theorem State.Ready.setSmall {s : State} (h : s.Ready) (m : SmallRef) (v : FreqModel m.size) (hv : v.Good) :
    (s.setSmall m v).Ready :=
  ⟨⟨by simpa using h.alive, h.models.setSmall m v hv, by unfold State.RdGood; simp only [setSmall_rd, setSmall_inp]; exact h.rd⟩,
    by simpa using h.canonical.ref, by simpa using h.canonical.work, fun p => by simpa using h.canonical.hist p⟩

theorem State.Ready.setByte {s : State} (h : s.Ready) (m : ByteRef) (v : ByteModel) (hv : v.Good) : (s.setByte m v).Ready :=
  ⟨⟨by simpa using h.alive, h.models.setByte m v hv, by unfold State.RdGood; simp only [setByte_rd, setByte_inp]; exact h.rd⟩,
    by simpa using h.canonical.ref, by simpa using h.canonical.work, fun p => by simpa using h.canonical.hist p⟩

theorem State.Ready.setBin {s : State} (h : s.Ready) (m : BinRef) (v : BinModel) (hv : v.Good) : (s.setBin m v).Ready :=
  ⟨⟨by simpa using h.alive, h.models.setBin m v hv, by unfold State.RdGood; simp only [setBin_rd, setBin_inp]; exact h.rd⟩,
    by simpa using h.canonical.ref, by simpa using h.canonical.work, fun p => by simpa using h.canonical.hist p⟩

/-- A step that leaves the coders, the interval registers and the memories alone decodes nothing. -/
theorem State.Ready.decodes_setNeg {s : State} (h : s.Ready) (b : Bool) (p : Plane) (x : Part) : s.Decodes p x (s.setNeg b) :=
  ⟨h.of_eqs rfl rfl rfl rfl rfl rfl, steady_setNeg s b, .of_coders (by rfl) p x, rfl, fun _ => rfl, fun _ => rfl⟩

theorem State.Ready.decodes_setRd {s : State} (h : s.Ready) (v : RangeDecoder) (hv : v.Good s.inp.payload) (p : Plane)
    (x : Part) : s.Decodes p x (s.setRd v) :=
  ⟨h.setRd v hv, steady_setRd s v, .of_coders (by rfl) p x, rfl, fun _ => rfl, fun _ => rfl⟩

/-! ## Primitives -/

theorem getBit_ready {s : State} (h : s.Ready) (p : Plane) (x : Part) :
    ∃ b t, getBit s = .ok (b, t) ∧ s.Decodes p x t := by
  obtain ⟨t, -, ht, hg⟩ := s.rd.getBit_good (pol := s.policy) h.rd
  exact ⟨_, s.setRd t, by unfold getBit; rw [ht]; rfl, h.decodes_setRd t hg p x⟩

theorem getBits_ready {s : State} (h : s.Ready) (n : Nat) (hn : n ≤ 14) (p : Plane) (x : Part) :
    ∃ v t, getBits n s = .ok (v, t) ∧ v ≤ 2 ^ n + 16 ∧ s.Decodes p x t := by
  obtain ⟨t, -, ht, hg, hv⟩ := s.rd.getBits_good (pol := s.policy) h.rd n hn
  exact ⟨_, s.setRd t, by unfold getBits; rw [ht]; rfl, hv, h.decodes_setRd t hg p x⟩

theorem decBin_ready {s : State} (h : s.Ready) (m : BinRef) : ∃ b t, decBin m s = .ok (b, t) ∧ s.Decodes m.plane .dct t := by
  obtain ⟨t, m', -, -, ht, hg, hm⟩ := s.rd.decBin_good (pol := s.policy) h.rd (s.bin m) (h.models.bin m)
  refine ⟨_, (s.setBin m m').setRd t, by unfold decBin; rw [ht]; rfl, ?_⟩
  refine ⟨(h.setBin m m' hm).setRd t (by simpa using hg), (steady_setBin s m m').trans (steady_setRd _ t),
    (onlyPart_setBin s m m').trans (.of_coders (by rfl) _ _), ?_, fun q => ?_, fun q => ?_⟩
  · cases m; rfl
  · show ((s.setBin m m').coder q).dct.hist = _; simp
  · show ((s.setBin m m').coder q).fill.fillVal = _; simp

theorem decSmall_ready {s : State} (h : s.Ready) (m : SmallRef) :
    ∃ v t, decSmall m s = .ok (v, t) ∧ s.Decodes m.plane (smallPart m) t ∧
      ∀ q, (t.coder q).bt.lastType = (s.coder q).bt.lastType := by
  obtain ⟨v, t, m', -, -, -, ht, hg, hm⟩ := s.rd.decSmall_good (pol := s.policy) h.rd (s.small m) (h.models.small m)
    (size_le m).1 (size_le m).2
  refine ⟨v, (s.setSmall m m').setRd t, by unfold decSmall; rw [ht]; rfl, ?_, fun q => ?_⟩
  · refine ⟨(h.setSmall m m' hm).setRd t (by simpa using hg), (steady_setSmall s m m').trans (steady_setRd _ t),
      (onlyPart_setSmall s m m').trans (.of_coders (by rfl) _ _), ?_, fun q => ?_, fun q => ?_⟩
    · cases m <;> rfl
    · show ((s.setSmall m m').coder q).dct.hist = _; simp
    · show ((s.setSmall m m').coder q).fill.fillVal = _; simp
  · show ((s.setSmall m m').coder q).bt.lastType = _; simp

theorem decByte_ready {s : State} (h : s.Ready) (m : ByteRef) :
    ∃ v t, decByte m s = .ok (v, t) ∧ s.Decodes m.plane (bytePart m) t := by
  obtain ⟨v, t, m', -, -, -, ht, hg, hm⟩ := s.rd.decByte_good (pol := s.policy) h.rd (s.byte m) (h.models.byte m)
  refine ⟨v, (s.setByte m m').setRd t, by unfold decByte; rw [ht]; rfl, ?_⟩
  refine ⟨(h.setByte m m' hm).setRd t (by simpa using hg), (steady_setByte s m m').trans (steady_setRd _ t),
    (onlyPart_setByte s m m').trans (.of_coders (by rfl) _ _), ?_, fun q => ?_, fun q => ?_⟩
  · cases m <;> rfl
  · show ((s.setByte m m').coder q).dct.hist = _; simp
  · show ((s.setByte m m').coder q).fill.fillVal = _; simp

/-! ## Coefficients (rules R162, R163) -/

/-- The magnitude a class allows on any payload (rules R94, R163). -/
def InClass (v : Nat) (k : Int) : Prop :=
  if v = 0 then k = 0 else if v = 1 then k.natAbs = 1 else 2 ^ (v - 1) ≤ k.natAbs ∧ k.natAbs ≤ 2 ^ v + 16

@[simp] theorem signed_natAbs (neg : Bool) (mag : Nat) : (signed neg mag).natAbs = mag := by
  cases neg <;> simp [signed]

theorem coefSign_ready {s : State} (h : s.Ready) (p : Plane) (x : Part) :
    ∃ k t, coefSign s = .ok (k, t) ∧ s.Decodes p x t ∧ k = signed t.scratch.neg 1 := by
  obtain ⟨b, t, ht, hd⟩ := getBit_ready h p x
  refine ⟨_, _, by unfold coefSign; rw [ht]; rfl, hd.trans (hd.ready.decodes_setNeg _ p x), ?_⟩
  simp

theorem coefExtra_ready {s : State} (h : s.Ready) (n : Nat) (hn : n ≤ 14) (p : Plane) (x : Part) :
    ∃ k t, coefExtra n s = .ok (k, t) ∧ s.Decodes p x t ∧ t.scratch.neg = s.scratch.neg ∧
      ∃ e, e ≤ 2 ^ n + 16 ∧ k = signed s.scratch.neg (2 ^ n + e) := by
  obtain ⟨e, t, ht, he, hd⟩ := getBits_ready h n hn p x
  have hneg : t.scratch.neg = s.scratch.neg := by
    unfold getBits at ht
    obtain ⟨a, -, ha⟩ := map_eq_ok ht
    cases ha; rfl
  refine ⟨_, _, by unfold coefExtra; rw [ht]; rfl, hd, hneg, e, he, ?_⟩
  show signed t.scratch.neg (magnitude n e) = _
  rw [hneg, magnitude, Nat.one_shiftLeft]

theorem coefClass_ready {s : State} (h : s.Ready) (v : Nat) (hv : v ≤ 15) (p : Plane) (x : Part) :
    ∃ k t, coefClass v s = .ok (k, t) ∧ s.Decodes p x t ∧ InClass v k ∧ (v ≠ 0 → k = signed t.scratch.neg k.natAbs) := by
  unfold coefClass InClass
  by_cases h0 : v = 0
  · simp only [if_pos h0]
    exact ⟨0, s, rfl, .refl h p x, rfl, fun e => absurd h0 e⟩
  · simp only [if_neg h0]
    obtain ⟨k, t, ht, hd, hk⟩ := coefSign_ready h p x
    by_cases h1 : v = 1
    · simp only [if_pos h1]
      exact ⟨k, t, ht, hd, by rw [hk]; simp, fun _ => by rw [hk]; simp⟩
    · simp only [if_neg h1]
      obtain ⟨k', t', ht', hd', hn, e, he, hk'⟩ := coefExtra_ready hd.ready (v - 1) (by omega) p x
      refine ⟨k', t', by rw [ht]; exact ht', hd.trans hd', ?_, fun _ => by rw [hk', hn]; simp⟩
      have hp : 2 ^ v = 2 * 2 ^ (v - 1) := by
        rw [← Nat.pow_succ']; congr 1; omega
      rw [hk', signed_natAbs]
      omega

theorem coefRef_part (m : CoefRef) : ∃ p x, m.model.plane = p ∧ smallPart m.model = x := ⟨_, _, rfl, rfl⟩

/-- DECODE_COEFF (rules R162, R163). -/
theorem decodeCoeff_ready {s : State} (h : s.Ready) (m : CoefRef) :
    ∃ k t, decodeCoeff m s = .ok (k, t) ∧ s.Decodes m.model.plane (smallPart m.model) t ∧ k.natAbs ≤ 2064 := by
  obtain ⟨v, t, ht, hd, -⟩ := decSmall_ready h m.model
  have hv : v.val < 12 := by
    have := v.isLt
    cases m <;> exact this
  obtain ⟨k, u, hu, he, hk, -⟩ := coefClass_ready hd.ready v.val (by omega) m.model.plane (smallPart m.model)
  refine ⟨k, u, by unfold decodeCoeff; rw [ht]; exact hu, hd.trans he, ?_⟩
  unfold InClass at hk
  split at hk
  · simp [hk]
  · split at hk
    · omega
    · have : 2 ^ v.val ≤ 2 ^ 11 := Nat.pow_le_pow_right (by decide) (by omega)
      omega

/-- BT_SELECT (rule R160). -/
theorem btSelect_ready {s : State} (h : s.Ready) (p : Plane) :
    ∃ v t, btSelect p s = .ok (v, t) ∧ s.Decodes p .bt t ∧ (t.coder p).bt.lastType = v := by
  obtain ⟨v, t, ht, hd, -⟩ := decSmall_ready h (.bt p (s.coder p).bt.lastType)
  have hr : (setLastType p v t).Ready :=
    ⟨⟨hd.ready.alive, hd.ready.models.setLastType p v, hd.ready.rd⟩, hd.ready.canonical.ref, hd.ready.canonical.work,
      fun q => by simpa using hd.ready.canonical.hist q⟩
  refine ⟨v, setLastType p v t, by unfold btSelect; rw [ht]; rfl, hd.trans ⟨hr, steady_setLastType t p v,
    onlyPart_setLastType t p v, by cases p <;> rfl, fun q => by simp, fun q => by simp⟩, ?_⟩
  unfold setLastType; simp

end Sys2Proof.Machine
end

