-- ==== Sys2Proof/Laws/Blocks.lean ====
section
/-! SUPPORT. The block datapaths on a state that can decode: each runs to its end, leaves a state that can decode, and writes the
coder of its kind, its scratch, and samples of its block alone. -/

namespace Sys2Proof.Machine

/-- What running part of a block of plane `p` with the coder `x` leads to. -/
structure State.BlockTo (s : State) (p : Plane) (x : Part) (t : State) : Prop where
  ready : t.Ready
  steady : s.Steady t
  only : s.OnlyPart p x t
  writes : s.WritesBlock p t

theorem State.BlockTo.refl {s : State} (h : s.Ready) (p : Plane) (x : Part) : s.BlockTo p x s :=
  ⟨h, .refl s, .refl s p x, .of_canvas rfl p⟩

theorem State.BlockTo.trans {s t u : State} {p : Plane} {x : Part} (h : s.BlockTo p x t) (k : t.BlockTo p x u) :
    s.BlockTo p x u :=
  ⟨k.ready, h.steady.trans k.steady, h.only.trans k.only, h.writes.trans k.writes h.steady⟩

theorem State.Decodes.blockTo {s t : State} {p : Plane} {x : Part} (h : s.Decodes p x t) : s.BlockTo p x t :=
  ⟨h.ready, h.steady, h.only, .of_canvas h.canvas p⟩

/-- A step that writes scratch or block counters alone. -/
theorem State.BlockTo.of_steady {s t : State} (h : s.Ready) (k : s.Steady t) (h1 : t.coders = s.coders) (h2 : t.rd = s.rd)
    (h3 : t.ref = s.ref) (h4 : t.work = s.work) (p : Plane) (x : Part) : s.BlockTo p x t :=
  ⟨h.of_eqs k.alive h1 h2 k.inp h3 h4, k, .of_coders h1 p x,
    .of_canvas (by unfold State.canvas; rw [k.params, h3, h4]) p⟩

theorem State.BlockTo.setImg {s : State} (h : s.Ready) (v : ImageScratch) (p : Plane) (x : Part) : s.BlockTo p x (s.setImg v) :=
  .of_steady h (steady_setImg s v) (by rfl) (by rfl) (by rfl) (by rfl) p x

theorem State.BlockTo.setSeq {s : State} (h : s.Ready) (q : Sequencer) (h1 : q.mby = s.seq.mby) (h2 : q.mbx = s.seq.mbx)
    (h3 : q.p = s.seq.p) (p : Plane) (x : Part) : s.BlockTo p x (s.setSeq q) :=
  .of_steady h (steady_setSeq s q h1 h2 h3) (by rfl) (by rfl) (by rfl) (by rfl) p x

/-! ## Writing samples -/

theorem bs_le (p : Plane) : 8 ≤ p.bs ∧ p.bs ≤ 16 := by cases p <;> simp [Plane.bs]

theorem planeW_lt (s : State) (p : Plane) : s.planeW p < 65536 := by
  have := s.params.frameW.isLt
  cases p <;> simp [State.planeW] <;> omega

theorem planeH_lt (s : State) (p : Plane) : s.planeH p < 65536 := by
  have := s.params.frameH.isLt
  cases p <;> simp [State.planeH] <;> omega

theorem canvas_wf {s : State} (h : s.Canonical) : s.canvas.wf = true := by
  unfold State.canvas
  split
  · exact h.work
  · exact h.ref

theorem State.Ready.setCanvas {s : State} (h : s.Ready) (m : Store 8) (hm : m.wf = true) : (s.setCanvas m).Ready := by
  refine ⟨⟨by simpa using h.alive, h.models.of_coders (by simp), ?_⟩, ?_, ?_, fun p => by simpa using h.canonical.hist p⟩
  · unfold State.RdGood; simp only [setCanvas_rd, setCanvas_inp]; exact h.rd
  · cases e : s.params.profile.abortWrites <;> simp [State.setCanvas, e]
    · exact h.canonical.ref
    · exact hm
  · cases e : s.params.profile.abortWrites <;> simp [State.setCanvas, e]
    · exact hm
    · exact h.canonical.work

/-- A rectangle inside its plane is written: every sample of it reads back, and every other byte is as before. -/
theorem writeRect_ready {s : State} (h : s.Ready) (p : Plane) (row col hh w : Nat) (v : Nat → Nat → Byte)
    (h1 : row + hh ≤ s.planeH p) (h2 : col + w ≤ s.planeW p) :
    ∃ t m, writeRect p row col hh w v s = .ok t ∧ t = s.setCanvas m ∧ t.Ready ∧ s.WritesIn p row col hh w t ∧
      ∀ r c, r < hh → c < w → t.sample p (row + r) (col + c) = v r c := by
  have hw := planeW_lt s p
  refine ⟨_, _, by unfold writeRect; rw [if_pos ⟨h1, h2⟩], rfl,
    h.setCanvas _ (writeRows_wf _ _ _ _ _ (canvas_wf h.canonical)), fun a ha => ?_, fun r c hr hc => ?_⟩
  · rw [setCanvas_canvas]
    exact read_writeRows_ne _ _ _ _ _ _ fun r c hr hc e => ha ⟨r, c, hr, hc, e⟩
  · unfold State.sample
    rw [setCanvas_canvas]
    refine read_writeRows _ (fun r c => sampleAddr p (row + r) (col + c)) v _ _ r c (canvas_wf h.canonical) hr hc
      fun r c r' c' _ k2 _ k4 e => ?_
    have := sampleAddr_inj (by omega) (by omega) e
    omega

/-- A square of the current block is written. -/
theorem writeSquare_ready {s : State} (h : s.Ready) (p : Plane) (r0 c0 n : Nat) (v : Nat → Nat → Byte)
    (hf : s.BlockFits p) (h1 : r0 + n ≤ p.bs) (h2 : c0 + n ≤ p.bs) (x : Part) :
    ∃ t m, writeSquare p r0 c0 n v s = .ok t ∧ t = s.setCanvas m ∧ s.BlockTo p x t ∧
      s.WritesIn p ((s.origin p).1 + r0) ((s.origin p).2 + c0) n n t ∧
      ∀ r c, r < n → c < n → t.sample p ((s.origin p).1 + r0 + r) ((s.origin p).2 + c0 + c) = v r c := by
  obtain ⟨f1, f2⟩ := hf
  obtain ⟨t, m, ht, hm, hr, hw, hs⟩ := writeRect_ready h p ((s.origin p).1 + r0) ((s.origin p).2 + c0) n n v (by omega)
    (by omega)
  refine ⟨t, m, ht, hm, ⟨hr, ?_, .of_coders (by rw [hm]; simp) p x, fun a ha => hw a fun hi => ha ?_⟩, hw, hs⟩
  · rw [hm]; exact steady_setCanvas s m
  · obtain ⟨r, c, hr, hc, e⟩ := hi
    exact ⟨r0 + r, c0 + c, by omega, by omega, by rw [e, ← Nat.add_assoc, ← Nat.add_assoc]⟩

/-- One sample of the current block is written. -/
theorem writeBlock_ready {s : State} (h : s.Ready) (p : Plane) (r c : Nat) (v : Byte) (hf : s.BlockFits p) (h1 : r < p.bs)
    (h2 : c < p.bs) (x : Part) :
    ∃ t m, writeBlock p r c v s = .ok t ∧ t = s.setCanvas m ∧ s.BlockTo p x t ∧
      s.WritesIn p ((s.origin p).1 + r) ((s.origin p).2 + c) 1 1 t ∧
      t.sample p ((s.origin p).1 + r) ((s.origin p).2 + c) = v := by
  obtain ⟨f1, f2⟩ := hf
  refine ⟨_, _, by unfold writeBlock writeSample; rw [if_pos ⟨by omega, by omega⟩], rfl,
    ⟨h.setCanvas _ (write_wf _ _ _ (canvas_wf h.canonical)), steady_setCanvas s _, .of_coders (by simp) p x,
      fun a ha => ?_⟩, fun a ha => ?_, ?_⟩
  · rw [setCanvas_canvas]
    exact read_write_ne _ _ fun e => ha ⟨r, c, h1, h2, e⟩
  · rw [setCanvas_canvas]
    exact read_write_ne _ _ fun e => ha ⟨0, 0, by omega, by omega, e⟩
  · unfold State.sample
    rw [setCanvas_canvas]
    exact read_write_same _ _ _ (canvas_wf h.canonical)

/-! ## Fill (rules R170, R171) -/

/-- FILL: the delta enters `fill_val`, and every sample of the block is its low byte. -/
theorem fillBlock_ready {s : State} (h : s.Ready) (p : Plane) (hf : s.BlockFits p) :
    ∃ k u t, decodeCoeff (.fill p) s = .ok (k, u) ∧ k.natAbs ≤ 2064 ∧ fillBlock p s = .ok t ∧ s.BlockTo p .fill t ∧
      (t.coder p).fill.fillVal = (s.coder p).fill.fillVal + wrapI32 k ∧ t.rd = u.rd ∧ t.seq = s.seq ∧
      (t.coder p).fill.coef = (u.coder p).fill.coef ∧ t.scratch = u.scratch ∧
      ∀ r c, r < p.bs → c < p.bs → t.sample p ((s.origin p).1 + r) ((s.origin p).2 + c) =
        fillSample ((s.coder p).fill.fillVal + wrapI32 k) := by
  obtain ⟨k, u, hu, hd, hk⟩ := decodeCoeff_ready h (.fill p)
  have hd : s.Decodes p .fill u := hd
  let w := setFillVal p ((u.coder p).fill.fillVal + wrapI32 k) u
  have hw : w.Ready :=
    ⟨⟨hd.ready.alive, hd.ready.models.setFillVal p _, hd.ready.rd⟩, hd.ready.canonical.ref, hd.ready.canonical.work,
      fun q => by simpa [w] using hd.ready.canonical.hist q⟩
  have hst : u.Steady w := steady_setFillVal u p _
  have hb : u.BlockTo p .fill w :=
    ⟨hw, hst, onlyPart_setFillVal u p _, .of_canvas (by simp [w]) p⟩
  obtain ⟨t, m, ht, hm, hbt, -, hs⟩ := writeSquare_ready hw p 0 0 p.bs
    (fun _ _ => fillSample ((u.coder p).fill.fillVal + wrapI32 k))
    ((hst.blockFits p).mpr ((hd.steady.blockFits p).mpr hf)) (by omega) (by omega) .fill
  have hv := hd.fillVal p
  refine ⟨k, u, t, hu, hk, by unfold fillBlock; rw [hu]; exact ht, (hd.blockTo.trans hb).trans hbt, ?_, ?_, ?_, ?_, ?_, ?_⟩
  · rw [hm, setCanvas_coder]; simp [w, setFillVal, hv]
  · rw [hm]; simp [w]
  · rw [hm]; simp [w, hd.seq]
  · rw [hm, setCanvas_coder]; simp [w, setFillVal]
  · rw [hm]; simp [w]
  · intro r c hr hc
    have := hs r c hr hc
    rw [hst.origin, hd.steady.origin] at this
    simpa [hv] using this

/-! ## Image (rules R173 to R176) -/

theorem palEntry_ready {s : State} (h : s.Ready) (p : Plane) (k : Fin 4) :
    ∃ v u t, decByte (.pal p) s = .ok (v, u) ∧ palEntry p k s = .ok t ∧ s.BlockTo p .image t ∧
      t = u.setImg { u.scratch.img with vec := u.scratch.img.vec.set k (BitVec.ofFin v) } ∧ s.Decodes p .image u := by
  obtain ⟨v, u, hu, hd⟩ := decByte_ready h (.pal p)
  exact ⟨v, u, _, hu, by unfold palEntry; rw [hu]; rfl, hd.blockTo.trans (.setImg hd.ready _ p .image), rfl, hd⟩

theorem imageHeader_ready {s : State} (h : s.Ready) (p : Plane) :
    ∃ t, imageHeader p s = .ok t ∧ s.BlockTo p .image t := by
  obtain ⟨v, u, hu, hd, -⟩ := decSmall_ready h (.vs p)
  have hd : s.Decodes p .image u := hd
  have h1 : u.BlockTo p .image (setVecSize v u) := .setImg hd.ready _ p .image
  obtain ⟨t, ht, hb⟩ := forRange_ok (fun _ t => u.BlockTo p .image t) (fun k s => palEntry p (Fin.ofNat 4 k) s) (vecSize v)
    (setVecSize v u) (fun k w _ hw => by
      obtain ⟨_, _, t, _, ht, hb, _⟩ := palEntry_ready hw.ready p (Fin.ofNat 4 k)
      exact ⟨t, ht, hw.trans hb⟩) h1
  exact ⟨clearImage t, by unfold imageHeader; rw [hu, ok_bind]; exact (congrArg (fun x => x.map clearImage) ht),
    (hd.blockTo.trans hb).trans (.setImg hb.ready _ p .image)⟩

/-- The current pixel is inside the block. -/
def State.PixelIn (s : State) (p : Plane) : Prop := s.seq.j.val < p.bs ∧ s.seq.i.val < p.bs

theorem escLiteral_ready {s : State} (h : s.Ready) (p : Plane) (hf : s.BlockFits p) (hp : s.PixelIn p) :
    ∃ v u t, decByte (.esc p) s = .ok (v, u) ∧ escLiteral p s = .ok t ∧ s.BlockTo p .image t ∧ s.Decodes p .image u ∧
      (∃ m, t = u.setCanvas m) ∧
      s.WritesIn p ((s.origin p).1 + s.seq.j.val) ((s.origin p).2 + s.seq.i.val) 1 1 t ∧
      t.sample p ((s.origin p).1 + s.seq.j.val) ((s.origin p).2 + s.seq.i.val) = BitVec.ofFin v := by
  obtain ⟨v, u, hu, hd⟩ := decByte_ready h (.esc p)
  have hd : s.Decodes p .image u := hd
  obtain ⟨h1, h2⟩ := hp
  obtain ⟨t, m, ht, hm, hb, hw, hs⟩ := writeBlock_ready hd.ready p u.seq.j.val u.seq.i.val (BitVec.ofFin v)
    ((hd.steady.blockFits p).mpr hf) (by rw [hd.seq]; exact h1) (by rw [hd.seq]; exact h2) .image
  rw [hd.steady.origin, hd.seq] at hw hs
  exact ⟨v, u, t, hu, by unfold escLiteral; rw [hu]; exact ht, hd.blockTo.trans hb, hd, ⟨m, hm⟩,
    fun a ha => (hw a ha).trans (by rw [hd.canvas]), hs⟩

theorem vecSize_le (v : Fin 3) : 2 ≤ vecSize v ∧ vecSize v ≤ 4 := by unfold vecSize; omega

/-- PIXEL(A) below the limit: the palette entry is written, and nothing is decoded (rule R175). -/
theorem imagePixel_palette {s : State} (h : s.Ready) (p : Plane) (hf : s.BlockFits p) (hp : s.PixelIn p) (a : Fin 5)
    (ha : a.val < s.vqLimit) :
    ∃ t m, imagePixel p a s = .ok t ∧ t = s.setCanvas m ∧ s.BlockTo p .image t ∧
      s.WritesIn p ((s.origin p).1 + s.seq.j.val) ((s.origin p).2 + s.seq.i.val) 1 1 t ∧
      t.sample p ((s.origin p).1 + s.seq.j.val) ((s.origin p).2 + s.seq.i.val) =
        s.scratch.img.vec[a.val]'(Nat.lt_of_lt_of_le ha (vqLimit_le s)) := by
  unfold imagePixel
  rw [dif_pos ha]
  exact writeBlock_ready h p _ _ _ hf hp.1 hp.2 .image

theorem imagePixel_ready {s : State} (h : s.Ready) (p : Plane) (hf : s.BlockFits p) (hp : s.PixelIn p) (a : Fin 5) :
    ∃ t, imagePixel p a s = .ok t ∧ s.BlockTo p .image t ∧ t.seq = s.seq := by
  by_cases ha : a.val < s.vqLimit
  · obtain ⟨t, m, ht, hm, hb, -⟩ := imagePixel_palette h p hf hp a ha
    exact ⟨t, ht, hb, by rw [hm]; simp⟩
  · obtain ⟨_, u, t, _, ht, hb, hd, ⟨m, hm⟩, -⟩ := escLiteral_ready h p hf hp
    exact ⟨t, by unfold imagePixel; rw [dif_neg ha]; exact ht, hb, by rw [hm]; simp [hd.seq]⟩

theorem vqClass_ready {s : State} (h : s.Ready) (p : Plane) (hf : s.BlockFits p) (hp : s.PixelIn p) (a : Fin 5) :
    ∃ t, vqClass p a s = .ok t ∧ s.BlockTo p .image t ∧ t.seq = s.seq := by
  have h1 : s.BlockTo p .image (s.setImg { s.scratch.img with a := a, prevLine := s.scratch.img.prevLine.set s.seq.i a }) :=
    .setImg h _ p .image
  obtain ⟨t, ht, hb, hs⟩ := imagePixel_ready h1.ready p ((h1.steady.blockFits p).mpr hf) hp a
  exact ⟨t, ht, h1.trans hb, hs⟩

theorem imageStep_ready {s : State} (h : s.Ready) (p : Plane) (hf : s.BlockFits p) (r c : Nat) (hr : r < p.bs)
    (hc : c < p.bs) : ∃ t, imageStep p r c s = .ok t ∧ s.BlockTo p .image t := by
  have hb := (bs_le p).2
  let s1 := s.setSeq { s.seq with j := Fin.ofNat 16 r, i := Fin.ofNat 16 c }
  have h1 : s.BlockTo p .image s1 := .setSeq h _ (by rfl) (by rfl) (by rfl) p .image
  let s2 := s1.setImg { s1.scratch.img with b := s1.scratch.img.prevLine[s1.seq.i] }
  have h2 : s1.BlockTo p .image s2 := .setImg h1.ready _ p .image
  obtain ⟨v, u, hu, hd, -⟩ := decSmall_ready h2.ready
    (.vq p (vqContext s1.scratch.img.a s1.scratch.img.prevLine[s1.seq.i] s1.scratch.img.b))
  have hd : s2.Decodes p .image u := hd
  have h3 := (h1.trans h2).trans hd.blockTo
  obtain ⟨t, ht, hbt, -⟩ := vqClass_ready hd.ready p ((h3.steady.blockFits p).mpr hf) (by
    unfold State.PixelIn
    rw [hd.seq]
    show r % 16 < p.bs ∧ c % 16 < p.bs
    exact ⟨Nat.lt_of_le_of_lt (Nat.mod_le _ _) hr, Nat.lt_of_le_of_lt (Nat.mod_le _ _) hc⟩) v
  refine ⟨t, ?_, h3.trans hbt⟩
  unfold imageStep
  show (decSmall (.vq p (vqContext s1.scratch.img.a s1.scratch.img.prevLine[s1.seq.i] s1.scratch.img.b)) s2).bind _ = _
  rw [hu]
  exact ht

theorem imageBlock_ready {s : State} (h : s.Ready) (p : Plane) (hf : s.BlockFits p) :
    ∃ t, imageBlock p s = .ok t ∧ s.BlockTo p .image t := by
  obtain ⟨u, hu, hb⟩ := imageHeader_ready h p
  obtain ⟨t, ht, hbt⟩ := forRange_ok (fun _ t => s.BlockTo p .image t) (imageRow p) p.bs u (fun r w hr hw => by
    have h1 : w.BlockTo p .image (w.setImg { w.scratch.img with a := 0, b := 0 }) := .setImg hw.ready _ p .image
    obtain ⟨t, ht, hbt⟩ := forRange_ok (fun _ t => s.BlockTo p .image t) (imageStep p r) p.bs
      (w.setImg { w.scratch.img with a := 0, b := 0 }) (fun c x hc hx => by
        obtain ⟨t, ht, hbt⟩ := imageStep_ready hx.ready p ((hx.steady.blockFits p).mpr hf) r c hr hc
        exact ⟨t, ht, hx.trans hbt⟩) (hw.trans h1)
    exact ⟨t, ht, hbt⟩) hb
  exact ⟨t, by unfold imageBlock; rw [hu]; exact ht, hbt⟩

/-! ## Haar (rules R215 to R220) -/

theorem haarCoef_ready {s : State} (h : s.Ready) (p : Plane) (j i : Nat) :
    ∃ t, haarCoef p j i s = .ok t ∧ s.BlockTo p .haar t := by
  let s1 := s.setSeq { s.seq with j := Fin.ofNat 16 j, i := Fin.ofNat 16 i }
  have h1 : s.BlockTo p .haar s1 := .setSeq h _ (by rfl) (by rfl) (by rfl) p .haar
  have hv : ∃ v u, (if i < p.bs / 2 ∧ j < p.bs / 2 then haarLl p s1 else haarHf p s1) = .ok (v, u) ∧ s1.Decodes p .haar u := by
    split
    · obtain ⟨v, u, hu, hd⟩ := decByte_ready h1.ready (.hi p)
      exact ⟨_, u, by unfold haarLl; rw [hu]; rfl, hd⟩
    · obtain ⟨v, u, hu, hd, -⟩ := decodeCoeff_ready h1.ready (.haar p)
      exact ⟨v, u, hu, hd⟩
  obtain ⟨v, u, hu, hd⟩ := hv
  refine ⟨_, by unfold haarCoef; dsimp only; rw [show s.setSeq _ = s1 from rfl, hu]; rfl, (h1.trans hd.blockTo).trans
    (.of_steady hd.ready (steady_setHaarBlk _ _) (by rfl) (by rfl) (by rfl) (by rfl) p .haar)⟩

theorem haarRead_ready {s : State} (h : s.Ready) (p : Plane) : ∃ t, haarRead p s = .ok t ∧ s.BlockTo p .haar t :=
  forRange_ok (fun _ t => s.BlockTo p .haar t) (fun j => forRange p.bs (haarCoef p j)) p.bs s (fun j _ _ hw =>
    forRange_ok (fun _ t => s.BlockTo p .haar t) (haarCoef p j) p.bs _ (fun i _ _ hx => by
      obtain ⟨t, ht, hb⟩ := haarCoef_ready hx.ready p j i
      exact ⟨t, ht, hx.trans hb⟩) hw) (.refl h p .haar)

theorem haarButterfly_ready {s : State} (h : s.Ready) (p : Plane) (hf : s.BlockFits p) :
    ∃ t m, haarButterfly p s = .ok t ∧ t = s.setCanvas m ∧ s.BlockTo p .haar t ∧
      ∀ r c, r < p.bs → c < p.bs → t.sample p ((s.origin p).1 + r) ((s.origin p).2 + c) =
        haarSample s.scratch.haarBlk (p.bs / 2) r c := by
  obtain ⟨t, m, ht, hm, hb, -, hs⟩ := writeSquare_ready h p 0 0 p.bs (haarSample s.scratch.haarBlk (p.bs / 2)) hf (by omega)
    (by omega) .haar
  exact ⟨t, m, ht, hm, hb, by simpa using hs⟩

theorem haarBlock_ready {s : State} (h : s.Ready) (p : Plane) (hf : s.BlockFits p) :
    ∃ t, haarBlock p s = .ok t ∧ s.BlockTo p .haar t := by
  obtain ⟨u, hu, hb⟩ := haarRead_ready h p
  obtain ⟨t, _, ht, _, hbt, -⟩ := haarButterfly_ready hb.ready p ((hb.steady.blockFits p).mpr hf)
  exact ⟨t, by unfold haarBlock; rw [hu]; exact ht, hb.trans hbt⟩

/-! ## DCT (rules R190 to R205) -/

theorem histRead_ok {s : State} {p : Plane} {bx dy : Nat} (h1 : bx < s.histW p) (h2 : dy < s.histH p) :
    histRead p bx dy s = .ok ((s.coder p).dct.hist.read (histAddr bx dy)) := by
  unfold histRead; rw [if_pos ⟨h1, h2⟩]

theorem dcPredict_ok {s : State} {p : Plane} {bx dy : Nat} (h1 : bx < s.histW p) (h2 : dy < s.histH p) :
    ∃ v, dcPredict p bx dy s = .ok v := by
  unfold dcPredict
  by_cases hy : 0 < dy <;> by_cases hx : 0 < bx
  · rw [if_pos ⟨hy, hx⟩, histRead_ok (by omega) h2, ok_bind, histRead_ok h1 (by omega), ok_bind,
      histRead_ok (by omega) (by omega)]
    exact ⟨_, rfl⟩
  · rw [if_neg fun e => hx e.2, if_pos hy, histRead_ok h1 (by omega)]; exact ⟨_, rfl⟩
  · rw [if_neg fun e => hy e.1, if_neg hy, if_pos hx, histRead_ok (by omega) h2]; exact ⟨_, rfl⟩
  · rw [if_neg fun e => hy e.1, if_neg hy, if_neg hx]; exact ⟨_, rfl⟩

/-- The history entry of a position inside is written, and no other one. -/
theorem histWrite_ready {s : State} (h : s.Ready) (p : Plane) (bx dy : Nat) (v : I32) (h1 : bx < s.histW p)
    (h2 : dy < s.histH p) :
    ∃ t, histWrite p bx dy v s = .ok t ∧ s.BlockTo p .dct t ∧
      t = s.setCoder p { s.coder p with
        dct := { (s.coder p).dct with hist := (s.coder p).dct.hist.write (histAddr bx dy) v } } := by
  refine ⟨_, by unfold histWrite; rw [if_pos ⟨h1, h2⟩], ?_, rfl⟩
  have hs := steady_setCoder s p { s.coder p with
        dct := { (s.coder p).dct with hist := (s.coder p).dct.hist.write (histAddr bx dy) v } } rfl rfl
  refine ⟨⟨⟨h.alive, ⟨fun r => ?_, fun r => ?_, fun r => ?_⟩, h.rd⟩, h.canonical.ref, h.canonical.work, fun q => ?_⟩, hs,
    onlyPart_setCoder s p _ .dct (fun _ => rfl) (fun _ => rfl) (fun _ => rfl) (fun e => absurd rfl e) (fun _ => rfl), .of_canvas (by rfl) p⟩
  · have : (s.setCoder p { s.coder p with
        dct := { (s.coder p).dct with hist := (s.coder p).dct.hist.write (histAddr bx dy) v } }).small r = s.small r := by
      by_cases e : r.plane = p
      · cases r <;> simp only [SmallRef.plane] at e <;> subst e <;> simp [State.small]
      · exact small_congr (setCoder_coder_ne s _ e)
    rw [this]; exact h.models.small r
  · have : (s.setCoder p { s.coder p with
        dct := { (s.coder p).dct with hist := (s.coder p).dct.hist.write (histAddr bx dy) v } }).byte r = s.byte r := by
      by_cases e : r.plane = p
      · cases r <;> simp only [ByteRef.plane] at e <;> subst e <;> simp [State.byte]
      · exact byte_congr (setCoder_coder_ne s _ e)
    rw [this]; exact h.models.byte r
  · have : (s.setCoder p { s.coder p with
        dct := { (s.coder p).dct with hist := (s.coder p).dct.hist.write (histAddr bx dy) v } }).bin r = s.bin r := by
      by_cases e : r.plane = p
      · cases r; simp only [BinRef.plane] at e; subst e; simp [State.bin]
      · exact bin_congr (setCoder_coder_ne s _ e)
    rw [this]; exact h.models.bin r
  · by_cases e : q = p
    · subst e
      rw [setCoder_coder_same]
      exact write_wf _ _ _ (h.canonical.hist q)
    · rw [setCoder_coder_ne s _ e]; exact h.canonical.hist q

theorem dcStore_ready {s : State} (h : s.Ready) (p : Plane) (bx dy : Nat) (delta : Int) (pred : I32) (h1 : bx < s.histW p)
    (h2 : dy < s.histH p) : ∃ t, dcStore p bx dy delta pred s = .ok t ∧ s.BlockTo p .dct t := by
  obtain ⟨t, ht, hb, -⟩ := histWrite_ready h p bx dy (wrapI32 (delta + pred.toInt)) h1 h2
  exact ⟨_, by unfold dcStore; dsimp only; rw [ht]; rfl, hb.trans (.of_steady hb.ready (steady_setDctBlk _ _) (by rfl) (by rfl) (by rfl) (by rfl) p .dct)⟩

theorem acSign_ready {s : State} (h : s.Ready) (p : Plane) :
    ∃ k t, acSign p s = .ok (k, t) ∧ s.Decodes p .dct t ∧ k = signed t.scratch.neg 1 := by
  obtain ⟨b, t, ht, hd⟩ := decBin_ready h (.sign p)
  exact ⟨_, _, by unfold acSign; rw [ht]; rfl, hd.trans (hd.ready.decodes_setNeg _ p .dct), by simp⟩

/-- AC_EXTRA is COEF_EXTRA with a larger count (rules R94, R201). -/
theorem acExtra_eq (n : Nat) (s : State) : acExtra n s = coefExtra n s := rfl

theorem acValue_ready {s : State} (h : s.Ready) (p : Plane) (c : Nat) (hc : 1 ≤ c) (hc' : c ≤ 15) :
    ∃ k t, acValue p c s = .ok (k, t) ∧ s.Decodes p .dct t ∧ InClass c k := by
  obtain ⟨k, t, ht, hd, hk⟩ := acSign_ready h p
  unfold acValue InClass
  have h0 : c ≠ 0 := by omega
  simp only [if_neg h0]
  by_cases h1 : c = 1
  · refine ⟨k, t, by rw [ht, ok_bind, if_neg (by omega)], hd, ?_⟩
    rw [if_pos h1, hk, signed_natAbs]
  · obtain ⟨k', t', ht', hd', hn, e, he, hk'⟩ := coefExtra_ready hd.ready (c - 1) (by omega) p .dct
    refine ⟨k', t', by rw [ht, ok_bind, if_pos (by omega)]; exact ht', hd.trans hd', ?_⟩
    rw [if_neg h1, hk', signed_natAbs]
    have hp : 2 ^ c = 2 * 2 ^ (c - 1) := by
      rw [← Nat.pow_succ']; congr 1; omega
    omega

theorem acLevel_ready {s : State} (h : s.Ready) (p : Plane) (pos c : Nat) (hp : pos < 64) (hc : 1 ≤ c) (hc' : c ≤ 15) :
    ∃ k u t, acValue p c s = .ok (k, u) ∧ InClass c k ∧ s.Decodes p .dct u ∧ acLevel p pos c s = .ok t ∧
      s.BlockTo p .dct t ∧ t = u.setDctBlk (u.scratch.dctBlk.set (zigzag ⟨pos, hp⟩)
        (wrapI32 (k * ((u.coder p).dct.qmat[u.quantIndex ⟨pos, hp⟩].toNat : Int)))) := by
  obtain ⟨k, u, hu, hd, hk⟩ := acValue_ready h p c hc hc'
  exact ⟨k, u, _, hu, hk, hd, by unfold acLevel; rw [dif_pos hp, hu]; rfl,
    hd.blockTo.trans (.of_steady hd.ready (steady_setDctBlk _ _) (by rfl) (by rfl) (by rfl) (by rfl) p .dct), rfl⟩

/-- A token of the AC loop: it runs, writes no sample and no history, and either ends the scan or moves on below 64. -/
structure State.TokenTo (s : State) (p : Plane) (t : State) : Prop where
  block : s.BlockTo p .dct t
  canvas : t.canvas = s.canvas
  hist : (t.coder p).dct.hist = (s.coder p).dct.hist
  moves : t.scratch.scan = .running → s.seq.pos < t.seq.pos ∧ t.seq.pos < 64

theorem scanAt_running {k : Nat} (h : scanAt k = .running) : k < 64 := by
  unfold scanAt at h
  split at h
  · assumption
  · split at h <;> cases h

theorem acRl_ready {s : State} (h : s.Ready) (p : Plane) (r c : Nat) (hc : 1 ≤ c) (hc' : c ≤ 15) :
    ∃ t, acRl p r c s = .ok t ∧ s.TokenTo p t ∧ (64 ≤ s.seq.pos + r → t = (s.setPos (s.seq.pos + r)).setScan .malformed) := by
  have h1 : s.BlockTo p .dct (s.setPos (s.seq.pos + r)) := .of_steady h (steady_setPos s _) (by rfl) (by rfl) (by rfl) (by rfl) p .dct
  unfold acRl
  dsimp only
  by_cases hp : 64 ≤ s.seq.pos + r
  · rw [if_pos (show 64 ≤ (s.setPos (s.seq.pos + r)).seq.pos from hp)]
    exact ⟨_, rfl, ⟨h1.trans (.of_steady h1.ready (steady_setScan _ _) (by rfl) (by rfl) (by rfl) (by rfl) p .dct), rfl, rfl,
      fun e => by cases e⟩, fun _ => rfl⟩
  · rw [if_neg (show ¬ 64 ≤ (s.setPos (s.seq.pos + r)).seq.pos from hp)]
    obtain ⟨k, u, t, -, -, hd, ht, hb, he⟩ := acLevel_ready h1.ready p (s.setPos (s.seq.pos + r)).seq.pos c
      (by show s.seq.pos + r < 64; omega) hc hc'
    rw [ht]
    have hseq : t.seq.pos = s.seq.pos + r := by rw [he]; show u.seq.pos = _; rw [hd.seq]; rfl
    have h2 : t.BlockTo p .dct ((t.setPos (t.seq.pos + 1)).setScan (scanAt (t.seq.pos + 1))) :=
      .of_steady hb.ready ((steady_setPos t _).trans (steady_setScan _ _)) (by rfl) (by rfl) (by rfl) (by rfl) p .dct
    refine ⟨_, rfl, ⟨(h1.trans hb).trans h2, ?_, ?_, fun e => ?_⟩, fun e => absurd e hp⟩
    · show t.canvas = _; rw [he]; show u.canvas = _; rw [hd.canvas]; rfl
    · show (t.coder p).dct.hist = _; rw [he]; show (u.coder p).dct.hist = _; rw [hd.hist]; rfl
    · have := scanAt_running e
      refine ⟨?_, this⟩
      show s.seq.pos < t.seq.pos + 1
      omega

theorem acToken_ready {s : State} (h : s.Ready) (p : Plane) (tok : Byte) : ∃ t, acToken p tok s = .ok t ∧ s.TokenTo p t := by
  have hb : ∀ t, s.Steady t → t.coders = s.coders → t.rd = s.rd → t.ref = s.ref → t.work = s.work → s.BlockTo p .dct t :=
    fun t k a b c d => .of_steady h k a b c d p .dct
  unfold acToken
  split
  · exact ⟨_, rfl, ⟨hb _ (steady_setScan _ _) rfl rfl rfl rfl, rfl, rfl, fun e => by cases e⟩⟩
  · split
    · refine ⟨_, rfl, ⟨hb _ ((steady_setPos s _).trans (steady_setScan _ _)) rfl rfl rfl rfl, rfl, rfl, fun e => ?_⟩⟩
      have e' : s.seq.pos + 16 < 64 := scanAt_running e
      refine ⟨?_, e'⟩
      show s.seq.pos < s.seq.pos + 16
      omega
    · split
      · exact ⟨_, rfl, ⟨hb _ (steady_setScan _ _) rfl rfl rfl rfl, rfl, rfl, fun e => by cases e⟩⟩
      · rename_i hc
        obtain ⟨t, ht, hk, -⟩ := acRl_ready h p (tokRun tok) (tokClass tok) (by omega)
          (by unfold tokClass; have := (tok.extractLsb' 0 4).isLt; omega)
        exact ⟨t, ht, hk⟩

/-- The AC loop ends: with enough tokens left, the scan is not running afterwards (rule R206). -/
theorem acLoop_ready {s : State} (h : s.Ready) (p : Plane) (n : Nat) (hp : s.seq.pos < 64 → 64 ≤ s.seq.pos + n)
    (hrun : s.scratch.scan = .running → s.seq.pos < 64) :
    ∃ t, acLoop p n s = .ok t ∧ s.BlockTo p .dct t ∧ t.canvas = s.canvas ∧ (t.coder p).dct.hist = (s.coder p).dct.hist ∧
      t.scratch.scan ≠ .running := by
  induction n generalizing s with
  | zero =>
    refine ⟨s, rfl, .refl h p .dct, rfl, rfl, fun e => ?_⟩
    have := hrun e; have := hp this; omega
  | succ n ih =>
    obtain ⟨v, u, hu, hd⟩ := decByte_ready h (.ac p)
    have hd : s.Decodes p .dct u := hd
    obtain ⟨t, ht, hk⟩ := acToken_ready hd.ready p (BitVec.ofFin v)
    have hb := hd.blockTo.trans hk.block
    have hc : t.canvas = s.canvas := hk.canvas.trans hd.canvas
    have hh : (t.coder p).dct.hist = (s.coder p).dct.hist := hk.hist.trans (hd.hist p)
    rw [acLoop, hu, ok_bind, ht, ok_bind]
    cases e : t.scratch.scan with
    | running =>
      obtain ⟨m1, m2⟩ := hk.moves e
      rw [hd.seq] at m1
      obtain ⟨w, hw, k1, k2, k3, k4⟩ := ih hk.block.ready (fun _ => by
        by_cases h64 : s.seq.pos < 64
        · have := hp h64; omega
        · omega) (fun _ => m2)
      exact ⟨w, hw, hb.trans k1, k2.trans hc, k3.trans hh, k4⟩
    | ok => exact ⟨t, rfl, hb, hc, hh, by rw [e]; simp⟩
    | malformed => exact ⟨t, rfl, hb, hc, hh, by rw [e]; simp⟩

/-- AC_DECODE ends (rules R198, R206). -/
theorem acDecode_ready {s : State} (h : s.Ready) (p : Plane) :
    ∃ ok t, acDecode p s = .ok (ok, t) ∧ s.BlockTo p .dct t ∧ t.canvas = s.canvas ∧
      (t.coder p).dct.hist = (s.coder p).dct.hist ∧ t.scratch.scan ≠ .running ∧ (ok = true ↔ t.scratch.scan = .ok) := by
  have h1 : s.BlockTo p .dct ((s.setPos 1).setScan .running) :=
    .of_steady h ((steady_setPos s 1).trans (steady_setScan _ _)) (by rfl) (by rfl) (by rfl) (by rfl) p .dct
  obtain ⟨t, ht, hb, hc, hh, hs⟩ := acLoop_ready h1.ready p 63 (fun _ => by show 64 ≤ 1 + 63; omega)
    (fun _ => by show 1 < 64; omega)
  exact ⟨_, t, by unfold acDecode; rw [ht]; rfl, h1.trans hb, hc, hh, hs, by simp⟩

theorem dctSub_ready {s : State} (h : s.Ready) (p : Plane) (bx dy : Nat) (h1 : bx < s.histW p) (h2 : dy < s.histH p) :
    ∃ ok t, dctSub p bx dy s = .ok (ok, t) ∧ s.BlockTo p .dct t ∧ t.canvas = s.canvas := by
  have h0 : s.BlockTo p .dct (s.setDctBlk (Vector.replicate 64 0)) :=
    .of_steady h (steady_setDctBlk s _) (by rfl) (by rfl) (by rfl) (by rfl) p .dct
  obtain ⟨k, u, hu, hd, -⟩ := decodeCoeff_ready h0.ready (.dctDc p)
  have hd : (s.setDctBlk (Vector.replicate 64 0)).Decodes p .dct u := hd
  have hsu := h0.steady.trans hd.steady
  obtain ⟨pr, hpr⟩ := dcPredict_ok (s := u) (p := p) (by rw [hsu.histW]; exact h1) (by rw [hsu.histH]; exact h2)
  obtain ⟨w, hw, -, -⟩ := histWrite_ready hd.ready p bx dy (wrapI32 (k + pr.toInt)) (by rw [hsu.histW]; exact h1)
    (by rw [hsu.histH]; exact h2)
  obtain ⟨t, ht, hbt⟩ := dcStore_ready hd.ready p bx dy k pr (by rw [hsu.histW]; exact h1) (by rw [hsu.histH]; exact h2)
  obtain ⟨ok, x, hx, hbx, hc, -⟩ := acDecode_ready hbt.ready p
  have htc : t.canvas = u.canvas := by
    unfold dcStore at ht
    obtain ⟨y, hy, rfl⟩ := map_eq_ok ht
    unfold histWrite at hy
    split at hy
    · cases hy; rfl
    · cases hy
  refine ⟨ok, x, ?_, (h0.trans hd.blockTo).trans (hbt.trans hbx), hc.trans (htc.trans hd.canvas)⟩
  unfold dctSub
  rw [hu, ok_bind, hpr, ok_bind, ht, ok_bind, hx]

theorem idctWrite_ready {s : State} (h : s.Ready) (p : Plane) (r0 c0 : Nat) (hf : s.BlockFits p) (h1 : r0 + 8 ≤ p.bs)
    (h2 : c0 + 8 ≤ p.bs) :
    ∃ t m, idctWrite p r0 c0 s = .ok t ∧ t = s.setCanvas m ∧ s.BlockTo p .dct t ∧
      s.WritesIn p ((s.origin p).1 + r0) ((s.origin p).2 + c0) 8 8 t ∧
      ∀ r c, r < 8 → c < 8 → t.sample p ((s.origin p).1 + r0 + r) ((s.origin p).2 + c0 + c) =
        (s.params.inverseDct s.scratch.dctBlk)[Fin.ofNat 64 (8 * r + c)] := by
  exact writeSquare_ready h p r0 c0 8 (fun r c => (s.params.inverseDct s.scratch.dctBlk)[Fin.ofNat 64 (8 * r + c)]) hf h1 h2 .dct

theorem dctFrom_ready {s : State} (h : s.Ready) (p : Plane) (hf : s.BlockFits p) (hh : s.HistFits p) (k n : Nat)
    (hk : k + n ≤ p.nb * p.nb) : ∃ t, dctFrom p k n s = .ok t ∧ s.BlockTo p .dct t := by
  induction n generalizing k s with
  | zero => exact ⟨s, rfl, .refl h p .dct⟩
  | succ n ih =>
    have hnb : p.nb = 1 ∨ p.nb = 2 := by cases p <;> simp [Plane.nb]
    have hbs : p.bs = 8 * p.nb := by cases p <;> rfl
    have hk4 : k < 4 := by rcases hnb with e | e <;> rw [e] at hk <;> omega
    let s1 := s.setSeq { s.seq with sb := Fin.ofNat 4 k }
    have h1 : s.BlockTo p .dct s1 := .setSeq h _ (by rfl) (by rfl) (by rfl) p .dct
    have hsb : s1.seq.sb.val = k := by show k % 4 = k; omega
    have hj : s1.seq.sb.val / p.nb < p.nb := by rw [hsb, Nat.div_lt_iff_lt_mul (by rcases hnb with e | e <;> omega)]; omega
    have hi : s1.seq.sb.val % p.nb < p.nb := Nat.mod_lt _ (by rcases hnb with e | e <;> omega)
    obtain ⟨g1, g2⟩ := (h1.steady.histFits p).mpr hh
    obtain ⟨ok, u, hu, hb, -⟩ := dctSub_ready h1.ready p (p.nb * s1.seq.mbx + s1.seq.sb.val % p.nb)
      (p.nb * s1.seq.mby + s1.seq.sb.val / p.nb) (by omega) (by omega)
    unfold dctFrom
    dsimp only
    rw [show s.setSeq _ = s1 from rfl, hu, ok_bind]
    have hsu := h1.trans hb
    by_cases hok : ok = true
    · rw [if_pos hok]
      obtain ⟨w, m, hw, -, hbw, -⟩ := idctWrite_ready hb.ready p (8 * (s1.seq.sb.val / p.nb)) (8 * (s1.seq.sb.val % p.nb))
        ((hsu.steady.blockFits p).mpr hf) (by omega) (by omega)
      have hsw := hsu.trans hbw
      obtain ⟨t, ht, hbt⟩ := ih hbw.ready ((hsw.steady.blockFits p).mpr hf) ((hsw.steady.histFits p).mpr hh) (k + 1) (by omega)
      exact ⟨t, by dsimp only; rw [hw]; exact ht, hsw.trans hbt⟩
    · rw [if_neg hok]
      exact ⟨_, rfl, hsu.trans (.of_steady hb.ready (steady_setBlkErr _) (by rfl) (by rfl) (by rfl) (by rfl) p .dct)⟩

theorem dctBlock_ready {s : State} (h : s.Ready) (p : Plane) (hf : s.BlockFits p) (hh : s.HistFits p) :
    ∃ t, dctBlock p s = .ok t ∧ s.BlockTo p .dct t :=
  dctFrom_ready h p hf hh 0 (p.nb * p.nb) (by omega)

end Sys2Proof.Machine
end

