-- ==== Sys2Proof/Laws/Resets.lean ====
section
/-! SUPPORT. What the keyframe reset and the construction leave, as plain states (rules R231, R238). -/

namespace Sys2Proof.Machine

/-- The coders of one plane after the keyframe reset: construction values, the matrix and the scale kept (rule R238). -/
def PlaneCoders.afterReset (c : PlaneCoders) : PlaneCoders :=
  { PlaneCoders.initial with
    dct := { PlaneCoders.initial.dct with qmat := c.dct.qmat }
    haar := { PlaneCoders.initial.haar with scale := c.haar.scale } }

/-- The state after KEYFRAME_RESET. -/
def State.afterReset (s : State) : State :=
  { s with coders := { y := s.coders.y.afterReset, c1 := s.coders.c1.afterReset, c2 := s.coders.c2.afterReset } }

variable (s : State) (p : Plane) (c d : PlaneCoders)

@[simp] theorem setCoder_setCoder : (s.setCoder p c).setCoder p d = s.setCoder p d := by cases p <;> rfl

@[simp] theorem setCoder_self : s.setCoder p (s.coder p) = s := by cases p <;> rfl

/-- Every `max_upd_val` of the coder is its alphabet's constant (rules R35, R36). -/
structure PlaneCoders.MaxOk (c : PlaneCoders) : Prop where
  bt : ∀ t : Fin 5, c.bt.models[t].maxUpdVal.toNat = 8 * 5 + 48
  fill : c.fill.coef.maxUpdVal.toNat = 8 * 12 + 48
  vs : c.image.vs.maxUpdVal.toNat = 8 * 3 + 48
  pal : c.image.pal.base.maxUpdVal.toNat = 2096
  esc : c.image.esc.base.maxUpdVal.toNat = 2096
  vq : ∀ x : Fin 125, c.image.vq[x].maxUpdVal.toNat = 8 * 5 + 48
  dc : c.dct.dc.maxUpdVal.toNat = 8 * 12 + 48
  ac : c.dct.ac.base.maxUpdVal.toNat = 2096
  haar : c.haar.coef.maxUpdVal.toNat = 8 * 12 + 48
  hi : c.haar.hi.base.maxUpdVal.toNat = 2096

theorem maxOk_of (hs : ∀ m : SmallRef, (s.small m).maxUpdVal.toNat = 8 * m.size + 48)
    (hb : ∀ m : ByteRef, (s.byte m).base.maxUpdVal.toNat = 2096) : (s.coder p).MaxOk :=
  ⟨fun t => hs (.bt p t), hs (.fillCoef p), hs (.vs p), hb (.pal p), hb (.esc p), fun x => hs (.vq p x), hs (.dctDc p),
    hb (.ac p), hs (.haarCoef p), hb (.hi p)⟩

variable {n : Nat}

theorem FreqModel.reset_max (m : FreqModel n) (hn : 2 ≤ n) (hn' : n ≤ 256) (hm : m.maxUpdVal.toNat = 8 * n + 48) :
    m.reset = .ok (FreqModel.initial n) := by
  rw [m.reset_eq hn hn']
  have : m.maxUpdVal = (FreqModel.initial n).maxUpdVal := by
    rw [← BitVec.toNat_inj, hm]
    show _ = (BitVec.ofNat 32 (8 * n + 48)).toNat
    rw [BitVec.toNat_ofNat]; exact (Nat.mod_eq_of_lt (by omega)).symm
  rw [this]

theorem ByteModel.reset_max (m : ByteModel) (hm : m.base.maxUpdVal.toNat = 2096) : m.reset = .ok ByteModel.initial := by
  rw [m.reset_eq]
  have : m.base.maxUpdVal = (FreqModel.initial 256).maxUpdVal := by rw [← BitVec.toNat_inj, hm]; rfl
  rw [this]
  rfl

/-- Writing every entry of a table of models in turn leaves the table of the values written. -/
theorem forRange_models {k : Nat} (f : Nat → State → Res State) (g : Vector (FreqModel 5) k → PlaneCoders)
    (v0 : Vector (FreqModel 5) k) (x : FreqModel 5)
    (h : ∀ (i : Fin k) (v : Vector (FreqModel 5) k), v[i] = v0[i] →
      f i.val (s.setCoder p (g v)) = .ok (s.setCoder p (g (v.set i x)))) :
    forRange k f (s.setCoder p (g v0)) = .ok (s.setCoder p (g (Vector.replicate k x))) := by
  obtain ⟨t, ht, v, hv, h1, -⟩ := forRange_ok (fun j t => ∃ v : Vector (FreqModel 5) k, t = s.setCoder p (g v) ∧
      (∀ i : Fin k, i.val < j → v[i] = x) ∧ ∀ i : Fin k, j ≤ i.val → v[i] = v0[i]) f k (s.setCoder p (g v0))
    (fun j t hj ⟨v, hv, h1, h2⟩ => by
      refine ⟨_, by rw [hv]; exact h ⟨j, hj⟩ v (h2 ⟨j, hj⟩ (le_refl _)), _, rfl, fun i hi => ?_, fun i hi => ?_⟩
      · by_cases e : i.val = j
        · simp [e]
        · have e' : j ≠ i.val := fun x => e x.symm
          have := h1 i (by omega)
          simpa [Vector.getElem_set, e'] using this
      · have e' : j ≠ i.val := by omega
        have := h2 i (by omega)
        simpa [Vector.getElem_set, e'] using this) ⟨v0, rfl, fun i hi => absurd hi (Nat.not_lt_zero _), fun _ _ => rfl⟩
  rw [ht, hv]
  congr 3
  apply Vector.ext
  intro i hi
  simpa using h1 ⟨i, hi⟩ hi

/-! ### An operation on a model register, as a step from one coder value to the next -/

theorem onSmall_fillCoef (f : FreqModel _ → Res (FreqModel _)) : onSmall (.fillCoef p) f (s.setCoder p c) =
    (f c.fill.coef).map fun v => s.setCoder p { c with fill := { c.fill with coef := v } } := by
  rw [onSmall]
  simp only [State.small, setCoder_coder_same]
  congr 1
  funext v
  simp only [State.setSmall, setCoder_coder_same, setCoder_setCoder]

theorem onSmall_vs (f : FreqModel _ → Res (FreqModel _)) : onSmall (.vs p) f (s.setCoder p c) =
    (f c.image.vs).map fun v => s.setCoder p { c with image := { c.image with vs := v } } := by
  rw [onSmall]
  simp only [State.small, setCoder_coder_same]
  congr 1
  funext v
  simp only [State.setSmall, setCoder_coder_same, setCoder_setCoder]

theorem onSmall_dctDc (f : FreqModel _ → Res (FreqModel _)) : onSmall (.dctDc p) f (s.setCoder p c) =
    (f c.dct.dc).map fun v => s.setCoder p { c with dct := { c.dct with dc := v } } := by
  rw [onSmall]
  simp only [State.small, setCoder_coder_same]
  congr 1
  funext v
  simp only [State.setSmall, setCoder_coder_same, setCoder_setCoder]

theorem onSmall_haarCoef (f : FreqModel _ → Res (FreqModel _)) : onSmall (.haarCoef p) f (s.setCoder p c) =
    (f c.haar.coef).map fun v => s.setCoder p { c with haar := { c.haar with coef := v } } := by
  rw [onSmall]
  simp only [State.small, setCoder_coder_same]
  congr 1
  funext v
  simp only [State.setSmall, setCoder_coder_same, setCoder_setCoder]

theorem onSmall_bt (i : Fin 5) (f : FreqModel _ → Res (FreqModel _)) : onSmall (.bt p i) f (s.setCoder p c) =
    (f c.bt.models[i]).map fun v => s.setCoder p { c with bt := { c.bt with models := c.bt.models.set i v } } := by
  rw [onSmall]
  simp only [State.small, setCoder_coder_same]
  congr 1
  funext v
  simp only [State.setSmall, setCoder_coder_same, setCoder_setCoder]

theorem onSmall_vq (i : Fin 125) (f : FreqModel _ → Res (FreqModel _)) : onSmall (.vq p i) f (s.setCoder p c) =
    (f c.image.vq[i]).map fun v => s.setCoder p { c with image := { c.image with vq := c.image.vq.set i v } } := by
  rw [onSmall]
  simp only [State.small, setCoder_coder_same]
  congr 1
  funext v
  simp only [State.setSmall, setCoder_coder_same, setCoder_setCoder]

theorem onByte_pal (f : ByteModel → Res ByteModel) : onByte (.pal p) f (s.setCoder p c) =
    (f c.image.pal).map fun v => s.setCoder p { c with image := { c.image with pal := v } } := by
  rw [onByte]
  simp only [State.byte, setCoder_coder_same]
  congr 1
  funext v
  simp only [State.setByte, setCoder_coder_same, setCoder_setCoder]

theorem onByte_esc (f : ByteModel → Res ByteModel) : onByte (.esc p) f (s.setCoder p c) =
    (f c.image.esc).map fun v => s.setCoder p { c with image := { c.image with esc := v } } := by
  rw [onByte]
  simp only [State.byte, setCoder_coder_same]
  congr 1
  funext v
  simp only [State.setByte, setCoder_coder_same, setCoder_setCoder]

theorem onByte_ac (f : ByteModel → Res ByteModel) : onByte (.ac p) f (s.setCoder p c) =
    (f c.dct.ac).map fun v => s.setCoder p { c with dct := { c.dct with ac := v } } := by
  rw [onByte]
  simp only [State.byte, setCoder_coder_same]
  congr 1
  funext v
  simp only [State.setByte, setCoder_coder_same, setCoder_setCoder]

theorem onByte_hi (f : ByteModel → Res ByteModel) : onByte (.hi p) f (s.setCoder p c) =
    (f c.haar.hi).map fun v => s.setCoder p { c with haar := { c.haar with hi := v } } := by
  rw [onByte]
  simp only [State.byte, setCoder_coder_same]
  congr 1
  funext v
  simp only [State.setByte, setCoder_coder_same, setCoder_setCoder]

theorem onBin_sign (f : BinModel → Res BinModel) : onBin (.sign p) f (s.setCoder p c) =
    (f c.dct.sign).map fun v => s.setCoder p { c with dct := { c.dct with sign := v } } := by
  rw [onBin]
  simp only [State.bin, setCoder_coder_same]
  congr 1
  funext v
  simp only [State.setBin, setCoder_coder_same, setCoder_setCoder]

/-- The block-type models in turn (rule R238). -/
theorem resetBt (h : ∀ t : Fin 5, c.bt.models[t].maxUpdVal.toNat = 8 * 5 + 48) :
    forRange 5 (fun t => msReset (.bt p (Fin.ofNat 5 t))) (s.setCoder p c) =
      .ok (s.setCoder p { c with bt := { c.bt with models := Vector.replicate 5 (FreqModel.initial 5) } }) := by
  refine forRange_models s p (fun t => msReset (.bt p (Fin.ofNat 5 t)))
    (fun v => { c with bt := { c.bt with models := v } }) c.bt.models (FreqModel.initial 5) (fun i v hv => ?_)
  have e : Fin.ofNat 5 i.val = i := Fin.ext (Nat.mod_eq_of_lt i.isLt)
  rw [e, msReset, onSmall_bt]
  dsimp only
  rw [hv, FreqModel.reset_max _ (by decide) (by decide) (h i), ok_map]

/-- The VQ models in turn (rule R238). -/
theorem resetVq (h : ∀ x : Fin 125, c.image.vq[x].maxUpdVal.toNat = 8 * 5 + 48) :
    forRange 125 (fun t => msReset (.vq p (Fin.ofNat 125 t))) (s.setCoder p c) =
      .ok (s.setCoder p { c with image := { c.image with vq := Vector.replicate 125 (FreqModel.initial 5) } }) := by
  refine forRange_models s p (fun t => msReset (.vq p (Fin.ofNat 125 t)))
    (fun v => { c with image := { c.image with vq := v } }) c.image.vq (FreqModel.initial 5) (fun i v hv => ?_)
  have e : Fin.ofNat 125 i.val = i := Fin.ext (Nat.mod_eq_of_lt i.isLt)
  rw [e, msReset, onSmall_vq]
  dsimp only
  rw [hv, FreqModel.reset_max _ (by decide) (by decide) (h i), ok_map]

theorem resetFillCoef (h : c.fill.coef.maxUpdVal.toNat = 8 * 12 + 48) : msReset (.fillCoef p) (s.setCoder p c) =
    .ok (s.setCoder p { c with fill := { c.fill with coef := FreqModel.initial 12 } }) := by
  rw [msReset, onSmall_fillCoef, FreqModel.reset_max _ (by decide) (by decide) h, ok_map]

theorem resetVs (h : c.image.vs.maxUpdVal.toNat = 8 * 3 + 48) : msReset (.vs p) (s.setCoder p c) =
    .ok (s.setCoder p { c with image := { c.image with vs := FreqModel.initial 3 } }) := by
  rw [msReset, onSmall_vs, FreqModel.reset_max _ (by decide) (by decide) h, ok_map]

theorem resetDctDc (h : c.dct.dc.maxUpdVal.toNat = 8 * 12 + 48) : msReset (.dctDc p) (s.setCoder p c) =
    .ok (s.setCoder p { c with dct := { c.dct with dc := FreqModel.initial 12 } }) := by
  rw [msReset, onSmall_dctDc, FreqModel.reset_max _ (by decide) (by decide) h, ok_map]

theorem resetHaarCoef (h : c.haar.coef.maxUpdVal.toNat = 8 * 12 + 48) : msReset (.haarCoef p) (s.setCoder p c) =
    .ok (s.setCoder p { c with haar := { c.haar with coef := FreqModel.initial 12 } }) := by
  rw [msReset, onSmall_haarCoef, FreqModel.reset_max _ (by decide) (by decide) h, ok_map]

theorem resetPal (h : c.image.pal.base.maxUpdVal.toNat = 2096) : mbReset (.pal p) (s.setCoder p c) =
    .ok (s.setCoder p { c with image := { c.image with pal := ByteModel.initial } }) := by
  rw [mbReset, onByte_pal, ByteModel.reset_max _ h, ok_map]

theorem resetEsc (h : c.image.esc.base.maxUpdVal.toNat = 2096) : mbReset (.esc p) (s.setCoder p c) =
    .ok (s.setCoder p { c with image := { c.image with esc := ByteModel.initial } }) := by
  rw [mbReset, onByte_esc, ByteModel.reset_max _ h, ok_map]

theorem resetAc (h : c.dct.ac.base.maxUpdVal.toNat = 2096) : mbReset (.ac p) (s.setCoder p c) =
    .ok (s.setCoder p { c with dct := { c.dct with ac := ByteModel.initial } }) := by
  rw [mbReset, onByte_ac, ByteModel.reset_max _ h, ok_map]

theorem resetHi (h : c.haar.hi.base.maxUpdVal.toNat = 2096) : mbReset (.hi p) (s.setCoder p c) =
    .ok (s.setCoder p { c with haar := { c.haar with hi := ByteModel.initial } }) := by
  rw [mbReset, onByte_hi, ByteModel.reset_max _ h, ok_map]

theorem resetSign : m2Reset (.sign p) (s.setCoder p c) =
    .ok (s.setCoder p { c with dct := { c.dct with sign := BinModel.initial } }) := by
  rw [m2Reset, onBin_sign, ok_map, BinModel.initial_eq]

theorem setLastType_setCoder (t : Fin 5) : setLastType p t (s.setCoder p c) =
    s.setCoder p { c with bt := { c.bt with lastType := t } } := by
  simp only [setLastType, setCoder_coder_same, setCoder_setCoder]

theorem setFillVal_setCoder (v : I32) : setFillVal p v (s.setCoder p c) =
    s.setCoder p { c with fill := { c.fill with fillVal := v } } := by
  simp only [setFillVal, setCoder_coder_same, setCoder_setCoder]

theorem clearHist_setCoder : clearHist p (s.setCoder p c) =
    s.setCoder p { c with dct := { c.dct with hist := { dflt := 0, cells := [] } } } := by
  simp only [clearHist, setCoder_coder_same, setCoder_setCoder]

/-- KEYFRAME_RESET of one plane (rule R238). -/
theorem resetPlane_setCoder (h : c.MaxOk) : resetPlane p (s.setCoder p c) = .ok (s.setCoder p c.afterReset) := by
  have e1 := resetBt s p c h.bt
  unfold resetPlane
  rw [e1, ok_bind]
  rw [setLastType_setCoder, resetFillCoef, ok_bind, setFillVal_setCoder, resetVs, ok_bind, resetPal, ok_bind, resetEsc,
    ok_bind, resetVq, ok_bind, resetDctDc, ok_bind, resetSign, ok_bind, resetAc, ok_bind, clearHist_setCoder,
    resetHaarCoef, ok_bind, resetHi]
  · rfl
  exacts [h.hi, h.haar, h.ac, h.dc, h.vq, h.esc, h.pal, h.vs, h.fill]

theorem constructFillCoef : msConstruct (.fillCoef p) (s.setCoder p c) = .ok (s.setCoder p { c with fill := { c.fill with coef := FreqModel.initial 12 } }) := by
  rw [msConstruct, onSmall_fillCoef, FreqModel.construct_eq _ (size_le (.fillCoef p)).1 (size_le (.fillCoef p)).2, ok_map]

theorem constructVs : msConstruct (.vs p) (s.setCoder p c) = .ok (s.setCoder p { c with image := { c.image with vs := FreqModel.initial 3 } }) := by
  rw [msConstruct, onSmall_vs, FreqModel.construct_eq _ (size_le (.vs p)).1 (size_le (.vs p)).2, ok_map]

theorem constructDctDc : msConstruct (.dctDc p) (s.setCoder p c) = .ok (s.setCoder p { c with dct := { c.dct with dc := FreqModel.initial 12 } }) := by
  rw [msConstruct, onSmall_dctDc, FreqModel.construct_eq _ (size_le (.dctDc p)).1 (size_le (.dctDc p)).2, ok_map]

theorem constructHaarCoef : msConstruct (.haarCoef p) (s.setCoder p c) = .ok (s.setCoder p { c with haar := { c.haar with coef := FreqModel.initial 12 } }) := by
  rw [msConstruct, onSmall_haarCoef, FreqModel.construct_eq _ (size_le (.haarCoef p)).1 (size_le (.haarCoef p)).2, ok_map]

theorem constructPal : mbConstruct (.pal p) (s.setCoder p c) = .ok (s.setCoder p { c with image := { c.image with pal := ByteModel.initial } }) := by
  rw [mbConstruct, onByte_pal, ByteModel.construct_eq, ok_map]

theorem constructEsc : mbConstruct (.esc p) (s.setCoder p c) = .ok (s.setCoder p { c with image := { c.image with esc := ByteModel.initial } }) := by
  rw [mbConstruct, onByte_esc, ByteModel.construct_eq, ok_map]

theorem constructAc : mbConstruct (.ac p) (s.setCoder p c) = .ok (s.setCoder p { c with dct := { c.dct with ac := ByteModel.initial } }) := by
  rw [mbConstruct, onByte_ac, ByteModel.construct_eq, ok_map]

theorem constructHi : mbConstruct (.hi p) (s.setCoder p c) = .ok (s.setCoder p { c with haar := { c.haar with hi := ByteModel.initial } }) := by
  rw [mbConstruct, onByte_hi, ByteModel.construct_eq, ok_map]

theorem constructBt : forRange 5 (fun t => msConstruct (.bt p (Fin.ofNat 5 t))) (s.setCoder p c) =
    .ok (s.setCoder p { c with bt := { c.bt with models := Vector.replicate 5 (FreqModel.initial 5) } }) := by
  refine forRange_models s p (fun t => msConstruct (.bt p (Fin.ofNat 5 t)))
    (fun v => { c with bt := { c.bt with models := v } }) c.bt.models (FreqModel.initial 5) (fun i v _ => ?_)
  have e : Fin.ofNat 5 i.val = i := Fin.ext (Nat.mod_eq_of_lt i.isLt)
  rw [e, msConstruct, onSmall_bt]
  dsimp only
  rw [FreqModel.construct_eq _ (size_le (.bt p i)).1 (size_le (.bt p i)).2, ok_map]

theorem constructVq : forRange 125 (fun t => msConstruct (.vq p (Fin.ofNat 125 t))) (s.setCoder p c) =
    .ok (s.setCoder p { c with image := { c.image with vq := Vector.replicate 125 (FreqModel.initial 5) } }) := by
  refine forRange_models s p (fun t => msConstruct (.vq p (Fin.ofNat 125 t)))
    (fun v => { c with image := { c.image with vq := v } }) c.image.vq (FreqModel.initial 5) (fun i v _ => ?_)
  have e : Fin.ofNat 125 i.val = i := Fin.ext (Nat.mod_eq_of_lt i.isLt)
  rw [e, msConstruct, onSmall_vq]
  dsimp only
  rw [FreqModel.construct_eq _ (size_le (.vq p i)).1 (size_le (.vq p i)).2, ok_map]

/-- The construction of one plane leaves what the keyframe reset leaves (rule R286). -/
theorem constructPlane_setCoder : constructPlane p (s.setCoder p c) = .ok (s.setCoder p c.afterReset) := by
  unfold constructPlane
  rw [constructBt, ok_bind, constructFillCoef, ok_bind, constructVs, ok_bind, constructPal, ok_bind, constructEsc, ok_bind,
    constructVq, ok_bind, constructDctDc, ok_bind, constructAc, ok_bind, resetSign, ok_bind, constructHaarCoef, ok_bind,
    constructHi, ok_map, setLastType_setCoder, setFillVal_setCoder, clearHist_setCoder]
  rfl

theorem constructPlane_eq : constructPlane p s = .ok (s.setCoder p (s.coder p).afterReset) := by
  have := constructPlane_setCoder s p (s.coder p)
  rwa [setCoder_self] at this

theorem resetPlane_eq (h : (s.coder p).MaxOk) : resetPlane p s = .ok (s.setCoder p (s.coder p).afterReset) := by
  have := resetPlane_setCoder s p (s.coder p) h
  rwa [setCoder_self] at this

/-- Every plane's coders put at their reset values in turn. -/
theorem afterReset_eq : (((s.setCoder .y (s.coder .y).afterReset).setCoder .c1 (s.coder .c1).afterReset).setCoder .c2
    (s.coder .c2).afterReset) = s.afterReset := rfl

/-- KEYFRAME_RESET (rule R238). -/
theorem keyframeReset_eq (hs : ∀ m : SmallRef, (s.small m).maxUpdVal.toNat = 8 * m.size + 48)
    (hb : ∀ m : ByteRef, (s.byte m).base.maxUpdVal.toNat = 2096) : keyframeReset s = .ok s.afterReset := by
  have h := fun p => maxOk_of s p hs hb
  unfold keyframeReset forPlanes
  rw [resetPlane_eq s .y (h .y), ok_bind, resetPlane_eq (s.setCoder .y (s.coder .y).afterReset) .c1 (h .c1), ok_bind]
  exact resetPlane_eq _ .c2 (h .c2)

/-- CONSTRUCT (rule R231). -/
theorem constructInstance_eq (a : ConstructArgs) : constructInstance a s = .ok { State.blank with
    alive := true
    params := { frameW := a.frameW, frameH := a.frameH, profile := a.profile, genQuant := a.genQuant,
                idctPut := a.idctPut, haarScale := a.haarScale }
    ref := a.initPlanes
    cmds := s.cmds } := by
  unfold constructInstance forPlanes
  rw [constructPlane_eq, ok_bind, constructPlane_eq, ok_bind, constructPlane_eq]
  rfl

end Sys2Proof.Machine
end

