-- ==== Sys2Proof/Laws/Commands.lean ====
section
/-! SUPPORT. The frame sequence: every block of an accepted region lies inside its plane and its history, so a block, the walk
and the whole command run to their end, and leave what a host relies on between commands. -/

namespace Sys2Proof.Machine

/-! ## The region (rules R74 to R77, R233) -/

theorem regionOk_iff (k : Params) (g : Region) : regionOk k g = true ↔ g.w.toNat % 16 = 0 ∧ g.h.toNat % 16 = 0 ∧
    g.x.toNat + g.w.toNat ≤ k.frameW.toNat ∧ g.y.toNat + g.h.toNat ≤ k.frameH.toNat := by
  simp [regionOk, and_assoc]

/-- A macroblock of an accepted region has its blocks inside the planes. -/
theorem State.InRegion.blockFits {s : State} (h : s.InRegion) (p : Plane) : s.BlockFits p := by
  obtain ⟨h0, h1, h2⟩ := h
  rw [regionOk_iff] at h0
  cases p <;> simp only [State.BlockFits, State.origin, State.planeH, State.planeW, Plane.bs] <;> omega

/-- A macroblock of an accepted region has its sub-blocks inside the DC histories. -/
theorem State.InRegion.histFits {s : State} (h : s.InRegion) (p : Plane) : s.HistFits p := by
  obtain ⟨h0, h1, h2⟩ := h
  rw [regionOk_iff] at h0
  cases p <;> simp only [State.HistFits, State.histW, State.histH, Plane.nb] <;> omega

/-- A block of an accepted region lies in the region's area. -/
theorem State.InRegion.area {s : State} (h : s.InRegion) (p : Plane) (a : Nat)
    (ha : InRect p (s.origin p).1 (s.origin p).2 p.bs p.bs a) : s.InRegionArea a := by
  obtain ⟨h0, h1, h2⟩ := h
  rw [regionOk_iff] at h0
  obtain ⟨r, c, hr, hc, e⟩ := ha
  cases p
  · refine ⟨.y, 16 * s.seq.mby + r, 16 * s.seq.mbx + c, ?_, ?_, ?_⟩ <;>
      simp only [subsample, Plane.bs, State.origin] at * <;> first | omega | (rw [e]; congr 1 <;> omega)
  · refine ⟨.c1, 8 * s.seq.mby + r, 8 * s.seq.mbx + c, ?_, ?_, ?_⟩ <;>
      simp only [subsample, Plane.bs, State.origin] at * <;> first | omega | (rw [e]; congr 1 <;> omega)
  · refine ⟨.c2, 8 * s.seq.mby + r, 8 * s.seq.mbx + c, ?_, ?_, ?_⟩ <;>
      simp only [subsample, Plane.bs, State.origin] at * <;> first | omega | (rw [e]; congr 1 <;> omega)

/-! ## A block and the walk (rules R242 to R245) -/

/-- What decoding blocks of a region leads to. -/
structure State.WalkTo (s t : State) : Prop where
  ready : t.Ready
  kept : s.Kept t
  writes : ∀ a, ¬ s.InRegionArea a → t.canvas.read a = s.canvas.read a

theorem State.WalkTo.refl {s : State} (h : s.Ready) : s.WalkTo s := ⟨h, .refl s, fun _ _ => rfl⟩

theorem State.Kept.area {s t : State} (h : s.Kept t) (a : Nat) : t.InRegionArea a ↔ s.InRegionArea a := by
  unfold State.InRegionArea; rw [h.inp]

theorem State.WalkTo.trans {s t u : State} (h : s.WalkTo t) (k : t.WalkTo u) : s.WalkTo u :=
  ⟨k.ready, h.kept.trans k.kept, fun a ha => (k.writes a fun x => ha ((h.kept.area a).mp x)).trans (h.writes a ha)⟩

/-- The state in which BLOCK_STEP selects the block's type (rule R243). -/
def State.atBlock (s : State) (p : Plane) (mbx mby : Nat) : State :=
  clearBlkErr (s.setSeq { s.seq with p := p, mbx := mbx, mby := mby })

theorem atBlock_ready {s : State} (h : s.Ready) (p : Plane) (mbx mby : Nat) : (s.atBlock p mbx mby).Ready :=
  h.of_eqs (by rfl) (by rfl) (by rfl) (by rfl) (by rfl) (by rfl)

theorem atBlock_kept (s : State) (p : Plane) (mbx mby : Nat) : s.Kept (s.atBlock p mbx mby) :=
  ⟨rfl, rfl, rfl, rfl, rfl, rfl, rfl, rfl, rfl, fun _ => rfl, fun _ => rfl⟩

theorem dispatchBlock_ready {s : State} (h : s.Ready) (p : Plane) (hr : s.InRegion) (v : Fin 5) :
    ∃ x t, dispatchBlock p v s = .ok t ∧ s.BlockTo p x t := by
  have hf := hr.blockFits p
  match v with
  | 0 => obtain ⟨k, u, t, -, -, ht, hb, -⟩ := fillBlock_ready h p hf; exact ⟨.fill, t, ht, hb⟩
  | 1 => obtain ⟨t, ht, hb⟩ := imageBlock_ready h p hf; exact ⟨.image, t, ht, hb⟩
  | 2 => obtain ⟨t, ht, hb⟩ := dctBlock_ready h p hf (hr.histFits p); exact ⟨.dct, t, ht, hb⟩
  | 3 => obtain ⟨t, ht, hb⟩ := haarBlock_ready h p hf; exact ⟨.haar, t, ht, hb⟩
  | 4 => exact ⟨.bt, s, rfl, .refl h p .bt⟩

/-- BLOCK_STEP on a block of an accepted region (rule R243). -/
theorem blockStep_ready {s : State} (h : s.Ready) (p : Plane) (mbx mby : Nat)
    (hr : regionOk s.params s.inp.region = true) (hx : mbx < s.inp.region.w.toNat / 16)
    (hy : mby < s.inp.region.h.toNat / 16) : ∃ t, blockStep p mbx mby s = .ok t ∧ s.WalkTo t := by
  have h1 := atBlock_ready h p mbx mby
  obtain ⟨v, u, hu, hd, hv⟩ := btSelect_ready h1 p
  have hin : (s.atBlock p mbx mby).InRegion := ⟨hr, hx, hy⟩
  have hin' : u.InRegion := by
    unfold State.InRegion
    rw [hd.steady.params, hd.steady.inp, hd.steady.mbx, hd.steady.mby]
    exact hin
  obtain ⟨x, t, ht, hb⟩ := dispatchBlock_ready hd.ready p hin' v
  refine ⟨t, ?_, hb.ready, (atBlock_kept s p mbx mby).trans (hd.steady.toKept.trans hb.steady.toKept), fun a ha => ?_⟩
  · unfold blockStep
    dsimp only
    show (btSelect p (s.atBlock p mbx mby)).bind _ = _
    rw [hu, ok_bind, ht]
  · rw [hb.writes a fun hi => ha ?_, hd.canvas]
    · rfl
    · have hx := hin'.area p a hi
      rw [hd.steady.toKept.area, (atBlock_kept s p mbx mby).area] at hx
      exact hx

/-- Every block of the walk order is a block of the region. -/
theorem mem_walkOrder {w k mby mbx : Nat} {p : Plane} (h : (mby, mbx, p) ∈ walkOrder w k) : mbx < w ∧ mby < k := by
  unfold walkOrder at h
  simp only [List.mem_flatMap, List.mem_range, List.mem_cons, List.not_mem_nil, or_false] at h
  obtain ⟨y, hy, x, hx, e⟩ := h
  rcases e with e | e | e <;> (cases e; exact ⟨hx, hy⟩)

/-- The walk over blocks of the region: it ends, with no abort raised, or with one raised and taken. -/
theorem walkBlocks_ready (l : List (Nat × Nat × Plane)) {s : State} (h : s.Ready)
    (hr : regionOk s.params s.inp.region = true)
    (hl : ∀ b ∈ l, b.2.1 < s.inp.region.w.toNat / 16 ∧ b.1 < s.inp.region.h.toNat / 16) :
    (∃ t, walkBlocks l s = .ok (none, t) ∧ s.WalkTo t) ∨
      ∃ k t, walkBlocks l s = .ok (some k, abortFrame k t) ∧ s.WalkTo t ∧ pendingAbort t = some k := by
  induction l generalizing s with
  | nil => exact .inl ⟨s, rfl, .refl h⟩
  | cons b l ih =>
    obtain ⟨mby, mbx, p⟩ := b
    obtain ⟨hx, hy⟩ := hl _ (List.mem_cons_self ..)
    obtain ⟨t, ht, hb⟩ := blockStep_ready h p mbx mby hr hx hy
    unfold walkBlocks
    rw [ht, ok_bind]
    unfold errorCheck
    cases e : pendingAbort t with
    | some k => exact .inr ⟨k, t, rfl, hb, e⟩
    | none =>
      rcases ih hb.ready (by rw [hb.kept.params, hb.kept.inp]; exact hr)
        (fun b hb' => by rw [hb.kept.inp]; exact hl b (List.mem_cons_of_mem _ hb')) with ⟨u, hu, hw⟩ | ⟨k, u, hu, hw, hk⟩
      · exact .inl ⟨u, hu, hb.trans hw⟩
      · exact .inr ⟨k, u, hu, hb.trans hw, hk⟩

/-- MB_WALK (rule R242). -/
theorem mbWalk_ready {s : State} (h : s.Ready) (hr : regionOk s.params s.inp.region = true) :
    (∃ t, mbWalk s = .ok (none, t) ∧ s.WalkTo t) ∨
      ∃ k t, mbWalk s = .ok (some k, abortFrame k t) ∧ s.WalkTo t ∧ pendingAbort t = some k :=
  walkBlocks_ready _ h hr fun _ hb => mem_walkOrder hb

/-! ## The whole command (rules R232 to R247) -/

theorem ModelsGood.maxSmall {s : State} (h : s.ModelsGood) (m : SmallRef) : (s.small m).maxUpdVal.toNat = 8 * m.size + 48 :=
  (h.small m).max_eq

theorem ModelsGood.maxByte {s : State} (h : s.ModelsGood) (m : ByteRef) : (s.byte m).base.maxUpdVal.toNat = 2096 :=
  (h.byte m).base.max_eq

theorem afterReset_models (s : State) : s.afterReset.ModelsGood := by
  refine ⟨fun m => ?_, fun m => ?_, fun m => ?_⟩
  · rw [show s.afterReset.small m = State.blank.small m by cases m with
      | bt p _ | fillCoef p | vs p | vq p _ | dctDc p | haarCoef p => cases p <;> rfl]
    exact initial_models.small m
  · rw [show s.afterReset.byte m = State.blank.byte m by cases m with
      | pal p | esc p | ac p | hi p => cases p <;> rfl]
    exact initial_models.byte m
  · rw [show s.afterReset.bin m = State.blank.bin m by cases m with
      | sign p => cases p <;> rfl]
    exact initial_models.bin m

/-- What the start of a frame leaves as it was, and what it guarantees. -/
structure State.StartTo (s t : State) : Prop where
  canonical : t.Canonical
  models : t.ModelsGood
  params : t.params = s.params
  inp : t.inp = s.inp
  alive : t.alive = s.alive
  status : t.status = s.status
  ret : t.ret = s.ret
  cmds : t.cmds = s.cmds
  issue : t.issue = s.issue
  ref : t.ref = s.ref

theorem State.StartTo.trans {s t u : State} (h : s.StartTo t) (k : t.StartTo u) : s.StartTo u :=
  ⟨k.canonical, k.models, k.params.trans h.params, k.inp.trans h.inp, k.alive.trans h.alive, k.status.trans h.status,
    k.ret.trans h.ret, k.cmds.trans h.cmds, k.issue.trans h.issue, k.ref.trans h.ref⟩

theorem afterReset_start {s : State} (hc : s.Canonical) : s.StartTo s.afterReset :=
  ⟨⟨hc.ref, hc.work, fun p => by cases p <;> rfl⟩, afterReset_models s, rfl, rfl, rfl, rfl, rfl, rfl, rfl, rfl⟩

theorem afterReset_cache {s : State} (h : s.CacheGood) : s.afterReset.CacheGood := fun q hq => by
  obtain ⟨h1, h2⟩ := h q hq
  exact ⟨h1, fun p => by have := h2 p; cases p <;> exact this⟩

theorem keyframeReset_start {s : State} (hc : s.Canonical) (hm : s.ModelsGood) :
    keyframeReset s = .ok s.afterReset ∧ s.StartTo s.afterReset :=
  ⟨keyframeReset_eq s (ModelsGood.maxSmall hm) (ModelsGood.maxByte hm), afterReset_start hc⟩

theorem enterFrame_start {s : State} (hc : s.Canonical) (hm : s.ModelsGood) : s.StartTo (enterFrame s) :=
  ⟨⟨hc.ref, hc.work, hc.hist⟩, hm.of_coders (by rfl), rfl, rfl, rfl, rfl, rfl, rfl, rfl, rfl⟩

/-- FRAME_START (rule R236). -/
theorem frameStart_start {s : State} (hc : s.Canonical) (hm : s.ModelsGood) (hq : s.CacheGood) :
    ∃ t, frameStart s = .ok t ∧ s.StartTo t ∧ t.CacheGood ∧ t.fd = { s.fd with errFlag := false, state := .decoding } := by
  have h1 := enterFrame_start hc hm
  have hq1 : (enterFrame s).CacheGood := hq
  unfold frameStart
  split
  · obtain ⟨h2, h3⟩ := keyframeReset_start h1.canonical h1.models
    exact ⟨_, h2, h1.trans h3, afterReset_cache hq1, rfl⟩
  · exact ⟨_, rfl, h1, hq1, rfl⟩

theorem loadQuality_models {s : State} (hm : s.ModelsGood) (q : Byte) (p : Plane) : (loadQuality q p s).ModelsGood := by
  refine ⟨fun m => ?_, fun m => ?_, fun m => ?_⟩
  · rw [show (loadQuality q p s).small m = s.small m by cases m with
      | bt r _ | fillCoef r | vs r | vq r _ | dctDc r | haarCoef r => cases p <;> cases r <;> rfl]
    exact hm.small m
  · rw [show (loadQuality q p s).byte m = s.byte m by cases m with
      | pal r | esc r | ac r | hi r => cases p <;> cases r <;> rfl]
    exact hm.byte m
  · rw [show (loadQuality q p s).bin m = s.bin m by cases m with
      | sign r => cases p <;> cases r <;> rfl]
    exact hm.bin m

theorem loadQuality_start {s : State} (hc : s.Canonical) (hm : s.ModelsGood) (q : Byte) (p : Plane) :
    s.StartTo (loadQuality q p s) :=
  ⟨⟨hc.ref, hc.work, fun r => by have := hc.hist r; cases p <;> cases r <;> exact this⟩, loadQuality_models hm q p, rfl, rfl, rfl,
    rfl, rfl, rfl, rfl, rfl⟩

/-- QUALITY_CACHE (rule R237). -/
theorem qualityCache_start {s : State} (hc : s.Canonical) (hm : s.ModelsGood) (hq : s.CacheGood)
    (ho : qualityOk s.inp.quality = true) :
    s.StartTo (qualityCache s) ∧ (qualityCache s).CacheGood ∧
      (qualityCache s).fd = { s.fd with qCache := some s.inp.quality } := by
  unfold qualityCache
  dsimp only
  split
  · rename_i e
    exact ⟨⟨hc, hm, rfl, rfl, rfl, rfl, rfl, rfl, rfl, rfl⟩, hq, by rw [← e]⟩
  · have h1 := loadQuality_start hc hm s.inp.quality .y
    have h2 := loadQuality_start h1.canonical h1.models s.inp.quality .c1
    have h3 := loadQuality_start h2.canonical h2.models s.inp.quality .c2
    have h := h1.trans (h2.trans h3)
    refine ⟨⟨⟨h.canonical.ref, h.canonical.work, h.canonical.hist⟩, h.models.of_coders (by rfl), h.params, h.inp, h.alive,
      h.status, h.ret, h.cmds, h.issue, h.ref⟩, fun q e => ?_, rfl⟩
    have e : s.inp.quality = q := by simpa using e
    subst e
    exact ⟨ho, fun p => by cases p <;> exact ⟨rfl, rfl⟩⟩

/-- DECODER_START (rule R241). -/
theorem decoderStart_ready {s : State} (hc : s.Canonical) (hm : s.ModelsGood) (ha : s.alive = true) :
    ∃ t rd, decoderStart s = .ok t ∧ t = { s with rd := rd, work := s.ref } ∧ t.Ready := by
  obtain ⟨rd, hr, hg⟩ := RangeDecoder.init_good s.inp.payload
  refine ⟨{ s with rd := rd, work := s.ref }, rd, ?_, rfl, ⟨ha, hm.of_coders (by rfl), hg⟩, hc.ref, hc.ref, hc.hist⟩
  unfold decoderStart rdInit
  rw [hr]
  rfl

/-- What a frame that is decoded leads to: Committed or Aborted, everything a host relies on in place. -/
structure State.FrameTo (s t : State) : Prop where
  canonical : t.Canonical
  models : t.ModelsGood
  cache : t.CacheGood
  params : t.params = s.params
  inp : t.inp = s.inp
  alive : t.alive = s.alive
  ret : t.ret = s.ret
  cmds : t.cmds = s.cmds
  issue : t.issue = s.issue
  settled : (t.fd.state = .committed ∧ t.fd.errFlag = false ∧ t.status = .ok) ∨
    (t.fd.state = .aborted ∧ t.fd.errFlag = true ∧ (t.status = .truncatedInput ∨ t.status = .malformedBlock))
  writes : ∀ a, ¬ s.InRegionArea a → t.ref.read a = s.ref.read a

theorem kept_cache {s t : State} (h : s.Kept t) (hq : s.CacheGood) : t.CacheGood := fun q e => by
  rw [h.fd] at e
  obtain ⟨h1, h2⟩ := hq q e
  exact ⟨h1, fun p => by rw [h.qmat, h.scale, h.params]; exact h2 p⟩

theorem commit_frame {s t : State} (h : s.StartTo t) (hc : t.Canonical) (hw : t.work.wf = true) (hq : t.CacheGood)
    (he : t.fd.errFlag = false) (hwr : ∀ a, ¬ s.InRegionArea a → t.canvas.read a = s.ref.read a) : s.FrameTo (commit t) := by
  refine ⟨⟨canvas_wf hc, hw, hc.hist⟩, h.models.of_coders (by rfl), hq, h.params, h.inp, h.alive, h.ret, h.cmds, h.issue,
    .inl ⟨rfl, he, rfl⟩, hwr⟩

theorem abortFrame_eq (k : AbortKind) (s : State) : abortFrame k s =
    { s with fd := { s.fd with errFlag := true, state := .aborted }, status := k.status,
             work := match s.params.profile.abortWrites with
               | .discard => s.ref
               | .inPlace => s.work } := by
  unfold abortFrame; dsimp only; cases e : s.params.profile.abortWrites <;> simp [e]

theorem abortFrame_canonical {s : State} (k : AbortKind) (hc : s.Canonical) : (abortFrame k s).Canonical := by
  rw [abortFrame_eq]
  refine ⟨hc.ref, ?_, hc.hist⟩
  dsimp only
  split
  · exact hc.ref
  · exact hc.work

/-- The walk of a frame, and the commit or the abort that ends it. -/
theorem walk_frame {s u : State} (h : s.StartTo u) (hu : u.Ready) (hq : u.CacheGood) (he : u.fd.errFlag = false)
    (hw : u.canvas = s.ref) (hr : regionOk s.params s.inp.region = true) :
    ∃ t, ((mbWalk u).map fun r => match r.1 with
      | some _ => r.2
      | none => commit r.2) = .ok t ∧ s.FrameTo t := by
  have ar : ∀ a, u.InRegionArea a ↔ s.InRegionArea a := fun a => by unfold State.InRegionArea; rw [h.inp]
  rcases mbWalk_ready hu (by rw [h.params, h.inp]; exact hr) with ⟨t, ht, hk⟩ | ⟨k, t, ht, hk, -⟩
  · refine ⟨commit t, by rw [ht]; rfl, ?_⟩
    have hcache' : t.CacheGood := kept_cache hk.kept hq
    have hcache : (commit t).CacheGood := hcache'
    have hs : s.StartTo { t with ref := s.ref } := ⟨⟨?_, hk.ready.canonical.work, hk.ready.canonical.hist⟩,
      hk.ready.models.of_coders (by rfl), hk.kept.params.trans h.params, hk.kept.inp.trans h.inp, hk.kept.alive.trans h.alive,
      hk.kept.status.trans h.status, hk.kept.ret.trans h.ret, hk.kept.cmds.trans h.cmds, hk.kept.issue.trans h.issue, rfl⟩
    · refine ⟨⟨canvas_wf hk.ready.canonical, hk.ready.canonical.work, hk.ready.canonical.hist⟩,
        hk.ready.models.of_coders (by rfl), hcache, hs.params, hs.inp, hs.alive, hs.ret, hs.cmds, hs.issue,
        .inl ⟨rfl, ?_, rfl⟩, fun a ha => ?_⟩
      · show t.fd.errFlag = false
        rw [hk.kept.fd, he]
      · show t.canvas.read a = s.ref.read a
        rw [hk.writes a fun x => ha ((ar a).mp x), hw]
    · rw [← h.ref]; exact hu.canonical.ref
  · refine ⟨abortFrame k t, by rw [ht]; rfl, ?_⟩
    refine ⟨abortFrame_canonical k hk.ready.canonical, hk.ready.models.of_coders (by rw [abortFrame_eq]), ?_, ?_, ?_, ?_, ?_, ?_,
      ?_, .inr ?_, fun a ha => ?_⟩
    · have hc := kept_cache hk.kept hq
      rw [abortFrame_eq]
      exact hc
    · rw [abortFrame_eq]; exact hk.kept.params.trans h.params
    · rw [abortFrame_eq]; exact hk.kept.inp.trans h.inp
    · rw [abortFrame_eq]; exact hk.kept.alive.trans h.alive
    · rw [abortFrame_eq]; exact hk.kept.ret.trans h.ret
    · rw [abortFrame_eq]; exact hk.kept.cmds.trans h.cmds
    · rw [abortFrame_eq]; exact hk.kept.issue.trans h.issue
    · rw [abortFrame_eq]
      exact ⟨rfl, rfl, by cases k <;> simp [AbortKind.status]⟩
    · rw [abortFrame_eq]
      show t.ref.read a = s.ref.read a
      have h1 := hk.writes a fun x => ha ((ar a).mp x)
      have h2 := hk.kept.off
      cases e : u.params.profile.abortWrites with
      | discard =>
        have e' : t.params.profile.abortWrites = .discard := by rw [hk.kept.params]; exact e
        unfold State.offCanvas at h2
        rw [e, e'] at h2
        rw [show t.ref = u.ref from h2, h.ref]
      | inPlace =>
        have e' : t.params.profile.abortWrites = .inPlace := by rw [hk.kept.params]; exact e
        unfold State.canvas at h1 hw
        rw [e, e'] at h1
        rw [e] at hw
        rw [show t.ref.read a = u.ref.read a from h1, show u.ref = s.ref from hw]

/-- The part of DECODE_FRAME after the checks (rule R232). -/
theorem decodeAccepted_frame {s : State} (ha : s.alive = true) (hc : s.Canonical) (hm : s.ModelsGood) (hq : s.CacheGood)
    (hr : regionOk s.params s.inp.region = true) (ho : qualityOk s.inp.quality = true) :
    ∃ t, decodeAccepted s = .ok t ∧ s.FrameTo t := by
  obtain ⟨a, hfa, h1, hqa, hda⟩ := frameStart_start hc hm hq
  obtain ⟨h2, hqb, hdb⟩ := qualityCache_start h1.canonical h1.models hqa (by rw [h1.inp]; exact ho)
  have hb := h1.trans h2
  have heb : (qualityCache a).fd.errFlag = false := by rw [hdb, hda]
  unfold decodeAccepted
  rw [hfa, ok_bind]
  dsimp only
  split
  · exact ⟨_, rfl, ⟨hb.canonical.ref, hb.canonical.work, hb.canonical.hist⟩, hb.models.of_coders (by rfl), hqb, hb.params,
      hb.inp, hb.alive, hb.ret, hb.cmds, hb.issue, .inl ⟨rfl, heb, rfl⟩, fun a _ => by rw [← hb.ref]; rfl⟩
  · obtain ⟨c, hec, h3, hqc, hdc⟩ : ∃ c, everyFrameReset (qualityCache a) = .ok c ∧ (qualityCache a).StartTo c ∧ c.CacheGood ∧
        c.fd = (qualityCache a).fd := by
      unfold everyFrameReset
      split
      · exact ⟨_, rfl, ⟨hb.canonical, hb.models, rfl, rfl, rfl, rfl, rfl, rfl, rfl, rfl⟩, hqb, rfl⟩
      · obtain ⟨h4, h5⟩ := keyframeReset_start hb.canonical hb.models
        exact ⟨_, h4, h5, afterReset_cache hqb, rfl⟩
    have hsc := hb.trans h3
    obtain ⟨d, rd, hd, rfl, hrd⟩ := decoderStart_ready hsc.canonical hsc.models (hsc.alive.trans ha)
    rw [hec, ok_bind, hd, ok_bind]
    refine walk_frame ⟨hrd.canonical, hrd.models, hsc.params, hsc.inp, hsc.alive, hsc.status, hsc.ret, hsc.cmds, hsc.issue,
      hsc.ref⟩ hrd hqc (by show c.fd.errFlag = false; rw [hdc, heb]) ?_ hr
    unfold State.canvas
    dsimp only
    split
    · exact hsc.ref
    · exact hsc.ref

theorem turnedAway_none {s : State} (h : turnedAway s = none) :
    regionOk s.params s.inp.region = true ∧ qualityOk s.inp.quality = true := by
  unfold turnedAway validate at h
  cases h1 : regionOk s.params s.inp.region <;> cases h2 : qualityOk s.inp.quality <;> simp [h1, h2] at h ⊢

/-- DECODE_FRAME from a state a host relies on leads to one, and never to a fault (rules R232, R264). -/
theorem decodeFrame_host {s : State} (a : FrameArgs) (ha : s.alive = true) (h : s.HostInv) :
    ∃ t, decodeFrame a s = .ok t ∧ t.HostInv ∧ t.alive = true ∧ t.cmds = s.cmds ∧ t.params = s.params := by
  unfold decodeFrame
  dsimp only
  split
  · exact ⟨_, rfl, ⟨h.no_issue, ⟨h.canonical.ref, h.canonical.work, h.canonical.hist⟩, h.models.of_coders (by rfl), h.settled,
      h.flag, h.cache⟩, ha, rfl, rfl⟩
  · rename_i e
    obtain ⟨h1, h2⟩ := turnedAway_none e
    obtain ⟨t, ht, hf⟩ := decodeAccepted_frame (s := { s with inp := a }) ha
      ⟨h.canonical.ref, h.canonical.work, h.canonical.hist⟩ (h.models.of_coders (by rfl)) h.cache h1 h2
    refine ⟨t, ht, ⟨hf.issue.trans h.no_issue, hf.canonical, hf.models, ?_, ?_, hf.cache⟩, hf.alive.trans ha, hf.cmds, hf.params⟩
    · rcases hf.settled with ⟨e, -, -⟩ | ⟨e, -, -⟩ <;> rw [e] <;> decide
    · rcases hf.settled with ⟨e, f, -⟩ | ⟨e, f, -⟩ <;> rw [e, f] <;> decide

end Sys2Proof.Machine
end

