-- ==== Sys2Proof/Laws/Invariant.lean ====
section
/-! SUPPORT. What every operation keeps, on any state at all: the canonical memories, the constant of every model, and the
cursor below the end. No goodness of the models or of the interval is assumed. -/

namespace Sys2Proof.Machine

/-- `StepInv` of an instance that exists. -/
structure State.Sound (s : State) : Prop where
  alive : s.alive = true
  canonical : s.Canonical
  small_max : ∀ m : SmallRef, (s.small m).maxUpdVal.toNat = 8 * m.size + 48
  byte_max : ∀ m : ByteRef, (s.byte m).base.maxUpdVal.toNat = 2096
  cursor : s.rd.cur ≤ s.rd.stop

theorem State.Sound.inv {s : State} (h : s.Sound) : s.StepInv :=
  ⟨h.canonical, h.small_max, h.byte_max, h.cursor, fun e => by rw [h.alive] at e; cases e⟩

theorem State.StepInv.sound {s : State} (h : s.StepInv) (ha : s.alive = true) : s.Sound :=
  ⟨ha, h.canonical, h.small_max, h.byte_max, h.cursor⟩

variable {s t : State}

/-- Soundness depends on these fields alone. -/
theorem State.Sound.of_eqs (h : s.Sound) (h1 : t.alive = s.alive) (h2 : t.coders = s.coders) (h3 : t.rd = s.rd)
    (h5 : t.ref = s.ref) (h6 : t.work = s.work) : t.Sound := by
  have hc : ∀ q, t.coder q = s.coder q := fun q => by unfold State.coder; rw [h2]
  exact ⟨h1.trans h.alive, ⟨by rw [h5]; exact h.canonical.ref, by rw [h6]; exact h.canonical.work,
    fun p => by rw [hc]; exact h.canonical.hist p⟩, fun m => by rw [small_congr (hc _)]; exact h.small_max m,
    fun m => by rw [byte_congr (hc _)]; exact h.byte_max m, by rw [h3]; exact h.cursor⟩

theorem State.Sound.setRd (h : s.Sound) (rd : RangeDecoder) (hr : rd.cur ≤ rd.stop) : (s.setRd rd).Sound :=
  ⟨h.alive, ⟨h.canonical.ref, h.canonical.work, h.canonical.hist⟩, fun m => by simpa using h.small_max m,
    fun m => by simpa using h.byte_max m, hr⟩

theorem State.Sound.setSmall (h : s.Sound) (m : SmallRef) (v : FreqModel m.size)
    (hv : v.maxUpdVal.toNat = 8 * m.size + 48) : (s.setSmall m v).Sound := by
  refine ⟨by simpa using h.alive, ⟨by simpa using h.canonical.ref, by simpa using h.canonical.work,
    fun p => by simpa using h.canonical.hist p⟩, fun r => ?_, fun r => by simpa using h.byte_max r, by simpa using h.cursor⟩
  by_cases e : r = m
  · subst e; simpa using hv
  · rw [setSmall_small_ne s v e]; exact h.small_max r

theorem State.Sound.setByte (h : s.Sound) (m : ByteRef) (v : ByteModel) (hv : v.base.maxUpdVal.toNat = 2096) :
    (s.setByte m v).Sound := by
  refine ⟨by simpa using h.alive, ⟨by simpa using h.canonical.ref, by simpa using h.canonical.work,
    fun p => by simpa using h.canonical.hist p⟩, fun r => by simpa using h.small_max r, fun r => ?_, by simpa using h.cursor⟩
  by_cases e : r = m
  · subst e; simpa using hv
  · rw [setByte_byte_ne s v e]; exact h.byte_max r

theorem State.Sound.setBin (h : s.Sound) (m : BinRef) (v : BinModel) : (s.setBin m v).Sound :=
  ⟨by simpa using h.alive, ⟨by simpa using h.canonical.ref, by simpa using h.canonical.work,
    fun p => by simpa using h.canonical.hist p⟩, fun r => by simpa using h.small_max r, fun r => by simpa using h.byte_max r,
    by simpa using h.cursor⟩

theorem State.Sound.setCanvas (h : s.Sound) (m : Store 8) (hm : m.wf = true) : (s.setCanvas m).Sound := by
  refine ⟨by simpa using h.alive, ⟨?_, ?_, fun p => by simpa using h.canonical.hist p⟩, fun r => by simpa using h.small_max r,
    fun r => by simpa using h.byte_max r, by simpa using h.cursor⟩
  · cases e : s.params.profile.abortWrites <;> simp [State.setCanvas, e]
    · exact h.canonical.ref
    · exact hm
  · cases e : s.params.profile.abortWrites <;> simp [State.setCanvas, e]
    · exact hm
    · exact h.canonical.work

/-- A write to the coders of a plane that keeps the constants and a canonical history. -/
theorem State.Sound.setCoder (h : s.Sound) (p : Plane) (c : PlaneCoders) (hh : c.dct.hist.wf = true)
    (h1 : ∀ m : SmallRef, ((s.setCoder p c).small m).maxUpdVal = (s.small m).maxUpdVal)
    (h2 : ∀ m : ByteRef, ((s.setCoder p c).byte m).base.maxUpdVal = (s.byte m).base.maxUpdVal) : (s.setCoder p c).Sound := by
  refine ⟨h.alive, ⟨h.canonical.ref, h.canonical.work, fun q => ?_⟩, fun m => by rw [h1]; exact h.small_max m,
    fun m => by rw [h2]; exact h.byte_max m, h.cursor⟩
  by_cases e : q = p
  · subst e; simpa using hh
  · rw [setCoder_coder_ne s c e]; exact h.canonical.hist q

/-! ## Models -/

theorem FreqModel.halve_max {n : Nat} (m : FreqModel n) : m.halve.maxUpdVal = m.maxUpdVal := by
  unfold FreqModel.halve FreqModel.guardLast
  dsimp only
  split
  · split <;> rfl
  · rfl

theorem FreqModel.rebuildFreqs_max {n : Nat} {m m' : FreqModel n} (h : m.rebuildFreqs = .ok m') :
    m'.maxUpdVal = m.maxUpdVal := by
  unfold FreqModel.rebuildFreqs at h
  split at h
  · cases h
  · cases h; rfl

theorem FreqModel.rescale_max {n : Nat} {m m' : FreqModel n} (h : m.rescale = .ok m') : m'.maxUpdVal = m.maxUpdVal := by
  rw [FreqModel.rebuildFreqs_max h]
  unfold FreqModel.limit
  split
  · exact FreqModel.halve_max _
  · rfl

theorem FreqModel.update_max {n : Nat} {m m' : FreqModel n} {v : Fin n} (h : m.update v = .ok m') :
    m'.maxUpdVal = m.maxUpdVal := by
  unfold FreqModel.update at h
  dsimp only at h
  split at h
  · obtain ⟨a, ha, rfl⟩ := map_eq_ok h
    have := FreqModel.rescale_max ha
    exact this
  · cases h; rfl

theorem FreqModel.reset_maxUpdVal {n : Nat} {m m' : FreqModel n} (h : m.reset = .ok m') : m'.maxUpdVal = m.maxUpdVal := by
  unfold FreqModel.reset at h
  split at h
  · obtain ⟨a, ha, rfl⟩ := map_eq_ok h
    have := FreqModel.update_max ha
    exact this
  · cases h

theorem ByteModel.rebuildSecondary_base {m m' : ByteModel} (h : m.rebuildSecondary = .ok m') : m'.base = m.base := by
  unfold ByteModel.rebuildSecondary at h
  dsimp only at h
  split at h
  · cases h; rfl
  · cases h

theorem ByteModel.update_max {m m' : ByteModel} {v : Fin 256} (h : m.update v = .ok m') :
    m'.base.maxUpdVal = m.base.maxUpdVal := by
  unfold ByteModel.update at h
  dsimp only at h
  split at h
  · obtain ⟨a, ha, hb⟩ := bind_eq_ok h
    obtain ⟨b, hb', rfl⟩ := map_eq_ok hb
    show b.base.maxUpdVal = _
    rw [ByteModel.rebuildSecondary_base hb']
    have := FreqModel.rescale_max ha
    exact this
  · cases h; rfl

theorem ByteModel.reset_maxUpdVal {m m' : ByteModel} (h : m.reset = .ok m') : m'.base.maxUpdVal = m.base.maxUpdVal := by
  unfold ByteModel.reset at h
  obtain ⟨a, ha, rfl⟩ := map_eq_ok h
  have e := ByteModel.update_max ha
  have e1 : a.base.firstPeriod.maxUpdVal = a.base.maxUpdVal := by unfold FreqModel.firstPeriod; rfl
  have e2 : m.base.closing.maxUpdVal = m.base.maxUpdVal := by unfold FreqModel.closing; rfl
  dsimp only at e
  exact e1.trans (e.trans e2)

/-! ## Model registers -/

theorem onBin_sound {m : BinRef} {f : BinModel → Res BinModel} (h : onBin m f s = .ok t) (hs : s.Sound) : t.Sound := by
  obtain ⟨v, -, rfl⟩ := map_eq_ok h
  exact hs.setBin m v

theorem onSmall_sound {m : SmallRef} {f : FreqModel m.size → Res (FreqModel m.size)} (h : onSmall m f s = .ok t)
    (hf : ∀ v, f (s.small m) = .ok v → v.maxUpdVal = (s.small m).maxUpdVal) (hs : s.Sound) : t.Sound := by
  obtain ⟨v, hv, rfl⟩ := map_eq_ok h
  exact hs.setSmall m v (by rw [hf v hv]; exact hs.small_max m)

theorem onByte_sound {m : ByteRef} {f : ByteModel → Res ByteModel} (h : onByte m f s = .ok t)
    (hf : ∀ v, f (s.byte m) = .ok v → v.base.maxUpdVal = (s.byte m).base.maxUpdVal) (hs : s.Sound) : t.Sound := by
  obtain ⟨v, hv, rfl⟩ := map_eq_ok h
  exact hs.setByte m v (by rw [hf v hv]; exact hs.byte_max m)

theorem msReset_sound {m : SmallRef} (h : msReset m s = .ok t) (hs : s.Sound) : t.Sound :=
  onSmall_sound h (fun _ hv => FreqModel.reset_maxUpdVal hv) hs

theorem mbReset_sound {m : ByteRef} (h : mbReset m s = .ok t) (hs : s.Sound) : t.Sound :=
  onByte_sound h (fun _ hv => ByteModel.reset_maxUpdVal hv) hs

theorem msConstruct_sound {m : SmallRef} (h : msConstruct m s = .ok t) (hs : s.Sound) : t.Sound := by
  obtain ⟨v, hv, rfl⟩ := map_eq_ok h
  refine hs.setSmall m v ?_
  rw [FreqModel.reset_maxUpdVal hv]
  show (BitVec.ofNat 32 (8 * m.size + 48)).toNat = _
  rw [BitVec.toNat_ofNat]
  exact Nat.mod_eq_of_lt (by have := size_le m; omega)

theorem mbConstruct_sound {m : ByteRef} (h : mbConstruct m s = .ok t) (hs : s.Sound) : t.Sound := by
  obtain ⟨v, hv, rfl⟩ := map_eq_ok h
  refine hs.setByte m v ?_
  rw [ByteModel.reset_maxUpdVal hv]
  rfl

/-! ## Range decoder -/

variable {pol : ExhaustPolicy} {pay : List Byte}

theorem RangeDecoder.normStep_cursor {rd rd' : RangeDecoder} (h : rd.normStep pol pay = .ok rd') (hr : rd.cur ≤ rd.stop) :
    rd'.cur ≤ rd'.stop := by
  obtain ⟨u, hu, rfl⟩ := map_eq_ok h
  have : u.cur ≤ u.stop := by
    unfold RangeDecoder.refill at hu
    split at hu
    · rename_i hlt
      obtain ⟨b, -, rfl⟩ := map_eq_ok hu
      exact hlt
    · split at hu
      · cases hu; exact hr
      · cases hu; exact hr
  split
  · exact this
  · exact this

theorem RangeDecoder.normLoop_cursor (n : Nat) {rd rd' : RangeDecoder} (h : rd.normLoop pol pay n = .ok rd')
    (hr : rd.cur ≤ rd.stop) : rd'.cur ≤ rd'.stop := by
  induction n generalizing rd with
  | zero =>
    unfold RangeDecoder.normLoop at h
    split at h
    · cases h
    · cases h; exact hr
  | succ n ih =>
    unfold RangeDecoder.normLoop at h
    split at h
    · obtain ⟨u, hu, h⟩ := bind_eq_ok h
      exact ih h (RangeDecoder.normStep_cursor hu hr)
    · cases h; exact hr

theorem RangeDecoder.renorm_cursor {rd rd' : RangeDecoder} (h : rd.renorm pol pay = .ok rd') (hr : rd.cur ≤ rd.stop) :
    rd'.cur ≤ rd'.stop := by
  unfold RangeDecoder.renorm at h
  split at h
  · exact RangeDecoder.normLoop_cursor 3 h hr
  · cases h; exact hr

theorem rdInit_sound (h : rdInit s = .ok t) (hs : s.Sound) : t.Sound := by
  obtain ⟨rd, hr, rfl⟩ := map_eq_ok h
  obtain ⟨rd', hr', hg⟩ := RangeDecoder.init_good s.inp.payload
  rw [hr] at hr'
  cases hr'
  exact hs.setRd rd hg.cur_le

theorem normalise_sound (h : normalise s = .ok t) (hs : s.Sound) : t.Sound := by
  obtain ⟨rd, hr, rfl⟩ := map_eq_ok h
  exact hs.setRd rd (RangeDecoder.normLoop_cursor 3 hr hs.cursor)

theorem getBit_sound {b : Bool} (h : getBit s = .ok (b, t)) (hs : s.Sound) : t.Sound := by
  obtain ⟨r, hr, e⟩ := map_eq_ok h
  obtain ⟨u, hu, rfl⟩ := map_eq_ok hr
  cases e
  refine hs.setRd u (RangeDecoder.renorm_cursor hu ?_)
  unfold RangeDecoder.halveRange
  dsimp only
  split <;> exact hs.cursor

theorem getBits_sound {n v : Nat} (h : getBits n s = .ok (v, t)) (hs : s.Sound) : t.Sound := by
  obtain ⟨r, hr, e⟩ := map_eq_ok h
  unfold RangeDecoder.getBits at hr
  dsimp only at hr
  split at hr
  · cases hr
  · obtain ⟨u, hu, rfl⟩ := map_eq_ok hr
    cases e
    exact hs.setRd u (RangeDecoder.renorm_cursor hu hs.cursor)

theorem decBin_sound {m : BinRef} {b : Bool} (h : decBin m s = .ok (b, t)) (hs : s.Sound) : t.Sound := by
  obtain ⟨r, hr, e⟩ := map_eq_ok h
  obtain ⟨u, hu, hr⟩ := bind_eq_ok hr
  obtain ⟨v, -, rfl⟩ := map_eq_ok hr
  cases e
  refine (hs.setBin m v).setRd u (RangeDecoder.renorm_cursor hu ?_)
  unfold RangeDecoder.splitBin
  dsimp only
  split <;> exact hs.cursor

theorem decSmall_sound {m : SmallRef} {v : Fin m.size} (h : decSmall m s = .ok (v, t)) (hs : s.Sound) : t.Sound := by
  obtain ⟨r, hr, e⟩ := map_eq_ok h
  obtain ⟨x, -, hr⟩ := bind_eq_ok hr
  obtain ⟨w, -, hr⟩ := bind_eq_ok hr
  obtain ⟨u, hu, hr⟩ := bind_eq_ok hr
  obtain ⟨y, hy, rfl⟩ := map_eq_ok hr
  cases e
  exact (hs.setSmall m y (by rw [FreqModel.update_max hy]; exact hs.small_max m)).setRd u
    (RangeDecoder.renorm_cursor hu hs.cursor)

theorem decByte_sound {m : ByteRef} {v : Fin 256} (h : decByte m s = .ok (v, t)) (hs : s.Sound) : t.Sound := by
  obtain ⟨r, hr, e⟩ := map_eq_ok h
  unfold RangeDecoder.decByte at hr
  dsimp only at hr
  split at hr
  · cases hr
  · obtain ⟨w, -, hr⟩ := bind_eq_ok hr
    obtain ⟨u, hu, hr⟩ := bind_eq_ok hr
    obtain ⟨y, hy, rfl⟩ := map_eq_ok hr
    cases e
    exact (hs.setByte m y (by rw [ByteModel.update_max hy]; exact hs.byte_max m)).setRd u
      (RangeDecoder.renorm_cursor hu hs.cursor)

/-! ## Selector and coefficients -/

theorem setLastType_sound (hs : s.Sound) (p : Plane) (v : Fin 5) : (setLastType p v s).Sound :=
  hs.setCoder p _ (hs.canonical.hist p) (fun m => by have := setLastType_small s p v m; rw [setLastType] at this; rw [this])
    (fun m => by have := setLastType_byte s p v m; rw [setLastType] at this; rw [this])

theorem setFillVal_sound (hs : s.Sound) (p : Plane) (v : I32) : (setFillVal p v s).Sound :=
  hs.setCoder p _ (hs.canonical.hist p) (fun m => by have := setFillVal_small s p v m; rw [setFillVal] at this; rw [this])
    (fun m => by have := setFillVal_byte s p v m; rw [setFillVal] at this; rw [this])

theorem clearHist_sound (hs : s.Sound) (p : Plane) : (clearHist p s).Sound :=
  hs.setCoder p _ rfl (fun m => by have := clearHist_small s p m; rw [clearHist] at this; rw [this])
    (fun m => by have := clearHist_byte s p m; rw [clearHist] at this; rw [this])

theorem btSelect_sound {p : Plane} {v : Fin 5} (h : btSelect p s = .ok (v, t)) (hs : s.Sound) : t.Sound := by
  obtain ⟨r, hr, e⟩ := map_eq_ok h
  cases e
  exact setLastType_sound (decSmall_sound hr hs) p _

theorem coefSign_sound {k : Int} (h : coefSign s = .ok (k, t)) (hs : s.Sound) : t.Sound := by
  obtain ⟨r, hr, e⟩ := map_eq_ok h
  cases e
  exact (getBit_sound hr hs).of_eqs rfl rfl rfl rfl rfl

theorem coefExtra_sound {n : Nat} {k : Int} (h : coefExtra n s = .ok (k, t)) (hs : s.Sound) : t.Sound := by
  obtain ⟨r, hr, e⟩ := map_eq_ok h
  cases e
  exact getBits_sound hr hs

theorem coefClass_sound {v : Nat} {k : Int} (h : coefClass v s = .ok (k, t)) (hs : s.Sound) : t.Sound := by
  unfold coefClass at h
  split at h
  · cases h; exact hs
  · split at h
    · exact coefSign_sound h hs
    · obtain ⟨r, hr, h⟩ := bind_eq_ok h
      exact coefExtra_sound h (coefSign_sound hr hs)

theorem decodeCoeff_sound {m : CoefRef} {k : Int} (h : decodeCoeff m s = .ok (k, t)) (hs : s.Sound) : t.Sound := by
  obtain ⟨r, hr, h⟩ := bind_eq_ok h
  exact coefClass_sound h (decSmall_sound hr hs)

/-! ## Samples -/

theorem writeRect_sound {p : Plane} {a b h w : Nat} {v : Nat → Nat → Byte} (e : writeRect p a b h w v s = .ok t)
    (hs : s.Sound) : t.Sound := by
  unfold writeRect at e
  split at e
  · cases e; exact hs.setCanvas _ (writeRows_wf _ _ _ _ _ (canvas_wf hs.canonical))
  · cases e

theorem writeBlock_sound {p : Plane} {a b : Nat} {v : Byte} (e : writeBlock p a b v s = .ok t) (hs : s.Sound) : t.Sound := by
  unfold writeBlock writeSample at e
  split at e
  · cases e; exact hs.setCanvas _ (write_wf _ _ _ (canvas_wf hs.canonical))
  · cases e

/-! ## Fill and Image -/

theorem fillBlock_sound {p : Plane} (h : fillBlock p s = .ok t) (hs : s.Sound) : t.Sound := by
  obtain ⟨r, hr, h⟩ := bind_eq_ok h
  exact writeRect_sound h (setFillVal_sound (decodeCoeff_sound hr hs) p _)

theorem setImg_sound (hs : s.Sound) (v : ImageScratch) : (s.setImg v).Sound := hs.of_eqs rfl rfl rfl rfl rfl

theorem palEntry_sound {p : Plane} {k : Fin 4} (h : palEntry p k s = .ok t) (hs : s.Sound) : t.Sound := by
  obtain ⟨r, hr, rfl⟩ := map_eq_ok h
  exact setImg_sound (decByte_sound hr hs) _

theorem imageHeader_sound {p : Plane} (h : imageHeader p s = .ok t) (hs : s.Sound) : t.Sound := by
  obtain ⟨r, hr, h⟩ := bind_eq_ok h
  obtain ⟨u, hu, rfl⟩ := map_eq_ok h
  exact setImg_sound (forRange_keeps State.Sound _ _ _ _ (fun k a b h h' => palEntry_sound h h') hu
    (setImg_sound (decSmall_sound hr hs) _)) _

theorem escLiteral_sound {p : Plane} (h : escLiteral p s = .ok t) (hs : s.Sound) : t.Sound := by
  obtain ⟨r, hr, h⟩ := bind_eq_ok h
  exact writeBlock_sound h (decByte_sound hr hs)

theorem vqClass_sound {p : Plane} {a : Fin 5} (h : vqClass p a s = .ok t) (hs : s.Sound) : t.Sound := by
  unfold vqClass imagePixel at h
  dsimp only at h
  split at h
  · exact writeBlock_sound h (setImg_sound hs _)
  · exact escLiteral_sound h (setImg_sound hs _)

theorem imageStep_sound {p : Plane} {r c : Nat} (h : imageStep p r c s = .ok t) (hs : s.Sound) : t.Sound := by
  obtain ⟨x, hx, h⟩ := bind_eq_ok h
  refine vqClass_sound h (decSmall_sound hx (setImg_sound (hs.of_eqs ?_ ?_ ?_ ?_ ?_) _)) <;> rfl

theorem imageBlock_sound {p : Plane} (h : imageBlock p s = .ok t) (hs : s.Sound) : t.Sound := by
  obtain ⟨u, hu, h⟩ := bind_eq_ok h
  exact forRange_keeps State.Sound _ _ _ _ (fun r a b h h' => forRange_keeps State.Sound _ _ _ _
    (fun c a b h h' => imageStep_sound h h') h (setImg_sound h' _)) h (imageHeader_sound hu hs)

/-! ## DCT -/

theorem dcStore_sound {p : Plane} {x y : Nat} {d : Int} {q : I32} (h : dcStore p x y d q s = .ok t) (hs : s.Sound) :
    t.Sound := by
  obtain ⟨u, hu, rfl⟩ := map_eq_ok h
  unfold histWrite at hu
  dsimp only at hu
  split at hu
  · cases hu
    refine State.Sound.of_eqs (hs.setCoder p _ (write_wf _ _ _ (hs.canonical.hist p)) (fun m => ?_) (fun m => ?_))
      rfl rfl rfl rfl rfl
    · cases m with
      | bt r _ | fillCoef r | vs r | vq r _ | dctDc r | haarCoef r => cases p <;> cases r <;> rfl
    · cases m with
      | pal r | esc r | ac r | hi r => cases p <;> cases r <;> rfl
  · cases hu

theorem acSign_sound {p : Plane} {k : Int} (h : acSign p s = .ok (k, t)) (hs : s.Sound) : t.Sound := by
  obtain ⟨r, hr, e⟩ := map_eq_ok h
  cases e
  exact (decBin_sound hr hs).of_eqs rfl rfl rfl rfl rfl

theorem acExtra_sound {n : Nat} {k : Int} (h : acExtra n s = .ok (k, t)) (hs : s.Sound) : t.Sound := coefExtra_sound h hs

theorem acLevel_sound {p : Plane} {pos c : Nat} (h : acLevel p pos c s = .ok t) (hs : s.Sound) : t.Sound := by
  unfold acLevel at h
  split at h
  · obtain ⟨r, hr, rfl⟩ := map_eq_ok h
    refine State.Sound.of_eqs ?_ rfl rfl rfl rfl rfl (s := r.2)
    obtain ⟨x, hx, hr⟩ := bind_eq_ok hr
    split at hr
    · exact acExtra_sound hr (acSign_sound hx hs)
    · cases hr; exact acSign_sound hx hs
  · cases h

theorem acRl_sound {p : Plane} {r c : Nat} (h : acRl p r c s = .ok t) (hs : s.Sound) : t.Sound := by
  have h1 : (s.setPos (s.seq.pos + r)).Sound := hs.of_eqs rfl rfl rfl rfl rfl
  unfold acRl at h
  dsimp only at h
  split at h
  · cases h; exact h1.of_eqs rfl rfl rfl rfl rfl
  · obtain ⟨u, hu, rfl⟩ := map_eq_ok h
    exact (acLevel_sound hu h1).of_eqs rfl rfl rfl rfl rfl

theorem acToken_sound {p : Plane} {tok : Byte} (h : acToken p tok s = .ok t) (hs : s.Sound) : t.Sound := by
  unfold acToken at h
  split at h
  · cases h; exact hs.of_eqs rfl rfl rfl rfl rfl
  · split at h
    · cases h; exact hs.of_eqs rfl rfl rfl rfl rfl
    · split at h
      · cases h; exact hs.of_eqs rfl rfl rfl rfl rfl
      · exact acRl_sound h hs

theorem acLoop_sound {p : Plane} (n : Nat) (h : acLoop p n s = .ok t) (hs : s.Sound) : t.Sound := by
  induction n generalizing s with
  | zero => cases h; exact hs
  | succ n ih =>
    obtain ⟨r, hr, h⟩ := bind_eq_ok h
    obtain ⟨u, hu, h⟩ := bind_eq_ok h
    have hus := acToken_sound hu (decByte_sound hr hs)
    split at h
    · exact ih h hus
    · cases h; exact hus

theorem acDecode_sound {p : Plane} {b : Bool} (h : acDecode p s = .ok (b, t)) (hs : s.Sound) : t.Sound := by
  obtain ⟨u, hu, e⟩ := map_eq_ok h
  cases e
  exact acLoop_sound 63 hu (hs.of_eqs rfl rfl rfl rfl rfl)

theorem dctSub_sound {p : Plane} {x y : Nat} {b : Bool} (h : dctSub p x y s = .ok (b, t)) (hs : s.Sound) : t.Sound := by
  obtain ⟨r, hr, h⟩ := bind_eq_ok h
  obtain ⟨q, -, h⟩ := bind_eq_ok h
  obtain ⟨u, hu, h⟩ := bind_eq_ok h
  have h1 : (s.setDctBlk (Vector.replicate 64 0)).Sound := hs.of_eqs rfl rfl rfl rfl rfl
  exact acDecode_sound h (dcStore_sound hu (decodeCoeff_sound hr h1))

theorem dctFrom_sound {p : Plane} (k n : Nat) (h : dctFrom p k n s = .ok t) (hs : s.Sound) : t.Sound := by
  induction n generalizing k s with
  | zero => cases h; exact hs
  | succ n ih =>
    unfold dctFrom at h
    dsimp only at h
    obtain ⟨r, hr, h⟩ := bind_eq_ok h
    have h1 : (s.setSeq { s.seq with sb := Fin.ofNat 4 k }).Sound := hs.of_eqs rfl rfl rfl rfl rfl
    have h2 := dctSub_sound hr h1
    split at h
    · obtain ⟨w, hw, h⟩ := bind_eq_ok h
      exact ih (k + 1) h (writeRect_sound hw h2)
    · cases h; exact h2.of_eqs rfl rfl rfl rfl rfl

/-! ## Haar -/

theorem haarCoef_sound {p : Plane} {j i : Nat} (h : haarCoef p j i s = .ok t) (hs : s.Sound) : t.Sound := by
  unfold haarCoef at h
  dsimp only at h
  obtain ⟨r, hr, rfl⟩ := map_eq_ok h
  have h1 : (s.setSeq { s.seq with j := Fin.ofNat 16 j, i := Fin.ofNat 16 i }).Sound := hs.of_eqs rfl rfl rfl rfl rfl
  refine State.Sound.of_eqs ?_ rfl rfl rfl rfl rfl (s := r.2)
  split at hr
  · obtain ⟨x, hx, rfl⟩ := map_eq_ok hr
    exact decByte_sound hx h1
  · exact decodeCoeff_sound hr h1

theorem haarBlock_sound {p : Plane} (h : haarBlock p s = .ok t) (hs : s.Sound) : t.Sound := by
  obtain ⟨u, hu, h⟩ := bind_eq_ok h
  exact writeRect_sound h (forRange_keeps State.Sound _ _ _ _ (fun j a b h h' => forRange_keeps State.Sound _ _ _ _
    (fun i a b h h' => haarCoef_sound h h') h h') hu hs)

/-! ## Frame steps -/

theorem resetPlane_sound {p : Plane} (h : resetPlane p s = .ok t) (hs : s.Sound) : t.Sound := by
  obtain ⟨a, ha, h⟩ := bind_eq_ok h
  obtain ⟨b, hb, h⟩ := bind_eq_ok h
  obtain ⟨c, hc, h⟩ := bind_eq_ok h
  obtain ⟨d, hd, h⟩ := bind_eq_ok h
  obtain ⟨e, he, h⟩ := bind_eq_ok h
  obtain ⟨f, hf, h⟩ := bind_eq_ok h
  obtain ⟨g, hg, h⟩ := bind_eq_ok h
  obtain ⟨i, hi, h⟩ := bind_eq_ok h
  obtain ⟨j, hj, h⟩ := bind_eq_ok h
  obtain ⟨k, hk, h⟩ := bind_eq_ok h
  have h1 := forRange_keeps State.Sound _ _ _ _ (fun k a b h h' => msReset_sound h h') ha hs
  have h2 := msReset_sound hb (setLastType_sound h1 p 4)
  have h3 := mbReset_sound he (mbReset_sound hd (msReset_sound hc (setFillVal_sound h2 p 0)))
  have h4 := forRange_keeps State.Sound _ _ _ _ (fun k a b h h' => msReset_sound h h') hf h3
  have h5 := mbReset_sound hj (onBin_sound hi (msReset_sound hg h4))
  exact mbReset_sound h (msReset_sound hk (clearHist_sound h5 p))

theorem keyframeReset_sound (h : keyframeReset s = .ok t) (hs : s.Sound) : t.Sound := by
  obtain ⟨a, ha, h⟩ := bind_eq_ok h
  obtain ⟨b, hb, h⟩ := bind_eq_ok h
  exact resetPlane_sound h (resetPlane_sound hb (resetPlane_sound ha hs))

theorem frameStart_sound (h : frameStart s = .ok t) (hs : s.Sound) : t.Sound := by
  have h1 : (enterFrame s).Sound := hs.of_eqs rfl rfl rfl rfl rfl
  unfold frameStart at h
  split at h
  · exact keyframeReset_sound h h1
  · cases h; exact h1

theorem loadQuality_sound (hs : s.Sound) (q : Byte) (p : Plane) : (loadQuality q p s).Sound :=
  hs.setCoder p _ (hs.canonical.hist p) (fun m => by have := loadQuality_small s q p m; rw [loadQuality] at this; rw [this])
    (fun m => by have := loadQuality_byte s q p m; rw [loadQuality] at this; rw [this])

theorem qualityCache_sound (hs : s.Sound) : (qualityCache s).Sound := by
  unfold qualityCache
  dsimp only
  split
  · exact hs
  · exact (loadQuality_sound (loadQuality_sound (loadQuality_sound hs _ .y) _ .c1) _ .c2).of_eqs rfl rfl rfl rfl rfl

theorem everyFrameReset_sound (h : everyFrameReset s = .ok t) (hs : s.Sound) : t.Sound := by
  unfold everyFrameReset at h
  split at h
  · cases h; exact hs
  · exact keyframeReset_sound h hs

theorem decoderStart_sound (h : decoderStart s = .ok t) (hs : s.Sound) : t.Sound := by
  obtain ⟨u, hu, rfl⟩ := map_eq_ok h
  have := rdInit_sound hu hs
  exact ⟨this.alive, ⟨this.canonical.ref, this.canonical.ref, this.canonical.hist⟩, this.small_max, this.byte_max, this.cursor⟩

theorem blockStep_sound {p : Plane} {x y : Nat} (h : blockStep p x y s = .ok t) (hs : s.Sound) : t.Sound := by
  obtain ⟨r, hr, h⟩ := bind_eq_ok h
  have h1 : (s.atBlock p x y).Sound := hs.of_eqs rfl rfl rfl rfl rfl
  have h2 := btSelect_sound hr h1
  unfold dispatchBlock at h
  split at h
  · exact fillBlock_sound h h2
  · exact imageBlock_sound h h2
  · exact dctFrom_sound _ _ h h2
  · exact haarBlock_sound h h2
  · cases h; exact h2

theorem abortFrame_sound (hs : s.Sound) (k : AbortKind) : (abortFrame k s).Sound := by
  have h1 := abortFrame_canonical k hs.canonical
  rw [abortFrame_eq] at h1 ⊢
  exact ⟨hs.alive, h1, hs.small_max, hs.byte_max, hs.cursor⟩

theorem errorCheck_sound (hs : s.Sound) : (errorCheck s).2.Sound := by
  unfold errorCheck
  split
  · exact abortFrame_sound hs _
  · exact hs

theorem walkBlocks_sound (l : List (Nat × Nat × Plane)) {r : Option AbortKind} (h : walkBlocks l s = .ok (r, t))
    (hs : s.Sound) : t.Sound := by
  induction l generalizing s with
  | nil => cases h; exact hs
  | cons b l ih =>
    obtain ⟨mby, mbx, p⟩ := b
    obtain ⟨u, hu, h⟩ := bind_eq_ok h
    have h1 := errorCheck_sound (blockStep_sound hu hs)
    split at h
    · rename_i e; cases h; rw [e] at h1; exact h1
    · rename_i e; rw [e] at h1; exact ih h h1

theorem commit_sound (hs : s.Sound) : (commit s).Sound :=
  ⟨hs.alive, ⟨canvas_wf hs.canonical, hs.canonical.work, hs.canonical.hist⟩, hs.small_max, hs.byte_max, hs.cursor⟩

theorem decodeAccepted_sound (h : decodeAccepted s = .ok t) (hs : s.Sound) : t.Sound := by
  obtain ⟨a, ha, h⟩ := bind_eq_ok h
  have h1 := qualityCache_sound (frameStart_sound ha hs)
  dsimp only at h
  split at h
  · cases h; exact h1.of_eqs rfl rfl rfl rfl rfl
  · obtain ⟨b, hb, h⟩ := bind_eq_ok h
    obtain ⟨c, hc, h⟩ := bind_eq_ok h
    obtain ⟨r, hr, rfl⟩ := map_eq_ok h
    have h2 := walkBlocks_sound _ hr (decoderStart_sound hc (everyFrameReset_sound hb h1))
    split
    · exact h2
    · exact commit_sound h2

theorem decodeFrame_sound {a : FrameArgs} (h : decodeFrame a s = .ok t) (hs : s.Sound) : t.Sound := by
  have h1 : State.Sound { s with inp := a } := hs.of_eqs rfl rfl rfl rfl rfl
  unfold decodeFrame at h
  dsimp only at h
  split at h
  · cases h; exact h1.of_eqs rfl rfl rfl rfl rfl
  · exact decodeAccepted_sound h h1

end Sys2Proof.Machine
end

