-- ==== Sys2Proof/Laws/Primitives.lean ====
section
/-! SUPPORT. The primitives and the coefficient symbols from a state that can decode: the exact state each leads to, and that
it can decode on. Nothing about the memories is assumed. -/

namespace Sys2Proof.Machine

variable {s t : State}

/-- A meaning that cannot fail. -/
theorem live_pure (f : State → State) (ha : s.alive = true) : live s (fun s => .ok (f s)) = .next (f s) := by
  unfold live; rw [if_pos ha]

theorem State.CanDecode.of_eqs (h : s.CanDecode) (h1 : t.alive = s.alive) (h2 : t.coders = s.coders) (h3 : t.rd = s.rd)
    (h4 : t.inp = s.inp) : t.CanDecode :=
  ⟨h1.trans h.alive, h.models.of_coders h2, by unfold State.RdGood; rw [h3, h4]; exact h.rd⟩

theorem State.CanDecode.setRd (h : s.CanDecode) (x : RangeDecoder) (hx : x.Good s.inp.payload) : (s.setRd x).CanDecode :=
  ⟨h.alive, h.models.of_coders (by rfl), hx⟩

theorem State.CanDecode.setSmall (h : s.CanDecode) (m : SmallRef) (v : FreqModel m.size) (hv : v.Good) :
    (s.setSmall m v).CanDecode :=
  ⟨by simpa using h.alive, h.models.setSmall m v hv, by unfold State.RdGood; simp only [setSmall_rd, setSmall_inp]; exact h.rd⟩

theorem State.CanDecode.setByte (h : s.CanDecode) (m : ByteRef) (v : ByteModel) (hv : v.Good) : (s.setByte m v).CanDecode :=
  ⟨by simpa using h.alive, h.models.setByte m v hv, by unfold State.RdGood; simp only [setByte_rd, setByte_inp]; exact h.rd⟩

theorem State.CanDecode.setBin (h : s.CanDecode) (m : BinRef) (v : BinModel) (hv : v.Good) : (s.setBin m v).CanDecode :=
  ⟨by simpa using h.alive, h.models.setBin m v hv, by unfold State.RdGood; simp only [setBin_rd, setBin_inp]; exact h.rd⟩

theorem State.CanDecode.setRet (h : s.CanDecode) (v : Int) : (s.setRet v).CanDecode := h.of_eqs rfl rfl rfl rfl

theorem State.CanDecode.setNeg (h : s.CanDecode) (b : Bool) : (s.setNeg b).CanDecode := h.of_eqs rfl rfl rfl rfl

theorem State.CanDecode.setCanvas (h : s.CanDecode) (m : Store 8) : (s.setCanvas m).CanDecode := by
  unfold State.setCanvas
  split <;> exact h.of_eqs rfl rfl rfl rfl

/-! ## Primitives -/

/-- GET_BIT (rule R119). -/
theorem getBit_can (h : s.CanDecode) : ∃ b rd, getBit s = .ok (b, s.setRd rd) ∧ (s.setRd rd).CanDecode ∧
    s.rd.halveRange.2.renorm s.policy s.inp.payload = .ok rd ∧ b = s.rd.halveRange.1 := by
  obtain ⟨t, hn, ht, hg⟩ := s.rd.getBit_good (pol := s.policy) h.rd
  exact ⟨_, t, by unfold getBit; rw [ht]; rfl, h.setRd t hg, hn, rfl⟩

/-- GET_BITS(n) (rule R121). -/
theorem getBits_can (h : s.CanDecode) (n : Nat) (hn : n ≤ 14) :
    ∃ v rd, getBits n s = .ok (v, s.setRd rd) ∧ v ≤ 2 ^ n + 16 ∧ (s.setRd rd).CanDecode := by
  obtain ⟨t, -, ht, hg, hv⟩ := s.rd.getBits_good (pol := s.policy) h.rd n hn
  exact ⟨_, t, by unfold getBits; rw [ht]; rfl, hv, h.setRd t hg⟩

/-- DEC_BIN(m) (rule R123). -/
theorem decBin_can (h : s.CanDecode) (m : BinRef) : ∃ b x rd, decBin m s = .ok (b, (s.setBin m x).setRd rd) ∧
    ((s.setBin m x).setRd rd).CanDecode := by
  obtain ⟨t, m', -, -, ht, hg, hm⟩ := s.rd.decBin_good (pol := s.policy) h.rd (s.bin m) (h.models.bin m)
  exact ⟨_, m', t, by unfold decBin; rw [ht]; rfl, (h.setBin m m' hm).setRd t (by simpa using hg)⟩

/-- DEC_SMALL(m) (rule R130). -/
theorem decSmall_can (h : s.CanDecode) (m : SmallRef) : ∃ v x rd, decSmall m s = .ok (v, (s.setSmall m x).setRd rd) ∧
    ((s.setSmall m x).setRd rd).CanDecode := by
  obtain ⟨v, t, m', -, -, -, ht, hg, hm⟩ := s.rd.decSmall_good (pol := s.policy) h.rd (s.small m) (h.models.small m)
    (size_le m).1 (size_le m).2
  exact ⟨v, m', t, by unfold decSmall; rw [ht]; rfl, (h.setSmall m m' hm).setRd t (by simpa using hg)⟩

/-- DEC_BYTE(m) (rule R132). -/
theorem decByte_can (h : s.CanDecode) (m : ByteRef) : ∃ v x rd, decByte m s = .ok (v, (s.setByte m x).setRd rd) ∧
    ((s.setByte m x).setRd rd).CanDecode := by
  obtain ⟨v, t, m', -, -, -, ht, hg, hm⟩ := s.rd.decByte_good (pol := s.policy) h.rd (s.byte m) (h.models.byte m)
  exact ⟨v, m', t, by unfold decByte; rw [ht]; rfl, (h.setByte m m' hm).setRd t (by simpa using hg)⟩

/-! ## Coefficients -/

/-- COEF_SIGN (rule R162). -/
theorem coefSign_can (h : s.CanDecode) : ∃ b rd, getBit s = .ok (b, s.setRd rd) ∧
    coefSign s = .ok (signed (s.isNegative b) 1, (s.setRd rd).setNeg (s.isNegative b)) ∧
    ((s.setRd rd).setNeg (s.isNegative b)).CanDecode := by
  obtain ⟨b, rd, e, hc, -⟩ := getBit_can h
  exact ⟨b, rd, e, by unfold coefSign; rw [e]; rfl, hc.setNeg _⟩

/-- COEF_EXTRA(n) and AC_EXTRA(n) (rules R94, R162, R201). -/
theorem coefExtra_can (h : s.CanDecode) (n : Nat) (hn : n ≤ 14) : ∃ e rd, getBits n s = .ok (e, s.setRd rd) ∧
    e ≤ 2 ^ n + 16 ∧ coefExtra n s = .ok (signed s.scratch.neg (2 ^ n + e), s.setRd rd) ∧ (s.setRd rd).CanDecode := by
  obtain ⟨e, rd, he, hv, hc⟩ := getBits_can h n hn
  refine ⟨e, rd, he, hv, ?_, hc⟩
  unfold coefExtra
  rw [he]
  unfold magnitude
  rw [Nat.shiftLeft_eq, Nat.one_mul]
  rfl

/-- The symbols after a coefficient class (rules R162, R163). -/
theorem coefClass_can (h : s.CanDecode) (v : Nat) (hv : v ≤ 15) : ∃ k rd b,
    coefClass v s = .ok (k, (s.setRd rd).setNeg b) ∧ InClass v k ∧ ((s.setRd rd).setNeg b).CanDecode := by
  unfold coefClass InClass
  by_cases h0 : v = 0
  · subst h0
    exact ⟨0, s.rd, s.scratch.neg, rfl, rfl, h.of_eqs rfl rfl rfl rfl⟩
  · rw [if_neg h0]
    obtain ⟨b, rd, -, hs, hc⟩ := coefSign_can h
    by_cases h1 : v = 1
    · rw [if_pos h1, hs]
      exact ⟨_, rd, _, rfl, by rw [if_neg h0, if_pos h1, signed_natAbs], hc⟩
    · rw [if_neg h1, hs]
      obtain ⟨e, rd', -, he, hx, hc'⟩ := coefExtra_can hc (v - 1) (by omega)
      refine ⟨_, rd', _, hx, ?_, hc'⟩
      rw [if_neg h0, if_neg h1, signed_natAbs]
      have : 2 ^ v = 2 * 2 ^ (v - 1) := by
        conv => lhs; rw [show v = v - 1 + 1 by omega, Nat.pow_succ]
        omega
      omega

end Sys2Proof.Machine
end

