-- ==== Sys2Proof/Laws/Sticky.lean ====
section
/-! SUPPORT. What no operation undoes, on any state at all: the parameters stay, `RD.err` stays set (rule R33), and under
ABORT_WRITES = DISCARD the reference planes stay (rules R50, R246). -/

namespace Sys2Proof.Machine

/-- The state `s` comes after the state `o` with these things kept. -/
structure State.After (o s : State) : Prop where
  params : s.params = o.params
  err : o.rd.err = true → s.rd.err = true
  ref : o.params.profile.abortWrites = .discard → s.ref = o.ref

variable {o s t : State}

/-- It depends on these fields alone. -/
theorem State.After.of_eqs (h : o.After s) (h1 : t.params = s.params) (h2 : t.rd = s.rd) (h3 : t.ref = s.ref) : o.After t :=
  ⟨h1.trans h.params, fun e => by rw [h2]; exact h.err e, fun e => h3.trans (h.ref e)⟩

theorem State.After.refl (o : State) : o.After o := ⟨rfl, id, fun _ => rfl⟩

theorem State.After.setRd (h : o.After s) (rd : RangeDecoder) (hr : s.rd.err = true → rd.err = true) : o.After (s.setRd rd) :=
  ⟨h.params, fun e => hr (h.err e), h.ref⟩

theorem State.After.setSmall (h : o.After s) (m : SmallRef) (v : FreqModel m.size) : o.After (s.setSmall m v) :=
  h.of_eqs (by simp) (by simp) (by simp)

theorem State.After.setByte (h : o.After s) (m : ByteRef) (v : ByteModel) : o.After (s.setByte m v) :=
  h.of_eqs (by simp) (by simp) (by simp)

theorem State.After.setBin (h : o.After s) (m : BinRef) (v : BinModel) : o.After (s.setBin m v) :=
  h.of_eqs (by simp) (by simp) (by simp)

theorem State.After.setCanvas (h : o.After s) (m : Store 8) : o.After (s.setCanvas m) := by
  refine ⟨?_, ?_, fun e => ?_⟩
  · rw [← h.params]; unfold State.setCanvas; split <;> rfl
  · intro e; have := h.err e; unfold State.setCanvas; split <;> exact this
  · have e' : s.params.profile.abortWrites = .discard := by rw [h.params]; exact e
    rw [← h.ref e]; unfold State.setCanvas; rw [e']

/-! ## Model registers -/

theorem onBin_after {m : BinRef} {f : BinModel → Res BinModel} (h : onBin m f s = .ok t) (hs : o.After s) : o.After t := by
  obtain ⟨v, -, rfl⟩ := map_eq_ok h
  exact hs.setBin m v

theorem onSmall_after {m : SmallRef} {f : FreqModel m.size → Res (FreqModel m.size)} (h : onSmall m f s = .ok t)
    (hs : o.After s) : o.After t := by
  obtain ⟨v, -, rfl⟩ := map_eq_ok h
  exact hs.setSmall m v

theorem onByte_after {m : ByteRef} {f : ByteModel → Res ByteModel} (h : onByte m f s = .ok t) (hs : o.After s) :
    o.After t := by
  obtain ⟨v, -, rfl⟩ := map_eq_ok h
  exact hs.setByte m v

/-! ## Range decoder -/

variable {pol : ExhaustPolicy} {pay : List Byte}

theorem RangeDecoder.normStep_err {rd rd' : RangeDecoder} (h : rd.normStep pol pay = .ok rd') (e : rd.err = true) :
    rd'.err = true := by
  obtain ⟨u, hu, rfl⟩ := map_eq_ok h
  have : u.err = true := by
    unfold RangeDecoder.refill at hu
    split at hu
    · obtain ⟨b, -, rfl⟩ := map_eq_ok hu
      exact e
    · split at hu
      · cases hu; rfl
      · cases hu; exact e
  split
  · rfl
  · exact this

theorem RangeDecoder.normLoop_err (n : Nat) {rd rd' : RangeDecoder} (h : rd.normLoop pol pay n = .ok rd')
    (e : rd.err = true) : rd'.err = true := by
  induction n generalizing rd with
  | zero =>
    unfold RangeDecoder.normLoop at h
    split at h
    · cases h
    · cases h; exact e
  | succ n ih =>
    unfold RangeDecoder.normLoop at h
    split at h
    · obtain ⟨u, hu, h⟩ := bind_eq_ok h
      exact ih h (RangeDecoder.normStep_err hu e)
    · cases h; exact e

theorem RangeDecoder.renorm_err {rd rd' : RangeDecoder} (h : rd.renorm pol pay = .ok rd') (e : rd.err = true) :
    rd'.err = true := by
  unfold RangeDecoder.renorm at h
  split at h
  · exact RangeDecoder.normLoop_err 3 h e
  · cases h; exact e

theorem normalise_after (h : normalise s = .ok t) (hs : o.After s) : o.After t := by
  obtain ⟨rd, hr, rfl⟩ := map_eq_ok h
  exact hs.setRd rd (RangeDecoder.normLoop_err 3 hr)

theorem getBit_after {b : Bool} (h : getBit s = .ok (b, t)) (hs : o.After s) : o.After t := by
  obtain ⟨r, hr, e⟩ := map_eq_ok h
  obtain ⟨u, hu, rfl⟩ := map_eq_ok hr
  cases e
  refine hs.setRd u fun x => RangeDecoder.renorm_err hu ?_
  unfold RangeDecoder.halveRange
  dsimp only
  split <;> exact x

theorem getBits_after {n v : Nat} (h : getBits n s = .ok (v, t)) (hs : o.After s) : o.After t := by
  obtain ⟨r, hr, e⟩ := map_eq_ok h
  unfold RangeDecoder.getBits at hr
  dsimp only at hr
  split at hr
  · cases hr
  · obtain ⟨u, hu, rfl⟩ := map_eq_ok hr
    cases e
    exact hs.setRd u fun x => RangeDecoder.renorm_err hu x

theorem decBin_after {m : BinRef} {b : Bool} (h : decBin m s = .ok (b, t)) (hs : o.After s) : o.After t := by
  obtain ⟨r, hr, e⟩ := map_eq_ok h
  obtain ⟨u, hu, hr⟩ := bind_eq_ok hr
  obtain ⟨v, -, rfl⟩ := map_eq_ok hr
  cases e
  refine (hs.setBin m v).setRd u fun x => RangeDecoder.renorm_err hu ?_
  rw [setBin_rd] at x
  unfold RangeDecoder.splitBin
  dsimp only
  split <;> exact x

theorem decSmall_after {m : SmallRef} {v : Fin m.size} (h : decSmall m s = .ok (v, t)) (hs : o.After s) : o.After t := by
  obtain ⟨r, hr, e⟩ := map_eq_ok h
  obtain ⟨x, -, hr⟩ := bind_eq_ok hr
  obtain ⟨w, -, hr⟩ := bind_eq_ok hr
  obtain ⟨u, hu, hr⟩ := bind_eq_ok hr
  obtain ⟨y, hy, rfl⟩ := map_eq_ok hr
  cases e
  exact (hs.setSmall m y).setRd u fun x => RangeDecoder.renorm_err hu (by rw [setSmall_rd] at x; exact x)

theorem decByte_after {m : ByteRef} {v : Fin 256} (h : decByte m s = .ok (v, t)) (hs : o.After s) : o.After t := by
  obtain ⟨r, hr, e⟩ := map_eq_ok h
  unfold RangeDecoder.decByte at hr
  dsimp only at hr
  split at hr
  · cases hr
  · obtain ⟨w, -, hr⟩ := bind_eq_ok hr
    obtain ⟨u, hu, hr⟩ := bind_eq_ok hr
    obtain ⟨y, hy, rfl⟩ := map_eq_ok hr
    cases e
    exact (hs.setByte m y).setRd u fun x => RangeDecoder.renorm_err hu (by rw [setByte_rd] at x; exact x)

/-! ## Selector and coefficients -/

theorem setLastType_after (hs : o.After s) (p : Plane) (v : Fin 5) : o.After (setLastType p v s) := hs.of_eqs rfl rfl rfl

theorem setFillVal_after (hs : o.After s) (p : Plane) (v : I32) : o.After (setFillVal p v s) := hs.of_eqs rfl rfl rfl

theorem clearHist_after (hs : o.After s) (p : Plane) : o.After (clearHist p s) := hs.of_eqs rfl rfl rfl

theorem btSelect_after {p : Plane} {v : Fin 5} (h : btSelect p s = .ok (v, t)) (hs : o.After s) : o.After t := by
  obtain ⟨r, hr, e⟩ := map_eq_ok h
  cases e
  exact setLastType_after (decSmall_after hr hs) p _

theorem coefSign_after {k : Int} (h : coefSign s = .ok (k, t)) (hs : o.After s) : o.After t := by
  obtain ⟨r, hr, e⟩ := map_eq_ok h
  cases e
  exact (getBit_after hr hs).of_eqs rfl rfl rfl

theorem coefExtra_after {n : Nat} {k : Int} (h : coefExtra n s = .ok (k, t)) (hs : o.After s) : o.After t := by
  obtain ⟨r, hr, e⟩ := map_eq_ok h
  cases e
  exact getBits_after hr hs

theorem coefClass_after {v : Nat} {k : Int} (h : coefClass v s = .ok (k, t)) (hs : o.After s) : o.After t := by
  unfold coefClass at h
  split at h
  · cases h; exact hs
  · split at h
    · exact coefSign_after h hs
    · obtain ⟨r, hr, h⟩ := bind_eq_ok h
      exact coefExtra_after h (coefSign_after hr hs)

theorem decodeCoeff_after {m : CoefRef} {k : Int} (h : decodeCoeff m s = .ok (k, t)) (hs : o.After s) : o.After t := by
  obtain ⟨r, hr, h⟩ := bind_eq_ok h
  exact coefClass_after h (decSmall_after hr hs)

/-! ## Samples -/

theorem writeRect_after {p : Plane} {a b h w : Nat} {v : Nat → Nat → Byte} (e : writeRect p a b h w v s = .ok t)
    (hs : o.After s) : o.After t := by
  unfold writeRect at e
  split at e
  · cases e; exact hs.setCanvas _
  · cases e

theorem writeBlock_after {p : Plane} {a b : Nat} {v : Byte} (e : writeBlock p a b v s = .ok t) (hs : o.After s) : o.After t := by
  unfold writeBlock writeSample at e
  split at e
  · cases e; exact hs.setCanvas _
  · cases e

/-! ## Fill and Image -/

theorem fillBlock_after {p : Plane} (h : fillBlock p s = .ok t) (hs : o.After s) : o.After t := by
  obtain ⟨r, hr, h⟩ := bind_eq_ok h
  exact writeRect_after h (setFillVal_after (decodeCoeff_after hr hs) p _)

theorem setImg_after (hs : o.After s) (v : ImageScratch) : o.After (s.setImg v) := hs.of_eqs rfl rfl rfl

theorem palEntry_after {p : Plane} {k : Fin 4} (h : palEntry p k s = .ok t) (hs : o.After s) : o.After t := by
  obtain ⟨r, hr, rfl⟩ := map_eq_ok h
  exact setImg_after (decByte_after hr hs) _

theorem imageHeader_after {p : Plane} (h : imageHeader p s = .ok t) (hs : o.After s) : o.After t := by
  obtain ⟨r, hr, h⟩ := bind_eq_ok h
  obtain ⟨u, hu, rfl⟩ := map_eq_ok h
  exact setImg_after (forRange_keeps (State.After o) _ _ _ _ (fun k a b h h' => palEntry_after h h') hu
    (setImg_after (decSmall_after hr hs) _)) _

theorem escLiteral_after {p : Plane} (h : escLiteral p s = .ok t) (hs : o.After s) : o.After t := by
  obtain ⟨r, hr, h⟩ := bind_eq_ok h
  exact writeBlock_after h (decByte_after hr hs)

theorem vqClass_after {p : Plane} {a : Fin 5} (h : vqClass p a s = .ok t) (hs : o.After s) : o.After t := by
  unfold vqClass imagePixel at h
  dsimp only at h
  split at h
  · exact writeBlock_after h (setImg_after hs _)
  · exact escLiteral_after h (setImg_after hs _)

theorem imageStep_after {p : Plane} {r c : Nat} (h : imageStep p r c s = .ok t) (hs : o.After s) : o.After t := by
  obtain ⟨x, hx, h⟩ := bind_eq_ok h
  refine vqClass_after h (decSmall_after hx (setImg_after (hs.of_eqs ?_ ?_ ?_) _)) <;> rfl

theorem imageBlock_after {p : Plane} (h : imageBlock p s = .ok t) (hs : o.After s) : o.After t := by
  obtain ⟨u, hu, h⟩ := bind_eq_ok h
  exact forRange_keeps (State.After o) _ _ _ _ (fun r a b h h' => forRange_keeps (State.After o) _ _ _ _
    (fun c a b h h' => imageStep_after h h') h (setImg_after h' _)) h (imageHeader_after hu hs)

/-! ## DCT -/

theorem dcStore_after {p : Plane} {x y : Nat} {d : Int} {q : I32} (h : dcStore p x y d q s = .ok t) (hs : o.After s) :
    o.After t := by
  obtain ⟨u, hu, rfl⟩ := map_eq_ok h
  unfold histWrite at hu
  dsimp only at hu
  split at hu
  · cases hu
    exact hs.of_eqs rfl rfl rfl
  · cases hu

theorem acSign_after {p : Plane} {k : Int} (h : acSign p s = .ok (k, t)) (hs : o.After s) : o.After t := by
  obtain ⟨r, hr, e⟩ := map_eq_ok h
  cases e
  exact (decBin_after hr hs).of_eqs rfl rfl rfl

theorem acExtra_after {n : Nat} {k : Int} (h : acExtra n s = .ok (k, t)) (hs : o.After s) : o.After t := coefExtra_after h hs

theorem acLevel_after {p : Plane} {pos c : Nat} (h : acLevel p pos c s = .ok t) (hs : o.After s) : o.After t := by
  unfold acLevel at h
  split at h
  · obtain ⟨r, hr, rfl⟩ := map_eq_ok h
    refine State.After.of_eqs ?_ rfl rfl rfl (s := r.2)
    obtain ⟨x, hx, hr⟩ := bind_eq_ok hr
    split at hr
    · exact acExtra_after hr (acSign_after hx hs)
    · cases hr; exact acSign_after hx hs
  · cases h

theorem acRl_after {p : Plane} {r c : Nat} (h : acRl p r c s = .ok t) (hs : o.After s) : o.After t := by
  have h1 : o.After (s.setPos (s.seq.pos + r)) := hs.of_eqs rfl rfl rfl
  unfold acRl at h
  dsimp only at h
  split at h
  · cases h; exact h1.of_eqs rfl rfl rfl
  · obtain ⟨u, hu, rfl⟩ := map_eq_ok h
    exact (acLevel_after hu h1).of_eqs rfl rfl rfl

theorem acToken_after {p : Plane} {tok : Byte} (h : acToken p tok s = .ok t) (hs : o.After s) : o.After t := by
  unfold acToken at h
  split at h
  · cases h; exact hs.of_eqs rfl rfl rfl
  · split at h
    · cases h; exact hs.of_eqs rfl rfl rfl
    · split at h
      · cases h; exact hs.of_eqs rfl rfl rfl
      · exact acRl_after h hs

theorem acLoop_after {p : Plane} (n : Nat) (h : acLoop p n s = .ok t) (hs : o.After s) : o.After t := by
  induction n generalizing s with
  | zero => cases h; exact hs
  | succ n ih =>
    obtain ⟨r, hr, h⟩ := bind_eq_ok h
    obtain ⟨u, hu, h⟩ := bind_eq_ok h
    have hus := acToken_after hu (decByte_after hr hs)
    split at h
    · exact ih h hus
    · cases h; exact hus

theorem acDecode_after {p : Plane} {b : Bool} (h : acDecode p s = .ok (b, t)) (hs : o.After s) : o.After t := by
  obtain ⟨u, hu, e⟩ := map_eq_ok h
  cases e
  exact acLoop_after 63 hu (hs.of_eqs rfl rfl rfl)

theorem dctSub_after {p : Plane} {x y : Nat} {b : Bool} (h : dctSub p x y s = .ok (b, t)) (hs : o.After s) : o.After t := by
  obtain ⟨r, hr, h⟩ := bind_eq_ok h
  obtain ⟨q, -, h⟩ := bind_eq_ok h
  obtain ⟨u, hu, h⟩ := bind_eq_ok h
  have h1 : o.After (s.setDctBlk (Vector.replicate 64 0)) := hs.of_eqs rfl rfl rfl
  exact acDecode_after h (dcStore_after hu (decodeCoeff_after hr h1))

theorem dctFrom_after {p : Plane} (k n : Nat) (h : dctFrom p k n s = .ok t) (hs : o.After s) : o.After t := by
  induction n generalizing k s with
  | zero => cases h; exact hs
  | succ n ih =>
    unfold dctFrom at h
    dsimp only at h
    obtain ⟨r, hr, h⟩ := bind_eq_ok h
    have h1 : o.After (s.setSeq { s.seq with sb := Fin.ofNat 4 k }) := hs.of_eqs rfl rfl rfl
    have h2 := dctSub_after hr h1
    split at h
    · obtain ⟨w, hw, h⟩ := bind_eq_ok h
      exact ih (k + 1) h (writeRect_after hw h2)
    · cases h; exact h2.of_eqs rfl rfl rfl

/-! ## Haar -/

theorem haarCoef_after {p : Plane} {j i : Nat} (h : haarCoef p j i s = .ok t) (hs : o.After s) : o.After t := by
  unfold haarCoef at h
  dsimp only at h
  obtain ⟨r, hr, rfl⟩ := map_eq_ok h
  have h1 : o.After (s.setSeq { s.seq with j := Fin.ofNat 16 j, i := Fin.ofNat 16 i }) := hs.of_eqs rfl rfl rfl
  refine State.After.of_eqs ?_ rfl rfl rfl (s := r.2)
  split at hr
  · obtain ⟨x, hx, rfl⟩ := map_eq_ok hr
    exact decByte_after hx h1
  · exact decodeCoeff_after hr h1

theorem haarBlock_after {p : Plane} (h : haarBlock p s = .ok t) (hs : o.After s) : o.After t := by
  obtain ⟨u, hu, h⟩ := bind_eq_ok h
  exact writeRect_after h (forRange_keeps (State.After o) _ _ _ _ (fun j a b h h' => forRange_keeps (State.After o) _ _ _ _
    (fun i a b h h' => haarCoef_after h h') h h') hu hs)

/-! ## Frame steps -/

theorem resetPlane_after {p : Plane} (h : resetPlane p s = .ok t) (hs : o.After s) : o.After t := by
  obtain ⟨a, ha, h⟩ := bind_eq_ok h
  obtain ⟨b, hb, h⟩ := bind_eq_ok h
  obtain ⟨c, hc, h⟩ := bind_eq_ok h
  obtain ⟨d, hd, h⟩ := bind_eq_ok h
  obtain ⟨e, he, h⟩ := bind_eq_ok h
  obtain ⟨f, hf, h⟩ := bind_eq_ok h
  obtain ⟨g, hg, h⟩ := bind_eq_ok h
  obtain ⟨i, hi, h⟩ := bind_eq_ok h
  obtain ⟨j, hj, h⟩ := bind_eq_ok h
  obtain ⟨k, hk, h⟩ := bind_eq_ok h
  have h1 := forRange_keeps (State.After o) _ _ _ _ (fun k a b h h' => onSmall_after h h') ha hs
  have h2 := onSmall_after hb (setLastType_after h1 p 4)
  have h3 := onByte_after he (onByte_after hd (onSmall_after hc (setFillVal_after h2 p 0)))
  have h4 := forRange_keeps (State.After o) _ _ _ _ (fun k a b h h' => onSmall_after h h') hf h3
  have h5 := onByte_after hj (onBin_after hi (onSmall_after hg h4))
  exact onByte_after h (onSmall_after hk (clearHist_after h5 p))

theorem keyframeReset_after (h : keyframeReset s = .ok t) (hs : o.After s) : o.After t := by
  obtain ⟨a, ha, h⟩ := bind_eq_ok h
  obtain ⟨b, hb, h⟩ := bind_eq_ok h
  exact resetPlane_after h (resetPlane_after hb (resetPlane_after ha hs))

theorem frameStart_after (h : frameStart s = .ok t) (hs : o.After s) : o.After t := by
  have h1 : o.After (enterFrame s) := hs.of_eqs rfl rfl rfl
  unfold frameStart at h
  split at h
  · exact keyframeReset_after h h1
  · cases h; exact h1

theorem loadQuality_after (hs : o.After s) (q : Byte) (p : Plane) : o.After (loadQuality q p s) := hs.of_eqs rfl rfl rfl

theorem qualityCache_after (hs : o.After s) : o.After (qualityCache s) := by
  unfold qualityCache
  dsimp only
  split
  · exact hs
  · exact (loadQuality_after (loadQuality_after (loadQuality_after hs s.inp.quality .y) s.inp.quality .c1)
      s.inp.quality .c2).of_eqs rfl rfl rfl

theorem everyFrameReset_after (h : everyFrameReset s = .ok t) (hs : o.After s) : o.After t := by
  unfold everyFrameReset at h
  split at h
  · cases h; exact hs
  · exact keyframeReset_after h hs

theorem blockStep_after {p : Plane} {x y : Nat} (h : blockStep p x y s = .ok t) (hs : o.After s) : o.After t := by
  obtain ⟨r, hr, h⟩ := bind_eq_ok h
  have h1 : o.After (s.atBlock p x y) := hs.of_eqs rfl rfl rfl
  have h2 := btSelect_after hr h1
  unfold dispatchBlock at h
  split at h
  · exact fillBlock_after h h2
  · exact imageBlock_after h h2
  · exact dctFrom_after _ _ h h2
  · exact haarBlock_after h h2
  · cases h; exact h2

theorem abortFrame_after (hs : o.After s) (k : AbortKind) : o.After (abortFrame k s) := by
  rw [abortFrame_eq]
  exact hs.of_eqs rfl rfl rfl

theorem errorCheck_after (hs : o.After s) : o.After (errorCheck s).2 := by
  unfold errorCheck
  split
  · exact abortFrame_after hs _
  · exact hs

theorem walkBlocks_after (l : List (Nat × Nat × Plane)) {r : Option AbortKind} (h : walkBlocks l s = .ok (r, t))
    (hs : o.After s) : o.After t := by
  induction l generalizing s with
  | nil => cases h; exact hs
  | cons b l ih =>
    obtain ⟨mby, mbx, p⟩ := b
    obtain ⟨u, hu, h⟩ := bind_eq_ok h
    have h1 := errorCheck_after (blockStep_after hu hs)
    split at h
    · rename_i e; cases h; rw [e] at h1; exact h1
    · rename_i e; rw [e] at h1; exact ih h h1

theorem mbWalk_after {r : Option AbortKind} (h : mbWalk s = .ok (r, t)) (hs : o.After s) : o.After t :=
  walkBlocks_after _ h hs

end Sys2Proof.Machine
end

