-- ==== Sys2Proof/Tests/Slice0.lean ====
section
/-! SUPPORT. Tests. The expected values are those of the spec's tables and vectors (`95_test_vectors.md`, and the worked
examples of the rules). Then a witness for every statement that has hypotheses. -/

set_option Elab.async false

open Sys2Proof Sys2Proof.Machine

namespace Sys2Proof.Tests

/-! ## Ill-formed operations are refused -/

/-- Rule R93: `n` in 1..10. -/
theorem test_wf_coefExtra : decode (.micro .coefExtra [11]) = .error .illFormed ∧
    decode (.micro .coefExtra [0]) = .error .illFormed ∧ decode (.micro .coefExtra [10]) = .ok (.coefExtra 10) := by
  refine ⟨rfl, rfl, rfl⟩

/-- Rule R100: `n` in 1..14. -/
theorem test_wf_acExtra : decode (.micro .acExtra [15]) = .error .illFormed ∧
    decode (.micro .acExtra [0]) = .error .illFormed ∧ decode (.micro .acExtra [14]) = .ok (.acExtra 14) := by
  refine ⟨rfl, rfl, rfl⟩

/-- Rule R121: `n` in 1..14. -/
theorem test_wf_getBits : decode (.micro .getBits [0]) = .error .illFormed ∧
    decode (.micro .getBits [15]) = .error .illFormed ∧ decode (.micro .getBits [16]) = .error .operands := by
  refine ⟨rfl, rfl, rfl⟩

/-- Rule R139: a symbol of the alphabet. -/
theorem test_wf_msUpdate : decode (.micro .msUpdate [2, 0, 0, 3]) = .error .illFormed ∧
    decode (.micro .msUpdate [2, 0, 0, 2]) = .ok (.msUpdate (.vs .y) 2) := by
  refine ⟨rfl, rfl⟩

/-- Rules R201, R207: `pos` in 1..63, `c` in 1..15. -/
theorem test_wf_acLevel : decode (.micro .acLevel [0, 0, 1]) = .error .illFormed ∧
    decode (.micro .acLevel [0, 5, 0]) = .error .illFormed ∧ decode (.micro .acLevel [0, 64, 1]) = .error .operands := by
  refine ⟨rfl, rfl, rfl⟩

/-- Rule R190: a sub-block corner, and a chroma block has one. -/
theorem test_wf_idctWrite : decode (.micro .idctWrite [0, 4, 0]) = .error .illFormed ∧
    decode (.micro .idctWrite [1, 8, 0]) = .error .illFormed ∧
    decode (.micro .idctWrite [0, 8, 8]) = .ok (.idctWrite .y 8 8) := by
  refine ⟨rfl, rfl, rfl⟩

def someConstruct : ConstructArgs :=
  { frameW := 16, frameH := 16, profile := Profile.doc, genQuant := ⟨[], 0⟩, idctPut := ⟨[], 0⟩, haarScale := .default,
    initPlanes := { dflt := 128, cells := [] } }

/-- Rule R10: no empty frame. Planes that are not in canonical form are refused too. -/
theorem test_wf_construct : Instr.wf (.construct { someConstruct with frameW := 0 }) = false ∧
    Instr.wf (.construct { someConstruct with initPlanes := { dflt := 0, cells := [(3, 0)] } }) = false ∧
    Instr.wf (.construct someConstruct) = true := by
  decide

/-- Rule R113 names 54 rows without a pattern; a wrong number of operands or a plane 3 is refused. -/
theorem test_operands : decode (.micro .commit [0]) = .error .operands ∧ decode (.micro .btSelect [3]) = .error .operands ∧
    decode (.micro .abort [2]) = .error .operands := by
  refine ⟨rfl, rfl, rfl⟩

/-! ## Decoding, from the tables of `30_encoding.md` -/

theorem test_decode_blockType : decode (.symbol .blockType 0x00) = .ok .fill ∧ decode (.symbol .blockType 0x01) = .ok .image ∧
    decode (.symbol .blockType 0x02) = .ok .dct ∧ decode (.symbol .blockType 0x03) = .ok .haar ∧
    decode (.symbol .blockType 0x04) = .ok .skip := by
  refine ⟨rfl, rfl, rfl, rfl, rfl⟩

theorem test_decode_coefClass : decode (.symbol .coefClass 0x00) = .ok .coefC0 ∧
    decode (.symbol .coefClass 0x01) = .ok .coefC1 ∧ decode (.symbol .coefClass 0x02) = .ok .coefC2 ∧
    decode (.symbol .coefClass 0x03) = .ok .coefC3 ∧ decode (.symbol .coefClass 0x04) = .ok .coefC4 ∧
    decode (.symbol .coefClass 0x05) = .ok .coefC5 ∧ decode (.symbol .coefClass 0x06) = .ok .coefC6 ∧
    decode (.symbol .coefClass 0x07) = .ok .coefC7 ∧ decode (.symbol .coefClass 0x08) = .ok .coefC8 ∧
    decode (.symbol .coefClass 0x09) = .ok .coefC9 ∧ decode (.symbol .coefClass 0x0A) = .ok .coefC10 ∧
    decode (.symbol .coefClass 0x0B) = .ok .coefC11 := by
  refine ⟨rfl, rfl, rfl, rfl, rfl, rfl, rfl, rfl, rfl, rfl, rfl, rfl⟩

theorem test_decode_image : decode (.symbol .vecSize 0x00) = .ok .vs2 ∧ decode (.symbol .vecSize 0x01) = .ok .vs3 ∧
    decode (.symbol .vecSize 0x02) = .ok .vs4 ∧ decode (.symbol .vqClass 0x00) = .ok .vqC0 ∧
    decode (.symbol .vqClass 0x01) = .ok .vqC1 ∧ decode (.symbol .vqClass 0x02) = .ok .vqC2 ∧
    decode (.symbol .vqClass 0x03) = .ok .vqC3 ∧ decode (.symbol .vqClass 0x04) = .ok .vqC4 := by
  refine ⟨rfl, rfl, rfl, rfl, rfl, rfl, rfl, rfl⟩

/-- Rule R108: no payload decodes to these values. -/
theorem test_decode_unreachable : decode (.symbol .blockType 0x05) = .error .unreachableSymbol ∧
    decode (.symbol .coefClass 0x0C) = .error .unreachableSymbol ∧ decode (.symbol .vecSize 0x03) = .error .unreachableSymbol ∧
    decode (.symbol .vqClass 0x05) = .error .unreachableSymbol := by
  refine ⟨rfl, rfl, rfl, rfl⟩

theorem test_decode_acIllegal : decode (.symbol .acToken 0x10) = .ok .acIllegalR1 ∧
    decode (.symbol .acToken 0x20) = .ok .acIllegalR2 ∧ decode (.symbol .acToken 0x30) = .ok .acIllegalR3 ∧
    decode (.symbol .acToken 0x40) = .ok .acIllegalR4 ∧ decode (.symbol .acToken 0x50) = .ok .acIllegalR5 ∧
    decode (.symbol .acToken 0x60) = .ok .acIllegalR6 ∧ decode (.symbol .acToken 0x70) = .ok .acIllegalR7 ∧
    decode (.symbol .acToken 0x80) = .ok .acIllegalR8 ∧ decode (.symbol .acToken 0x90) = .ok .acIllegalR9 ∧
    decode (.symbol .acToken 0xA0) = .ok .acIllegalR10 ∧ decode (.symbol .acToken 0xB0) = .ok .acIllegalR11 ∧
    decode (.symbol .acToken 0xC0) = .ok .acIllegalR12 ∧ decode (.symbol .acToken 0xD0) = .ok .acIllegalR13 ∧
    decode (.symbol .acToken 0xE0) = .ok .acIllegalR14 := by
  refine ⟨rfl, rfl, rfl, rfl, rfl, rfl, rfl, rfl, rfl, rfl, rfl, rfl, rfl, rfl⟩

/-- The token's high nibble is the run, its low nibble the class (rule R99). -/
theorem test_decode_acToken : decode (.symbol .acToken 0x00) = .ok .acEob ∧ decode (.symbol .acToken 0xF0) = .ok .acZrl ∧
    decode (.symbol .acToken 0x01) = .ok (.acRlC1 0) ∧ decode (.symbol .acToken 0x12) = .ok (.acRlC2 1) ∧
    decode (.symbol .acToken 0x23) = .ok (.acRlC3 2) ∧ decode (.symbol .acToken 0x34) = .ok (.acRlC4 3) ∧
    decode (.symbol .acToken 0x45) = .ok (.acRlC5 4) ∧ decode (.symbol .acToken 0x56) = .ok (.acRlC6 5) ∧
    decode (.symbol .acToken 0x67) = .ok (.acRlC7 6) ∧ decode (.symbol .acToken 0x78) = .ok (.acRlC8 7) ∧
    decode (.symbol .acToken 0x89) = .ok (.acRlC9 8) ∧ decode (.symbol .acToken 0x9A) = .ok (.acRlC10 9) ∧
    decode (.symbol .acToken 0xAB) = .ok (.acRlC11 10) ∧ decode (.symbol .acToken 0xBC) = .ok (.acRlC12 11) ∧
    decode (.symbol .acToken 0xCD) = .ok (.acRlC13 12) ∧ decode (.symbol .acToken 0xDE) = .ok (.acRlC14 13) ∧
    decode (.symbol .acToken 0xEF) = .ok (.acRlC15 14) := by
  refine ⟨rfl, rfl, rfl, rfl, rfl, rfl, rfl, rfl, rfl, rfl, rfl, rfl, rfl, rfl, rfl, rfl, rfl⟩

/-- The codes of the rows without a pattern are the model's (log entry 9). -/
theorem test_decode_operandSymbols : decode (.micro .coefSign []) = .ok .coefSign ∧
    decode (.micro .palEntry [3]) = .ok (.palEntry 3) ∧ decode (.micro .escLiteral []) = .ok .escLiteral ∧
    decode (.micro .acSign []) = .ok .acSign ∧ decode (.micro .haarLl []) = .ok .haarLl ∧
    decode (.micro .haarHf []) = .ok .haarHf := by
  refine ⟨rfl, rfl, rfl, rfl, rfl, rfl⟩

theorem test_decode_coder : decode (.micro .getBit []) = .ok .getBit ∧ decode (.micro .getBits [14]) = .ok (.getBits 14) ∧
    decode (.micro .decBin [2]) = .ok (.decBin (.sign .c2)) ∧
    decode (.micro .decSmall [3, 1, 124]) = .ok (.decSmall (.vq .c1 124)) ∧
    decode (.micro .decByte [2, 0]) = .ok (.decByte (.ac .y)) ∧ decode (.micro .rdInit []) = .ok .rdInit ∧
    decode (.micro .normalise []) = .ok .normalise := by
  refine ⟨rfl, rfl, rfl, rfl, rfl, rfl, rfl⟩

theorem test_decode_models : decode (.micro .m2Reset [0]) = .ok (.m2Reset (.sign .y)) ∧
    decode (.micro .m2Update [1, 1]) = .ok (.m2Update (.sign .c1) true) ∧
    decode (.micro .msConstruct [0, 0, 4]) = .ok (.msConstruct (.bt .y 4)) ∧
    decode (.micro .msHalve [0, 4, 0, 0]) = .ok (.msHalve (.small (.dctDc .y))) ∧
    decode (.micro .msFreqs [1, 0, 2, 0]) = .ok (.msFreqs (.byte (.pal .c2))) ∧
    decode (.micro .msReset [5, 1, 0]) = .ok (.msReset (.haarCoef .c1)) ∧
    decode (.micro .mbConstruct [1, 0]) = .ok (.mbConstruct (.esc .y)) ∧
    decode (.micro .mbUpdate [3, 0, 255]) = .ok (.mbUpdate (.hi .y) 255) ∧
    decode (.micro .mbSecondary [0, 0]) = .ok (.mbSecondary (.pal .y)) ∧
    decode (.micro .mbReset [2, 2]) = .ok (.mbReset (.ac .c2)) := by
  refine ⟨rfl, rfl, rfl, rfl, rfl, rfl, rfl, rfl, rfl, rfl⟩

theorem test_decode_blocks : decode (.micro .btSelect [1]) = .ok (.btSelect .c1) ∧
    decode (.micro .decodeCoeff [2, 0]) = .ok (.decodeCoeff (.haar .y)) ∧
    decode (.micro .dctSub [0, 1, 2]) = .ok (.dctSub .y 1 2) ∧
    decode (.micro .dcPredict [1, 65535, 0]) = .ok (.dcPredict .c1 65535 0) ∧
    decode (.micro .mingrad [1, 2, 0xFFFFFFFF]) = .ok (.mingrad 1 2 0xFFFFFFFF) ∧
    decode (.micro .dcStore [0, 1, 2, 3, 4]) = .ok (.dcStore .y 1 2 3 4) ∧
    decode (.micro .acDecode [2]) = .ok (.acDecode .c2) ∧ decode (.micro .acLevel [0, 63, 15]) = .ok (.acLevel .y 63 15) ∧
    decode (.micro .haarButterfly [0]) = .ok (.haarButterfly .y) := by
  refine ⟨rfl, rfl, rfl, rfl, rfl, rfl, rfl, rfl, rfl⟩

theorem test_decode_frame : decode (.micro .validate []) = .ok .validate ∧
    decode (.micro .emptyKeyCheck []) = .ok .emptyKeyCheck ∧ decode (.micro .skipCheck []) = .ok .skipCheck ∧
    decode (.micro .frameStart []) = .ok .frameStart ∧ decode (.micro .qualityCache []) = .ok .qualityCache ∧
    decode (.micro .keyframeReset []) = .ok .keyframeReset ∧ decode (.micro .emptyCommit []) = .ok .emptyCommit ∧
    decode (.micro .everyFrameReset []) = .ok .everyFrameReset ∧ decode (.micro .decoderStart []) = .ok .decoderStart ∧
    decode (.micro .mbWalk []) = .ok .mbWalk ∧ decode (.micro .blockStep [2, 1, 0]) = .ok (.blockStep .c2 1 0) ∧
    decode (.micro .errorCheck []) = .ok .errorCheck ∧ decode (.micro .abort [4]) = .ok (.abort .malformedBlock) ∧
    decode (.micro .commit []) = .ok .commit := by
  refine ⟨rfl, rfl, rfl, rfl, rfl, rfl, rfl, rfl, rfl, rfl, rfl, rfl, rfl, rfl⟩

def someFrame : FrameArgs :=
  { payload := [0x12, 0x34, 0x56, 0x78, 0x9A, 0xBC], keyframe := true, region := ⟨0, 0, 16, 16⟩, quality := 50 }

theorem test_decode_commands : decode (.command (.construct someConstruct)) = .ok (.construct someConstruct) ∧
    decode (.command (.decodeFrame someFrame)) = .ok (.decodeFrame someFrame) ∧
    decode (.command .resetForKeyframe) = .ok .resetForKeyframe ∧ decode (.command .destroy) = .ok .destroy := by
  refine ⟨rfl, rfl, rfl, rfl⟩

/-! ## Small states -/

/-- State.reset with a payload latched and a decoder on its first four bytes (rule R115). -/
def started (pay : List Byte) (low : U32) : State :=
  { State.reset with
    inp := { someFrame with payload := pay }
    rd := { range := 0xFFFFFFFF, low := low, cur := 4, stop := pay.length, err := false } }

/-- The same, in plane 1. -/
def startedC1 (pay : List Byte) (low : U32) : State :=
  (started pay low).setSeq { State.reset.seq with p := .c1 }

/-- The same, under the REF profile. -/
def startedRef (pay : List Byte) (low : U32) : State :=
  { started pay low with params := { State.reset.params with profile := Profile.ref } }

/-- A reading of the state an operation leads to. -/
def after {α : Type} (f : State → α) : Result → Option α
  | .next t => some (f t)
  | _ => none

/-- The interval registers. -/
def interval (s : State) : U32 × U32 × Nat × Bool := (s.rd.range, s.rd.low, s.rd.cur, s.rd.err)

/-! ## The range decoder (vectors V1 to V6) -/

theorem test_rdInit : RangeDecoder.init [1, 2, 3] = .ok { range := 0xFFFFFFFF, low := 0x10203, cur := 3, stop := 3, err := false } ∧
    RangeDecoder.init [1, 2, 3, 4, 5] =
      .ok { range := 0xFFFFFFFF, low := 0x1020304, cur := 4, stop := 5, err := false } := by
  decide +kernel

theorem test_rdInit_exec : after interval (exec .rdInit (started [0x01, 0x02] 0)) = some (0xFFFFFFFF, 0x102, 2, false) := by
  decide +kernel

def lowRange (cur : Nat) : RangeDecoder := { range := 0x00FFFFFF, low := 0x00123456, cur := cur, stop := 1, err := false }

/-- Vector V2, its three first rows. -/
theorem test_normalise : (lowRange 0).normalise .always [0xAB] =
      .ok { range := 0xFFFFFF00, low := 0x123456AB, cur := 1, stop := 1, err := false } ∧
    (lowRange 1).normalise .always [0xAB] = .ok { range := 0xFFFFFF00, low := 1, cur := 1, stop := 1, err := true } ∧
    (lowRange 1).normalise .lowZero [0xAB] =
      .ok { range := 0xFFFFFF00, low := 0x12345600, cur := 1, stop := 1, err := false } := by
  decide +kernel

/-- Vector V2, its last row: `low > range` while bytes remain. -/
theorem test_normalise_excess : RangeDecoder.normalise .lowZero (List.replicate 12 0xFF)
      { range := 0x0080000F, low := 0x00800017, cur := 5, stop := 12, err := false } =
    .ok { range := 0x80000F00, low := 1, cur := 6, stop := 12, err := true } := by
  decide +kernel

theorem test_getBit : after interval (exec .getBit (started [0x80, 0, 0, 0] 0x80000000)) =
      some (0x7FFFFFFF, 0x00000001, 4, false) ∧
    after State.ret (exec .getBit (started [0x80, 0, 0, 0] 0x80000000)) = some 1 := by
  decide +kernel

theorem test_getBits : after interval (exec (.getBits 14) (started [0x12, 0x34, 0x56, 0x78, 0x11, 0x22] 0x12345678)) =
      some (0x03FFFF00, 0x005B0511, 5, false) ∧
    after State.ret (exec (.getBits 14) (started [0x12, 0x34, 0x56, 0x78, 0x11, 0x22] 0x12345678)) = some 1165 := by
  decide +kernel

/-- The payload that gives `2^n`. -/
theorem test_getBits_top : after interval (exec (.getBits 10) (started [0xFF, 0xFF, 0xFF, 0xFF, 0x00] 0xFFFFFFFF)) =
      some (0x3FFFFF00, 0x0003FF00, 5, false) ∧
    after State.ret (exec (.getBits 10) (started [0xFF, 0xFF, 0xFF, 0xFF, 0x00] 0xFFFFFFFF)) = some 1024 := by
  decide +kernel

theorem test_decBin_one : after interval (exec (.decBin (.sign .y)) (started [0x90, 0, 0, 0] 0x90000000)) =
      some (0x80000FFF, 0x10001000, 4, false) ∧
    after (fun t => ((t.bin (.sign .y)).zeroWeight, (t.bin (.sign .y)).tillRescale))
      (exec (.decBin (.sign .y)) (started [0x90, 0, 0, 0] 0x90000000)) = some (1, 3) := by
  decide +kernel

theorem test_decBin_zero : after interval (exec (.decBin (.sign .y)) (started [0x12, 0x34, 0x56, 0x78] 0x12345678)) =
      some (0x7FFFF000, 0x12345678, 4, false) ∧
    after (fun t => ((t.bin (.sign .y)).zeroWeight, (t.bin (.sign .y)).tillRescale))
      (exec (.decBin (.sign .y)) (started [0x12, 0x34, 0x56, 0x78] 0x12345678)) = some (2, 3) := by
  decide +kernel

theorem test_decSmall : after interval (exec (.decSmall (.bt .y 4)) (started [0x80, 0, 0, 0] 0x80000000)) =
      some (0x3331E667, 0x199A3333, 4, false) ∧
    after (fun t => (t.ret, (t.small (.bt .y 4)).weights.toList, (t.small (.bt .y 4)).tillRescale))
      (exec (.decSmall (.bt .y 4)) (started [0x80, 0, 0, 0] 0x80000000)) = some (2, [1, 1, 2, 1, 1], 4) := by
  decide +kernel

theorem test_decSmall_top : after (fun t => (t.ret, t.rd.range, t.rd.low))
      (exec (.decSmall (.bt .y 4)) (started [0xFF, 0xFF, 0xFF, 0xFF] 0xFFFFFFFF)) = some (4, 0x33346665, 0x33346665) := by
  decide +kernel

theorem test_decByte : after (fun t => (t.ret, t.rd.range, t.rd.low))
      (exec (.decByte (.pal .y)) (started [0x12, 0x34, 0x56, 0x78, 0x9A, 0xBC] 0x12345678)) =
    some (18, 0xFFFF8000, 0x345F789A) := by
  decide +kernel

theorem test_decByte_top : after (fun t => (t.ret, interval t))
      (exec (.decByte (.pal .y)) (started [0xFF, 0xFF, 0xFF, 0xFF, 0xAA] 0xFFFFFFFF)) =
    some (255, 0x01007F7F, 0x01007F7F, 4, false) := by
  decide +kernel

/-! ## The models (vectors V7 and V8) -/

theorem test_m2Reset : after (fun t => t.bin (.sign .y)) (exec (.m2Reset (.sign .y)) State.reset) =
    some { zeroWeight := 1, totalWeight := 2, zeroFreq := 0x1000, totalFreq := 0x2000, updVal := 4, tillRescale := 4 } := by
  decide +kernel

/-- The fourth bit 0, and the fourth bit 1. -/
theorem test_m2Update : BinModel.update ⟨4, 2, 0x1000, 0x2000, 4, 1⟩ false = .ok ⟨5, 6, 6826, 8191, 5, 5⟩ ∧
    BinModel.update ⟨1, 2, 0x1000, 0x2000, 4, 1⟩ true = .ok ⟨1, 6, 1365, 8191, 5, 5⟩ := by
  decide +kernel

/-- The rebuild that halves both weights to one value: `total_weight` is forced above (rule R136). Before it, a total of
8132 grows by 64 to 8196, and 8194 bits 0 have made `zero_weight` 8195. -/
theorem test_m2Update_halve : BinModel.update ⟨8194, 8132, 8189, 8191, 64, 1⟩ false =
    .ok ⟨4098, 4099, 8189, 8191, 64, 64⟩ := by
  decide +kernel

theorem test_msReset : after (fun t => ((t.small (.fillCoef .y)).freqs.toList, (t.small (.fillCoef .y)).updVal))
      (exec (.msReset (.fillCoef .y)) State.reset) =
    some ([0, 2730, 5461, 8191, 10922, 13653, 16383, 19114, 21845, 24575, 27306, 30037], 9) := by
  decide +kernel

theorem test_msConstruct : after (fun t => ((t.small (.vs .y)).freqs.toList, (t.small (.vs .y)).maxUpdVal))
      (exec (.msConstruct (.vs .y)) State.reset) = some ([0, 10922, 21845], 72) := by
  decide +kernel

/-- A ModelS(5) before its fifth symbol 0. -/
def fedZero : FreqModel 5 := { FreqModel.initial 5 with weights := #v[5, 1, 1, 1, 1], tillRescale := 1 }

theorem test_msUpdate : (fedZero.update 0).map (fun m => (m.weights.toList, m.totWeight, m.freqs.toList, m.updVal, m.tillRescale)) =
    .ok ([6, 1, 1, 1, 1], 10, [0, 19660, 22937, 26214, 29491], 6, 6) := by
  decide +kernel

theorem test_msUpdate_exec : after (fun t => ((t.small (.bt .y 0)).weights.toList, (t.small (.bt .y 0)).tillRescale))
    (exec (.msUpdate (.bt .y 0) 3) State.reset) = some ([1, 1, 1, 2, 1], 4) := by
  decide +kernel

/-- A ModelS(5) at the halving of vector V8: 32780 symbols 2 make the weight 32781, halved to 16391. -/
def fedTwo : FreqModel 5 := { FreqModel.initial 5 with weights := #v[1, 1, 32781, 1, 1] }

theorem test_msHalve : (fedTwo.halve.weights.toList, fedTwo.halve.totWeight) = ([1, 1, 16391, 1, 1], 16395) := by
  decide +kernel

theorem test_msFreqs : fedTwo.halve.rebuildFreqs.map (fun m => m.freqs.toList) = .ok [0, 1, 3, 32763, 32765] := by
  decide +kernel

theorem test_msFreqs_zero : after State.ret (exec (.msFreqs (.small (.vs .y)))
    (State.reset.setSmall (.vs .y) { FreqModel.initial 3 with totWeight := 0 })) = none := by
  decide +kernel

/-- Entries of the reset index and of its frequencies (rule R149). -/
theorem test_mbReset : after (fun t => ((t.byte (.pal .y)).secondary[1], (t.byte (.pal .y)).secondary[63],
      (t.byte (.pal .y)).secondary[64], (t.byte (.pal .y)).base.freqs[255])) (exec (.mbReset (.pal .y)) State.reset) =
    some (3, 251, 255, 32640) := by
  decide +kernel

theorem test_mbConstruct : after (fun t => ((t.byte (.esc .c1)).base.maxUpdVal, (t.byte (.esc .c1)).base.updVal))
    (exec (.mbConstruct (.esc .c1)) State.reset) = some (2096, 131) := by
  decide +kernel

/-- A ModelB before the last of its first 131 symbols 7. -/
def fedSeven : ByteModel :=
  { ByteModel.initial with
    base := { FreqModel.initial 256 with weights := (Vector.replicate 256 1).set 7 131, tillRescale := 1 } }

theorem test_mbUpdate : (fedSeven.update 7).map (fun m => (m.base.totWeight, m.base.updVal, m.base.freqs.toList.take 12,
      m.secondary.toList.take 8)) =
    .ok (387, 163, [0, 84, 169, 254, 338, 423, 508, 592, 11769, 11854, 11938, 12023], [0, 6, 7, 7, 7, 7, 7, 7]) := by
  decide +kernel

theorem test_mbSecondary : after (fun t => ((t.byte (.pal .y)).secondary[2], (t.byte (.pal .y)).secondary[65]))
    (exec (.mbSecondary (.pal .y)) State.reset) = some (7, 255) := by
  decide +kernel

/-! ## Selector and coefficients (vectors V9 and V10) -/

theorem test_btSelect : after (fun t => (t.ret, (t.coder .y).bt.lastType)) (exec (.btSelect .y) (started [0x80, 0, 0, 0] 0x80000000)) =
    some (2, 2) := by
  decide +kernel

theorem test_decodeCoeff : after State.ret (exec (.decodeCoeff (.fill .y)) (started [0x1F, 0xFE, 0xF0, 0x00] 0x1FFEF000)) = some (-1) ∧
    after State.ret (exec (.decodeCoeff (.haar .c2)) (started [0x42, 0xA8, 0x9E, 0xAB] 0x42A89EAB)) = some 5 := by
  decide +kernel

theorem test_decodeCoeff_long :
    after State.ret (exec (.decodeCoeff (.dctDc .y)) (started [0xF5, 0x52, 0x17, 0xDD, 0x00] 0xF55217DD)) = some 2047 ∧
    after State.ret (exec (.decodeCoeff (.dctDc .y)) (startedRef [0xF5, 0x52, 0x17, 0xDD, 0x00] 0xF55217DD)) = some (-2047) := by
  decide +kernel

/-- Rule R94: the sign bit 1 is negative under DOC and positive under REF. -/
theorem test_coefSign : after State.ret (exec .coefSign (started [0x80, 0, 0, 0] 0x80000000)) = some (-1) ∧
    after State.ret (exec .coefSign (startedRef [0x80, 0, 0, 0] 0x80000000)) = some 1 := by
  decide +kernel

/-- Magnitude `2^n + e` with the GET_BITS of vector V3: `e = 1`. -/
theorem test_coefExtra : after State.ret (exec (.coefExtra 4) (started [0x12, 0x34, 0x56, 0x78] 0x12345678)) = some 17 ∧
    after State.ret (exec (.coefExtra 4) ((started [0x12, 0x34, 0x56, 0x78] 0x12345678).setNeg true)) = some (-17) := by
  decide +kernel

/-- Class 0 reads nothing; a class 1 after a sign bit 1 is -1. -/
theorem test_coefClasses : after (fun t => (t.ret, t.rd.cur)) (exec .coefC0 (started [0x80, 0, 0, 0] 0x80000000)) = some (0, 4) ∧
    after State.ret (exec .coefC1 (started [0x80, 0, 0, 0] 0x80000000)) = some (-1) := by
  decide +kernel

/-! ## Fill, Image and Skip (vectors V11 to V13) -/

/-- The delta -2 of rule R164 takes `fill_val` 0 to -2, and writes 254. -/
theorem test_fill : after (fun t => ((t.coder .c1).fill.fillVal.toInt, t.sample .c1 0 0, t.sample .c1 7 7, t.sample .c1 7 8))
    (exec .fill (startedC1 [0x35, 0x53, 0xE5, 0x56] 0x3553E556)) = some (-2, 254, 254, 0) := by
  decide +kernel

/-- The low byte of `fill_val`, and the wrap at the top. -/
theorem test_fillSample : fillSample (-1) = 255 ∧ fillSample 256 = 0 ∧ (0x7FFFFFFF : I32) + wrapI32 1 = wrapI32 (-0x80000000) := by
  decide

theorem test_skip : exec .skip State.reset = .next State.reset := rfl

theorem test_vecSize : after (fun t => vecSize t.scratch.img.vs) (exec .vs2 State.reset) = some 2 ∧
    after (fun t => vecSize t.scratch.img.vs) (exec .vs4 State.reset) = some 4 := by
  decide +kernel

theorem test_palEntry : after (fun t => t.scratch.img.vec.toList)
    (exec (.palEntry 2) (started [0x12, 0x34, 0x56, 0x78, 0x9A, 0xBC] 0x12345678)) = some [0, 0, 18, 0] := by
  decide +kernel

theorem test_escLiteral : after (fun t => (t.sample .y 0 0, t.sample .y 0 1))
    (exec .escLiteral (started [0x12, 0x34, 0x56, 0x78, 0x9A, 0xBC] 0x12345678)) = some (18, 0) := by
  decide +kernel

/-- A two-entry palette `[10, 200]` at the first pixel. -/
def twoColours (s : State) : State := s.setImg { State.reset.scratch.img with vec := #v[10, 200, 0, 0] }

/-- Class 1 writes entry 1; class 2 reads a literal under DOC, and writes the unused entry under REF. -/
theorem test_vqClass : after (fun t => t.sample .y 0 0) (exec .vqC1 (twoColours (started [0x12, 0x34, 0x56, 0x78, 0x9A, 0xBC] 0x12345678))) =
      some 200 ∧
    after (fun t => (t.sample .y 0 0, t.scratch.img.a)) (exec .vqC2 (twoColours (started [0x12, 0x34, 0x56, 0x78, 0x9A, 0xBC] 0x12345678))) =
      some (18, 2) := by
  decide +kernel

theorem test_vqClass_ref :
    after (fun t => (t.sample .y 0 0, t.rd.cur)) (exec .vqC2 (twoColours (startedRef [0x12, 0x34, 0x56, 0x78, 0x9A, 0xBC] 0x12345678))) =
    some (0, 4) := by
  decide +kernel

/-- The contexts of rule R177: 4 after an escape on the left, 20 below one at column 0, 124 with escapes all round. -/
theorem test_vqContext : (vqContext 4 0 0).val = 4 ∧ (vqContext 0 4 0).val = 20 ∧ (vqContext 4 4 4).val = 124 := by
  decide

/-! ## DCT (vector V14) -/

/-- The three rows of vector V14, DOC and REF. -/
theorem test_minGrad : minGrad .top 10 7 4 = 7 ∧ minGrad .left 10 7 4 = 10 ∧ minGrad .top 5 3 5 = 5 ∧ minGrad .left 5 3 5 = 3 ∧
    minGrad .top 2 2 1 = 2 := by
  decide

theorem test_mingrad : after State.ret (exec (.mingrad 10 7 4) State.reset) = some 7 := by decide +kernel

/-- P4's history before its last luma sub-block: 5, 3 above and 5 on the left. -/
def p4History : State :=
  State.reset.setCoder .y { State.reset.coder .y with dct := { (State.reset.coder .y).dct with
    hist := { dflt := 0, cells := [(histAddr 0 0, 5), (histAddr 1 0, 3), (histAddr 0 1, 5)] } } }

theorem test_dcPredict : after State.ret (exec (.dcPredict .y 1 1) p4History) = some 5 ∧
    after State.ret (exec (.dcPredict .y 1 0) p4History) = some 5 ∧ after State.ret (exec (.dcPredict .y 0 1) p4History) = some 5 ∧
    after State.ret (exec (.dcPredict .y 0 0) p4History) = some 0 := by
  decide +kernel

/-- The luma matrix of the test stub: `qmat[k] = k + 1`. -/
def stubMatrix (s : State) : State :=
  s.setCoder .y { s.coder .y with dct := { (s.coder .y).dct with qmat := Vector.ofFn fun k => BitVec.ofNat 16 (k.val + 1) } }

/-- P4's sub-block (1, 1): delta 1 and prediction 5. -/
theorem test_dcStore : after (fun t => (t.dch .y 1 1, t.scratch.dctBlk[0])) (exec (.dcStore .y 1 1 1 5) (stubMatrix p4History)) =
    some (6, 6) := by
  decide +kernel

theorem test_acSign : after State.ret (exec .acSign (started [0x90, 0, 0, 0] 0x90000000)) = some (-1) := by decide +kernel

theorem test_acExtra : after State.ret (exec (.acExtra 14) (started [0x12, 0x34, 0x56, 0x78, 0x11, 0x22] 0x12345678)) =
    some (16384 + 1165) := by
  decide +kernel

/-- P4: class 1 and sign bit 1 at `pos = 19` store `-1 * qmat[19] = -20` at raster position 33 (DOC); under REF the sign bit 1
is positive and the entry is `qmat[33] = 34`. -/
theorem test_acLevel : after (fun t => t.scratch.dctBlk[33].toInt) (exec (.acLevel .y 19 1) (stubMatrix (started [0x90, 0, 0, 0] 0x90000000))) =
      some (-20) ∧
    after (fun t => t.scratch.dctBlk[33].toInt) (exec (.acLevel .y 19 1) (stubMatrix (startedRef [0x90, 0, 0, 0] 0x90000000))) =
      some 34 := by
  decide +kernel

/-- Rule R200 and R205: ZRL to exactly 64 succeeds, past it is malformed. -/
theorem test_acZrl : after (fun t => (t.seq.pos, t.scratch.scan, t.scratch.blkErr)) (exec .acZrl (State.reset.setPos 48)) =
      some (64, .ok, false) ∧
    after (fun t => (t.seq.pos, t.scratch.scan, t.scratch.blkErr)) (exec .acZrl (State.reset.setPos 49)) =
      some (65, .malformed, true) := by
  decide +kernel

theorem test_acEob : after (fun t => (t.scratch.scan, t.scratch.blkErr)) (exec .acEob (State.reset.setPos 3)) = some (.ok, false) := by
  decide +kernel

theorem test_acIllegal : after (fun t => (t.scratch.scan, t.scratch.blkErr)) (exec .acIllegalR1 State.reset) = some (.malformed, true) := by
  decide +kernel

/-- A run that takes `pos` to 64 reads no sign; one that stays below moves on by one. -/
theorem test_acRl : after (fun t => (t.seq.pos, t.scratch.scan, t.scratch.blkErr)) (exec (.acRlC1 15) (State.reset.setPos 49)) =
      some (64, .malformed, true) ∧
    after (fun t => (t.seq.pos, t.scratch.scan, t.scratch.dctBlk[33].toInt))
      (exec (.acRlC1 15) ((stubMatrix (started [0x90, 0, 0, 0] 0x90000000)).setPos 4)) = some (20, .running, -20) := by
  decide +kernel

/-- A transform that is known for one block: 130 at position 0, and 5 at the last sample. -/
def knownIdct (s : State) : State :=
  { s with
    params := { s.params with idctPut := { known := [((Vector.replicate 64 0).set 0 130, (Vector.replicate 64 0).set 0 130 |>.set 63 5)],
                                           handle := 0 } }
    scratch := { s.scratch with dctBlk := (Vector.replicate 64 0).set 0 130 } }

theorem test_idctWrite : after (fun t => (t.sample .c1 0 0, t.sample .c1 7 7, t.sample .c1 0 1))
    (exec (.idctWrite .c1 0 0) (knownIdct State.reset)) = some (130, 5, 0) := by
  decide +kernel

/-! ## Haar (vector V15) -/

theorem test_butterfly : [butterfly 100 20 30 10 0 0, butterfly 100 20 30 10 0 1, butterfly 100 20 30 10 1 0,
      butterfly 100 20 30 10 1 1] = [60, 80, 100, 160] ∧
    [butterfly 240 10 (-10) 0 0 0, butterfly 240 10 (-10) 0 0 1, butterfly 240 10 (-10) 0 1 0, butterfly 240 10 (-10) 0 1 1] =
      [240, 255, 220, 240] := by
  decide

/-- Chroma: `h` is 4, so the quadrants of cluster (0, 0) are at (0, 0), (0, 4), (4, 0) and (4, 4). -/
def haarState : State :=
  State.reset.setHaarBlk ((((Vector.replicate 256 0).set 0 100).set 4 20 |>.set 64 30).set 68 10)

theorem test_haarButterfly : after (fun t => (t.sample .c1 0 0, t.sample .c1 0 1, t.sample .c1 1 0, t.sample .c1 1 1))
    (exec (.haarButterfly .c1) haarState) = some (60, 80, 100, 160) := by
  decide +kernel

theorem test_haarLl : after State.ret (exec .haarLl (started [0xFF, 0xFF, 0xFF, 0xFF, 0xAA] 0xFFFFFFFF)) = some 255 := by
  decide +kernel

theorem test_haarHf : after State.ret (exec .haarHf (started [0x1F, 0xFE, 0xF0, 0x00] 0x1FFEF000)) = some (-1) := by
  decide +kernel

/-- Rule R21: quality 50 gives 10, and quality 60 gives 9. -/
theorem test_haarScale : State.reset.params.haarScaleAt 50 true = 10 ∧ State.reset.params.haarScaleAt 60 false = 9 := by
  decide +kernel

/-! ## Frames (vectors S4 to S6 and V16) -/

/-- An instance of 32 by 32. -/
def frame32 (g : Region) (q : Byte) : State :=
  { State.reset with
    params := { State.reset.params with frameW := 32, frameH := 32 }
    inp := { payload := [], keyframe := true, region := g, quality := q } }

/-- The rejected rows of vector S4. -/
theorem test_validate_rejects : [frame32 ⟨0, 0, 16, 16⟩ 0, frame32 ⟨0, 0, 16, 16⟩ 101, frame32 ⟨0, 0, 8, 16⟩ 50,
      frame32 ⟨0, 0, 16, 24⟩ 50, frame32 ⟨16, 16, 32, 16⟩ 50, frame32 ⟨17, 3, 16, 16⟩ 50, frame32 ⟨0, 0, 8, 16⟩ 0].map validate =
    [some .invalidQuality, some .invalidQuality, some .invalidRegion, some .invalidRegion, some .invalidRegion,
      some .invalidRegion, some .invalidRegion] := by
  decide +kernel

/-- The accepted rows. -/
theorem test_validate_accepts : [frame32 ⟨0, 0, 16, 16⟩ 1, frame32 ⟨0, 0, 16, 16⟩ 100, frame32 ⟨16, 0, 16, 32⟩ 50,
      frame32 ⟨0, 0, 32, 32⟩ 50, frame32 ⟨0, 0, 0, 0⟩ 50].map validate = [none, none, none, none, none] := by
  decide +kernel

theorem test_emptyKeyCheck : after (fun t => (t.status, t.ret))
    (exec .emptyKeyCheck { startedRef [] 0 with rd := State.reset.rd }) = some (.emptyKeyframe, 1) := by
  decide +kernel

/-- A state after an abort. -/
def aborted : State := { State.reset with fd := { state := .aborted, errFlag := true, qCache := none } }

theorem test_skipCheck : after (fun t => (t.status, t.ret)) (exec .skipCheck aborted) = some (.skippedAfterError, 1) ∧
    after (fun t => (t.status, t.ret)) (exec .skipCheck State.reset) = some (.ok, 0) := by
  decide +kernel

/-- Rule R235: a non-keyframe after an abort is skipped, whatever its payload. -/
theorem test_decodeFrame_skipped : after (fun t => (t.status, t.fd)) (exec (.decodeFrame { someFrame with keyframe := false }) aborted) =
    some (.skippedAfterError, aborted.fd) := by
  decide +kernel

/-- Vector V16: an empty non-keyframe commits; the quality is cached. -/
theorem test_decodeFrame_empty : after (fun t => (t.status, t.fd))
      (exec (.decodeFrame { someFrame with keyframe := false, payload := [] }) State.reset) =
    some (.ok, { state := .committed, errFlag := false, qCache := some 50 }) := by
  decide +kernel

theorem test_frameStart : after State.fd (exec .frameStart aborted) =
    some { state := .decoding, errFlag := false, qCache := none } := by
  decide +kernel

theorem test_qualityCache : after (fun t => ((t.coder .y).haar.scale, t.fd.qCache)) (exec .qualityCache (started [] 0)) =
    some (10, some 50) := by
  decide +kernel

/-- Rule R238: what a reset clears. -/
def used : State :=
  setLastType .y 1 (setFillVal .c2 7 (p4History.setFd aborted.fd))

theorem test_keyframeReset : after (fun t => ((t.coder .y).bt.lastType, (t.coder .c2).fill.fillVal, t.dch .y 1 0)) (exec .keyframeReset used) =
    some (4, 0, 0) := by
  decide +kernel

/-- Vector V16: RESET_FOR_KEYFRAME leaves the flag set. -/
theorem test_resetForKeyframe : after (fun t => ((t.coder .y).bt.lastType, t.fd.errFlag)) (exec .resetForKeyframe used) =
    some (4, true) := by
  decide +kernel

theorem test_everyFrameReset : after (fun t => (t.coder .y).bt.lastType) (exec .everyFrameReset used) = some 1 := by
  decide +kernel

def refPixel : State := { started [0x01, 0x02, 0x03, 0x04] 0 with ref := { dflt := 0, cells := [(5, 9)] } }

theorem test_decoderStart : after (fun t => (t.rd.low, t.work.read 5)) (exec .decoderStart refPixel) = some (0x01020304, 9) := by
  decide +kernel

theorem test_commit : after (fun t => (t.ref.read 5, t.fd.state, t.status)) (exec .commit refPixel) = some (0, .committed, .ok) := by
  decide +kernel

theorem test_emptyCommit : after (fun t => (t.ref.read 5, t.fd.state, t.status)) (exec .emptyCommit refPixel) =
    some (9, .committed, .ok) := by
  decide +kernel

theorem test_abort : after (fun t => (t.status, t.fd.state, t.fd.errFlag, t.work.read 5, t.ref.read 5))
    (exec (.abort .malformedBlock) refPixel) = some (.malformedBlock, .aborted, true, 9, 9) := by
  decide +kernel

/-- Rule R265: with both flags up the abort is TruncatedInput. -/
theorem test_errorCheck : after State.status (exec .errorCheck (setBlkErr (State.reset.setRd { State.reset.rd with err := true }))) =
      some .truncatedInput ∧
    after State.status (exec .errorCheck (setBlkErr State.reset)) = some .malformedBlock := by
  decide +kernel

/-- The first symbol 4 of a payload is Skip (rule R178): the block changes no sample. -/
theorem test_blockStep : after (fun t => ((t.coder .c1).bt.lastType, t.sample .c1 0 0))
    (exec (.blockStep .c1 0 0) (started [0xFF, 0xFF, 0xFF, 0xFF] 0xFFFFFFFF)) = some (4, 0) := by
  decide +kernel

/-- Rule R242: the order of the blocks of two macroblocks. -/
theorem test_walkOrder : walkOrder 2 1 = [(0, 0, .y), (0, 0, .c1), (0, 0, .c2), (0, 1, .y), (0, 1, .c1), (0, 1, .c2)] := by
  decide

theorem test_mbWalk_empty : after State.status (exec .mbWalk { State.reset with inp := { someFrame with region := ⟨0, 0, 0, 0⟩ } }) =
    some .ok := by
  decide +kernel

theorem test_construct : after (fun t => (t.alive, t.planeW .c1, t.sample .y 3 3, t.ref.read 0))
    (exec (.construct { someConstruct with frameW := 17 }) State.blank) = some (true, 9, 0, 128) := by
  decide +kernel

theorem test_destroy : after State.alive (exec .destroy State.reset) = some false ∧ exec .skip State.blank = .refused .destroyed := by
  exact ⟨by decide +kernel, rfl⟩

/-! ## Witnesses: states and operands that meet the hypotheses of each statement -/

/-- State.reset with a payload latched and a decoder on it. -/
def ready : State := started [0x12, 0x34, 0x56, 0x78, 0x9A, 0xBC] 0x12345678

theorem ready_alive : ready.alive = true := rfl

theorem ready_models : ready.ModelsGood := initial_models.of_coders rfl

theorem ready_can : ready.CanDecode :=
  ⟨rfl, ready_models, ⟨rfl, by decide, by decide, ⟨0, by decide, by decide⟩⟩⟩

theorem ready_canonical : ready.Canonical := ⟨rfl, rfl, fun p => by cases p <;> rfl⟩

theorem reset_canonical : State.reset.Canonical := ⟨rfl, rfl, fun p => by cases p <;> rfl⟩

theorem reset_models : State.reset.ModelsGood := initial_models.of_coders rfl

theorem reset_host : State.reset.HostInv :=
  ⟨rfl, reset_canonical, reset_models, by decide, by decide, fun q h => by cases h⟩

theorem reset_small_max (m : SmallRef) : (State.reset.small m).maxUpdVal.toNat = 8 * m.size + 48 := (reset_models.small m).max_eq

theorem reset_byte_max (m : ByteRef) : (State.reset.byte m).base.maxUpdVal.toNat = 2096 := (reset_models.byte m).base.max_eq

theorem reset_step : State.reset.StepInv :=
  ⟨reset_canonical, reset_small_max, reset_byte_max, by decide, fun h => by cases h⟩

theorem ready_blockFits (p : Plane) : ready.BlockFits p := by cases p <;> exact ⟨by decide, by decide⟩

theorem ready_histFits (p : Plane) : ready.HistFits p := by cases p <;> exact ⟨by decide, by decide⟩

theorem witness_EncodeThenDecode : Instr.wf (.acLevel .y 63 15) = true ∧ Instr.wf (.msUpdate (.vs .c1) 2) = true := by decide

theorem witness_DecodeThenEncode : decode (.symbol .acToken 0xFF) = .ok (.acRlC15 15) ∧
    decode (.command .destroy) = .ok .destroy := by
  refine ⟨rfl, rfl⟩

theorem witness_SymbolCodes : 12 ≤ (12 : Byte).toNat ∧ 5 ≤ (5 : Byte).toNat ∧ 3 ≤ (3 : Byte).toNat := by decide

/-- The selection, a refused code, the queue, idleness, and a table word. -/
theorem witness_StepRunsDecoded :
    (State.reset.withIssue (.symbol .blockType 4)).issue = some (.symbol .blockType 4) ∧
    decode (.symbol .blockType 4) = .ok .skip ∧ decode (.symbol .blockType 5) = .error .unreachableSymbol ∧
    ({ State.reset with cmds := [.destroy] } : State).issue = none ∧ decode (.command .destroy) = .ok .destroy ∧
    decode (.command (.construct { someConstruct with frameW := 0 })) = .error .illFormed ∧
    (State.reset.issue = none ∧ State.reset.cmds = []) ∧ decodeTableWord 8 0xF0 = some .acZrl := by
  refine ⟨rfl, rfl, rfl, rfl, rfl, rfl, ⟨rfl, rfl⟩, rfl⟩

/-- The idle step, and a step that runs an operation. -/
theorem witness_StepInvKept : State.reset.StepInv ∧ step State.reset = .next State.reset := ⟨reset_step, rfl⟩

theorem witness_HostInvKept : State.reset.HostInv ∧ step State.reset = .next State.reset := ⟨reset_host, rfl⟩

/-- A state with one command waiting. -/
def waiting : State := { State.reset with cmds := [.decodeFrame someFrame] }

theorem witness_EveryCommandCompletes : waiting.HostInv ∧ waiting.alive = true ∧ waiting.cmds = .decodeFrame someFrame :: [] ∧
    (decodeCommand (.decodeFrame someFrame)).wf = true :=
  ⟨⟨rfl, ⟨rfl, rfl, fun p => by cases p <;> rfl⟩, initial_models.of_coders rfl, by decide, by decide, fun q h => by cases h⟩,
    rfl, rfl, rfl⟩

theorem witness_MemoryReadWrite : Store.wf ({ dflt := 0, cells := [(3, 1), (7, 2)] } : Store 8) = true ∧ (7 : Nat) ≠ 3 ∧
    sampleAddr .c2 65535 65535 = sampleAddr .c2 65535 65535 ∧ histAddr 65535 1 = histAddr 65535 1 := by
  decide

theorem witness_ModelResets : State.reset.alive = true := rfl

/-- Before the last symbol of a period, and at it. -/
theorem witness_BinaryUpdate : State.reset.alive = true ∧ (State.reset.bin (.sign .y)).Good ∧
    (State.reset.bin (.sign .y)).tillRescale.toNat ≠ 1 ∧
    BinModel.Good { BinModel.initial with tillRescale := 1, zeroWeight := 4 } ∧
    (BinModel.tillRescale { BinModel.initial with tillRescale := 1, zeroWeight := 4 }).toNat = 1 :=
  ⟨rfl, reset_models.bin _, by decide,
    ⟨by decide, by decide, by decide, by decide, by decide, by decide, by decide, by decide, by decide⟩, by decide⟩

/-- The last symbol of an alphabet, and the first value outside it. -/
theorem witness_SmallUpdate : State.reset.alive = true ∧ (State.reset.small (.vs .y)).Good ∧
    BitVec.toNat (2 : BitVec 4) < SmallRef.size (.vs .y) ∧ ¬ BitVec.toNat (3 : BitVec 4) < SmallRef.size (.vs .y) :=
  ⟨rfl, reset_models.small _, by decide, by decide⟩

theorem witness_ByteUpdate : State.reset.alive = true ∧ (State.reset.byte (.pal .y)).Good ∧
    (State.reset.byte (.pal .y)).base.tillRescale.toNat ≠ 1 :=
  ⟨rfl, reset_models.byte _, by decide⟩

theorem witness_SecondaryIndex : State.reset.alive = true ∧ (State.reset.byte (.ac .c1)).base.freqs[0].toNat = 0 ∧
    (∀ i j : Fin 256, i < j →
      (State.reset.byte (.ac .c1)).base.freqs[i].toNat < (State.reset.byte (.ac .c1)).base.freqs[j].toNat) ∧
    (∀ i : Fin 256, (State.reset.byte (.ac .c1)).base.freqs[i].toNat < 0x8000) :=
  ⟨rfl, (reset_models.byte (.ac .c1)).base.freq_zero 0 rfl, (reset_models.byte (.ac .c1)).base.freq_lt,
    (reset_models.byte (.ac .c1)).base.freq_top⟩

theorem witness_ModelInvariants : State.reset.alive = true ∧ State.reset.ModelsGood ∧
    BitVec.toNat (4 : BitVec 4) < SmallRef.size (.vq .c2 124) :=
  ⟨rfl, reset_models, by decide⟩

theorem reset_weightTotal (m : ByteRef) : (State.reset.byte m).base.weightTotal = 256 := by
  have h := (reset_models.byte m).base.period
  have h2 : (State.reset.byte m).base.totWeight.toNat = 256 ∧ (State.reset.byte m).base.updVal =
    (State.reset.byte m).base.tillRescale := by
    cases m with | _ p => cases p <;> exact ⟨rfl, rfl⟩
  rw [h2.1, h2.2] at h
  omega

theorem witness_HalveWeights : State.reset.alive = true ∧
    (State.reset.small (.vs .y)).weightTotal + SmallRef.size (.vs .y) < 2 ^ 32 ∧
    (State.reset.byte (.hi .y)).base.weightTotal + 256 < 2 ^ 32 :=
  ⟨rfl, by decide, by rw [reset_weightTotal]; decide⟩

/-- A model whose total is 0. -/
def noTotal (s : State) : State := s.setSmall (.vs .y) { FreqModel.initial 3 with totWeight := 0 }

/-- A Byte model whose total is 0. -/
def noTotalByte (s : State) : State :=
  s.setByte (.pal .y) { ByteModel.initial with base := { FreqModel.initial 256 with totWeight := 0 } }

theorem witness_RebuildFrequencies : (noTotal State.reset).alive = true ∧ ((noTotal State.reset).small (.vs .y)).totWeight = 0 ∧
    (noTotalByte State.reset).alive = true ∧ ((noTotalByte State.reset).byte (.pal .y)).base.totWeight = 0 ∧
    (State.reset.alive = true ∧ 1 ≤ (State.reset.small (.vs .y)).totWeight.toNat ∧
      (State.reset.small (.vs .y)).weightTotal ≤ (State.reset.small (.vs .y)).totWeight.toNat) ∧
    1 ≤ (State.reset.byte (.hi .y)).base.totWeight.toNat ∧
    (State.reset.byte (.hi .y)).base.weightTotal ≤ (State.reset.byte (.hi .y)).base.totWeight.toNat :=
  ⟨rfl, rfl, rfl, rfl, ⟨rfl, by decide, by decide⟩, by decide, by rw [reset_weightTotal]; decide⟩

theorem witness_DecoderInit : ready.alive = true := rfl

/-- The smallest range, the largest below RAC_BOTTOM, and RAC_BOTTOM itself. -/
theorem witness_Normalise : ready.alive = true ∧ ready.rd.stop = ready.inp.payload.length ∧ ready.rd.cur ≤ ready.rd.stop ∧
    1 ≤ (1 : U32).toNat ∧ (1 : U32).toNat < 0x1000000 ∧ 2 ^ 9 ≤ (0xFFFFFF : U32).toNat ∧ (0xFFFFFF : U32).toNat < 0x1000000 ∧
    0x1000000 ≤ (0x1000000 : U32).toNat ∧ 1 ≤ ready.rd.range.toNat :=
  ⟨rfl, rfl, by decide, by decide, by decide, by decide, by decide, by decide, by decide⟩

theorem witness_GetBit : ready.CanDecode := ready_can

theorem witness_GetBits : ready.CanDecode ∧ 1 ≤ (1 : BitVec 4).toNat ∧ (14 : BitVec 4).toNat ≤ 14 := ⟨ready_can, by decide, by decide⟩

theorem witness_DecBin : ready.CanDecode := ready_can

theorem witness_DecSmall : ready.CanDecode := ready_can

theorem witness_DecByte : ready.CanDecode := ready_can

theorem witness_RangeBottom : exec .normalise ready = .next (ready.setRd ready.rd) := rfl

theorem witness_DecodingGoesOn : ready.alive = true ∧ ready.ModelsGood ∧ ready.CanDecode ∧ 1 ≤ (1 : BitVec 4).toNat ∧
    (14 : BitVec 4).toNat ≤ 14 :=
  ⟨rfl, ready_models, ready_can, by decide, by decide⟩

/-- A state with the flag up, through SKIP. -/
def flagged : State := ready.setRd { ready.rd with err := true }

theorem witness_ErrorFlagSticky : exec .skip flagged = .next flagged ∧ flagged.rd.err = true := ⟨rfl, rfl⟩

theorem witness_ReferenceWrittenByCommitOnly : ready.params.profile.abortWrites = .discard ∧ exec .skip ready = .next ready :=
  ⟨rfl, rfl⟩

theorem witness_SelectBlockType : ready.CanDecode := ready_can

theorem witness_CoefficientOperands : ready.CanDecode ∧ 1 ≤ (1 : BitVec 4).toNat ∧ (10 : BitVec 4).toNat ≤ 10 ∧
    2 ≤ (2 : Fin 12).val :=
  ⟨ready_can, by decide, by decide, by decide⟩

theorem witness_DecodeCoefficient : ready.CanDecode := ready_can

theorem witness_FillBlock : ready.CanDecode ∧ ready.Canonical ∧ ready.BlockFits ready.seq.p :=
  ⟨ready_can, ready_canonical, ready_blockFits _⟩

theorem witness_SkipAndVectorSize : ready.alive = true := rfl

/-- The first pixel lies in its plane; one below the plane's last row does not. -/
theorem witness_PaletteAndEscape : ready.CanDecode ∧ ready.Canonical ∧
    (ready.origin .y).1 + ready.seq.j.val < ready.planeH .y ∧ (ready.origin .y).2 + ready.seq.i.val < ready.planeW .y ∧
    ¬ ((ready.setSeq { ready.seq with mby := 1 }).origin .y).1 + ready.seq.j.val < ready.planeH .y :=
  ⟨ready_can, ready_canonical, by decide, by decide, by decide⟩

/-- A class below the limit, the limit itself under VEC_SIZE, and the escape class. -/
theorem witness_VqClassToSample : ready.CanDecode ∧ ready.Canonical ∧
    (ready.origin ready.seq.p).1 + ready.seq.j.val < ready.planeH ready.seq.p ∧
    (ready.origin ready.seq.p).2 + ready.seq.i.val < ready.planeW ready.seq.p ∧
    (1 : Fin 5).val < ready.scratch.img.vs.val + 2 ∧ ¬ (2 : Fin 5).val < ready.scratch.img.vs.val + 2 ∧ ¬ (4 : Fin 5).val < 4 :=
  ⟨ready_can, ready_canonical, by decide, by decide, by decide, by decide, by decide⟩

theorem witness_ImageBlock : ready.CanDecode ∧ ready.Canonical ∧ ready.BlockFits ready.seq.p :=
  ⟨ready_can, ready_canonical, ready_blockFits _⟩

/-- A luma history of 2 by 2: for each clause the last position that completes and the first that does not. Both coordinates
positive, then the left column, then the top row. -/
theorem witness_DcPrediction : ready.alive = true ∧
    ((1 : U16).toNat < ready.histW .y ∧ (1 : U16).toNat < ready.histH .y) ∧
    ¬ ((2 : U16).toNat < ready.histW .y ∧ (1 : U16).toNat < ready.histH .y) ∧
    ¬ ((1 : U16).toNat < ready.histW .y ∧ (2 : U16).toNat < ready.histH .y) ∧
    (0 < ready.histW .y ∧ (2 : U16).toNat ≤ ready.histH .y) ∧ ¬ (0 < ready.histW .y ∧ (3 : U16).toNat ≤ ready.histH .y) ∧
    ((2 : U16).toNat ≤ ready.histW .y ∧ 0 < ready.histH .y) ∧ ¬ ((3 : U16).toNat ≤ ready.histW .y ∧ 0 < ready.histH .y) := by
  decide

theorem witness_DcStore : ready.alive = true ∧ ready.Canonical ∧ (1 : U16).toNat < ready.histW .y ∧ (1 : U16).toNat < ready.histH .y ∧
    ¬ ((2 : U16).toNat < ready.histW .y ∧ (0 : U16).toNat < ready.histH .y) :=
  ⟨rfl, ready_canonical, by decide, by decide, by decide⟩

theorem witness_AcLevel : ready.CanDecode ∧ 1 ≤ (14 : BitVec 4).toNat ∧ (14 : BitVec 4).toNat ≤ 14 ∧ 1 ≤ (15 : BitVec 4).toNat :=
  ⟨ready_can, by decide, by decide, by decide⟩

/-- A run that stays at 63, and one that reaches 64. -/
theorem witness_AcTokens : ready.alive = true ∧ ready.CanDecode ∧ (ready.setPos 48).seq.pos + (15 : BitVec 4).toNat < 64 ∧
    64 ≤ (ready.setPos 49).seq.pos + (15 : BitVec 4).toNat :=
  ⟨rfl, ready_can, by decide, by decide⟩

theorem witness_AcDecode : ready.CanDecode ∧ ready.Canonical := ⟨ready_can, ready_canonical⟩

theorem witness_DctSubBlock : ready.CanDecode ∧ ready.Canonical ∧ (1 : U16).toNat < ready.histW .y ∧ (1 : U16).toNat < ready.histH .y :=
  ⟨ready_can, ready_canonical, by decide, by decide⟩

/-- The last sub-block of a luma block, and the only one of a chroma block. -/
theorem witness_IdctWrite : ready.alive = true ∧ ready.Canonical ∧ ready.BlockFits .y ∧ ready.BlockFits .c1 ∧
    (8 : BitVec 4).toNat + 8 ≤ Plane.bs .y ∧ (0 : BitVec 4).toNat + 8 ≤ Plane.bs .c1 :=
  ⟨rfl, ready_canonical, ready_blockFits _, ready_blockFits _, by decide, by decide⟩

theorem witness_DctBlock : ready.CanDecode ∧ ready.Canonical ∧ ready.BlockFits ready.seq.p ∧ ready.HistFits ready.seq.p :=
  ⟨ready_can, ready_canonical, ready_blockFits _, ready_histFits _⟩

theorem witness_HaarBlock : ready.CanDecode ∧ ready.Canonical ∧ ready.BlockFits ready.seq.p :=
  ⟨ready_can, ready_canonical, ready_blockFits _⟩

theorem witness_HaarButterfly : ready.alive = true ∧ ready.Canonical ∧ ready.BlockFits .y ∧ (7 : Nat) < Plane.bs .y / 2 :=
  ⟨rfl, ready_canonical, ready_blockFits _, by decide⟩

theorem witness_CommandChecks : ready.alive = true := rfl

theorem witness_KeyframeReset : State.reset.alive = true ∧
    (∀ m : SmallRef, (State.reset.small m).maxUpdVal.toNat = 8 * m.size + 48) ∧
    (∀ m : ByteRef, (State.reset.byte m).base.maxUpdVal.toNat = 2096) :=
  ⟨rfl, reset_small_max, reset_byte_max⟩

theorem witness_FrameStart : State.reset.alive = true ∧
    (∀ m : SmallRef, (State.reset.small m).maxUpdVal.toNat = 8 * m.size + 48) ∧
    (∀ m : ByteRef, (State.reset.byte m).base.maxUpdVal.toNat = 2096) ∧
    State.reset.params.profile.resetPolicy = .keyframe :=
  ⟨rfl, reset_small_max, reset_byte_max, rfl⟩

/-- A cache that holds the latched quality, and an empty one. -/
theorem witness_QualityCache : ready.alive = true ∧
    ((ready.setFd { ready.fd with qCache := some 50 }).fd.qCache = some ready.inp.quality) ∧
    ready.fd.qCache ≠ some ready.inp.quality ∧ ready.params.haarScale = .default :=
  ⟨rfl, rfl, by decide, rfl⟩

/-- An accepted command and one that is turned away. -/
theorem witness_CacheUnobservable : State.reset.alive = true ∧ State.reset.HostInv ∧
    turnedAway { State.reset with inp := someFrame } = none ∧
    turnedAway { State.reset with inp := { someFrame with quality := 101 } } ≠ none :=
  ⟨rfl, reset_host, by decide, by decide⟩

theorem witness_StartAndCommit : ready.alive = true := rfl

theorem witness_ErrorCheckAndAbort : ready.alive = true := rfl

theorem witness_BlockStep : ready.CanDecode ∧ ready.Canonical ∧ regionOk ready.params ready.inp.region = true ∧
    (0 : U16).toNat < ready.inp.region.w.toNat / 16 ∧ (0 : U16).toNat < ready.inp.region.h.toNat / 16 :=
  ⟨ready_can, ready_canonical, by decide, by decide, by decide⟩

theorem witness_MacroblockWalk : ready.CanDecode ∧ ready.Canonical ∧ regionOk ready.params ready.inp.region = true :=
  ⟨ready_can, ready_canonical, by decide⟩

theorem witness_DecodeFrameSequence : State.reset.alive = true ∧ State.reset.HostInv := ⟨rfl, reset_host⟩

theorem witness_FrameOutput : State.reset.alive = true ∧ State.reset.HostInv := ⟨rfl, reset_host⟩

/-- A live instance for the first clause, and none for the third. -/
theorem witness_Destroy : State.reset.alive = true ∧ State.blank.alive = false ∧ ∀ a, Instr.skip ≠ .construct a :=
  ⟨rfl, rfl, fun _ h => by cases h⟩

end Sys2Proof.Tests
end

/-! ## O4: one step is fetch, decode, exec

What `fetch` answers in each state of the latch and the queue, what `step` does with each answer, and which code a
table word leaves in the latch. -/

section
namespace Sys2Proof.Machine

variable {s t : State} {c : Code}

theorem fetch_of_issued (h : s.issue = some c) : fetch s = some (c, { s with issue := none }) := by
  simp only [fetch, h]

theorem fetch_of_queued {h : HostCall} {l : List HostCall} (hissue : s.issue = none) (hcmds : s.cmds = h :: l) :
    fetch s = some (.command h, { s with cmds := l }) := by
  simp only [fetch, hissue, hcmds]

theorem fetch_of_idle (hissue : s.issue = none) (hcmds : s.cmds = []) : fetch s = none := by
  simp only [fetch, hissue, hcmds]

theorem step_of_fetch_none (hf : fetch s = none) : step s = .next s := by
  simp only [step, hf]

theorem step_of_decode_ok {i : Instr} (hf : fetch s = some (c, t)) (hd : decode c = .ok i) : step s = exec i t := by
  simp only [step, hf, hd]

theorem step_of_decode_error {e : DecodeError} (hf : fetch s = some (c, t)) (hd : decode c = .error e) :
    step s = .refused (.undecodable e) := by
  simp only [step, hf, hd]

/-- A table word stands for an operation only if its width and value are those of a byte and its code decodes to it. -/
theorem decodeTableWord_eq_some_iff {n w : Nat} {i : Instr} :
    decodeTableWord n w = some i ↔ (n = 8 ∧ w < 256) ∧ decode (tableCode w) = .ok i := by
  unfold decodeTableWord
  by_cases hbyte : n = 8 ∧ w < 256
  · cases hd : decode (tableCode w) <;> simp [hbyte]
  · simp [hbyte]

/-- The selection a table word overwrites is cleared by the fetch, so nothing of it remains. -/
theorem fetch_withFetchWord (s : State) (n w : Nat) :
    fetch (s.withFetchWord n w) = some (tableCode w, { s with issue := none }) :=
  fetch_of_issued (s := s.withFetchWord n w) (withIssue_issue s (tableCode w))

/-- Settles O4: each clause is one case of `fetch` followed by one case of `decode`. -/
theorem stepRunsDecoded : Obligations.StepRunsDecoded := by
  intro s
  refine ⟨?issued, ?issuedRefused, ?queued, ?queuedRefused, ?idle, ?tableWord⟩
  case issued => exact fun c i hissue hd => step_of_decode_ok (fetch_of_issued hissue) hd
  case issuedRefused => exact fun c e hissue hd => step_of_decode_error (fetch_of_issued hissue) hd
  case queued => exact fun h l i hissue hcmds hd => step_of_decode_ok (fetch_of_queued hissue hcmds) hd
  case queuedRefused => exact fun h l e hissue hcmds hd => step_of_decode_error (fetch_of_queued hissue hcmds) hd
  case idle => exact fun hissue hcmds => step_of_fetch_none (fetch_of_idle hissue hcmds)
  case tableWord =>
    intro n w i hword
    obtain ⟨-, hd⟩ := decodeTableWord_eq_some_iff.mp hword
    exact step_of_decode_ok (fetch_withFetchWord s n w) hd

end Sys2Proof.Machine
end

/-! ## O6, O27, O28, O60: what an operation leads to

Every operation that answers a state, seen once: it is an ordinary one, which keeps soundness, the parameters, a set
`RD.err` and, under DISCARD, the reference planes; or it is one of the six that build a decoder, commit a frame, make
an instance or end one. The invariants are read off that case analysis. -/

section
namespace Sys2Proof.Machine

variable {s t u : State} {i : Instr}

/-! ### An instance that does not exist -/

theorem live_of_not_alive (hdead : s.alive = false) (f : State → Res State) : live s f = .refused .destroyed := by
  simp [live, hdead]

theorem returnCoef_of_not_alive (hdead : s.alive = false) (f : State → Res (Int × State)) :
    returnCoef f s = .refused .destroyed :=
  live_of_not_alive hdead _

theorem runLevel_of_not_alive (hdead : s.alive = false) (c : Nat) (r : BitVec 4) :
    runLevel c r s = .refused .destroyed :=
  live_of_not_alive hdead _

theorem illegalToken_of_not_alive (hdead : s.alive = false) : illegalToken s = .refused .destroyed :=
  live_of_not_alive hdead _

theorem execCheck_of_not_alive (hdead : s.alive = false) (f : State → Option Status) :
    execCheck f s = .refused .destroyed :=
  live_of_not_alive hdead _

theorem execMsHalve_of_not_alive (hdead : s.alive = false) (m : TableRef) : execMsHalve m s = .refused .destroyed := by
  unfold execMsHalve
  cases m <;> exact live_of_not_alive hdead _

theorem execMsFreqs_of_not_alive (hdead : s.alive = false) (m : TableRef) : execMsFreqs m s = .refused .destroyed := by
  unfold execMsFreqs
  cases m <;> exact live_of_not_alive hdead _

/-- Every meaning but that of CONSTRUCT is one of a live instance (rule R58). -/
theorem exec_of_not_alive (hdead : s.alive = false) (hi : ∀ a, i ≠ .construct a) : exec i s = .refused .destroyed := by
  unfold exec
  cases i with
  | construct a => exact absurd rfl (hi a)
  | coefC0 | coefC1 | coefC2 | coefC3 | coefC4 | coefC5 | coefC6 | coefC7 | coefC8 | coefC9 | coefC10 | coefC11
  | coefSign | coefExtra n | decodeCoeff m | acSign | acExtra n | haarLl | haarHf =>
    exact returnCoef_of_not_alive hdead _
  | acRlC1 r | acRlC2 r | acRlC3 r | acRlC4 r | acRlC5 r | acRlC6 r | acRlC7 r | acRlC8 r | acRlC9 r | acRlC10 r
  | acRlC11 r | acRlC12 r | acRlC13 r | acRlC14 r | acRlC15 r => exact runLevel_of_not_alive hdead _ r
  | acIllegalR1 | acIllegalR2 | acIllegalR3 | acIllegalR4 | acIllegalR5 | acIllegalR6 | acIllegalR7 | acIllegalR8
  | acIllegalR9 | acIllegalR10 | acIllegalR11 | acIllegalR12 | acIllegalR13 | acIllegalR14 =>
    exact illegalToken_of_not_alive hdead
  | validate | emptyKeyCheck | skipCheck => exact execCheck_of_not_alive hdead _
  | msHalve m => exact execMsHalve_of_not_alive hdead m
  | msFreqs m => exact execMsFreqs_of_not_alive hdead m
  | _ => exact live_of_not_alive hdead _

theorem alive_of_exec_eq_next (h : exec i s = .next t) (hi : ∀ a, i ≠ .construct a) : s.alive = true := by
  by_contra hdead
  rw [exec_of_not_alive (Bool.eq_false_iff.mpr hdead) hi] at h
  cases h

/-! ### Ordinary operations -/

/-- The state `t` that an ordinary operation makes of `s`. -/
structure State.Ordinary (s t : State) : Prop where
  sound : s.Sound → t.Sound
  after : s.After t

/-- It depends on these fields alone. -/
theorem State.Ordinary.of_eqs (h : s.Ordinary u) (halive : t.alive = u.alive) (hparams : t.params = u.params)
    (hcoders : t.coders = u.coders) (hrd : t.rd = u.rd) (href : t.ref = u.ref) (hwork : t.work = u.work) :
    s.Ordinary t :=
  ⟨fun hs => (h.sound hs).of_eqs halive hcoders hrd href hwork, h.after.of_eqs hparams hrd href⟩

theorem State.Ordinary.refl (s : State) : s.Ordinary s := ⟨id, .refl s⟩

theorem State.Ordinary.setRet (h : s.Ordinary u) (v : Int) : s.Ordinary (u.setRet v) :=
  h.of_eqs rfl rfl rfl rfl rfl rfl

theorem State.Ordinary.flagMalformed (h : s.Ordinary u) : s.Ordinary (flagMalformed u) :=
  h.of_eqs (by simp) (by simp) (by simp) (by simp) (by simp) (by simp)

theorem onBin_ordinary {m : BinRef} {f : BinModel → Res BinModel} (h : onBin m f s = .ok t) : s.Ordinary t :=
  ⟨onBin_sound h, onBin_after h (.refl s)⟩

theorem onSmall_ordinary {m : SmallRef} {f : FreqModel m.size → Res (FreqModel m.size)} (h : onSmall m f s = .ok t)
    (hf : ∀ v, f (s.small m) = .ok v → v.maxUpdVal = (s.small m).maxUpdVal) : s.Ordinary t :=
  ⟨onSmall_sound h hf, onSmall_after h (.refl s)⟩

theorem onByte_ordinary {m : ByteRef} {f : ByteModel → Res ByteModel} (h : onByte m f s = .ok t)
    (hf : ∀ v, f (s.byte m) = .ok v → v.base.maxUpdVal = (s.byte m).base.maxUpdVal) : s.Ordinary t :=
  ⟨onByte_sound h hf, onByte_after h (.refl s)⟩

/-- MS_HALVE, as the operation that always succeeds (rule R140). -/
theorem FreqModel.max_of_ok_halve {n : Nat} {m m' : FreqModel n} (h : (.ok m.halve : Res (FreqModel n)) = .ok m') :
    m'.maxUpdVal = m.maxUpdVal := by
  injection h with h
  rw [← h, FreqModel.halve_max]

theorem ByteModel.onBase_max {f : FreqModel 256 → Res (FreqModel 256)} {m m' : ByteModel} (h : m.onBase f = .ok m')
    (hf : ∀ b, f m.base = .ok b → b.maxUpdVal = m.base.maxUpdVal) : m'.base.maxUpdVal = m.base.maxUpdVal := by
  obtain ⟨b, hb, rfl⟩ := map_eq_ok h
  exact hf b hb

/-- MS_UPDATE on the symbol an operand names (rule R139). -/
theorem symbolUpdate_max {n v : Nat} {m m' : FreqModel n} (h : (symbolOf n v).bind m.update = .ok m') :
    m'.maxUpdVal = m.maxUpdVal := by
  obtain ⟨x, -, hx⟩ := bind_eq_ok h
  exact FreqModel.update_max hx

theorem vqClass_ordinary {p : Plane} {a : Fin 5} (h : vqClass p a s = .ok t) : s.Ordinary t :=
  ⟨vqClass_sound h, vqClass_after h (.refl s)⟩

theorem haarLl_ordinary {p : Plane} {r : Int × State} (h : haarLl p s = .ok r) : s.Ordinary r.2 := by
  obtain ⟨x, hx, rfl⟩ := map_eq_ok h
  exact ⟨decByte_sound hx, decByte_after hx (.refl s)⟩

theorem decodeCoeff_ordinary {m : CoefRef} {r : Int × State} (h : decodeCoeff m s = .ok r) : s.Ordinary r.2 :=
  ⟨decodeCoeff_sound h, decodeCoeff_after h (.refl s)⟩

theorem keyframeReset_ordinary (h : keyframeReset s = .ok t) : s.Ordinary t :=
  ⟨keyframeReset_sound h, keyframeReset_after h (.refl s)⟩

/-- A check writes the status and the returned value at most. -/
theorem execCheck_ordinary {f : State → Option Status} (h : execCheck f s = .next t) : s.Ordinary t := by
  obtain ⟨-, hf⟩ := live_eq_next h
  split at hf
  · cases hf; exact (State.Ordinary.refl s).of_eqs rfl rfl rfl rfl rfl rfl
  · cases hf; exact (State.Ordinary.refl s).setRet 0

/-! ### The six others -/

/-- RD_INIT leaves a decoder with a clear flag (rule R115). -/
theorem rdInit_err (h : rdInit s = .ok t) : t.rd.err = false := by
  obtain ⟨rd, hrd, rfl⟩ := map_eq_ok h
  obtain ⟨rd', -, rfl⟩ := map_eq_ok hrd
  rfl

theorem rdInit_ref (h : rdInit s = .ok t) : t.ref = s.ref := by
  obtain ⟨rd, -, rfl⟩ := map_eq_ok h
  rfl

/-- DECODER_START copies REF to WORK and leaves it alone (rule R241). -/
theorem decoderStart_ref (h : decoderStart s = .ok t) : t.ref = s.ref := by
  obtain ⟨u, hu, rfl⟩ := map_eq_ok h
  exact rdInit_ref (t := u) hu

/-- What an operation of each kind makes of the state `s`. -/
inductive State.LeadsTo (s : State) : Instr → State → Prop where
  | ordinary {i : Instr} {t : State} (h : s.Ordinary t) : s.LeadsTo i t
  | rdInit {t : State} (h : rdInit s = .ok t) : s.LeadsTo .rdInit t
  | decoderStart {t : State} (h : decoderStart s = .ok t) : s.LeadsTo .decoderStart t
  | commit : s.LeadsTo .commit (commit s)
  | decodeFrame {a : FrameArgs} {t : State} (h : decodeFrame a s = .ok t) : s.LeadsTo (.decodeFrame a) t
  | construct {a : ConstructArgs} {t : State} (h : constructInstance a s = .ok t) : s.LeadsTo (.construct a) t
  | destroy : s.LeadsTo .destroy { State.blank with cmds := s.cmds }

theorem State.LeadsTo.of_live {f : State → Res State} (h : live s f = .next t) (hf : f s = .ok t → s.Ordinary t) :
    s.LeadsTo i t :=
  .ordinary (hf (live_eq_next h).2)

theorem State.LeadsTo.of_live_map {α : Type} {f : State → Res α} {g : α → State}
    (h : live s (fun s => (f s).map g) = .next t) (hf : ∀ r, f s = .ok r → s.Ordinary (g r)) : s.LeadsTo i t :=
  .of_live h fun e => by obtain ⟨r, hr, rfl⟩ := map_eq_ok e; exact hf r hr

theorem State.LeadsTo.of_live_ok {g : State → State} (h : live s (fun s => .ok (g s)) = .next t)
    (hg : s.Ordinary (g s)) : s.LeadsTo i t :=
  .of_live h fun e => by cases e; exact hg

theorem State.LeadsTo.of_returnCoef {f : State → Res (Int × State)} (h : returnCoef f s = .next t)
    (hf : ∀ r, f s = .ok r → s.Ordinary r.2) : s.LeadsTo i t :=
  .of_live_map h fun r e => (hf r e).setRet r.1

theorem State.LeadsTo.of_runLevel {c : Nat} {r : BitVec 4} (h : runLevel c r s = .next t) : s.LeadsTo i t :=
  .of_live_map h fun _ e => .flagMalformed ⟨acRl_sound e, acRl_after e (.refl s)⟩

theorem State.LeadsTo.of_illegalToken (h : illegalToken s = .next t) : s.LeadsTo i t :=
  have hm : s.Ordinary (acIllegal s) := (State.Ordinary.refl s).of_eqs rfl rfl rfl rfl rfl rfl
  .of_live_ok h hm.flagMalformed

theorem State.LeadsTo.of_execMsHalve {m : TableRef} (h : execMsHalve m s = .next t) : s.LeadsTo i t := by
  unfold execMsHalve at h
  cases m with
  | small m => exact .of_live h fun e => onSmall_ordinary e fun _ hv => FreqModel.max_of_ok_halve hv
  | byte m => exact .of_live h fun e => onByte_ordinary e fun _ hv =>
      ByteModel.onBase_max hv fun _ hb => FreqModel.max_of_ok_halve hb

theorem State.LeadsTo.of_execMsFreqs {m : TableRef} (h : execMsFreqs m s = .next t) : s.LeadsTo i t := by
  unfold execMsFreqs at h
  cases m with
  | small m => exact .of_live h fun e => onSmall_ordinary e fun _ hv => FreqModel.rebuildFreqs_max hv
  | byte m => exact .of_live h fun e => onByte_ordinary e fun _ hv =>
      ByteModel.onBase_max hv fun _ hb => FreqModel.rebuildFreqs_max hb

theorem execConstruct_eq_next {a : ConstructArgs} (h : execConstruct a s = .next t) : constructInstance a s = .ok t := by
  unfold execConstruct at h
  split at h
  · cases h; assumption
  · cases h

/-- What an operation that answers a state has done. -/
theorem exec_leadsTo (h : exec i s = .next t) : s.LeadsTo i t := by
  unfold exec at h
  cases i with
  -- the blocks
  | fill => exact .of_live h fun e => ⟨fillBlock_sound e, fillBlock_after e (.refl s)⟩
  | image => exact .of_live h fun e => ⟨imageBlock_sound e, imageBlock_after e (.refl s)⟩
  | dct => exact .of_live h fun e => ⟨dctFrom_sound _ _ e, dctFrom_after _ _ e (.refl s)⟩
  | haar => exact .of_live h fun e => ⟨haarBlock_sound e, haarBlock_after e (.refl s)⟩
  | skip => exact .of_live_ok h (.refl s)
  -- coefficients
  | coefC0 | coefC1 | coefC2 | coefC3 | coefC4 | coefC5 | coefC6 | coefC7 | coefC8 | coefC9 | coefC10 | coefC11 =>
    exact .of_returnCoef h fun _ e => ⟨coefClass_sound e, coefClass_after e (.refl s)⟩
  | coefSign => exact .of_returnCoef h fun _ e => ⟨coefSign_sound e, coefSign_after e (.refl s)⟩
  | coefExtra n => exact .of_returnCoef h fun _ e => ⟨coefExtra_sound e, coefExtra_after e (.refl s)⟩
  | decodeCoeff m => exact .of_returnCoef h fun _ e => decodeCoeff_ordinary e
  | btSelect p => exact .of_live_map h fun r e => .setRet ⟨btSelect_sound e, btSelect_after e (.refl s)⟩ _
  -- image symbols
  | vs2 | vs3 | vs4 => exact .of_live_ok h ((State.Ordinary.refl s).of_eqs rfl rfl rfl rfl rfl rfl)
  | palEntry k => exact .of_live h fun e => ⟨palEntry_sound e, palEntry_after e (.refl s)⟩
  | vqC0 | vqC1 | vqC2 | vqC3 | vqC4 => exact .of_live h vqClass_ordinary
  | escLiteral => exact .of_live h fun e => ⟨escLiteral_sound e, escLiteral_after e (.refl s)⟩
  -- AC tokens
  | acEob => exact .of_live_ok h ((State.Ordinary.refl s).of_eqs rfl rfl rfl rfl rfl rfl)
  | acZrl =>
    have hz : s.Ordinary (acZrl s) := (State.Ordinary.refl s).of_eqs rfl rfl rfl rfl rfl rfl
    exact .of_live_ok h hz.flagMalformed
  | acIllegalR1 | acIllegalR2 | acIllegalR3 | acIllegalR4 | acIllegalR5 | acIllegalR6 | acIllegalR7 | acIllegalR8
  | acIllegalR9 | acIllegalR10 | acIllegalR11 | acIllegalR12 | acIllegalR13 | acIllegalR14 =>
    exact .of_illegalToken h
  | acRlC1 r | acRlC2 r | acRlC3 r | acRlC4 r | acRlC5 r | acRlC6 r | acRlC7 r | acRlC8 r | acRlC9 r | acRlC10 r
  | acRlC11 r | acRlC12 r | acRlC13 r | acRlC14 r | acRlC15 r =>
    exact .of_runLevel h
  | acSign => exact .of_returnCoef h fun _ e => ⟨acSign_sound e, acSign_after e (.refl s)⟩
  | acExtra n => exact .of_returnCoef h fun _ e => ⟨acExtra_sound e, acExtra_after e (.refl s)⟩
  -- Haar coefficients
  | haarLl => exact .of_returnCoef h fun _ e => haarLl_ordinary e
  | haarHf => exact .of_returnCoef h fun _ e => decodeCoeff_ordinary e
  -- primitives and range-decoder micro-operations
  | getBit => exact .of_live_map h fun r e => .setRet ⟨getBit_sound e, getBit_after e (.refl s)⟩ _
  | getBits n => exact .of_live_map h fun r e => .setRet ⟨getBits_sound e, getBits_after e (.refl s)⟩ _
  | decBin m => exact .of_live_map h fun r e => .setRet ⟨decBin_sound e, decBin_after e (.refl s)⟩ _
  | decSmall m => exact .of_live_map h fun r e => .setRet ⟨decSmall_sound e, decSmall_after e (.refl s)⟩ _
  | decByte m => exact .of_live_map h fun r e => .setRet ⟨decByte_sound e, decByte_after e (.refl s)⟩ _
  | rdInit => exact .rdInit (live_eq_next h).2
  | normalise => exact .of_live h fun e => ⟨normalise_sound e, normalise_after e (.refl s)⟩
  -- models
  | m2Reset m | m2Update m b => exact .of_live h onBin_ordinary
  | msConstruct m => exact .of_live h fun e => ⟨msConstruct_sound e, onSmall_after e (.refl s)⟩
  | msUpdate m v => exact .of_live h fun e => onSmall_ordinary e fun _ hv => symbolUpdate_max hv
  | msHalve m => exact .of_execMsHalve h
  | msFreqs m => exact .of_execMsFreqs h
  | msReset m => exact .of_live h fun e => onSmall_ordinary e fun _ hv => FreqModel.reset_maxUpdVal hv
  | mbConstruct m => exact .of_live h fun e => ⟨mbConstruct_sound e, onByte_after e (.refl s)⟩
  | mbUpdate m v => exact .of_live h fun e => onByte_ordinary e fun _ hv => ByteModel.update_max hv
  | mbSecondary m => exact .of_live h fun e => onByte_ordinary e fun _ hv => by rw [ByteModel.rebuildSecondary_base hv]
  | mbReset m => exact .of_live h fun e => onByte_ordinary e fun _ hv => ByteModel.reset_maxUpdVal hv
  -- DCT and Haar micro-operations
  | dctSub p x y => exact .of_live_map h fun r e => .setRet ⟨dctSub_sound e, dctSub_after e (.refl s)⟩ _
  | dcPredict p x y => exact .of_live_map h fun v _ => (State.Ordinary.refl s).setRet v.toInt
  | mingrad l t tl => exact .of_live_ok h ((State.Ordinary.refl s).setRet _)
  | dcStore p x y d q => exact .of_live h fun e => ⟨dcStore_sound e, dcStore_after e (.refl s)⟩
  | acDecode p => exact .of_live_map h fun r e => .setRet ⟨acDecode_sound e, acDecode_after e (.refl s)⟩ _
  | acLevel p pos c => exact .of_live h fun e => ⟨acLevel_sound e, acLevel_after e (.refl s)⟩
  | idctWrite p r c => exact .of_live h fun e => ⟨writeRect_sound e, writeRect_after e (.refl s)⟩
  | haarButterfly p => exact .of_live h fun e => ⟨writeRect_sound e, writeRect_after e (.refl s)⟩
  -- frame steps
  | validate | emptyKeyCheck | skipCheck => exact .ordinary (execCheck_ordinary h)
  | frameStart => exact .of_live h fun e => ⟨frameStart_sound e, frameStart_after e (.refl s)⟩
  | qualityCache => exact .of_live_ok h ⟨qualityCache_sound, qualityCache_after (.refl s)⟩
  | keyframeReset | resetForKeyframe => exact .of_live h keyframeReset_ordinary
  | emptyCommit => exact .of_live_ok h ((State.Ordinary.refl s).of_eqs rfl rfl rfl rfl rfl rfl)
  | everyFrameReset => exact .of_live h fun e => ⟨everyFrameReset_sound e, everyFrameReset_after e (.refl s)⟩
  | decoderStart => exact .decoderStart (live_eq_next h).2
  | mbWalk => exact .of_live_map h fun r e => ⟨walkBlocks_sound _ e, mbWalk_after e (.refl s)⟩
  | blockStep p x y => exact .of_live h fun e => ⟨blockStep_sound e, blockStep_after e (.refl s)⟩
  | errorCheck => exact .of_live_ok h ⟨errorCheck_sound, errorCheck_after (.refl s)⟩
  | abort k => exact .of_live_ok h ⟨fun hs => abortFrame_sound hs k, abortFrame_after (.refl s) k⟩
  | commit =>
    obtain ⟨-, e⟩ := live_eq_next h
    cases e
    exact .commit
  -- host commands
  | construct a => exact .construct (execConstruct_eq_next h)
  | decodeFrame a => exact .decodeFrame (live_eq_next h).2
  | destroy =>
    obtain ⟨-, e⟩ := live_eq_next h
    cases e
    exact .destroy

/-! ### The step invariant -/

/-- The queue and the selection latch have no part in the step invariant (log entry 8). -/
theorem State.StepInv.withQueue (h : s.StepInv) (l : List HostCall) (c : Option Code) :
    State.StepInv { s with cmds := l, issue := c } :=
  ⟨⟨h.canonical.ref, h.canonical.work, h.canonical.hist⟩, h.small_max, h.byte_max, h.cursor,
    fun e => congrArg (fun u : State => { u with cmds := l, issue := c }) (h.dead e)⟩

theorem fetch_stepInv {c : Code} (h : fetch s = some (c, t)) (hs : s.StepInv) : t.StepInv := by
  unfold fetch at h
  split at h
  · cases h; exact hs.withQueue s.cmds none
  · split at h
    · cases h
    · cases h; exact hs.withQueue _ s.issue

/-- The decoder answers well-formed operations only. -/
theorem wf_of_decode_eq_ok {c : Code} (h : decode c = .ok i) : i.wf = true := by
  unfold decode at h
  dsimp only at h
  split at h
  · cases h
  · split at h
    · cases h; assumption
    · cases h

theorem blank_stepInv : State.blank.StepInv :=
  ⟨⟨rfl, rfl, fun p => by cases p <;> rfl⟩, fun m => (initial_models.small m).max_eq,
    fun m => (initial_models.byte m).base.max_eq, Nat.le_refl 0, fun _ => rfl⟩

theorem constructInstance_sound {a : ConstructArgs} (h : constructInstance a s = .ok t) (ha : a.initPlanes.wf = true) :
    t.Sound := by
  rw [constructInstance_eq] at h
  cases h
  exact ⟨rfl, ⟨ha, blank_stepInv.canonical.work, blank_stepInv.canonical.hist⟩, blank_stepInv.small_max,
    blank_stepInv.byte_max, blank_stepInv.cursor⟩

/-- A well-formed CONSTRUCT brings canonical planes (rule R10). -/
theorem initPlanes_wf_of_wf {a : ConstructArgs} (h : (Instr.construct a).wf = true) : a.initPlanes.wf = true := by
  simp only [Instr.wf, Bool.and_eq_true] at h
  exact h.2

/-- CONSTRUCT makes a sound instance of any state; every other operation runs on a live one, so on a sound state. -/
theorem exec_stepInv (h : exec i s = .next t) (hi : i.wf = true) (hs : s.StepInv) : t.StepInv := by
  by_cases hconstruct : ∃ a, i = .construct a
  · obtain ⟨a, rfl⟩ := hconstruct
    exact (constructInstance_sound (execConstruct_eq_next h) (initPlanes_wf_of_wf hi)).inv
  · have hsound : s.Sound := hs.sound (alive_of_exec_eq_next h fun a e => hconstruct ⟨a, e⟩)
    cases exec_leadsTo h with
    | ordinary ho => exact (ho.sound hsound).inv
    | rdInit e => exact (rdInit_sound e hsound).inv
    | decoderStart e => exact (decoderStart_sound e hsound).inv
    | commit => exact (commit_sound hsound).inv
    | decodeFrame e => exact (decodeFrame_sound e hsound).inv
    | construct _ => exact absurd ⟨_, rfl⟩ hconstruct
    | destroy => exact blank_stepInv.withQueue s.cmds none

/-- Settles O6: the fetch touches the queue and the latch alone, the decoder answers well-formed operations only, and
each of those keeps the invariant. -/
theorem stepInvKept : Obligations.StepInvKept := by
  intro s t hs h
  unfold step at h
  split at h
  · cases h; exact hs
  · rename_i c u hf
    split at h
    · cases h
    · rename_i i hd
      exact exec_stepInv h (wf_of_decode_eq_ok hd) (fetch_stepInv hf hs)

/-! ### The error flag, the reference planes and the end of an instance -/

/-- Settles O27: an ordinary operation keeps a set `RD.err`, and COMMIT does not touch the range decoder. -/
theorem errorFlagSticky : Obligations.ErrorFlagSticky := by
  intro s t i h
  refine ⟨?cleared, ?sticky⟩
  case cleared => rintro rfl; exact rdInit_err (live_eq_next h).2
  case sticky =>
    intro herr hrdInit hdecoderStart hdecodeFrame hconstruct hdestroy
    cases exec_leadsTo h with
    | ordinary ho => exact ho.after.err herr
    | rdInit _ => exact absurd rfl hrdInit
    | decoderStart _ => exact absurd rfl hdecoderStart
    | commit => exact herr
    | decodeFrame _ => exact absurd rfl (hdecodeFrame _)
    | construct _ => exact absurd rfl (hconstruct _)
    | destroy => exact absurd rfl hdestroy

/-- Settles O28: under DISCARD an ordinary operation writes WORK alone, and the two that build a decoder only read
REF. -/
theorem referenceWrittenByCommitOnly : Obligations.ReferenceWrittenByCommitOnly := by
  intro s t i hdiscard h hcommit hdecodeFrame hconstruct hdestroy
  cases exec_leadsTo h with
  | ordinary ho => exact ho.after.ref hdiscard
  | rdInit h => exact rdInit_ref h
  | decoderStart h => exact decoderStart_ref h
  | commit => exact absurd rfl hcommit
  | decodeFrame _ => exact absurd rfl (hdecodeFrame _)
  | construct _ => exact absurd rfl (hconstruct _)
  | destroy => exact absurd rfl hdestroy

theorem exec_destroy (halive : s.alive = true) : exec .destroy s = .next { State.blank with cmds := s.cmds } := by
  unfold exec execDestroy
  exact live_ok halive rfl

/-- Settles O60: DESTROY leaves the blank state with the queue, and every meaning but that of CONSTRUCT is refused on a
dead state. -/
theorem destroy : Obligations.Destroy :=
  ⟨fun _ halive => exec_destroy halive, rfl, fun _ _ hdead hi => exec_of_not_alive hdead hi⟩

end Sys2Proof.Machine
end

/-! ## O9: the addresses of samples and history positions

The laws of one memory stand in `Laws/Memory.lean`; here the sample addresses of all three planes together. -/

section
namespace Sys2Proof.Machine

/-- Samples have distinct addresses, in one plane or in two (log entry 13). -/
theorem sampleAddr_injective {p q : Plane} {r c r' c' : Nat} (hr : r < 65536) (hc : c < 65536) (hr' : r' < 65536)
    (hc' : c' < 65536) (h : sampleAddr p r c = sampleAddr q r' c') : p = q ∧ r = r' ∧ c = c' := by
  by_cases hpq : p = q
  · subst hpq
    exact ⟨rfl, sampleAddr_inj hc hc' h⟩
  · exact absurd h (sampleAddr_ne hpq hr hr' hc hc')

/-- Settles O9: the memory's own laws, and the addresses being injective. -/
theorem memoryReadWrite : Obligations.MemoryReadWrite := by
  refine ⟨?cells, ?samples, ?history⟩
  case cells => exact fun w m a v hm => ⟨write_wf m a v hm, read_write_same m a v hm, fun b hb => read_write_ne m v hb⟩
  case samples => exact fun p q r c r' c' hr hc hr' hc' => sampleAddr_injective hr hc hr' hc'
  case history => exact fun x y x' y' hx hx' => histAddr_inj hx hx'

end Sys2Proof.Machine
end

/-! ## O52: the quality cache cannot be observed

Emptying the cache commutes with everything a command does before QUALITY_CACHE, none of which reads it. QUALITY_CACHE
then answers one state for both: where the cache holds the latched quality, a sound cache holds just what the reload
writes (rule R86), and where it does not, both reload. -/

section
namespace Sys2Proof.Machine

variable {s : State}

/-- The state with `FD.q_cache` emptied. -/
def State.dropCache (s : State) : State := s.setFd { s.fd with qCache := none }

theorem dropCache_inp (s : State) : s.dropCache.inp = s.inp := rfl

/-- No check of a command reads the cache (rules R233 to R235). -/
theorem turnedAway_dropCache (s : State) : turnedAway s.dropCache = turnedAway s := rfl

/-- KEYFRAME_RESET neither reads nor writes the cache (rule R238). -/
theorem keyframeReset_dropCache (hm : s.ModelsGood) :
    keyframeReset s.dropCache = (keyframeReset s).map State.dropCache := by
  have hbare : s.dropCache.ModelsGood := hm.of_coders rfl
  rw [keyframeReset_eq s (ModelsGood.maxSmall hm) (ModelsGood.maxByte hm),
    keyframeReset_eq s.dropCache (ModelsGood.maxSmall hbare) (ModelsGood.maxByte hbare)]
  rfl

/-- FRAME_START neither reads nor writes the cache (rule R236). -/
theorem frameStart_dropCache (hm : s.ModelsGood) : frameStart s.dropCache = (frameStart s).map State.dropCache := by
  have henter : (enterFrame s).ModelsGood := hm.of_coders rfl
  by_cases hreset : s.params.profile.resetPolicy = .keyframe ∧ s.inp.keyframe = true
  · calc frameStart s.dropCache
        = keyframeReset (enterFrame s).dropCache := if_pos hreset
      _ = (keyframeReset (enterFrame s)).map State.dropCache := keyframeReset_dropCache henter
      _ = (frameStart s).map State.dropCache := by rw [frameStart, if_pos hreset]
  · calc frameStart s.dropCache
        = .ok (enterFrame s).dropCache := if_neg hreset
      _ = (frameStart s).map State.dropCache := by rw [frameStart, if_neg hreset, ok_map]

/-- Reloading the matrix and the scale a plane already has changes nothing. -/
theorem loadQuality_eq_self {q : Byte} {p : Plane} (hqmat : (s.coder p).dct.qmat = s.params.quantMatrix q p.isLuma)
    (hscale : (s.coder p).haar.scale = s.params.haarScaleAt q p.isLuma) : loadQuality q p s = s := by
  rw [loadQuality, ← hqmat, ← hscale]
  exact setCoder_self s p

/-- QUALITY_CACHE with another quality cached, or none: it reloads every plane (rule R237). -/
theorem qualityCache_of_miss (hmiss : s.fd.qCache ≠ some s.inp.quality) : qualityCache s =
    (loadQuality s.inp.quality .c2 (loadQuality s.inp.quality .c1 (loadQuality s.inp.quality .y s))).setFd
      { s.fd with qCache := some s.inp.quality } :=
  if_neg hmiss

theorem qualityCache_of_hit (hhit : s.fd.qCache = some s.inp.quality) : qualityCache s = s :=
  if_pos hhit

/-- QUALITY_CACHE answers alike from a sound cache and from the empty one (rules R86, R237). -/
theorem qualityCache_dropCache (hcache : s.CacheGood) : qualityCache s.dropCache = qualityCache s := by
  have hbare : s.dropCache.fd.qCache ≠ some s.dropCache.inp.quality := nofun
  rw [qualityCache_of_miss hbare]
  by_cases hhit : s.fd.qCache = some s.inp.quality
  · have hload (p : Plane) : loadQuality s.inp.quality p s.dropCache = s.dropCache := by
      obtain ⟨-, hplanes⟩ := hcache _ hhit
      obtain ⟨hqmat, hscale⟩ := hplanes p
      exact loadQuality_eq_self hqmat hscale
    rw [qualityCache_of_hit hhit, dropCache_inp, hload .y, hload .c1, hload .c2, ← hhit]
    rfl
  · rw [qualityCache_of_miss hhit]
    rfl

/-- A frame past its checks decodes alike from a sound cache and from the empty one. -/
theorem decodeAccepted_dropCache (hc : s.Canonical) (hm : s.ModelsGood) (hcache : s.CacheGood) :
    decodeAccepted s.dropCache = decodeAccepted s := by
  obtain ⟨t, hstart, -, htcache, -⟩ := frameStart_start hc hm hcache
  simp only [decodeAccepted, frameStart_dropCache hm, hstart, ok_map, ok_bind, qualityCache_dropCache htcache]

theorem decodeFrame_of_accepted {a : FrameArgs} (h : turnedAway { s with inp := a } = none) :
    decodeFrame a s = decodeAccepted { s with inp := a } := by
  simp only [decodeFrame, h]

theorem decodeFrame_of_turnedAway {a : FrameArgs} {c : Status} (h : turnedAway { s with inp := a } = some c) :
    decodeFrame a s = .ok (State.setStatus { s with inp := a } c) := by
  simp only [decodeFrame, h]

/-- An accepted DECODE_FRAME answers alike from a sound cache and from the empty one. -/
theorem decodeFrame_dropCache {a : FrameArgs} (hinv : s.HostInv) (h : turnedAway { s with inp := a } = none) :
    decodeFrame a s.dropCache = decodeFrame a s :=
  calc decodeFrame a s.dropCache
      = decodeAccepted (State.dropCache { s with inp := a }) :=
        decodeFrame_of_accepted (s := s.dropCache) ((turnedAway_dropCache { s with inp := a }).trans h)
    _ = decodeAccepted { s with inp := a } :=
        decodeAccepted_dropCache ⟨hinv.canonical.ref, hinv.canonical.work, hinv.canonical.hist⟩
          (hinv.models.of_coders rfl) hinv.cache
    _ = decodeFrame a s := (decodeFrame_of_accepted h).symm

/-- What a meaning answers depends on `alive` and on what its operation answers. -/
theorem live_congr {t : State} {f : State → Res State} (halive : s.alive = t.alive) (h : f s = f t) :
    live s f = live t f := by
  simp only [live, halive, h]

/-- Settles O52: a command turned away writes the latches and the status alone, and an accepted one forgets the
difference at QUALITY_CACHE. -/
theorem cacheUnobservable : Obligations.CacheUnobservable := by
  intro s a halive hinv
  refine ⟨fun haccepted => ?accepted, fun hturned => ?turnedAway⟩
  case accepted => exact live_congr (s := s.dropCache) (t := s) rfl (decodeFrame_dropCache hinv haccepted)
  case turnedAway =>
    obtain ⟨c, hc⟩ := Option.ne_none_iff_exists'.mp hturned
    have hbare : turnedAway { s.dropCache with inp := a } = some c := (turnedAway_dropCache { s with inp := a }).trans hc
    exact ⟨_, live_ok halive (decodeFrame_of_turnedAway hc),
      live_ok (s := s.dropCache) halive (decodeFrame_of_turnedAway hbare)⟩

end Sys2Proof.Machine
end

/-! ## O1, O2, O3: the decoder and the encoder

Each field is read exactly from the numbers it is written as, so each row is read exactly from its own code, and `decode`
answers an operation exactly for the operation's code (`decode_eq_ok_iff`). Both directions of the round trip and the
tables of symbol values are read off that. -/

section
namespace Sys2Proof

open Machine

/-! ### Fields

A number is read as a field exactly where the field is written as that number. -/

@[simp] theorem bits_eq_some_iff {w n : Nat} {b : BitVec w} : bits w n = some b ↔ b.toNat = n := by
  unfold bits
  constructor
  · intro h
    split at h
    · cases h; exact Nat.mod_eq_of_lt ‹_›
    · cases h
  · rintro rfl
    rw [if_pos b.isLt, BitVec.ofNat_toNat, BitVec.setWidth_eq]

@[simp] theorem index_eq_some_iff {k n : Nat} {x : Fin k} : index k n = some x ↔ x.val = n := by
  unfold index
  constructor
  · intro h
    split at h
    · cases h; rfl
    · cases h
  · rintro rfl
    rw [dif_pos x.isLt]

@[simp] theorem decodePlane_eq_some_iff {n : Nat} {p : Plane} : decodePlane n = some p ↔ p.idx = n := by
  constructor
  · intro h
    match n, h with
    | 0, rfl | 1, rfl | 2, rfl => rfl
  · rintro rfl
    cases p <;> rfl

@[simp] theorem decodeBool_eq_some_iff {n : Nat} {b : Bool} : decodeBool n = some b ↔ encodeBool b = [n] := by
  constructor
  · intro h
    match n, h with
    | 0, rfl | 1, rfl => rfl
  · intro h
    cases b <;> cases h <;> rfl

@[simp] theorem decodeKind_eq_some_iff {n : Nat} {k : AbortKind} : decodeKind n = some k ↔ encodeKind k = [n] := by
  constructor
  · intro h
    match n, h with
    | 1, rfl | 4, rfl => rfl
  · intro h
    cases k <;> cases h <;> rfl

@[simp] theorem decodeBin_eq_some_iff {n : Nat} {m : BinRef} : decodeBin n = some m ↔ encodeBin m = [n] := by
  cases m
  simp [decodeBin, encodeBin, encodePlane, Option.bind_eq_some_iff]

@[simp] theorem decodeSmallRef_eq_some_iff {k n i : Nat} {m : SmallRef} :
    decodeSmallRef k n i = some m ↔ encodeSmall m = [k, n, i] := by
  constructor
  · intro h
    obtain ⟨p, hp, hkind⟩ := Option.bind_eq_some_iff.mp h
    obtain rfl := decodePlane_eq_some_iff.mp hp
    match k, hkind with
    | 0, hkind | 3, hkind =>
      obtain ⟨x, hx, ⟨⟩⟩ := Option.bind_eq_some_iff.mp hkind
      obtain rfl := index_eq_some_iff.mp hx
      rfl
    | 1, hkind | 2, hkind | 4, hkind | 5, hkind =>
      obtain ⟨rfl, ⟨⟩⟩ := Option.ite_none_right_eq_some.mp hkind
      rfl
  · intro h
    cases m <;> cases h <;> simp [decodeSmallRef, Option.bind_eq_some_iff]

@[simp] theorem decodeCoefRef_eq_some_iff {k n : Nat} {m : CoefRef} :
    decodeCoefRef k n = some m ↔ encodeCoef m = [k, n] := by
  constructor
  · intro h
    obtain ⟨p, hp, hkind⟩ := Option.bind_eq_some_iff.mp h
    obtain rfl := decodePlane_eq_some_iff.mp hp
    match k, hkind with
    | 0, rfl | 1, rfl | 2, rfl => rfl
  · intro h
    cases m <;> cases h <;> simp [decodeCoefRef, Option.bind_eq_some_iff]

@[simp] theorem decodeByteRef_eq_some_iff {k n : Nat} {m : ByteRef} :
    decodeByteRef k n = some m ↔ encodeByte m = [k, n] := by
  constructor
  · intro h
    obtain ⟨p, hp, hkind⟩ := Option.bind_eq_some_iff.mp h
    obtain rfl := decodePlane_eq_some_iff.mp hp
    match k, hkind with
    | 0, rfl | 1, rfl | 2, rfl | 3, rfl => rfl
  · intro h
    cases m <;> cases h <;> simp [decodeByteRef, Option.bind_eq_some_iff]

@[simp] theorem decodeTableRef_eq_some_iff {t a b c : Nat} {m : TableRef} :
    decodeTableRef t a b c = some m ↔ encodeTable m = [t, a, b, c] := by
  constructor
  · intro h
    match t, h with
    | 0, h =>
      obtain ⟨m, hm, ⟨⟩⟩ := Option.bind_eq_some_iff.mp h
      exact congrArg (List.cons 0) (decodeSmallRef_eq_some_iff.mp hm)
    | 1, h =>
      obtain ⟨rfl, h⟩ := Option.ite_none_right_eq_some.mp h
      obtain ⟨m, hm, ⟨⟩⟩ := Option.bind_eq_some_iff.mp h
      exact congrArg (fun l => 1 :: (l ++ [0])) (decodeByteRef_eq_some_iff.mp hm)
  · intro h
    cases m with
    | small m =>
      obtain ⟨rfl, hm⟩ := List.cons_eq_cons.mp h
      simp [decodeTableRef, decodeSmallRef_eq_some_iff.mpr hm]
    | byte m =>
      cases m <;> cases h <;> simp [decodeTableRef, encodeByte, Option.bind_eq_some_iff]

theorem encodeBool_single (b : Bool) : ∃ x, encodeBool b = [x] := ⟨_, rfl⟩

theorem encodeKind_single (k : AbortKind) : ∃ x, encodeKind k = [x] := by
  cases k <;> exact ⟨_, rfl⟩

theorem encodeBin_single (m : BinRef) : ∃ x, encodeBin m = [x] := by
  cases m
  exact ⟨_, rfl⟩

theorem encodeSmall_triple (m : SmallRef) : ∃ k p i, encodeSmall m = [k, p, i] := by
  cases m <;> exact ⟨_, _, _, rfl⟩

theorem encodeCoef_pair (m : CoefRef) : ∃ k p, encodeCoef m = [k, p] := by
  cases m <;> exact ⟨_, _, rfl⟩

theorem encodeByte_pair (m : ByteRef) : ∃ k p, encodeByte m = [k, p] := by
  cases m <;> exact ⟨_, _, rfl⟩

theorem encodeTable_quadruple (m : TableRef) : ∃ t a b c, encodeTable m = [t, a, b, c] := by
  cases m with
  | small m =>
    obtain ⟨k, p, i, hm⟩ := encodeSmall_triple m
    exact ⟨0, k, p, i, congrArg (List.cons 0) hm⟩
  | byte m =>
    obtain ⟨k, p, hm⟩ := encodeByte_pair m
    exact ⟨1, k, p, 0, congrArg (fun l => 1 :: (l ++ [0])) hm⟩

/-! ### Rows without a pattern

The rows fall into a few groups by the operands they take; the rows of a group are read back alike. -/

theorem encode_of_decodeMicro {op : OpName} {args : List Nat} {i : Instr} (h : decodeMicro op args = some i) :
    encode i = .micro op args := by
  cases op with
  | coefSign | escLiteral | acSign | haarLl | haarHf | getBit | rdInit | normalise | validate | emptyKeyCheck
  | skipCheck | frameStart | qualityCache | keyframeReset | emptyCommit | everyFrameReset | decoderStart | mbWalk
  | errorCheck | commit => match args, h with
    | [], rfl => rfl
  | coefExtra | palEntry | acExtra | getBits | btSelect | acDecode | haarButterfly => match args, h with
    | [x], h =>
      simp only [decodeMicro, Option.bind_eq_some_iff, bits_eq_some_iff, decodePlane_eq_some_iff] at h
      obtain ⟨n, rfl, ⟨⟩⟩ := h
      rfl
  | decBin | m2Reset | abort => match args, h with
    | [x], h =>
      simp only [decodeMicro, Option.bind_eq_some_iff, decodeBin_eq_some_iff, decodeKind_eq_some_iff] at h
      obtain ⟨m, hm, ⟨⟩⟩ := h
      exact congrArg _ hm
  | decSmall | msConstruct | msReset => match args, h with
    | [k, p, x], h =>
      obtain ⟨m, hm, ⟨⟩⟩ := Option.bind_eq_some_iff.mp h
      exact congrArg _ (decodeSmallRef_eq_some_iff.mp hm)
  | decByte | mbConstruct | mbSecondary | mbReset | decodeCoeff => match args, h with
    | [k, p], h =>
      simp only [decodeMicro, Option.bind_eq_some_iff, decodeByteRef_eq_some_iff, decodeCoefRef_eq_some_iff] at h
      obtain ⟨m, hm, ⟨⟩⟩ := h
      exact congrArg _ hm
  | msHalve | msFreqs => match args, h with
    | [t, a, b, c], h =>
      obtain ⟨m, hm, ⟨⟩⟩ := Option.bind_eq_some_iff.mp h
      exact congrArg _ (decodeTableRef_eq_some_iff.mp hm)
  | m2Update => match args, h with
    | [x, y], h =>
      simp only [decodeMicro, Option.bind_eq_some_iff, decodeBin_eq_some_iff, decodeBool_eq_some_iff] at h
      obtain ⟨m, hm, b, hb, ⟨⟩⟩ := h
      simp [encode, hm, hb]
  | msUpdate => match args, h with
    | [k, p, x, y], h =>
      simp only [decodeMicro, Option.bind_eq_some_iff, decodeSmallRef_eq_some_iff, bits_eq_some_iff] at h
      obtain ⟨m, hm, v, rfl, ⟨⟩⟩ := h
      simp [encode, hm]
  | mbUpdate => match args, h with
    | [k, p, y], h =>
      simp only [decodeMicro, Option.bind_eq_some_iff, decodeByteRef_eq_some_iff, bits_eq_some_iff] at h
      obtain ⟨m, hm, v, rfl, ⟨⟩⟩ := h
      simp [encode, hm]
  | dctSub | dcPredict | acLevel | idctWrite | blockStep | mingrad => match args, h with
    | [x, y, z], h =>
      simp only [decodeMicro, Option.bind_eq_some_iff, bits_eq_some_iff, decodePlane_eq_some_iff] at h
      obtain ⟨a, rfl, b, rfl, c, rfl, ⟨⟩⟩ := h
      rfl
  | dcStore => match args, h with
    | [x, y, z, u, v], h =>
      simp only [decodeMicro, Option.bind_eq_some_iff, bits_eq_some_iff, decodePlane_eq_some_iff] at h
      obtain ⟨a, rfl, b, rfl, c, rfl, d, rfl, e, rfl, ⟨⟩⟩ := h
      rfl

theorem decodeMicro_of_encode {op : OpName} {args : List Nat} {i : Instr} (h : encode i = .micro op args) :
    decodeMicro op args = some i := by
  cases i with
  | decSmall m | msConstruct m | msReset m | msUpdate m v =>
    obtain ⟨k, p, x, hm⟩ := encodeSmall_triple m
    cases h
    simp [decodeMicro, Option.bind_eq_some_iff, hm]
  | decByte m | mbConstruct m | mbSecondary m | mbReset m | mbUpdate m v =>
    obtain ⟨k, p, hm⟩ := encodeByte_pair m
    cases h
    simp [decodeMicro, Option.bind_eq_some_iff, hm]
  | decodeCoeff m =>
    obtain ⟨k, p, hm⟩ := encodeCoef_pair m
    cases h
    simp [decodeMicro, Option.bind_eq_some_iff, hm]
  | msHalve m | msFreqs m =>
    obtain ⟨t, a, b, c, hm⟩ := encodeTable_quadruple m
    cases h
    simp [decodeMicro, Option.bind_eq_some_iff, hm]
  | decBin m | m2Reset m =>
    obtain ⟨x, hm⟩ := encodeBin_single m
    cases h
    simp [decodeMicro, Option.bind_eq_some_iff, hm]
  | m2Update m b =>
    obtain ⟨x, hm⟩ := encodeBin_single m
    obtain ⟨y, hb⟩ := encodeBool_single b
    cases h
    simp [decodeMicro, Option.bind_eq_some_iff, hm, hb]
  | abort k =>
    obtain ⟨x, hk⟩ := encodeKind_single k
    cases h
    simp [decodeMicro, Option.bind_eq_some_iff, hk]
  | coefSign | escLiteral | acSign | haarLl | haarHf | getBit | rdInit | normalise | validate | emptyKeyCheck
  | skipCheck | frameStart | qualityCache | keyframeReset | emptyCommit | everyFrameReset | decoderStart | mbWalk
  | errorCheck | commit =>
    cases h
    rfl
  | coefExtra n | palEntry k | acExtra n | getBits n | btSelect p | acDecode p | haarButterfly p | dctSub p x y
  | dcPredict p x y | acLevel p k c | idctWrite p r c | blockStep p x y | mingrad l t tl | dcStore p x y d q =>
    cases h
    simp [decodeMicro, Option.bind_eq_some_iff, encodePlane]
  | _ => cases h

/-! ### Symbols -/

theorem encode_blockRow (x : Fin 5) : encode (blockRow x) = .symbol .blockType (BitVec.ofNat 8 x.val) := by
  fin_cases x <;> rfl

theorem encode_coefRow (x : Fin 12) : encode (coefRow x) = .symbol .coefClass (BitVec.ofNat 8 x.val) := by
  fin_cases x <;> rfl

theorem encode_vsRow (x : Fin 3) : encode (vsRow x) = .symbol .vecSize (BitVec.ofNat 8 x.val) := by
  fin_cases x <;> rfl

theorem encode_vqRow (x : Fin 5) : encode (vqRow x) = .symbol .vqClass (BitVec.ofNat 8 x.val) := by
  fin_cases x <;> rfl

theorem encode_runLevelRow (r : BitVec 4) (k : Fin 15) :
    encode (runLevelRow r k) = .symbol .acToken (r ++ BitVec.ofNat 4 (k.val + 1)) := by
  fin_cases k <;> rfl

theorem encode_illegalRow (k : Fin 14) : encode (illegalRow k) = .symbol .acToken (BitVec.ofNat 4 (k.val + 1) ++ 0#4) := by
  fin_cases k <;> rfl

/-- A token of a class other than 0 is a run and a level (rule R100): the two tokens tested first have class 0. -/
theorem decodeAcToken_runLevel (r : BitVec 4) (k : Fin 15) :
    decodeAcToken (r ++ BitVec.ofNat 4 (k.val + 1)) = some (runLevelRow r k) := by
  have hclass : (r ++ BitVec.ofNat 4 (k.val + 1)).extractLsb' 0 4 = BitVec.ofNat 4 (k.val + 1) :=
    BitVec.extractLsb'_append_eq_right
  have hpos : BitVec.ofNat 4 (k.val + 1) ≠ 0#4 := by decide +revert
  have hne (t : Byte) (ht : t.extractLsb' 0 4 = 0#4) : r ++ BitVec.ofNat 4 (k.val + 1) ≠ t := by
    rintro rfl
    exact hpos (hclass.symm.trans ht)
  unfold decodeAcToken
  rw [if_neg (hne _ rfl), if_neg (hne _ rfl), hclass, BitVec.extractLsb'_append_eq_left]
  fin_cases k <;> rfl

/-- The tokens by run and class (rules R99, R100). -/
theorem acToken_cases (v : Byte) : v = 0x00 ∨ v = 0xF0 ∨ (∃ k : Fin 14, v = BitVec.ofNat 4 (k.val + 1) ++ 0#4) ∨
    ∃ (r : BitVec 4) (k : Fin 15), v = r ++ BitVec.ofNat 4 (k.val + 1) := by
  obtain ⟨r, c, rfl⟩ : ∃ r c : BitVec 4, v = r ++ c :=
    ⟨v.extractLsb' 4 4, v.extractLsb' 0 4, by
      rw [BitVec.extractLsb'_append_extractLsb'_eq_extractLsb' (by rfl), BitVec.extractLsb'_eq_self]⟩
  have hclass : c = 0#4 ∨ ∃ k : Fin 15, c = BitVec.ofNat 4 (k.val + 1) := by decide +revert
  have hrun : r = 0#4 ∨ r = 15#4 ∨ ∃ k : Fin 14, r = BitVec.ofNat 4 (k.val + 1) := by decide +revert
  obtain rfl | ⟨k, rfl⟩ := hclass
  · obtain rfl | rfl | ⟨k, rfl⟩ := hrun
    · exact .inl rfl
    · exact .inr (.inl rfl)
    · exact .inr (.inr (.inl ⟨k, rfl⟩))
  · exact .inr (.inr (.inr ⟨r, k, rfl⟩))

theorem decodeSymbol_of_encode {ctx : SymbolCtx} {v : Byte} {i : Instr} (h : encode i = .symbol ctx v) :
    decodeSymbol ctx v = some i := by
  cases i with
  | fill | image | dct | haar | skip
  | coefC0 | coefC1 | coefC2 | coefC3 | coefC4 | coefC5 | coefC6 | coefC7 | coefC8 | coefC9 | coefC10 | coefC11
  | vs2 | vs3 | vs4 | vqC0 | vqC1 | vqC2 | vqC3 | vqC4 | acEob | acZrl
  | acIllegalR1 | acIllegalR2 | acIllegalR3 | acIllegalR4 | acIllegalR5 | acIllegalR6 | acIllegalR7 | acIllegalR8
  | acIllegalR9 | acIllegalR10 | acIllegalR11 | acIllegalR12 | acIllegalR13 | acIllegalR14 =>
    cases h
    rfl
  | acRlC1 r | acRlC2 r | acRlC3 r | acRlC4 r | acRlC5 r | acRlC6 r | acRlC7 r | acRlC8 r | acRlC9 r | acRlC10 r
  | acRlC11 r | acRlC12 r | acRlC13 r | acRlC14 r | acRlC15 r =>
    cases h
    exact decodeAcToken_runLevel r ⟨_, by decide⟩
  | _ => cases h

theorem encode_of_decodeAcToken {v : Byte} {i : Instr} (h : decodeAcToken v = some i) : encode i = .symbol .acToken v := by
  obtain rfl | rfl | ⟨k, rfl⟩ | ⟨r, k, rfl⟩ := acToken_cases v
  · cases h; rfl
  · cases h; rfl
  · obtain rfl := Option.some.inj (h.symm.trans (decodeSymbol_of_encode (encode_illegalRow k)))
    exact encode_illegalRow k
  · obtain rfl := Option.some.inj (h.symm.trans (decodeAcToken_runLevel r k))
    exact encode_runLevelRow r k

/-- How many values the symbols of a format have (rules R92 to R99). -/
def SymbolCtx.alphabet : SymbolCtx → Nat
  | .blockType => 5
  | .coefClass => 12
  | .vecSize => 3
  | .vqClass => 5
  | .acToken => 256

/-- A value above the alphabet of its format selects no row (rule R108). -/
theorem decodeSymbol_of_alphabet_le {ctx : SymbolCtx} {v : Byte} (h : ctx.alphabet ≤ v.toNat) : decodeSymbol ctx v = none := by
  obtain ⟨k, hk⟩ := Nat.exists_eq_add_of_le' h
  cases ctx with
  | blockType | coefClass | vecSize | vqClass => simp only [decodeSymbol, hk, SymbolCtx.alphabet]
  | acToken => exact absurd v.isLt (Nat.not_lt_of_le h)

/-- A format whose values select the rows `row` decodes the codes of those rows alone. -/
theorem encode_of_alphabet {ctx : SymbolCtx} {row : Fin ctx.alphabet → Instr} {v : Byte} {i : Instr}
    (hrow : ∀ x, encode (row x) = .symbol ctx (BitVec.ofNat 8 x.val)) (h : decodeSymbol ctx v = some i) :
    encode i = .symbol ctx v := by
  by_cases hv : v.toNat < ctx.alphabet
  · have hcode : encode (row ⟨v.toNat, hv⟩) = .symbol ctx v := (hrow _).trans (by simp)
    obtain rfl := Option.some.inj (h.symm.trans (decodeSymbol_of_encode hcode))
    exact hcode
  · cases h.symm.trans (decodeSymbol_of_alphabet_le (Nat.le_of_not_lt hv))

theorem encode_of_decodeSymbol {ctx : SymbolCtx} {v : Byte} {i : Instr} (h : decodeSymbol ctx v = some i) :
    encode i = .symbol ctx v := by
  cases ctx with
  | blockType => exact encode_of_alphabet encode_blockRow h
  | coefClass => exact encode_of_alphabet encode_coefRow h
  | vecSize => exact encode_of_alphabet encode_vsRow h
  | vqClass => exact encode_of_alphabet encode_vqRow h
  | acToken => exact encode_of_decodeAcToken h

/-! ### Codes -/

theorem decodeCommand_eq_iff {h : HostCall} {i : Instr} : decodeCommand h = i ↔ encode i = .command h := by
  constructor
  · rintro rfl
    cases h <;> rfl
  · intro hi
    cases i with
    | construct a | decodeFrame a | resetForKeyframe | destroy => cases hi; rfl
    | _ => cases hi

/-- The last step of the decoder: the row read is answered if it is well formed. -/
theorem checked_eq_ok_iff {i j : Instr} :
    (if j.wf then Except.ok j else Except.error DecodeError.illFormed) = .ok i ↔ j = i ∧ i.wf = true := by
  constructor
  · intro h
    split at h
    · cases h; exact ⟨rfl, ‹_›⟩
    · cases h
  · rintro ⟨rfl, hj⟩
    exact if_pos hj

theorem decode_symbol_eq_ok_iff {ctx : SymbolCtx} {v : Byte} {i : Instr} :
    decode (.symbol ctx v) = .ok i ↔ decodeSymbol ctx v = some i ∧ i.wf = true := by
  cases hd : decodeSymbol ctx v <;> simp [decode, hd, checked_eq_ok_iff]

theorem decode_micro_eq_ok_iff {op : OpName} {args : List Nat} {i : Instr} :
    decode (.micro op args) = .ok i ↔ decodeMicro op args = some i ∧ i.wf = true := by
  cases hd : decodeMicro op args <;> simp [decode, hd, checked_eq_ok_iff]

theorem decode_command_eq_ok_iff {h : HostCall} {i : Instr} :
    decode (.command h) = .ok i ↔ decodeCommand h = i ∧ i.wf = true :=
  checked_eq_ok_iff

/-- The decoder inverts the encoder on the well-formed operations, and accepts no other code. -/
theorem decode_eq_ok_iff {c : Code} {i : Instr} : decode c = .ok i ↔ encode i = c ∧ i.wf = true := by
  cases c with
  | symbol ctx v => exact decode_symbol_eq_ok_iff.trans (and_congr_left' ⟨encode_of_decodeSymbol, decodeSymbol_of_encode⟩)
  | micro op args => exact decode_micro_eq_ok_iff.trans (and_congr_left' ⟨encode_of_decodeMicro, decodeMicro_of_encode⟩)
  | command h => exact decode_command_eq_ok_iff.trans (and_congr_left' decodeCommand_eq_iff)

/-- Settles O1: the encoder's code of a well-formed operation is one that the decoder accepts. -/
theorem encodeThenDecode : Obligations.EncodeThenDecode :=
  fun _ hwf => decode_eq_ok_iff.mpr ⟨rfl, hwf⟩

/-- Settles O2: a code the decoder accepts is the encoder's. -/
theorem decodeThenEncode : Obligations.DecodeThenEncode :=
  fun _ _ h => (decode_eq_ok_iff.mp h).1

/-! ### The values of the tables -/

/-- No symbol row has an operand with a range of its own. -/
theorem wf_of_encode_symbol {ctx : SymbolCtx} {v : Byte} {i : Instr} (h : encode i = .symbol ctx v) : i.wf = true := by
  cases i with
  | coefExtra | acExtra | getBits | msUpdate | acLevel | idctWrite | construct => cases h
  | _ => rfl

theorem decode_symbol_of_encode {ctx : SymbolCtx} {v : Byte} {i : Instr} (h : encode i = .symbol ctx v) :
    decode (.symbol ctx v) = .ok i :=
  decode_eq_ok_iff.mpr ⟨h, wf_of_encode_symbol h⟩

theorem decode_symbol_of_none {ctx : SymbolCtx} {v : Byte} (h : decodeSymbol ctx v = none) :
    decode (.symbol ctx v) = .error .unreachableSymbol := by
  simp only [decode, h]

theorem illegalToken_eq_append (k : Fin 14) : BitVec.ofNat 8 (16 * (k.val + 1)) = BitVec.ofNat 4 (k.val + 1) ++ 0#4 := by
  fin_cases k <;> rfl

theorem runLevelToken_eq_append (r : Fin 16) (k : Fin 15) :
    BitVec.ofNat 8 (16 * r.val + (k.val + 1)) = BitVec.ofFin r ++ BitVec.ofNat 4 (k.val + 1) := by
  apply BitVec.eq_of_toNat_eq
  rw [BitVec.toNat_append, ← Nat.shiftLeft_add_eq_or_of_lt (BitVec.isLt _), Nat.shiftLeft_eq]
  simp only [BitVec.toNat_ofNat, BitVec.toNat_ofFin]
  omega

/-- Settles O3: each row's code is the value its table gives it, and a value above an alphabet selects no row. -/
theorem symbolCodes : Obligations.SymbolCodes := by
  refine ⟨?blockType, ?coefClass, ?vecSize, ?vqClass, ?aboveCoef, ?aboveFive, ?aboveVec, ?endOfBlock, ?skip16, ?illegal,
    ?runLevel⟩
  case blockType => exact fun v => decode_symbol_of_encode (encode_blockRow v)
  case coefClass => exact fun v => decode_symbol_of_encode (encode_coefRow v)
  case vecSize => exact fun v => decode_symbol_of_encode (encode_vsRow v)
  case vqClass => exact fun v => decode_symbol_of_encode (encode_vqRow v)
  case aboveCoef => exact fun v hv => decode_symbol_of_none (decodeSymbol_of_alphabet_le (ctx := .coefClass) hv)
  case aboveFive =>
    exact fun v hv => ⟨decode_symbol_of_none (decodeSymbol_of_alphabet_le (ctx := .blockType) hv),
      decode_symbol_of_none (decodeSymbol_of_alphabet_le (ctx := .vqClass) hv)⟩
  case aboveVec => exact fun v hv => decode_symbol_of_none (decodeSymbol_of_alphabet_le (ctx := .vecSize) hv)
  case endOfBlock => exact decode_symbol_of_encode (i := .acEob) rfl
  case skip16 => exact decode_symbol_of_encode (i := .acZrl) rfl
  case illegal => exact fun k => decode_symbol_of_encode ((encode_illegalRow k).trans (by rw [illegalToken_eq_append]))
  case runLevel =>
    exact fun r k => decode_symbol_of_encode ((encode_runLevelRow _ k).trans (by rw [runLevelToken_eq_append]))

end Sys2Proof
end

/-! ## O8: the commands of a host

A command between commands runs to its end: CONSTRUCT from any state, the resets on good models, and DECODE_FRAME through
the three checks, the commit or the abort. -/

section
namespace Sys2Proof.Machine

variable {s t : State}

/-- The queue has no part in what a host relies on, once no internal operation is selected (log entry 8). -/
theorem State.HostInv.withCmds (h : s.HostInv) (l : List HostCall) : State.HostInv { s with cmds := l } :=
  ⟨h.no_issue, ⟨h.canonical.ref, h.canonical.work, h.canonical.hist⟩, h.models.of_coders rfl, h.settled, h.flag, h.cache⟩

theorem validate_code {c : Status} (h : validate s = some c) : c.code ∈ [2, 3] := by
  unfold validate at h
  split at h
  · cases h; decide
  · split at h
    · cases h; decide
    · cases h

theorem emptyKeyCheck_code {c : Status} (h : emptyKeyCheck s = some c) : c.code = 6 := by
  unfold emptyKeyCheck at h
  split at h
  · cases h
  · split at h
    · cases h; rfl
    · cases h

theorem skipCheck_code {c : Status} (h : skipCheck s = some c) : c.code = 5 := by
  unfold skipCheck at h
  split at h
  · cases h; rfl
  · cases h

/-- The status of a command turned away (rules R233 to R235). -/
theorem turnedAway_code {c : Status} (h : turnedAway s = some c) : c.code ∈ [2, 3, 5, 6] := by
  unfold turnedAway at h
  split at h
  case h_1 hv =>
    cases h
    have := validate_code hv
    simp only [List.mem_cons, List.not_mem_nil, or_false] at this ⊢
    omega
  case h_2 =>
    split at h
    case h_1 hk => cases h; simp [emptyKeyCheck_code hk]
    case h_2 => simp [skipCheck_code h]

/-- The three ways a DECODE_FRAME ends, as the status and the frame registers show them (rules R248, R260). -/
def State.FrameEnds (s t : State) : Prop :=
  (t.fd = s.fd ∧ t.status.code ∈ [2, 3, 5, 6]) ∨
  (t.fd.state = .committed ∧ t.fd.errFlag = false ∧ t.status.code = 0) ∨
  (t.fd.state = .aborted ∧ t.fd.errFlag = true ∧ t.status.code ∈ [1, 4])

/-- A frame that is decoded ends Committed or Aborted. -/
theorem State.FrameTo.ends {o : State} (h : s.FrameTo t) : o.FrameEnds t := by
  obtain ⟨hstate, hflag, hstatus⟩ | ⟨hstate, hflag, hstatus⟩ := h.settled
  · exact .inr (.inl ⟨hstate, hflag, by rw [hstatus]; rfl⟩)
  · refine .inr (.inr ⟨hstate, hflag, ?_⟩)
    obtain hstatus | hstatus := hstatus <;> rw [hstatus] <;> decide

theorem decodeFrame_ends (a : FrameArgs) (halive : s.alive = true) (hinv : s.HostInv) :
    ∃ t, decodeFrame a s = .ok t ∧ t.cmds = s.cmds ∧ s.FrameEnds t := by
  cases hturned : turnedAway { s with inp := a } with
  | some c => exact ⟨_, decodeFrame_of_turnedAway hturned, rfl, .inl ⟨rfl, turnedAway_code hturned⟩⟩
  | none =>
    obtain ⟨hregion, hquality⟩ := turnedAway_none hturned
    obtain ⟨t, ht, hframe⟩ := decodeAccepted_frame (s := { s with inp := a }) halive
      ⟨hinv.canonical.ref, hinv.canonical.work, hinv.canonical.hist⟩ (hinv.models.of_coders rfl) hinv.cache hregion hquality
    exact ⟨t, (decodeFrame_of_accepted hturned).trans ht, hframe.cmds, hframe.ends⟩

theorem exec_construct {a : ConstructArgs} (h : constructInstance a s = .ok t) : exec (.construct a) s = .next t := by
  show execConstruct a s = .next t
  simp only [execConstruct, h]

theorem exec_decodeFrame (a : FrameArgs) (halive : s.alive = true) (hinv : s.HostInv) :
    ∃ t, exec (.decodeFrame a) s = .next t ∧ t.cmds = s.cmds ∧ s.FrameEnds t := by
  obtain ⟨t, ht, hcmds, hends⟩ := decodeFrame_ends a halive hinv
  unfold exec execDecodeFrame
  exact ⟨t, live_ok halive ht, hcmds, hends⟩

theorem exec_resetForKeyframe (halive : s.alive = true) (hinv : s.HostInv) :
    exec .resetForKeyframe s = .next s.afterReset := by
  obtain ⟨hreset, -⟩ := keyframeReset_start hinv.canonical hinv.models
  unfold exec execResetForKeyframe
  exact live_ok halive hreset

/-- A command between commands completes and leaves the queue alone. -/
theorem exec_command_completes (h : HostCall) (halive : s.alive = true) (hinv : s.HostInv) :
    ∃ t, exec (decodeCommand h) s = .next t ∧ t.cmds = s.cmds ∧ ∀ a, h = .decodeFrame a → s.FrameEnds t := by
  cases h with
  | construct a => exact ⟨_, exec_construct (constructInstance_eq s a), rfl, nofun⟩
  | decodeFrame a =>
    obtain ⟨t, ht, hcmds, hends⟩ := exec_decodeFrame a halive hinv
    exact ⟨t, ht, hcmds, fun _ _ => hends⟩
  | resetForKeyframe => exact ⟨_, exec_resetForKeyframe halive hinv, rfl, nofun⟩
  | destroy => exact ⟨_, exec_destroy halive, rfl, nofun⟩

/-- Settles O8: the step takes the command off the queue, and the command completes there. -/
theorem everyCommandCompletes : Obligations.EveryCommandCompletes := by
  intro s h l hinv halive hcmds hwf
  have hstep : step s = exec (decodeCommand h) { s with cmds := l } :=
    step_of_decode_ok (fetch_of_queued hinv.no_issue hcmds) (decode_command_eq_ok_iff.mpr ⟨rfl, hwf⟩)
  rw [hstep]
  exact exec_command_completes h halive (hinv.withCmds l)

end Sys2Proof.Machine
end

/-! ## O30, O34: the operand symbols

An operand symbol is a primitive whose value is assembled, so each proof runs the primitive once (`Laws/Primitives.lean`)
and reads both operations off it. -/

section
namespace Sys2Proof.Machine

variable {s t : State}

/-- A meaning that runs an operation and makes its state of what that answers. -/
theorem live_map_ok {α : Type} {f : State → Res α} {g : α → State} {a : α} (halive : s.alive = true) (h : f s = .ok a) :
    live s (fun s => (f s).map g) = .next (g a) :=
  live_ok halive (by rw [h, ok_map])

theorem returnCoef_ok {f : State → Res (Int × State)} {k : Int} (halive : s.alive = true) (h : f s = .ok (k, t)) :
    returnCoef f s = .next (t.setRet k) :=
  live_map_ok halive h

theorem exec_getBit {b : Bool} (halive : s.alive = true) (h : getBit s = .ok (b, t)) :
    exec .getBit s = .next (t.setRet (if b then 1 else 0)) := by
  unfold exec execGetBit
  exact live_map_ok halive h

theorem exec_getBits {n : BitVec 4} {v : Nat} (halive : s.alive = true) (h : getBits n.toNat s = .ok (v, t)) :
    exec (.getBits n) s = .next (t.setRet v) := by
  unfold exec execGetBits
  exact live_map_ok halive h

theorem exec_decByte {m : ByteRef} {v : Fin 256} (halive : s.alive = true) (h : decByte m s = .ok (v, t)) :
    exec (.decByte m) s = .next (t.setRet v.val) := by
  unfold exec execDecByte
  exact live_map_ok halive h

theorem exec_coefSign {k : Int} (halive : s.alive = true) (h : coefSign s = .ok (k, t)) :
    exec .coefSign s = .next (t.setRet k) := by
  unfold exec execCoefSign
  exact returnCoef_ok halive h

theorem exec_coefExtra {n : BitVec 4} {k : Int} (halive : s.alive = true) (h : coefExtra n.toNat s = .ok (k, t)) :
    exec (.coefExtra n) s = .next (t.setRet k) := by
  unfold exec execCoefExtra
  exact returnCoef_ok halive h

theorem exec_coefRow {v : Fin 12} {k : Int} (halive : s.alive = true) (h : coefClass v.val s = .ok (k, t)) :
    exec (coefRow v) s = .next (t.setRet k) := by
  have hrow : exec (coefRow v) s = returnCoef (coefClass v.val) s := by
    fin_cases v <;> rfl
  rw [hrow]
  exact returnCoef_ok halive h

/-- A class above 1 is followed by a sign and extra bits (rule R162). -/
theorem coefClass_of_two_le {v : Nat} (hv : 2 ≤ v) (s : State) :
    coefClass v s = (coefSign s).bind fun r => coefExtra (v - 1) r.2 := by
  rw [coefClass, if_neg (by omega), if_neg (by omega)]

/-- COEF_SIGN is GET_BIT, read as a sign (rules R13, R162). -/
theorem coefSign_after_getBit (h : s.CanDecode) : ∃ u, exec .getBit s = .next u ∧
    let neg := decide (u.ret = 1) == s.params.profile.signNeg.bit
    exec .coefSign s = .next ((u.setNeg neg).setRet (if neg then -1 else 1)) := by
  obtain ⟨b, rd, hbit, hsign, -⟩ := coefSign_can h
  exact ⟨_, exec_getBit h.alive hbit, (exec_coefSign h.alive hsign).trans (by cases b <;> rfl)⟩

/-- COEF_EXTRA(n) is GET_BITS(n), read below a leading 1 with the sign decided before (rule R94). -/
theorem coefExtra_after_getBits (h : s.CanDecode) (n : BitVec 4) (hn : n.toNat ≤ 14) :
    ∃ (u : State) (e : Nat), exec (.getBits n) s = .next u ∧ u.ret = e ∧
      exec (.coefExtra n) s =
        .next (u.setRet (if s.scratch.neg then -(2 ^ n.toNat + e : Int) else 2 ^ n.toNat + e)) := by
  obtain ⟨e, rd, hbits, -, hextra, -⟩ := coefExtra_can h n.toNat hn
  have hvalue : signed s.scratch.neg (2 ^ n.toNat + e) =
      if s.scratch.neg then -(2 ^ n.toNat + e : Int) else 2 ^ n.toNat + e := by
    rw [signed]
    push_cast
    rfl
  exact ⟨_, e, exec_getBits h.alive hbits, rfl, (exec_coefExtra h.alive hextra).trans (by rw [hvalue]; rfl)⟩

/-- The row of a class above 1 is COEF_SIGN, then COEF_EXTRA (rule R162). -/
theorem coefRow_after_coefSign (h : s.CanDecode) (v : Fin 12) (hv : 2 ≤ v.val) : ∃ u t, exec .coefSign s = .next u ∧
    exec (.coefExtra (BitVec.ofNat 4 (v.val - 1))) (u.setRet s.ret) = .next t ∧ exec (coefRow v) s = .next t := by
  obtain ⟨b, rd, -, hsign, hcan⟩ := coefSign_can h
  obtain ⟨e, rd', -, -, hextra, -⟩ := coefExtra_can hcan (v.val - 1) (by omega)
  have hwidth : (BitVec.ofNat 4 (v.val - 1)).toNat = v.val - 1 := Nat.mod_eq_of_lt (by omega)
  have hrow := (coefClass_of_two_le hv s).trans (by rw [hsign, ok_bind, hextra])
  exact ⟨_, _, exec_coefSign h.alive hsign, exec_coefExtra hcan.alive (by rw [hwidth]; exact hextra),
    exec_coefRow h.alive hrow⟩

/-- Settles O30: the sign and the extra bits are raw bits, and a class row runs what follows its class. -/
theorem coefficientOperands : Obligations.CoefficientOperands := by
  intro s h
  refine ⟨coefSign_after_getBit h, fun n _ hn => coefExtra_after_getBits h n (by omega), ?zero, ?one,
    coefRow_after_coefSign h⟩
  case zero => exact exec_coefRow (v := 0) h.alive rfl
  case one =>
    obtain ⟨b, rd, -, hsign, -⟩ := coefSign_can h
    exact ⟨_, exec_coefSign h.alive hsign, exec_coefRow (v := 1) h.alive hsign⟩

/-! ### Palette entries and escape literals -/

theorem exec_palEntry {k : BitVec 2} {v : Fin 256} (halive : s.alive = true)
    (h : decByte (.pal s.seq.p) s = .ok (v, t)) : exec (.palEntry k) s =
      .next (t.setImg { t.scratch.img with vec := t.scratch.img.vec.set k.toNat (BitVec.ofFin v) k.isLt }) := by
  unfold exec execPalEntry
  exact live_map_ok halive h

theorem palEntry_after_decByte (h : s.CanDecode) (k : BitVec 2) : ∃ (v : Byte) (u : State),
    exec (.decByte (.pal s.seq.p)) s = .next u ∧ u.ret = v.toNat ∧
    exec (.palEntry k) s = .next ((u.setRet s.ret).setImg
      { s.scratch.img with vec := s.scratch.img.vec.set k.toNat v k.isLt }) := by
  obtain ⟨v, x, rd, hv, -⟩ := decByte_can h (.pal s.seq.p)
  exact ⟨BitVec.ofFin v, _, exec_decByte h.alive hv, rfl, exec_palEntry h.alive hv⟩

theorem writeSample_of_outside {p : Plane} {r c : Nat} (h : ¬ (r < s.planeH p ∧ c < s.planeW p)) (v : Byte) :
    writeSample p r c v s = .error .sampleIndex :=
  if_neg h

theorem writeSample_of_inside {p : Plane} {r c : Nat} (h : r < s.planeH p ∧ c < s.planeW p) (v : Byte) :
    writeSample p r c v s = .ok (s.setCanvas (s.canvas.write (sampleAddr p r c) v)) :=
  if_pos h

/-- ESC_LITERAL is a BYTE of the escape model, written at the current pixel of the state before it. -/
theorem escLiteral_eq_writeSample {p : Plane} {v : Fin 256} {x : ByteModel} {rd : RangeDecoder}
    (h : decByte (.esc p) s = .ok (v, (s.setByte (.esc p) x).setRd rd)) :
    escLiteral p s = writeSample p ((s.origin p).1 + s.seq.j.val) ((s.origin p).2 + s.seq.i.val) (BitVec.ofFin v)
      ((s.setByte (.esc p) x).setRd rd) := by
  simp only [escLiteral, h, ok_bind, writeBlock, setRd_origin, setByte_origin, setRd_seq, setByte_seq]

theorem live_error {f : State → Res State} {e : Fault} (halive : s.alive = true) (h : f s = .error e) :
    live s f = .fault e := by
  simp only [live, halive, h, if_true]

theorem escLiteral_outside (h : s.CanDecode)
    (hout : ¬ ((s.origin s.seq.p).1 + s.seq.j.val < s.planeH s.seq.p ∧
      (s.origin s.seq.p).2 + s.seq.i.val < s.planeW s.seq.p)) : exec .escLiteral s = .fault .sampleIndex := by
  obtain ⟨v, x, rd, hv, -⟩ := decByte_can h (.esc s.seq.p)
  unfold exec execEscLiteral
  exact live_error h.alive ((escLiteral_eq_writeSample hv).trans (writeSample_of_outside (by simpa using hout) _))

/-- The sample written is the literal, and no other address is written (rules R79, R176). -/
theorem escLiteral_inside (h : s.CanDecode) (hcanonical : s.Canonical) {row col : Nat}
    (hr : row = (s.origin s.seq.p).1 + s.seq.j.val) (hc : col = (s.origin s.seq.p).2 + s.seq.i.val)
    (hrow : row < s.planeH s.seq.p) (hcol : col < s.planeW s.seq.p) :
    ∃ (v : Byte) (u t : State), exec (.decByte (.esc s.seq.p)) s = .next u ∧ u.ret = v.toNat ∧
      exec .escLiteral s = .next t ∧ t = (u.setRet s.ret).setCanvas t.canvas ∧ t.sample s.seq.p row col = v ∧
      s.WritesIn s.seq.p row col 1 1 t := by
  obtain ⟨v, x, rd, hv, -⟩ := decByte_can h (.esc s.seq.p)
  subst hr hc
  have hwritten := (escLiteral_eq_writeSample hv).trans (writeSample_of_inside (by simpa using ⟨hrow, hcol⟩) _)
  refine ⟨BitVec.ofFin v, _, _, exec_decByte h.alive hv, rfl, live_ok h.alive hwritten, ?framed, ?sample, ?others⟩
  case framed =>
    rw [setCanvas_canvas]
    rfl
  case sample =>
    rw [State.sample, setCanvas_canvas, setRd_canvas, setByte_canvas]
    exact read_write_same _ _ _ (canvas_wf hcanonical)
  case others =>
    intro a ha
    rw [setCanvas_canvas, setRd_canvas, setByte_canvas]
    exact read_write_ne _ _ fun e => ha ⟨0, 0, Nat.one_pos, Nat.one_pos, e⟩

/-- Settles O34: both symbols are a BYTE, kept as a palette entry or written as a sample. -/
theorem paletteAndEscape : Obligations.PaletteAndEscape :=
  fun _ h => ⟨palEntry_after_decByte h, escLiteral_outside h, fun hcanonical => escLiteral_inside h hcanonical rfl rfl⟩

end Sys2Proof.Machine
end

/-! ## O18, O19: the interval registers

RD_INIT and one round of NORMALISE in numbers, and the loop of NORMALISE cut off after a number of rounds: an answer it
gives within `n` rounds it gives within any more. -/

section
namespace Sys2Proof.Machine

variable {s t : State} {pay : List Byte} {pol : ExhaustPolicy} {rd u : RangeDecoder}

/-! ### A byte shifted in -/

theorem shiftLeft_eight_toNat (x : U32) : (x <<< 8).toNat = 256 * x.toNat % 2 ^ 32 := by
  rw [BitVec.toNat_shiftLeft, Nat.shiftLeft_eq, Nat.mul_comm]

/-- The shift leaves the low eight bits free, so the byte is added (rules R72, R115, R117). -/
theorem shiftLeft_eight_or_toNat (x : U32) (b : Byte) :
    (x <<< 8 ||| b.setWidth 32).toNat = 256 * x.toNat % 2 ^ 32 + b.toNat := by
  have hbyte : (b.setWidth 32).toNat = b.toNat := by
    rw [BitVec.toNat_setWidth]
    exact Nat.mod_eq_of_lt (by omega)
  have hshift : 256 * x.toNat % 2 ^ 32 = (x.toNat % 2 ^ 24) <<< 8 := by
    rw [Nat.shiftLeft_eq]
    omega
  rw [BitVec.toNat_or, shiftLeft_eight_toNat, hbyte, hshift, Nat.shiftLeft_add_eq_or_of_lt b.isLt]

/-! ### RD_INIT -/

theorem bigEndian_concat (l : List Byte) (b : Byte) : bigEndian (l ++ [b]) = 256 * bigEndian l + b.toNat := by
  simp [bigEndian]

theorem bigEndian_lt (l : List Byte) : bigEndian l < 256 ^ l.length := by
  induction l using List.reverseRecOn with
  | nil => simp [bigEndian]
  | append_singleton l b ih =>
    rw [bigEndian_concat, List.length_append, List.length_singleton, Nat.pow_succ]
    have := b.isLt
    omega

/-- The registers of RD_INIT's loop after `k` rounds (rule R115). -/
structure RangeDecoder.Loaded (pay : List Byte) (k : Nat) (rd : RangeDecoder) : Prop where
  stop : rd.stop = pay.length
  cur : rd.cur = k
  low : rd.low.toNat = bigEndian (pay.take k)

theorem RangeDecoder.Loaded.shiftIn {k : Nat} (h : rd.Loaded pay k) (hk : k < min pay.length 4) :
    ∃ u, rd.shiftIn pay = .ok u ∧ u.Loaded pay (k + 1) := by
  obtain ⟨hstop, rfl, hlow⟩ := h
  have hlt : rd.cur < pay.length := by omega
  have hsmall : 256 * rd.low.toNat < 2 ^ 32 := by
    have hbound := bigEndian_lt (pay.take rd.cur)
    have hpow : 256 ^ (pay.take rd.cur).length ≤ 256 ^ 3 := by
      refine Nat.pow_le_pow_right (by decide) ?_
      rw [List.length_take]
      omega
    omega
  refine ⟨{ rd with low := (rd.low <<< 8) ||| pay[rd.cur].setWidth 32, cur := rd.cur + 1 }, ?_, hstop, rfl, ?_⟩
  · rw [RangeDecoder.shiftIn, payloadByte_ok hlt, ok_map]
  · rw [shiftLeft_eight_or_toNat, Nat.mod_eq_of_lt hsmall, hlow, List.take_succ_eq_append_getElem hlt, bigEndian_concat]

/-- RD_INIT, in numbers (rule R115). -/
theorem RangeDecoder.init_spec (pay : List Byte) : ∃ rd, RangeDecoder.init pay = .ok rd ∧ rd.range = 0xFFFFFFFF ∧
    rd.err = false ∧ rd.Loaded pay (min pay.length 4) := by
  obtain ⟨u, hu, hloaded⟩ := forRange_ok (fun k rd => rd.Loaded pay k) (fun _ rd => RangeDecoder.shiftIn pay rd)
    (min pay.length 4) { range := 0, low := 0, cur := 0, stop := pay.length, err := false }
    (fun _ _ hk h => h.shiftIn hk) ⟨rfl, rfl, rfl⟩
  exact ⟨{ u with range := 0xFFFFFFFF, err := false }, by simp only [RangeDecoder.init, hu, ok_map], rfl, rfl,
    hloaded.stop, hloaded.cur, hloaded.low⟩

theorem exec_rdInit (halive : s.alive = true) (h : RangeDecoder.init s.inp.payload = .ok rd) :
    exec .rdInit s = .next (s.setRd rd) := by
  unfold exec execRdInit
  exact live_ok halive (by rw [rdInit, h, ok_map])

/-- Settles O18, by the loop invariant `RangeDecoder.Loaded`. -/
theorem decoderInit : Obligations.DecoderInit := by
  intro s halive
  obtain ⟨rd, hinit, hrange, herr, hloaded⟩ := RangeDecoder.init_spec s.inp.payload
  refine ⟨rd, exec_rdInit halive hinit, hrange, herr, hloaded.stop, hloaded.cur, ?_⟩
  rw [hloaded.low, Nat.min_comm, ← List.take_eq_take_min]

/-! ### NORMALISE -/

theorem lt_racBottom_iff (x : U32) : x < racBottom ↔ x.toNat < 0x1000000 := by
  rw [BitVec.lt_def]
  rfl

/-- The shift that opens an iteration of NORMALISE (rule R117). -/
def RangeDecoder.shifted (rd : RangeDecoder) : RangeDecoder := { rd with range := rd.range <<< 8, low := rd.low <<< 8 }

/-- The registers after the shift and the byte `b` (rule R117). -/
def RangeDecoder.fed (rd : RangeDecoder) (b : Byte) : RangeDecoder :=
  { rd.shifted with low := rd.shifted.low ||| b.setWidth 32, cur := rd.cur + 1 }

/-- The check that closes an iteration of NORMALISE (rule R117). -/
def RangeDecoder.check (rd : RangeDecoder) : RangeDecoder := if rd.range < rd.low then rd.substitute else rd

theorem RangeDecoder.normStep_eq (rd : RangeDecoder) :
    rd.normStep pol pay = (rd.shifted.refill pol pay).map RangeDecoder.check := rfl

@[simp] theorem RangeDecoder.check_range (rd : RangeDecoder) : rd.check.range = rd.range := by
  unfold RangeDecoder.check; split <;> rfl

@[simp] theorem RangeDecoder.check_stop (rd : RangeDecoder) : rd.check.stop = rd.stop := by
  unfold RangeDecoder.check; split <;> rfl

@[simp] theorem RangeDecoder.check_cur (rd : RangeDecoder) : rd.check.cur = rd.cur := by
  unfold RangeDecoder.check; split <;> rfl

theorem RangeDecoder.check_of_lt (h : rd.range.toNat < rd.low.toNat) : rd.check = rd.substitute := if_pos h

theorem RangeDecoder.check_of_le (h : ¬ rd.range.toNat < rd.low.toNat) : rd.check = rd := if_neg h

theorem RangeDecoder.check_substitute (rd : RangeDecoder) : rd.substitute.check = rd.substitute := by
  unfold RangeDecoder.check; split <;> rfl

theorem RangeDecoder.refill_of_lt (hlt : rd.cur < rd.stop) (hpay : rd.cur < pay.length) : rd.refill pol pay =
    .ok { rd with low := rd.low ||| pay[rd.cur].setWidth 32, cur := rd.cur + 1 } := by
  rw [RangeDecoder.refill, if_pos hlt, payloadByte_ok hpay, ok_map]

theorem RangeDecoder.refill_of_le (hle : rd.stop ≤ rd.cur) : rd.refill pol pay =
    .ok (if pol = .always ∨ rd.low = 0 then rd.substitute else rd) := by
  rw [RangeDecoder.refill, if_neg (Nat.not_lt.mpr hle)]
  split <;> rfl

theorem RangeDecoder.shifted_range_toNat (h : rd.range.toNat < 0x1000000) :
    rd.shifted.range.toNat = 256 * rd.range.toNat := by
  rw [RangeDecoder.shifted, shiftLeft_eight_toNat]
  omega

theorem RangeDecoder.shifted_low_toNat (rd : RangeDecoder) : rd.shifted.low.toNat = 256 * rd.low.toNat % 2 ^ 32 :=
  shiftLeft_eight_toNat rd.low

theorem RangeDecoder.normStep_of_lt (hlt : rd.cur < rd.stop) (hpay : rd.cur < pay.length) :
    rd.normStep pol pay = .ok (rd.fed pay[rd.cur]).check := by
  rw [RangeDecoder.normStep_eq, RangeDecoder.refill_of_lt (rd := rd.shifted) hlt hpay, ok_map]
  rfl

theorem RangeDecoder.normStep_round_of_lt (hrange : rd.range.toNat < 0x1000000) (hlt : rd.cur < rd.stop)
    (hpay : rd.cur < pay.length) : ∃ a, rd.normStep pol pay = .ok a ∧ NormaliseRound pol pay rd a := by
  have hr : (rd.fed pay[rd.cur]).range.toNat = 256 * rd.range.toNat := RangeDecoder.shifted_range_toNat hrange
  have hl := shiftLeft_eight_or_toNat rd.low pay[rd.cur]
  refine ⟨_, RangeDecoder.normStep_of_lt hlt hpay, by rw [RangeDecoder.check_range, hr], RangeDecoder.check_stop _,
    fun _ => ⟨RangeDecoder.check_cur _, pay[rd.cur], List.getElem?_eq_getElem hpay, ?_⟩,
    fun hle => absurd hlt (Nat.not_lt.mpr hle)⟩
  rw [RangeDecoder.check_range, ← hl]
  by_cases hcheck : (rd.fed pay[rd.cur]).range.toNat < (rd.fed pay[rd.cur]).low.toNat
  · rw [RangeDecoder.check_of_lt hcheck]
    exact (if_pos hcheck).mpr ⟨rfl, rfl⟩
  · rw [RangeDecoder.check_of_le hcheck]
    exact (if_neg hcheck).mpr ⟨rfl, rfl⟩

/-- An iteration past the last byte substitutes by the policy, or by the check (rule R117). -/
theorem RangeDecoder.normStep_of_le (hle : rd.stop ≤ rd.cur) : rd.normStep pol pay =
    .ok (if pol = .always ∨ rd.shifted.low.toNat = 0 ∨ rd.shifted.range.toNat < rd.shifted.low.toNat
      then rd.shifted.substitute else rd.shifted) := by
  have hzero : (pol = .always ∨ rd.shifted.low = 0) ↔ (pol = .always ∨ rd.shifted.low.toNat = 0) :=
    or_congr_right BitVec.toNat_inj.symm
  rw [RangeDecoder.normStep_eq, RangeDecoder.refill_of_le (rd := rd.shifted) hle, ok_map]
  by_cases hpolicy : pol = .always ∨ rd.shifted.low.toNat = 0
  · rw [if_pos (hzero.mpr hpolicy), if_pos (or_assoc.mp (.inl hpolicy)), RangeDecoder.check_substitute]
  · rw [if_neg (mt hzero.mp hpolicy)]
    by_cases hcheck : rd.shifted.range.toNat < rd.shifted.low.toNat
    · rw [if_pos (.inr (.inr hcheck)), RangeDecoder.check_of_lt hcheck]
    · rw [if_neg (mt or_assoc.mpr (not_or.mpr ⟨hpolicy, hcheck⟩)), RangeDecoder.check_of_le hcheck]

theorem RangeDecoder.normStep_round_of_le (hrange : rd.range.toNat < 0x1000000) (hle : rd.stop ≤ rd.cur) :
    ∃ a, rd.normStep pol pay = .ok a ∧ NormaliseRound pol pay rd a := by
  have hr := RangeDecoder.shifted_range_toNat hrange
  have hl := rd.shifted_low_toNat
  have hlt : ¬ rd.cur < rd.stop := Nat.not_lt.mpr hle
  refine ⟨_, RangeDecoder.normStep_of_le hle, ?_⟩
  rw [hl]
  by_cases hsub : pol = .always ∨ 256 * rd.low.toNat % 2 ^ 32 = 0 ∨
      rd.shifted.range.toNat < 256 * rd.low.toNat % 2 ^ 32
  · rw [if_pos hsub]
    exact ⟨hr, rfl, fun h => absurd h hlt, fun _ => ⟨rfl, (if_pos hsub).mpr ⟨rfl, rfl⟩⟩⟩
  · rw [if_neg hsub]
    exact ⟨hr, rfl, fun h => absurd h hlt, fun _ => ⟨rfl, (if_neg hsub).mpr ⟨hl, rfl⟩⟩⟩

/-- One iteration of NORMALISE, in numbers (rule R117). -/
theorem RangeDecoder.normStep_round (hstop : rd.stop = pay.length) (hrange : rd.range.toNat < 0x1000000) :
    ∃ a, rd.normStep pol pay = .ok a ∧ NormaliseRound pol pay rd a := by
  obtain hlt | hle := Nat.lt_or_ge rd.cur rd.stop
  · exact RangeDecoder.normStep_round_of_lt hrange hlt (hstop ▸ hlt)
  · exact RangeDecoder.normStep_round_of_le hrange hle

theorem RangeDecoder.normLoop_of_ge (n : Nat) (h : 0x1000000 ≤ rd.range.toNat) : rd.normLoop pol pay n = .ok rd := by
  have hge : ¬ rd.range < racBottom := by
    rw [lt_racBottom_iff]
    omega
  cases n <;> rw [RangeDecoder.normLoop, if_neg hge]

theorem RangeDecoder.normLoop_succ_of_lt (n : Nat) (h : rd.range.toNat < 0x1000000) :
    rd.normLoop pol pay (n + 1) = (rd.normStep pol pay).bind (RangeDecoder.normLoop pol pay n) := by
  rw [RangeDecoder.normLoop, if_pos ((lt_racBottom_iff _).mpr h)]

/-- An answer within `n` rounds is the answer within one more. -/
theorem RangeDecoder.normLoop_succ {n : Nat} (h : rd.normLoop pol pay n = .ok u) :
    rd.normLoop pol pay (n + 1) = .ok u := by
  induction n generalizing rd with
  | zero =>
    obtain hlt | hge := Nat.lt_or_ge rd.range.toNat 0x1000000
    · rw [RangeDecoder.normLoop, if_pos ((lt_racBottom_iff _).mpr hlt)] at h
      cases h
    · rwa [RangeDecoder.normLoop_of_ge _ hge] at h ⊢
  | succ n ih =>
    obtain hlt | hge := Nat.lt_or_ge rd.range.toNat 0x1000000
    · rw [RangeDecoder.normLoop_succ_of_lt _ hlt] at h ⊢
      obtain ⟨a, ha, hrest⟩ := bind_eq_ok h
      rw [ha, ok_bind, ih hrest]
    · rwa [RangeDecoder.normLoop_of_ge _ hge] at h ⊢

/-- Each round reads one byte at most (rule R118). -/
theorem RangeDecoder.normStep_cur_le (h : rd.normStep pol pay = .ok u) : u.cur ≤ rd.cur + 1 := by
  rw [RangeDecoder.normStep_eq] at h
  obtain ⟨v, hv, rfl⟩ := map_eq_ok h
  rw [RangeDecoder.check_cur]
  unfold RangeDecoder.refill at hv
  split at hv
  · obtain ⟨b, -, rfl⟩ := map_eq_ok hv
    exact le_refl _
  · split at hv <;> cases hv <;> exact Nat.le_succ _

theorem RangeDecoder.normLoop_cur_le {n : Nat} (h : rd.normLoop pol pay n = .ok u) : u.cur ≤ rd.cur + n := by
  induction n generalizing rd with
  | zero =>
    unfold RangeDecoder.normLoop at h
    split at h <;> cases h
    exact le_refl _
  | succ n ih =>
    unfold RangeDecoder.normLoop at h
    split at h
    · obtain ⟨a, ha, hrest⟩ := bind_eq_ok h
      have hfirst := RangeDecoder.normStep_cur_le ha
      have hothers := ih hrest
      omega
    · cases h
      exact Nat.le_add_right _ _

theorem exec_normalise (halive : s.alive = true) (h : s.rd.normalise s.policy s.inp.payload = .ok rd) :
    exec .normalise s = .next (s.setRd rd) := by
  unfold exec execNormalise
  exact live_ok halive (by rw [normalise, h, ok_map])

/-- From a range below RAC_BOTTOM, NORMALISE is one round and NORMALISE again (rules R117, R118). -/
theorem RangeDecoder.normalise_of_lt (hstop : rd.stop = pay.length) (hcur : rd.cur ≤ rd.stop)
    (hpos : 1 ≤ rd.range.toNat) (hlt : rd.range.toNat < 0x1000000) :
    ∃ a u, NormaliseRound pol pay rd a ∧ rd.normalise pol pay = .ok u ∧ a.normalise pol pay = .ok u ∧
      0x1000000 ≤ u.range.toNat ∧ u.cur ≤ rd.cur + 3 ∧ (2 ^ 9 ≤ rd.range.toNat → u.cur ≤ rd.cur + 2) := by
  have hloop : ∀ n, 0x1000000 ≤ rd.range.toNat * 256 ^ n → ∃ t, rd.normLoop pol pay n = .ok t ∧ t.Good pay :=
    fun n hn => rd.normLoop_good n hstop hcur hn fun hge => absurd hlt (Nat.not_lt.mpr hge)
  obtain ⟨u, hu, hgood⟩ := hloop 3 (by omega)
  obtain ⟨a, ha, hround⟩ := RangeDecoder.normStep_round (pol := pol) hstop hlt
  have hrest : a.normLoop pol pay 2 = .ok u := by
    rwa [RangeDecoder.normLoop_succ_of_lt _ hlt, ha, ok_bind] at hu
  refine ⟨a, u, hround, hu, RangeDecoder.normLoop_succ hrest, hgood.range_ge, RangeDecoder.normLoop_cur_le hu,
    fun hbig => ?_⟩
  obtain ⟨t, ht, -⟩ := hloop 2 (by omega)
  cases hu.symm.trans (RangeDecoder.normLoop_succ ht)
  exact RangeDecoder.normLoop_cur_le ht

/-- Settles O19: the loop of three rounds takes its first one off, and the two others answer as three would. -/
theorem normalise_spec : Obligations.Normalise := by
  intro s halive hstop hcur hpos
  obtain hlt | hge := Nat.lt_or_ge s.rd.range.toNat 0x1000000
  · obtain ⟨a, rd, hround, hrd, ha, hrange, hthree, htwo⟩ :=
      RangeDecoder.normalise_of_lt (pol := s.policy) hstop hcur hpos hlt
    exact ⟨rd, exec_normalise halive hrd, hrange, hthree, htwo, fun hge => absurd hlt (Nat.not_lt.mpr hge),
      fun _ => ⟨a, hround, exec_normalise (s := s.setRd a) halive ha⟩⟩
  · exact ⟨s.rd, exec_normalise halive (s.rd.normalise_of_ge hge), hge, Nat.le_add_right _ _,
      fun _ => Nat.le_add_right _ _, fun _ => rfl, fun hlt => absurd hlt (Nat.not_lt.mpr hge)⟩

end Sys2Proof.Machine
end

/-! ## O20 to O26: the primitives

The registers a primitive hands to NORMALISE, in numbers: they are the ones `State.narrowed` writes. What a primitive answers
on good registers is known (`Laws/RangeDecoder.lean`), so each proof runs both sides from there. -/

section
namespace Sys2Proof.Machine

variable {s t : State} {pay : List Byte} {pol : ExhaustPolicy} {rd : RangeDecoder} {n : Nat}

/-! ### The narrowed registers, in numbers -/

theorem eq_ofNat_of_toNat_eq {x : U32} (h : x.toNat = n) : x = BitVec.ofNat 32 n := by
  rw [← h, BitVec.ofNat_toNat, BitVec.setWidth_eq]

/-- The registers with the interval `range`, `low`, given as numbers. -/
def RangeDecoder.withInterval (rd : RangeDecoder) (range low : Nat) : RangeDecoder :=
  { rd with range := BitVec.ofNat 32 range, low := BitVec.ofNat 32 low }

theorem RangeDecoder.withInterval_of_toNat_eq {r l : U32} {range low : Nat} (rd : RangeDecoder) (hr : r.toNat = range)
    (hl : l.toNat = low) : { rd with range := r, low := l } = rd.withInterval range low := by
  rw [eq_ofNat_of_toNat_eq hr, eq_ofNat_of_toNat_eq hl, RangeDecoder.withInterval]

/-- The last interval step of a primitive is the NORMALISE of `State.narrowed` (rule R116). -/
theorem narrowed_of_renorm {range low : Nat} (halive : s.alive = true)
    (h : (s.rd.withInterval range low).renorm s.policy s.inp.payload = .ok rd) :
    s.narrowed range low = .next (s.setRd rd) := by
  rw [RangeDecoder.renorm_eq_normalise] at h
  exact exec_normalise (s := s.setRd (s.rd.withInterval range low)) halive h

/-- GET_BIT's halving (rule R119). -/
theorem RangeDecoder.halveRange_eq (rd : RangeDecoder) :
    let half := rd.range.toNat / 2
    let b := decide (half ≤ rd.low.toNat)
    rd.halveRange = (b, rd.withInterval half (if b then rd.low.toNat - half else rd.low.toNat)) := by
  have hhalf : (rd.range >>> 1).toNat = rd.range.toNat / 2 := shr_toNat _ _
  unfold RangeDecoder.halveRange
  dsimp only
  by_cases hle : rd.range >>> 1 ≤ rd.low
  · have hle' : rd.range.toNat / 2 ≤ rd.low.toNat := hhalf ▸ hle
    rw [if_pos hle, decide_eq_true hle', if_pos rfl]
    exact congrArg _ (rd.withInterval_of_toNat_eq hhalf (by rw [BitVec.toNat_sub_of_le hle, hhalf]))
  · have hle' : ¬ rd.range.toNat / 2 ≤ rd.low.toNat := hhalf ▸ hle
    rw [if_neg hle, decide_eq_false hle', if_neg Bool.false_ne_true]
    exact congrArg _ (rd.withInterval_of_toNat_eq hhalf rfl)

/-- GET_BITS keeps the remainder (rule R121). -/
theorem RangeDecoder.divided_eq (rd : RangeDecoder) (n : Nat) :
    let part := rd.range.toNat / 2 ^ n
    { rd with range := rd.range >>> n, low := rd.low - (rd.range >>> n) * (rd.low / (rd.range >>> n)) } =
      rd.withInterval part (rd.low.toNat - part * (rd.low.toNat / part)) := by
  have hpart : (rd.range >>> n).toNat = rd.range.toNat / 2 ^ n := shr_toNat _ _
  have hle := Nat.mul_div_le rd.low.toNat (rd.range.toNat / 2 ^ n)
  have hmul : ((rd.range >>> n) * (rd.low / (rd.range >>> n))).toNat =
      rd.range.toNat / 2 ^ n * (rd.low.toNat / (rd.range.toNat / 2 ^ n)) := by
    rw [mul_toNat] <;> rw [BitVec.toNat_udiv, hpart]
    exact Nat.lt_of_le_of_lt hle rd.low.isLt
  exact rd.withInterval_of_toNat_eq hpart (by rw [BitVec.toNat_sub_of_le (by rwa [BitVec.le_def, hmul]), hmul])

/-- DEC_BIN's split (rule R123). -/
theorem RangeDecoder.splitBin_eq (h : rd.Good pay) {z : U32} (h1 : 1 ≤ z.toNat) (h2 : z.toNat ≤ 0x1FFF) :
    let helper := z.toNat * (rd.range.toNat / 2 ^ 13)
    let b := decide (helper ≤ rd.low.toNat)
    rd.splitBin z = (b, rd.withInterval (if b then rd.range.toNat - helper else helper)
      (if b then rd.low.toNat - helper else rd.low.toNat)) := by
  obtain ⟨hhelper, -, hlt⟩ := rd.splitBin_spec h z h1 h2
  unfold RangeDecoder.splitBin
  dsimp only
  by_cases hle : z * (rd.range >>> model2Scale) ≤ rd.low
  · have hle' : z.toNat * (rd.range.toNat / 2 ^ 13) ≤ rd.low.toNat := hhelper ▸ hle
    have hrange : z * (rd.range >>> model2Scale) ≤ rd.range := by
      rw [BitVec.le_def, hhelper]
      exact Nat.le_of_lt hlt
    rw [if_pos hle, decide_eq_true hle', if_pos rfl, if_pos rfl]
    exact congrArg _ (rd.withInterval_of_toNat_eq (by rw [BitVec.toNat_sub_of_le hrange, hhelper])
      (by rw [BitVec.toNat_sub_of_le hle, hhelper]))
  · have hle' : ¬ z.toNat * (rd.range.toNat / 2 ^ 13) ≤ rd.low.toNat := hhelper ▸ hle
    rw [if_neg hle, decide_eq_false hle', if_neg Bool.false_ne_true, if_neg Bool.false_ne_true]
    exact congrArg _ (rd.withInterval_of_toNat_eq hhelper rfl)

/-- The upper end of a symbol's interval, in numbers; it is no less than the lower end (rules R131, R133). -/
theorem upperEnd_toNat {m : FreqModel n} (hm : m.Good) (rd : RangeDecoder) (v : Fin n) :
    (upperEnd m (rd.range >>> modelScale) rd.range (v.val + 1)).toNat =
      (if h : v.val + 1 < n then m.freqs[v.val + 1].toNat * (rd.range.toNat / 2 ^ 15) else rd.range.toNat) ∧
    (m.freqs[v] * (rd.range >>> modelScale)).toNat ≤
      (upperEnd m (rd.range >>> modelScale) rd.range (v.val + 1)).toNat := by
  obtain ⟨hlower, hle⟩ := bound_toNat m hm rd v
  rw [hlower]
  unfold upperEnd
  by_cases hlast : v.val + 1 < n
  · obtain ⟨hupper, -⟩ := bound_toNat m hm rd ⟨v.val + 1, hlast⟩
    rw [Fin.getElem_fin] at hupper
    rw [dif_pos hlast, dif_pos hlast, hupper]
    exact ⟨rfl, Nat.mul_le_mul_right _ (Nat.le_of_lt (hm.freq_lt v ⟨v.val + 1, hlast⟩ (Nat.lt_succ_self _)))⟩
  · rw [dif_neg hlast, dif_neg hlast]
    exact ⟨rfl, hle⟩

/-- The interval of a table symbol (rules R131, R133). -/
theorem RangeDecoder.narrow_eq {m : FreqModel n} (hm : m.Good) (rd : RangeDecoder) (v : Fin n)
    (hlow : m.freqs[v].toNat * (rd.range.toNat / 2 ^ 15) ≤ rd.low.toNat) :
    let prob := m.freqs[v].toNat * (rd.range.toNat / 2 ^ 15)
    let prob2 := if h : v.val + 1 < n then m.freqs[v.val + 1].toNat * (rd.range.toNat / 2 ^ 15) else rd.range.toNat
    rd.narrow (m.freqs[v] * (rd.range >>> modelScale)) (upperEnd m (rd.range >>> modelScale) rd.range (v.val + 1)) =
      rd.withInterval (prob2 - prob) (rd.low.toNat - prob) := by
  obtain ⟨hlower, -⟩ := bound_toNat m hm rd v
  obtain ⟨hupper, hle⟩ := upperEnd_toNat hm rd v
  exact rd.withInterval_of_toNat_eq (by rw [BitVec.toNat_sub_of_le hle, hupper, hlower])
    (by rw [BitVec.toNat_sub_of_le (by rwa [BitVec.le_def, hlower]), hlower])

/-! ### Raw bits -/

/-- Settles O20, by `RangeDecoder.halveRange_eq`. -/
theorem getBit_spec : Obligations.GetBit := by
  intro s h half b
  obtain ⟨bit, rd, hbit, -, hrenorm, rfl⟩ := getBit_can h
  have hhalve : s.rd.halveRange = (b, s.rd.withInterval half _) := s.rd.halveRange_eq
  rw [hhalve] at hbit hrenorm
  exact ⟨s.setRd rd, narrowed_of_renorm h.alive hrenorm, exec_getBit h.alive hbit⟩

/-- Settles O21, by `RangeDecoder.divided_eq`. -/
theorem getBits_spec : Obligations.GetBits := by
  intro s n h hpos hn part val
  obtain ⟨rd, hrenorm, hbits, -, hle⟩ := s.rd.getBits_good (pol := s.policy) h.rd n.toNat hn
  have hval : (s.rd.low / (s.rd.range >>> n.toNat)).toNat = val := by
    rw [BitVec.toNat_udiv, shr_toNat]
  rw [RangeDecoder.divided_eq] at hrenorm
  refine ⟨hval ▸ hle, s.setRd rd, narrowed_of_renorm h.alive hrenorm, exec_getBits h.alive ?_⟩
  rw [getBits, hbits, ok_map, hval]

/-! ### Model-driven symbols -/

theorem setRd_setBin (s : State) (rd : RangeDecoder) (m : BinRef) (v : BinModel) :
    (s.setRd rd).setBin m v = (s.setBin m v).setRd rd := by
  cases m
  rfl

theorem setRd_setSmall (s : State) (rd : RangeDecoder) (m : SmallRef) (v : FreqModel m.size) :
    (s.setRd rd).setSmall m v = (s.setSmall m v).setRd rd := by
  cases m <;> rfl

theorem setRd_setByte (s : State) (rd : RangeDecoder) (m : ByteRef) (v : ByteModel) :
    (s.setRd rd).setByte m v = (s.setByte m v).setRd rd := by
  cases m <;> rfl

theorem exec_m2Update {m : BinRef} {b : Bool} {x : BinModel} (halive : s.alive = true)
    (h : (s.bin m).update b = .ok x) : exec (.m2Update m b) s = .next (s.setBin m x) := by
  unfold exec execM2Update
  exact live_ok halive (by rw [onBin, h, ok_map])

/-- The operand of MS_UPDATE is four bits wide, which hold every symbol of a Small model (rule R153). -/
theorem exec_msUpdate {m : SmallRef} {v : Fin m.size} {x : FreqModel m.size} (halive : s.alive = true)
    (h : (s.small m).update v = .ok x) :
    exec (.msUpdate m (BitVec.ofNat 4 v.val)) s = .next (s.setSmall m x) := by
  have hsize : m.size ≤ 16 := by cases m <;> simp [SmallRef.size]
  have hv : (BitVec.ofNat 4 v.val).toNat = v.val := Nat.mod_eq_of_lt (by omega)
  unfold exec execMsUpdate
  exact live_ok halive (by rw [onSmall, hv, symbolOf_val, ok_bind, h, ok_map])

theorem exec_mbUpdate {m : ByteRef} {v : Fin 256} {x : ByteModel} (halive : s.alive = true)
    (h : (s.byte m).update v = .ok x) : exec (.mbUpdate m (BitVec.ofNat 8 v.val)) s = .next (s.setByte m x) := by
  have hv : (BitVec.ofNat 8 v.val).toFin = v := Fin.ext (Nat.mod_eq_of_lt v.isLt)
  unfold exec execMbUpdate
  exact live_ok halive (by rw [onByte, hv, h, ok_map])

theorem exec_decBin {m : BinRef} {b : Bool} (halive : s.alive = true) (h : decBin m s = .ok (b, t)) :
    exec (.decBin m) s = .next (t.setRet (if b then 1 else 0)) := by
  unfold exec execDecBin
  exact live_map_ok halive h

theorem exec_decSmall {m : SmallRef} {v : Fin m.size} (halive : s.alive = true) (h : decSmall m s = .ok (v, t)) :
    exec (.decSmall m) s = .next (t.setRet v.val) := by
  unfold exec execDecSmall
  exact live_map_ok halive h

/-- Settles O22, by `RangeDecoder.splitBin_eq`. -/
theorem decBin_spec : Obligations.DecBin := by
  intro s m h helper b
  have hm := h.models.bin m
  obtain ⟨rd, x, hrenorm, hupdate, hdec, -, -⟩ := s.rd.decBin_good (pol := s.policy) h.rd (s.bin m) hm
  have hsplit : s.rd.splitBin (s.bin m).zeroFreq = (b, s.rd.withInterval _ _) :=
    RangeDecoder.splitBin_eq h.rd hm.freq_pos hm.freq_le
  rw [hsplit] at hrenorm hupdate hdec
  refine ⟨s.setRd rd, _, narrowed_of_renorm h.alive hrenorm,
    exec_m2Update (s := s.setRd rd) h.alive (by rwa [setRd_bin]), ?_⟩
  rw [setRd_setBin]
  exact exec_decBin h.alive (by rw [decBin, hdec, ok_map])

/-- Settles O23, by `RangeDecoder.narrow_eq`. -/
theorem decSmall_spec : Obligations.DecSmall := by
  intro s m h rs
  have hm := h.models.small m
  obtain ⟨v, rd, x, ⟨hstarts, hmax⟩, hrenorm, hupdate, hdec, -, -⟩ :=
    s.rd.decSmall_good (pol := s.policy) h.rd (s.small m) hm (size_le m).1 (size_le m).2
  rw [RangeDecoder.narrow_eq hm s.rd v hstarts] at hrenorm
  refine ⟨v, hstarts, hmax, s.setRd rd, _, narrowed_of_renorm h.alive hrenorm,
    exec_msUpdate (s := s.setRd rd) h.alive (by rwa [setRd_small]), ?_⟩
  rw [setRd_setSmall]
  exact exec_decSmall h.alive (by rw [decSmall, hdec, ok_map])

/-- Settles O24: a symbol's interval starts at or below `low` just when its frequency is at most `low div rs`, so it is
narrowed as by DEC_SMALL. -/
theorem decByte_spec : Obligations.DecByte := by
  intro s m h rs
  have hm := h.models.byte m
  obtain ⟨v, rd, x, ⟨hstarts, hmax⟩, hrenorm, hupdate, hdec, -, -⟩ :=
    s.rd.decByte_good (pol := s.policy) h.rd (s.byte m) hm
  have hlow : (s.byte m).base.freqs[v].toNat * rs ≤ s.rd.low.toNat :=
    (Nat.mul_le_mul_right rs hstarts).trans (Nat.div_mul_le_self _ _)
  have hnarrow := RangeDecoder.narrow_eq hm.base s.rd v hlow
  refine ⟨v, hstarts, hmax, s.setRd rd, _, narrowed_of_renorm h.alive (hnarrow ▸ hrenorm),
    exec_mbUpdate (s := s.setRd rd) h.alive (by rwa [setRd_byte]), ?_⟩
  rw [setRd_setByte]
  exact exec_decByte h.alive (by rw [decByte, hdec, ok_map])

/-! ### RAC_BOTTOM -/

theorem rdInit_range (h : rdInit s = .ok t) : t.rd.range = 0xFFFFFFFF := by
  obtain ⟨rd, hrd, rfl⟩ := map_eq_ok h
  obtain ⟨u, -, rfl⟩ := map_eq_ok hrd
  rfl

theorem normalise_range (h : normalise s = .ok t) : 0x1000000 ≤ t.rd.range.toNat := by
  obtain ⟨rd, hrd, rfl⟩ := map_eq_ok h
  exact RangeDecoder.normLoop_range 3 s.rd rd hrd

theorem getBit_range {r : Bool × State} (h : getBit s = .ok r) : 0x1000000 ≤ r.2.rd.range.toNat := by
  obtain ⟨x, hx, rfl⟩ := map_eq_ok h
  obtain ⟨rd, hrd, rfl⟩ := map_eq_ok hx
  exact RangeDecoder.renorm_range _ rd hrd

theorem getBits_range {r : Nat × State} (h : getBits n s = .ok r) : 0x1000000 ≤ r.2.rd.range.toNat := by
  obtain ⟨x, hx, rfl⟩ := map_eq_ok h
  unfold RangeDecoder.getBits at hx
  dsimp only at hx
  split at hx
  · cases hx
  · obtain ⟨rd, hrd, rfl⟩ := map_eq_ok hx
    exact RangeDecoder.renorm_range _ rd hrd

theorem decBin_range {m : BinRef} {r : Bool × State} (h : decBin m s = .ok r) : 0x1000000 ≤ r.2.rd.range.toNat := by
  obtain ⟨x, hx, rfl⟩ := map_eq_ok h
  obtain ⟨rd, hrd, hx⟩ := bind_eq_ok hx
  obtain ⟨y, -, rfl⟩ := map_eq_ok hx
  exact RangeDecoder.renorm_range _ rd hrd

theorem decSmall_range {m : SmallRef} {r : Fin m.size × State} (h : decSmall m s = .ok r) :
    0x1000000 ≤ r.2.rd.range.toNat := by
  obtain ⟨x, hx, rfl⟩ := map_eq_ok h
  obtain ⟨_, -, hx⟩ := bind_eq_ok hx
  obtain ⟨_, -, hx⟩ := bind_eq_ok hx
  obtain ⟨rd, hrd, hx⟩ := bind_eq_ok hx
  obtain ⟨y, -, rfl⟩ := map_eq_ok hx
  exact RangeDecoder.renorm_range _ rd hrd

theorem decByte_range {m : ByteRef} {r : Fin 256 × State} (h : decByte m s = .ok r) :
    0x1000000 ≤ r.2.rd.range.toNat := by
  obtain ⟨x, hx, rfl⟩ := map_eq_ok h
  unfold RangeDecoder.decByte at hx
  dsimp only at hx
  split at hx
  · cases hx
  · obtain ⟨_, -, hx⟩ := bind_eq_ok hx
    obtain ⟨rd, hrd, hx⟩ := bind_eq_ok hx
    obtain ⟨y, -, rfl⟩ := map_eq_ok hx
    exact RangeDecoder.renorm_range _ rd hrd

theorem live_map_eq_next {α : Type} {f : State → Res α} {g : α → State}
    (h : live s (fun s => (f s).map g) = .next t) : ∃ a, f s = .ok a ∧ g a = t :=
  map_eq_ok (live_eq_next h).2

/-- Settles O25: RD_INIT writes the full range, and every other of them ends with a renormalisation. -/
theorem rangeBottom : Obligations.RangeBottom := by
  intro s t i hi h
  unfold exec at h
  obtain rfl | ⟨n, rfl⟩ | ⟨m, rfl⟩ | ⟨m, rfl⟩ | ⟨m, rfl⟩ | rfl | rfl := hi
  · obtain ⟨r, hr, rfl⟩ := live_map_eq_next h
    exact getBit_range hr
  · obtain ⟨r, hr, rfl⟩ := live_map_eq_next h
    exact getBits_range hr
  · obtain ⟨r, hr, rfl⟩ := live_map_eq_next h
    exact decBin_range hr
  · obtain ⟨r, hr, rfl⟩ := live_map_eq_next h
    exact decSmall_range hr
  · obtain ⟨r, hr, rfl⟩ := live_map_eq_next h
    exact decByte_range hr
  · exact normalise_range (live_eq_next h).2
  · rw [rdInit_range (live_eq_next h).2]
    decide

/-! ### Decoding goes on -/

/-- RD_INIT makes a state that can decode wherever the models are good (rules R115, R126). -/
theorem exec_rdInit_can (halive : s.alive = true) (hmodels : s.ModelsGood) :
    ∃ t, exec .rdInit s = .next t ∧ t.CanDecode ∧ t.rd.low.toNat ≤ t.rd.range.toNat := by
  obtain ⟨rd, hinit, hgood⟩ := RangeDecoder.init_good s.inp.payload
  refine ⟨s.setRd rd, exec_rdInit halive hinit, ⟨halive, hmodels.of_coders rfl, hgood⟩, ?_⟩
  have hrange : rd.range = 0xFFFFFFFF := rdInit_range (s := s) (t := s.setRd rd) (by rw [rdInit, hinit, ok_map])
  rw [setRd_rd, hrange]
  exact Nat.le_of_lt_succ rd.low.isLt

/-- Settles O26: each primitive completes in a state that can decode (`Laws/Primitives.lean`). -/
theorem decodingGoesOn : Obligations.DecodingGoesOn := by
  refine ⟨fun s => exec_rdInit_can, fun s h => ⟨h.rd.low_le, ?getBit, fun n _ hn => ?getBits, fun m => ?decBin,
    fun m => ?decSmall, fun m => ?decByte⟩⟩
  case getBit =>
    obtain ⟨b, rd, hbit, hcan, -⟩ := getBit_can h
    exact ⟨_, exec_getBit h.alive hbit, hcan.setRet _⟩
  case getBits =>
    obtain ⟨v, rd, hbits, -, hcan⟩ := getBits_can h n.toNat hn
    exact ⟨_, exec_getBits h.alive hbits, hcan.setRet _⟩
  case decBin =>
    obtain ⟨b, x, rd, hbin, hcan⟩ := decBin_can h m
    exact ⟨_, exec_decBin h.alive hbin, hcan.setRet _⟩
  case decSmall =>
    obtain ⟨v, x, rd, hsmall, hcan⟩ := decSmall_can h m
    exact ⟨_, exec_decSmall h.alive hsmall, hcan.setRet _⟩
  case decByte =>
    obtain ⟨v, x, rd, hbyte, hcan⟩ := decByte_can h m
    exact ⟨_, exec_decByte h.alive hbyte, hcan.setRet _⟩

end Sys2Proof.Machine
end

/-! ## O10 to O17: the adaptive models

What each operation writes to the one model register it is run on, and the updates in numbers: the rebuild at the end of a
period is read off `BinModel.rebuild_spec` and `FreqModel.rescale_good` (`Laws/Models.lean`). -/

section
namespace Sys2Proof.Machine

variable {s : State} {n : Nat}

/-! ### One model register -/

theorem onBin_ok {m : BinRef} {f : BinModel → Res BinModel} {x : BinModel} (h : f (s.bin m) = .ok x) :
    onBin m f s = .ok (s.setBin m x) := by
  rw [onBin, h, ok_map]

theorem onSmall_ok {m : SmallRef} {f : FreqModel m.size → Res (FreqModel m.size)} {x : FreqModel m.size}
    (h : f (s.small m) = .ok x) : onSmall m f s = .ok (s.setSmall m x) := by
  rw [onSmall, h, ok_map]

theorem onByte_ok {m : ByteRef} {f : ByteModel → Res ByteModel} {x : ByteModel} (h : f (s.byte m) = .ok x) :
    onByte m f s = .ok (s.setByte m x) := by
  rw [onByte, h, ok_map]

theorem onSmall_error {m : SmallRef} {f : FreqModel m.size → Res (FreqModel m.size)} {e : Fault}
    (h : f (s.small m) = .error e) : onSmall m f s = .error e := by
  rw [onSmall, h]
  rfl

theorem onByte_error {m : ByteRef} {f : ByteModel → Res ByteModel} {e : Fault} (h : f (s.byte m) = .error e) :
    onByte m f s = .error e := by
  rw [onByte, h]
  rfl

theorem ByteModel.onBase_ok {f : FreqModel 256 → Res (FreqModel 256)} {m : ByteModel} {b : FreqModel 256}
    (h : f m.base = .ok b) : m.onBase f = .ok { m with base := b } := by
  rw [ByteModel.onBase, h, ok_map]

theorem ByteModel.onBase_error {f : FreqModel 256 → Res (FreqModel 256)} {m : ByteModel} {e : Fault}
    (h : f m.base = .error e) : m.onBase f = .error e := by
  rw [ByteModel.onBase, h]
  rfl

theorem exec_m2Reset (m : BinRef) (halive : s.alive = true) :
    exec (.m2Reset m) s = .next (s.setBin m BinModel.reset) := by
  unfold exec execM2Reset
  exact live_ok halive (onBin_ok rfl)

theorem exec_msConstruct (m : SmallRef) (halive : s.alive = true) :
    exec (.msConstruct m) s = .next (s.setSmall m (FreqModel.initial m.size)) := by
  obtain ⟨hlo, hhi⟩ := size_le m
  unfold exec execMsConstruct
  exact live_ok halive (onSmall_ok (FreqModel.construct_eq _ hlo hhi))

theorem exec_msReset {m : SmallRef} {x : FreqModel m.size} (halive : s.alive = true) (h : (s.small m).reset = .ok x) :
    exec (.msReset m) s = .next (s.setSmall m x) := by
  unfold exec execMsReset
  exact live_ok halive (onSmall_ok h)

theorem exec_mbConstruct (m : ByteRef) (halive : s.alive = true) :
    exec (.mbConstruct m) s = .next (s.setByte m ByteModel.initial) := by
  unfold exec execMbConstruct
  exact live_ok halive (onByte_ok (ByteModel.construct_eq _))

theorem exec_mbReset {m : ByteRef} {x : ByteModel} (halive : s.alive = true) (h : (s.byte m).reset = .ok x) :
    exec (.mbReset m) s = .next (s.setByte m x) := by
  unfold exec execMbReset
  exact live_ok halive (onByte_ok h)

theorem exec_mbSecondary {m : ByteRef} {x : ByteModel} (halive : s.alive = true)
    (h : (s.byte m).rebuildSecondary = .ok x) : exec (.mbSecondary m) s = .next (s.setByte m x) := by
  unfold exec execMbSecondary
  exact live_ok halive (onByte_ok h)

theorem exec_msUpdate_of_lt {m : SmallRef} {v : BitVec 4} (hv : v.toNat < m.size) {x : FreqModel m.size}
    (halive : s.alive = true) (h : (s.small m).update ⟨v.toNat, hv⟩ = .ok x) :
    exec (.msUpdate m v) s = .next (s.setSmall m x) := by
  have hupdate := exec_msUpdate halive h
  rwa [BitVec.ofNat_toNat, BitVec.setWidth_eq] at hupdate

theorem exec_msUpdate_of_ge {m : SmallRef} {v : BitVec 4} (hv : ¬ v.toNat < m.size) (halive : s.alive = true) :
    exec (.msUpdate m v) s = .fault .tableIndex := by
  have hsymbol : symbolOf m.size v.toNat = .error .tableIndex := dif_neg hv
  unfold exec execMsUpdate
  exact live_error halive (onSmall_error (by rw [hsymbol]; rfl))

theorem exec_mbUpdate_toFin {m : ByteRef} {v : Byte} {x : ByteModel} (halive : s.alive = true)
    (h : (s.byte m).update v.toFin = .ok x) : exec (.mbUpdate m v) s = .next (s.setByte m x) := by
  unfold exec execMbUpdate
  exact live_ok halive (onByte_ok h)

theorem exec_msHalve_small (m : SmallRef) (halive : s.alive = true) :
    exec (.msHalve (.small m)) s = .next (s.setSmall m (s.small m).halve) := by
  unfold exec execMsHalve
  exact live_ok halive (onSmall_ok rfl)

theorem exec_msHalve_byte (m : ByteRef) (halive : s.alive = true) :
    exec (.msHalve (.byte m)) s = .next (s.setByte m { s.byte m with base := (s.byte m).base.halve }) := by
  unfold exec execMsHalve
  exact live_ok halive (onByte_ok (ByteModel.onBase_ok rfl))

theorem exec_msFreqs_small {m : SmallRef} {x : FreqModel m.size} (halive : s.alive = true)
    (h : (s.small m).rebuildFreqs = .ok x) : exec (.msFreqs (.small m)) s = .next (s.setSmall m x) := by
  unfold exec execMsFreqs
  exact live_ok halive (onSmall_ok h)

theorem exec_msFreqs_byte {m : ByteRef} {b : FreqModel 256} (halive : s.alive = true)
    (h : (s.byte m).base.rebuildFreqs = .ok b) :
    exec (.msFreqs (.byte m)) s = .next (s.setByte m { s.byte m with base := b }) := by
  unfold exec execMsFreqs
  exact live_ok halive (onByte_ok (ByteModel.onBase_ok h))

/-! ### Resets and constructions -/

/-- The frequencies of rules R143 and R149, in numbers: nothing wraps. -/
theorem FreqModel.initial_freqs_toNat {i : Nat} (hi : i < n) :
    ((FreqModel.initial n).freqs[i]).toNat = i * (0x80000000 / n) / 2 ^ 16 := by
  have hlt : i * (0x80000000 / n) / 2 ^ 16 < 2 ^ 32 :=
    calc i * (0x80000000 / n) / 2 ^ 16 ≤ i * (0x80000000 / n) := Nat.div_le_self _ _
      _ ≤ n * (0x80000000 / n) := Nat.mul_le_mul_right _ (Nat.le_of_lt hi)
      _ ≤ 0x80000000 := Nat.mul_div_le _ _
      _ < 2 ^ 32 := by decide
  simpa [FreqModel.initial, Nat.shiftRight_eq_div_pow] using hlt

theorem FreqModel.initial_freqs_toList (n : Nat) :
    (FreqModel.initial n).freqs.toList.map BitVec.toNat =
      (List.range n).map fun i => i * (0x80000000 / n) / 2 ^ 16 := by
  apply List.ext_getElem
  · simp
  · intro i hi _
    have hin : i < n := by simpa using hi
    simpa using FreqModel.initial_freqs_toNat hin

theorem FreqModel.initial_freqs_three :
    (FreqModel.initial 3).freqs.toList.map BitVec.toNat = [0, 10922, 21845] := by
  rw [FreqModel.initial_freqs_toList]
  decide

theorem FreqModel.initial_freqs_five :
    (FreqModel.initial 5).freqs.toList.map BitVec.toNat = [0, 6553, 13107, 19660, 26214] := by
  rw [FreqModel.initial_freqs_toList]
  decide

theorem FreqModel.initial_freqs_twelve : (FreqModel.initial 12).freqs.toList.map BitVec.toNat =
    [0, 2730, 5461, 8191, 10922, 13653, 16383, 19114, 21845, 24575, 27306, 30037] := by
  rw [FreqModel.initial_freqs_toList]
  decide

theorem FreqModel.initial_weights_toList (n : Nat) :
    (FreqModel.initial n).weights.toList.map BitVec.toNat = List.replicate n 1 := by
  simp [FreqModel.initial]

/-- Settles O10: the reset values are `FreqModel.initial` and `ByteModel.initial`, whose rows are computed. -/
theorem modelResets : Obligations.ModelResets := by
  intro s halive
  refine ⟨fun m => exec_m2Reset m halive, fun m => ?small, fun m => ?byte⟩
  case small =>
    obtain ⟨hlo, hhi⟩ := size_le m
    have hn : m.size < 2 ^ 32 := by omega
    refine ⟨FreqModel.initial m.size, exec_msConstruct m halive, exec_msReset halive (FreqModel.reset_eq _ hlo hhi),
      FreqModel.initial_weights_toList _, Nat.mod_eq_of_lt hn, Nat.mod_eq_of_lt (by omega), rfl,
      Nat.mod_eq_of_lt (by omega), ?_⟩
    cases m with
    | vs => exact FreqModel.initial_freqs_three
    | bt | vq => exact FreqModel.initial_freqs_five
    | fillCoef | dctDc | haarCoef => exact FreqModel.initial_freqs_twelve
  case byte =>
    refine ⟨ByteModel.initial, exec_mbConstruct m halive, exec_mbReset halive (ByteModel.reset_eq _),
      fun i => ⟨?_, ?_⟩, rfl, rfl, rfl, rfl, fun k => ?_⟩
    · simp [ByteModel.initial, FreqModel.initial]
    · have hfreq := FreqModel.initial_freqs_toNat i.isLt
      simp only [ByteModel.initial, Fin.getElem_fin, hfreq]
      omega
    · have := k.isLt
      simp only [ByteModel.initial, Fin.getElem_fin, Vector.getElem_ofFn]
      by_cases hk : k.val ≤ 63
      · rw [if_pos hk, if_pos hk, Fin.val_ofNat]
        split <;> omega
      · rw [if_neg hk, if_neg hk, if_neg (by omega)]
        rfl

/-! ### The end of a period -/

/-- A counter that is counted down reaches 0 just when it stood at 1. -/
theorem sub_one_eq_zero_iff (x : U32) : x - 1 = 0 ↔ x.toNat = 1 := by
  bv_omega

theorem BinModel.count_till_eq_zero_iff (m : BinModel) (b : Bool) :
    (m.count b).tillRescale = 0 ↔ m.tillRescale.toNat = 1 :=
  sub_one_eq_zero_iff _

theorem FreqModel.count_till_eq_zero_iff (m : FreqModel n) (v : Fin n) :
    (m.count v).tillRescale = 0 ↔ m.tillRescale.toNat = 1 :=
  sub_one_eq_zero_iff _

/-! ### Binary models -/

theorem BinModel.update_of_last {m : BinModel} (hlast : m.tillRescale.toNat = 1) (b : Bool) :
    m.update b = (m.count b).rebuild :=
  if_pos ((m.count_till_eq_zero_iff b).mpr hlast)

theorem BinModel.update_of_not_last {m : BinModel} (hlast : m.tillRescale.toNat ≠ 1) (b : Bool) :
    m.update b = .ok (m.count b) :=
  if_neg (mt (m.count_till_eq_zero_iff b).mp hlast)

theorem BinModel.count_updates {m : BinModel} (h : m.Good) (b : Bool) (hlast : m.tillRescale.toNat ≠ 1) :
    m.Updates (m.count b) b := by
  obtain ⟨hzero, htill⟩ := m.count_spec b h
  exact ⟨fun _ => ⟨hzero, rfl, rfl, rfl, rfl, htill⟩, fun e => absurd e hlast⟩

theorem BinModel.rebuild_updates {m : BinModel} (h : m.Good) (b : Bool) (hlast : m.tillRescale.toNat = 1) :
    ∃ y, (m.count b).rebuild = .ok y ∧ m.Updates y b := by
  obtain ⟨hzero, -⟩ := m.count_spec b h
  have hperiod := h.period
  have hbit : (if b then 0 else 1) ≤ 1 := by cases b <;> decide
  obtain ⟨y, hy, htotal, hz, hupd, htill, hzf, htf⟩ := BinModel.rebuild_spec (m.count b)
    (show _ < m.totalWeight.toNat + m.updVal.toNat by omega) (Nat.le_of_lt h.total_two) h.total_le h.upd_le
  rw [hzero] at htotal hz
  have hreload : y.tillRescale = y.updVal := BitVec.eq_of_toNat_eq (htill.trans hupd.symm)
  exact ⟨y, hy, fun e => absurd hlast e, fun _ => ⟨hz, htotal, hzf, htf, hupd, hreload⟩⟩

/-- M2_UPDATE in numbers (rule R136). -/
theorem BinModel.update_updates {m : BinModel} (h : m.Good) (b : Bool) : ∃ y, m.update b = .ok y ∧ m.Updates y b := by
  by_cases hlast : m.tillRescale.toNat = 1
  · rw [BinModel.update_of_last hlast]
    exact BinModel.rebuild_updates h b hlast
  · exact ⟨_, BinModel.update_of_not_last hlast b, BinModel.count_updates h b hlast⟩

/-- Settles O11, by `BinModel.update_updates`. -/
theorem binaryUpdate : Obligations.BinaryUpdate := by
  intro s m b halive hgood
  obtain ⟨y, hy, hupdates⟩ := BinModel.update_updates hgood b
  exact ⟨y, exec_m2Update halive hy, hupdates⟩

/-! ### Frequency tables -/

/-- The sum of the weights depends on their numbers alone. -/
theorem FreqModel.weightTotal_congr {x y : FreqModel n} (h : ∀ i : Fin n, x.weights[i].toNat = y.weights[i].toNat) :
    x.weightTotal = y.weightTotal := by
  have hweights : x.weights = y.weights := Vector.ext fun i hi => BitVec.eq_of_toNat_eq (h ⟨i, hi⟩)
  unfold FreqModel.weightTotal
  rw [hweights]

theorem FreqModel.rebuildFreqs_of_zero {m : FreqModel n} (h : m.totWeight = 0) :
    m.rebuildFreqs = .error .divideByZero :=
  if_pos h

/-- The table MS_FREQS answers, in its own weights (rule R141). -/
theorem FreqModel.freqs_of_rebuildFreqs {m y : FreqModel n} (h : m.rebuildFreqs = .ok y)
    (hsum : y.weightTotal ≤ y.totWeight.toNat) (i : Fin n) :
    y.freqs[i].toNat = y.weightBelow i * (0x80000000 / y.totWeight.toNat) / 2 ^ 16 := by
  have hpos : 1 ≤ m.totWeight.toNat := by
    by_contra hzero
    have htotal : m.totWeight = 0 := BitVec.eq_of_toNat_eq (Nat.lt_one_iff.mp (Nat.not_le.mp hzero))
    rw [FreqModel.rebuildFreqs_of_zero htotal] at h
    cases h
  have hframe : y = { m with freqs := y.freqs } := by
    unfold FreqModel.rebuildFreqs at h
    split at h
    · cases h
    · cases h; rfl
  have hweights : y.weights = m.weights := by rw [hframe]
  have htot : y.totWeight = m.totWeight := by rw [hframe]
  have hsum' : m.weightTotal ≤ m.totWeight.toNat := by
    unfold FreqModel.weightTotal at hsum ⊢
    rwa [hweights, htot] at hsum
  obtain ⟨y', hy', -, hfreqs⟩ := m.rebuildFreqs_spec hpos hsum'
  rw [h] at hy'
  cases hy'
  rw [hfreqs i, FreqModel.weightBelow, hweights, htot]
  rfl

theorem FreqModel.update_of_last {m : FreqModel n} (hlast : m.tillRescale.toNat = 1) (v : Fin n) :
    m.update v = (m.count v).rescale.map FreqModel.decay :=
  if_pos ((m.count_till_eq_zero_iff v).mpr hlast)

theorem FreqModel.update_of_not_last {m : FreqModel n} (hlast : m.tillRescale.toNat ≠ 1) (v : Fin n) :
    m.update v = .ok (m.count v) :=
  if_neg (mt (m.count_till_eq_zero_iff v).mp hlast)

theorem FreqModel.count_updates {m : FreqModel n} (h : m.Good) (hn : n ≤ 256) (v : Fin n)
    (hlast : m.tillRescale.toNat ≠ 1) : m.Updates (m.count v) v := by
  obtain ⟨hweights, -, htill⟩ := m.count_spec v h hn
  exact ⟨rfl, fun _ => ⟨hweights, rfl, rfl, rfl, htill⟩, fun e => absurd e hlast⟩

/-- The rebuild of a good table and its decay, in numbers (rule R139). At the last symbol of a period the weights sum to
the total that the rebuild makes, so below the ceiling the sum is the new total as well. -/
theorem FreqModel.rescale_updates {m : FreqModel n} (h : m.Good) (hn : n ≤ 256) (v : Fin n)
    (hlast : m.tillRescale.toNat = 1) : ∃ b, (m.count v).rescale = .ok b ∧ m.Updates b.decay v := by
  obtain ⟨hcount, hsum, -⟩ := m.count_spec v h hn
  have hperiod := h.period
  have hupd := h.upd_le
  have htotal : (m.count v).weightTotal = m.totWeight.toNat + m.updVal.toNat := by omega
  obtain ⟨b, hb, hframe, hweights, htot, -⟩ := (m.count v).rescale_good v.pos hn
    (fun i => by have := h.weight_pos i; have := hcount i; omega) htotal h.total_le hupd
  have hweights : ∀ i : Fin n, b.weights[i].toNat = if m.totWeight.toNat + m.updVal.toNat ≤ 0x8000
      then (m.count v).weights[i].toNat else ((m.count v).weights[i].toNat + 1) / 2 := hweights
  have hbelow (hle : m.totWeight.toNat + m.updVal.toNat ≤ 0x8000) :
      b.weightTotal = m.totWeight.toNat + m.updVal.toNat := by
    rw [← htotal]
    exact FreqModel.weightTotal_congr fun i => (hweights i).trans (if_pos hle)
  have hmax : b.maxUpdVal = m.maxUpdVal := by rw [hframe]; rfl
  have hupdVal : b.updVal = m.updVal := by rw [hframe]; rfl
  obtain ⟨hdecay, htill⟩ := b.decay_spec (by rw [hupdVal]; omega)
  rw [hmax, hupdVal] at hdecay
  refine ⟨b, hb, hmax, fun e => absurd hlast e, fun _ => ⟨fun i => ?weight, ?total, ?freq, hdecay, htill⟩⟩
  case weight => rw [← hcount i]; exact hweights i
  case total =>
    show b.totWeight.toNat = if _ then _ else b.weightTotal
    split
    case isTrue hle => rw [htot, hbelow hle]
    case isFalse => exact htot
  case freq =>
    have hfreqs := FreqModel.freqs_of_rebuildFreqs (m := (m.count v).grow.limit) hb (Nat.le_of_eq htot.symm)
    exact hfreqs

/-- MS_UPDATE in numbers (rules R139 to R141). -/
theorem FreqModel.update_updates {m : FreqModel n} (h : m.Good) (hn : n ≤ 256) (v : Fin n) :
    ∃ y, m.update v = .ok y ∧ m.Updates y v := by
  by_cases hlast : m.tillRescale.toNat = 1
  · obtain ⟨b, hb, hupdates⟩ := FreqModel.rescale_updates h hn v hlast
    exact ⟨b.decay, by rw [FreqModel.update_of_last hlast, hb, ok_map], hupdates⟩
  · exact ⟨_, FreqModel.update_of_not_last hlast v, FreqModel.count_updates h hn v hlast⟩

/-- Settles O12, by `FreqModel.update_updates`. -/
theorem smallUpdate : Obligations.SmallUpdate := by
  intro s m v halive hgood
  split
  case isTrue hv =>
    obtain ⟨y, hy, hupdates⟩ := FreqModel.update_updates hgood (size_le m).2 ⟨v.toNat, hv⟩
    exact ⟨y, exec_msUpdate_of_lt hv halive hy, hupdates⟩
  case isFalse hv => exact exec_msUpdate_of_ge hv halive

/-! ### Byte models -/

theorem ByteModel.update_of_not_last {m : ByteModel} (hlast : m.base.tillRescale.toNat ≠ 1) (v : Fin 256) :
    m.update v = .ok { m with base := m.base.count v } :=
  if_neg (mt (m.base.count_till_eq_zero_iff v).mp hlast)

/-- The table of a Byte model is updated as a table of 256 symbols: MB_SECONDARY leaves it alone (rule R146). -/
theorem ByteModel.update_base {m y : ByteModel} {v : Fin 256} (h : m.update v = .ok y) :
    m.base.update v = .ok y.base := by
  by_cases hlast : m.base.tillRescale.toNat = 1
  · unfold ByteModel.update at h
    dsimp only at h
    rw [if_pos ((m.base.count_till_eq_zero_iff v).mpr hlast)] at h
    obtain ⟨b, hb, h⟩ := bind_eq_ok h
    obtain ⟨x, hx, rfl⟩ := map_eq_ok h
    rw [FreqModel.update_of_last hlast, hb, ok_map, ByteModel.rebuildSecondary_base hx]
  · rw [ByteModel.update_of_not_last hlast] at h
    cases h
    exact FreqModel.update_of_not_last hlast v

/-- Settles O13: the table is updated as in O12, and the index is the one of the invariant, which the update keeps. -/
theorem byteUpdate : Obligations.ByteUpdate := by
  intro s m v halive hgood
  obtain ⟨y, hy, hygood⟩ := (s.byte m).update_good v.toFin hgood
  obtain ⟨b, hb, hupdates⟩ := FreqModel.update_updates hgood.base (Nat.le_refl _) v.toFin
  rw [ByteModel.update_base hy] at hb
  cases hb
  refine ⟨y, exec_mbUpdate_toFin halive hy, hupdates, fun hlast => ?_, hygood.first, hygood.bucket⟩
  rw [ByteModel.update_of_not_last hlast] at hy
  cases hy
  rfl

/-- From bucket 64 on every interval starts below the bucket, so the highest symbol is the last (rule R147). -/
theorem eq_last_of_isBucket {freqs : Vector U32 256} {k : Nat} {e : Fin 256} (h : IsBucket freqs k e) (hk : 64 ≤ k)
    (htop : ∀ i : Fin 256, freqs[i].toNat < 0x8000) : e = 255 := by
  obtain ⟨-, hmax⟩ := h
  have hlast := htop 255
  exact Fin.le_antisymm (Fin.le_last e) (hmax 255 (by omega))

/-- Settles O14, by `ByteModel.rebuildSecondary_spec`. -/
theorem secondaryIndex : Obligations.SecondaryIndex := by
  intro s m halive hzero hrise htop
  obtain ⟨y, hy, hframe, hfirst, hbucket⟩ := (s.byte m).rebuildSecondary_spec
    (fun i hi => by rw [show i = 0 from Fin.ext hi]; exact hzero) hrise htop
  rw [hframe] at hy
  exact ⟨y.secondary, exec_mbSecondary halive hy, hfirst, hbucket,
    eq_last_of_isBucket (hbucket 64 (by decide)) (by decide) htop,
    eq_last_of_isBucket (hbucket 65 (by decide)) (by decide) htop⟩

/-! ### The invariants -/

/-- Settles O15: each operation writes one model, and writes a good one. -/
theorem modelInvariants : Obligations.ModelInvariants := by
  intro s halive hgood
  refine ⟨fun m b => ?m2Update, fun m v hv => ?msUpdate, fun m v => ?mbUpdate, fun m => ?m2Reset, fun m => ?msReset,
    fun m => ?mbReset, fun m => ?msConstruct, fun m => ?mbConstruct⟩
  case m2Update =>
    obtain ⟨x, hx, hxgood⟩ := (s.bin m).update_good b (hgood.bin m)
    exact ⟨_, exec_m2Update halive hx, hgood.setBin m x hxgood⟩
  case msUpdate =>
    obtain ⟨x, hx, hxgood⟩ := (s.small m).update_good ⟨v.toNat, hv⟩ (hgood.small m) (size_le m).2
    exact ⟨_, exec_msUpdate_of_lt hv halive hx, hgood.setSmall m x hxgood⟩
  case mbUpdate =>
    obtain ⟨x, hx, hxgood⟩ := (s.byte m).update_good v.toFin (hgood.byte m)
    exact ⟨_, exec_mbUpdate_toFin halive hx, hgood.setByte m x hxgood⟩
  case m2Reset => exact ⟨_, exec_m2Reset m halive, hgood.setBin m _ BinModel.reset_good⟩
  case msReset =>
    obtain ⟨hlo, hhi⟩ := size_le m
    exact ⟨_, exec_msReset halive (FreqModel.reset_max _ hlo hhi (hgood.small m).max_eq),
      hgood.setSmall m _ (FreqModel.initial_good hlo hhi)⟩
  case mbReset =>
    exact ⟨_, exec_mbReset halive (ByteModel.reset_max _ (hgood.byte m).base.max_eq),
      hgood.setByte m _ ByteModel.initial_good⟩
  case msConstruct =>
    obtain ⟨hlo, hhi⟩ := size_le m
    exact ⟨_, exec_msConstruct m halive, hgood.setSmall m _ (FreqModel.initial_good hlo hhi)⟩
  case mbConstruct => exact ⟨_, exec_mbConstruct m halive, hgood.setByte m _ ByteModel.initial_good⟩

/-! ### MS_HALVE on any table

`FreqModel.halve_spec` is about positive weights, where the end-weight guard is idle. Here a weight may be 0. -/

/-- MS_HALVE before its end-weight guard (rule R140). -/
def FreqModel.halveEach (m : FreqModel n) : FreqModel n :=
  { m with
    weights := Vector.ofFn fun i => (m.weights[i] + 1) >>> 1
    totWeight := weightSum (Vector.ofFn fun i => (m.weights[i] + 1) >>> 1 : Vector U32 n).toList }

theorem FreqModel.halve_eq_guardLast (m : FreqModel n) : m.halve = m.halveEach.guardLast := rfl

/-- The halved weights, and a sum that leaves room for the guard's 1. -/
theorem FreqModel.halveEach_spec (m : FreqModel n) (hs : m.weightTotal + n < 2 ^ 32) :
    (∀ i : Fin n, m.halveEach.weights[i].toNat = (m.weights[i].toNat + 1) / 2) ∧
      m.halveEach.totWeight.toNat = m.halveEach.weightTotal ∧ m.halveEach.weightTotal + 1 < 2 ^ 32 := by
  have hlist : m.halveEach.weights.toList = m.weights.toList.map fun w : U32 => (w + 1) >>> 1 := by
    apply List.ext_getElem <;> simp [FreqModel.halveEach]
  have htotal : m.halveEach.weightTotal + 1 < 2 ^ 32 := by
    rw [FreqModel.weightTotal_eq] at hs ⊢
    rcases Nat.eq_zero_or_pos n with hn | hn
    · subst hn
      rw [show m.halveEach.weights.toList = [] by simp]
      decide
    · obtain ⟨hle, -⟩ := weightNat_halve m.weights.toList (by omega)
      rw [Vector.length_toList] at hle
      rw [hlist]
      omega
  refine ⟨fun i => ?_, weightSum_toNat _ (Nat.lt_of_succ_lt htotal), htotal⟩
  have hle : m.weights[i].toNat ≤ m.weightTotal := le_weightNat m.weights.toList i (by simp)
  have hi := i.isLt
  have hhalf := halved_toNat (w := m.weights[i]) (by omega)
  simpa [FreqModel.halveEach] using hhalf

/-- The end-weight guard raises a last weight of 0 to 1, and the total with it (rule R140). -/
theorem FreqModel.guardLast_spec (m : FreqModel n) (ht : m.totWeight.toNat = m.weightTotal)
    (hs : m.weightTotal + 1 < 2 ^ 32) :
    m.guardLast = { m with weights := m.guardLast.weights, totWeight := m.guardLast.totWeight } ∧
      m.guardLast.totWeight.toNat = m.guardLast.weightTotal ∧
      ∀ i : Fin n, m.guardLast.weights[i].toNat =
        if i.val = n - 1 then max 1 m.weights[i].toNat else m.weights[i].toNat := by
  by_cases hraise : ∃ h : n - 1 < n, m.weights[n - 1] = 0
  · obtain ⟨hn, hzero⟩ := hraise
    have hguard : m.guardLast = { m with weights := m.weights.set (n - 1) 1, totWeight := m.totWeight + 1 } := by
      rw [FreqModel.guardLast, dif_pos hn, if_pos hzero]
    refine ⟨by rw [hguard], ?total, fun i => ?weight⟩ <;> rw [hguard]
    case total =>
      have hset := weightNat_set m.weights.toList (n - 1) 1 (by simpa using hn)
      rw [Vector.getElem_toList, hzero] at hset
      show (m.totWeight + 1).toNat = weightNat (m.weights.set (n - 1) 1).toList
      rw [Vector.toList_set, add_toNat (by rw [ht]; exact hs), ht, FreqModel.weightTotal_eq]
      exact hset.symm
    case weight =>
      by_cases hi : i.val = n - 1
      · have hwi : m.weights[i] = 0 := by simpa [hi] using hzero
        rw [if_pos hi, hwi]
        simp [hi]
      · have hne : n - 1 ≠ i.val := fun e => hi e.symm
        rw [if_neg hi]
        simp [hne]
  · have hguard : m.guardLast = m := by
      unfold FreqModel.guardLast
      split
      case isTrue hn => exact if_neg fun hzero => hraise ⟨hn, hzero⟩
      case isFalse => rfl
    rw [hguard]
    refine ⟨rfl, ht, fun i => ?_⟩
    split
    case isTrue hi =>
      refine (max_eq_right (Nat.pos_of_ne_zero fun hwi => hraise ⟨by omega, ?_⟩)).symm
      have hzero : m.weights[i] = 0 := BitVec.eq_of_toNat_eq hwi
      simpa [hi] using hzero
    case isFalse => rfl

/-- MS_HALVE in numbers (rule R140), on any table whose sum leaves room for the rounding. -/
theorem FreqModel.halve_toNat (m : FreqModel n) (hs : m.weightTotal + n < 2 ^ 32) :
    m.halve = { m with weights := m.halve.weights, totWeight := m.halve.totWeight } ∧
      m.halve.totWeight.toNat = m.halve.weightTotal ∧
      ∀ i : Fin n, m.halve.weights[i].toNat =
        if i.val = n - 1 then max 1 ((m.weights[i].toNat + 1) / 2) else (m.weights[i].toNat + 1) / 2 := by
  obtain ⟨hweights, htotal, hroom⟩ := m.halveEach_spec hs
  obtain ⟨hframe, hsum, hguard⟩ := m.halveEach.guardLast_spec htotal hroom
  rw [m.halve_eq_guardLast]
  refine ⟨hframe, hsum, fun i => ?_⟩
  rw [← hweights i]
  exact hguard i

/-- Settles O16, by `FreqModel.halve_toNat`. -/
theorem halveWeights : Obligations.HalveWeights :=
  fun s halive => ⟨fun m hs => ⟨_, exec_msHalve_small m halive, (s.small m).halve_toNat hs⟩,
    fun m hs => ⟨_, exec_msHalve_byte m halive, (s.byte m).base.halve_toNat hs⟩⟩

/-! ### MS_FREQS on any table -/

/-- MS_FREQS writes the frequencies alone (rule R141). -/
theorem FreqModel.rebuildFreqs_weightBelow (m : FreqModel n) (hpos : 1 ≤ m.totWeight.toNat)
    (hsum : m.weightTotal ≤ m.totWeight.toNat) :
    ∃ f : Vector U32 n, m.rebuildFreqs = .ok { m with freqs := f } ∧
      ∀ i : Fin n, f[i].toNat = m.weightBelow i * (0x80000000 / m.totWeight.toNat) / 2 ^ 16 := by
  obtain ⟨y, hy, hframe, hfreqs⟩ := m.rebuildFreqs_spec hpos hsum
  exact ⟨y.freqs, hframe ▸ hy, hfreqs⟩

/-- Settles O17, by `FreqModel.rebuildFreqs_weightBelow`. -/
theorem rebuildFrequencies : Obligations.RebuildFrequencies := by
  intro s halive
  refine ⟨fun m hzero => ?smallZero, fun m hzero => ?byteZero, fun m hpos hsum => ?small, fun m hpos hsum => ?byte⟩
  case smallZero =>
    unfold exec execMsFreqs
    exact live_error halive (onSmall_error (FreqModel.rebuildFreqs_of_zero hzero))
  case byteZero =>
    unfold exec execMsFreqs
    exact live_error halive (onByte_error (ByteModel.onBase_error (FreqModel.rebuildFreqs_of_zero hzero)))
  case small =>
    obtain ⟨f, hf, hfreqs⟩ := (s.small m).rebuildFreqs_weightBelow hpos hsum
    exact ⟨f, exec_msFreqs_small halive hf, hfreqs⟩
  case byte =>
    obtain ⟨f, hf, hfreqs⟩ := (s.byte m).base.rebuildFreqs_weightBelow hpos hsum
    exact ⟨f, exec_msFreqs_byte halive hf, hfreqs⟩

end Sys2Proof.Machine
end

/-! ## O29, O31: the selector and the coefficient decode

Both open with DEC_SMALL, so each proof runs it once (`decSmall_can`, `Laws/Primitives.lean`) and goes on from the state it
leads to. -/

section
namespace Sys2Proof.Machine

variable {s t u : State}

/-! ### BT_SELECT -/

theorem exec_btSelect {p : Plane} {v : Fin 5} (halive : s.alive = true)
    (h : decSmall (.bt p (s.coder p).bt.lastType) s = .ok (v, t)) :
    exec (.btSelect p) s = .next ((setLastType p v t).setRet v.val) := by
  have hselect : btSelect p s = .ok (v, setLastType p v t) := by rw [btSelect, h, ok_map]
  unfold exec execBtSelect
  exact live_map_ok halive hselect

/-- Settles O29: the symbol returned by DEC_SMALL is the type recorded. -/
theorem selectBlockType : Obligations.SelectBlockType := by
  intro s p h
  obtain ⟨v, x, rd, hsmall, -⟩ := decSmall_can h (.bt p (s.coder p).bt.lastType)
  exact ⟨v, _, exec_decSmall h.alive hsmall, rfl, exec_btSelect h.alive hsmall⟩

/-! ### DECODE_COEFF -/

/-- The coefficient classes are twelve (rule R93). -/
theorem coefModel_size (m : CoefRef) : m.model.size = 12 := by
  cases m <;> rfl

/-- The bounds of rule R163 on the coefficient of a class. -/
theorem InClass.bounds {v : Fin 12} {k : Int} (h : InClass v.val k) : k.natAbs ≤ 2 ^ v.val + 16 ∧ k.natAbs ≤ 2064 ∧
    if v.val = 0 then k = 0 else 2 ^ (v.val - 1) ≤ k.natAbs := by
  have htop : 2 ^ v.val ≤ 2 ^ 11 := Nat.pow_le_pow_right (by decide) (Nat.le_of_lt_succ v.isLt)
  by_cases hzero : v.val = 0
  · rw [InClass, if_pos hzero] at h
    subst h
    simp [hzero]
  · rw [if_neg hzero]
    rw [InClass, if_neg hzero] at h
    by_cases hone : v.val = 1
    · rw [if_pos hone] at h
      rw [hone, h]
      decide
    · rw [if_neg hone] at h
      obtain ⟨hlow, hhigh⟩ := h
      exact ⟨hhigh, by omega, hlow⟩

/-- A returned value is put back by writing what the register held before. -/
theorem setRet_setRet_of_ret_eq {r : Int} (h : t.ret = r) (v : Int) : (t.setRet v).setRet r = t := by
  subst h
  rfl

theorem exec_decodeCoeff {m : CoefRef} {v : Fin m.model.size} {k : Int} (halive : s.alive = true)
    (hsmall : decSmall m.model s = .ok (v, u)) (hclass : coefClass v.val u = .ok (k, t)) :
    exec (.decodeCoeff m) s = .next (t.setRet k) := by
  have hdecode : decodeCoeff m s = .ok (k, t) := by rw [decodeCoeff, hsmall, ok_bind, hclass]
  unfold exec execDecodeCoeff
  exact returnCoef_ok halive hdecode

/-- What DECODE_COEFF writes: the model, the interval, the sign latch and the returned value (rule R162). -/
theorem coefWrites_eq (s : State) (m : CoefRef) (x : FreqModel m.model.size) (rd rd' : RangeDecoder) (b : Bool) (k : Int) :
    let t := ((((s.setSmall m.model x).setRd rd).setRd rd').setNeg b).setRet k
    t = { s.setSmall m.model (t.small m.model) with
          rd := t.rd, scratch := { s.scratch with neg := t.scratch.neg }, ret := t.ret } := by
  intro t
  have hmodel : t.small m.model = x := by simp [t]
  rw [hmodel]
  cases m <;> rfl

/-- Settles O31: DEC_SMALL gives the class, and what follows it is bounded by `InClass.bounds`. -/
theorem decodeCoefficient : Obligations.DecodeCoefficient := by
  intro s m h
  obtain ⟨v, x, rd, hsmall, hcan⟩ := decSmall_can h m.model
  have hv : v.val < 12 := coefModel_size m ▸ v.isLt
  obtain ⟨k, rd', b, hclass, hbound, -⟩ := coefClass_can hcan v.val (by omega)
  have hret : ((s.setSmall m.model x).setRd rd).ret = s.ret := by simp
  obtain ⟨hhigh, hmax, hlow⟩ := InClass.bounds (v := ⟨v.val, hv⟩) hbound
  refine ⟨⟨v.val, hv⟩, _, _, exec_decSmall h.alive hsmall, rfl, ?row, exec_decodeCoeff h.alive hsmall hclass,
    hhigh, hmax, hlow, coefWrites_eq s m x rd rd' b k⟩
  case row =>
    rw [setRet_setRet_of_ret_eq hret]
    exact exec_coefRow (v := ⟨v.val, hv⟩) hcan.alive hclass

end Sys2Proof.Machine
end

/-! ## O32, O33, O35, O36: the Fill, Image and Skip blocks

Each datapath is known to run to its end (`Laws/Blocks.lean`). What is added here is which operations it runs: the delta of
Fill, the row of a vector size or of a VQ class, and the two loops of Image as runs of rows. -/

section
namespace Sys2Proof.Machine

variable {s t u : State} {p : Plane}

/-! ### The rows of the four symbols -/

theorem exec_vsRow (halive : s.alive = true) (v : Fin 3) : exec (vsRow v) s = .next (setVecSize v s) := by
  have hrow : exec (vsRow v) s = live s fun s => .ok (setVecSize v s) := by
    fin_cases v <;> rfl
  rw [hrow]
  exact live_pure (setVecSize v) halive

theorem exec_vqRow_eq_live (a : Fin 5) (s : State) : exec (vqRow a) s = live s fun s => vqClass s.seq.p a s := by
  fin_cases a <;> rfl

/-- Settles O33: both are meanings that cannot fail. -/
theorem skipAndVectorSize : Obligations.SkipAndVectorSize :=
  fun s halive => ⟨live_pure id halive, fun v => ⟨setVecSize v s, exec_vsRow halive v, rfl, rfl⟩⟩

/-! ### Fill -/

/-- The wrapped sum is the sum of the words (rule R22). -/
theorem wrapI32_toInt_add (x : I32) (k : Int) : wrapI32 (x.toInt + k) = x + wrapI32 k := by
  rw [wrapI32, BitVec.ofInt_add, BitVec.ofInt_toInt, wrapI32]

/-- The low byte of a word is its signed value modulo 256 (rule R171). -/
theorem fillSample_toNat (v : I32) : ((fillSample v).toNat : Int) = v.toInt % 256 := by
  rw [fillSample, BitVec.toNat_setWidth, BitVec.toInt_eq_toNat_cond]
  split <;> omega

theorem writeSquare_eq_ok {r0 c0 n : Nat} {v : Nat → Nat → Byte} (h : writeSquare p r0 c0 n v s = .ok t) :
    t = s.setCanvas t.canvas := by
  rw [writeSquare, writeRect] at h
  split at h
  · cases h
    rw [setCanvas_canvas]
  · cases h

/-- FILL after its delta: `fill_val` and the planes are all that it writes (rule R170). -/
theorem fillBlock_after_decodeCoeff {k : Int} (hdecode : decodeCoeff (.fill p) s = .ok (k, u))
    (hfill : fillBlock p s = .ok t) :
    t = (u.setCoder p { u.coder p with fill := (t.coder p).fill }).setCanvas t.canvas := by
  rw [fillBlock, hdecode, ok_bind] at hfill
  have hwrite := writeSquare_eq_ok hfill
  generalize t.canvas = m at hwrite
  rw [hwrite, setFillVal, setCanvas_coder, setCoder_coder_same]

theorem exec_decodeCoeff_of_ok {m : CoefRef} {k : Int} (halive : s.alive = true) (h : decodeCoeff m s = .ok (k, t)) :
    exec (.decodeCoeff m) s = .next (t.setRet k) := by
  unfold exec execDecodeCoeff
  exact returnCoef_ok halive h

/-- Settles O32: `fillBlock_ready` gives the samples and the frame, `fillBlock_after_decodeCoeff` the state. -/
theorem fillBlock_spec : Obligations.FillBlock := by
  intro s h hcanonical hfits
  obtain ⟨k, u, t, hdecode, -, hfill, hblock, hval, -, -, hcoef, -, hsamples⟩ :=
    fillBlock_ready ⟨h, hcanonical⟩ s.seq.p hfits
  have hframed := fillBlock_after_decodeCoeff hdecode hfill
  have hret : u.ret = s.ret := calc
    u.ret = t.ret := by rw [hframed, setCanvas_ret, setCoder_ret]
    _ = s.ret := hblock.steady.ret
  refine ⟨u.setRet k, t, exec_decodeCoeff_of_ok h.alive hdecode, live_ok h.alive hfill, ?value, ?framed, hcoef, ?samples,
    hblock.steady, hblock.only, hblock.writes⟩
  case value => rw [hval, setRet_ret, wrapI32_toInt_add]
  case framed =>
    rw [setRet_setRet_of_ret_eq hret]
    exact hframed
  case samples =>
    intro r c hr hc
    rw [hsamples r c hr hc, hval]
    exact fillSample_toNat _

/-! ### VQ classes -/

/-- One sample written reads back, and no other address is written (rule R79). -/
theorem writeSample_inside {r c : Nat} (hcanonical : s.Canonical) (hin : r < s.planeH p ∧ c < s.planeW p) (v : Byte) :
    ∃ t, writeSample p r c v s = .ok t ∧ t = s.setCanvas t.canvas ∧ t.sample p r c = v ∧ s.WritesIn p r c 1 1 t := by
  refine ⟨_, writeSample_of_inside hin v, by rw [setCanvas_canvas], ?sample, ?others⟩
  case sample =>
    rw [State.sample, setCanvas_canvas]
    exact read_write_same _ _ _ (canvas_wf hcanonical)
  case others =>
    intro a ha
    rw [setCanvas_canvas]
    exact read_write_ne _ _ fun e => ha ⟨0, 0, Nat.one_pos, Nat.one_pos, e⟩

theorem imagePixel_of_lt {a : Fin 5} (ha : a.val < s.vqLimit) :
    imagePixel p a s = writeSample p ((s.origin p).1 + s.seq.j.val) ((s.origin p).2 + s.seq.i.val)
      (s.scratch.img.vec[a.val]'(Nat.lt_of_lt_of_le ha (vqLimit_le s))) s :=
  dif_pos ha

theorem imagePixel_of_ge {a : Fin 5} (ha : s.vqLimit ≤ a.val) : imagePixel p a s = escLiteral p s :=
  dif_neg (Nat.not_lt.mpr ha)

/-- Class `a` as the left class and the lookback entry of the current column (rule R174). -/
def State.withClass (s : State) (a : Fin 5) : State :=
  s.setImg { s.scratch.img with a := a, prevLine := s.scratch.img.prevLine.set s.seq.i a }

theorem State.Canonical.withClass (h : s.Canonical) (a : Fin 5) : (s.withClass a).Canonical :=
  ⟨h.ref, h.work, h.hist⟩

theorem exec_vqRow_of_lt {a : Fin 5} (halive : s.alive = true) (ha : a.val < s.vqLimit)
    (h : writeSample s.seq.p ((s.origin s.seq.p).1 + s.seq.j.val) ((s.origin s.seq.p).2 + s.seq.i.val)
      (s.scratch.img.vec[a.val]'(Nat.lt_of_lt_of_le ha (vqLimit_le s))) (s.withClass a) = .ok t) :
    exec (vqRow a) s = .next t := by
  rw [exec_vqRow_eq_live]
  exact live_ok halive ((imagePixel_of_lt (s := s.withClass a) ha).trans h)

/-- A class from the limit on is followed by the row of the escape literal (rule R175). -/
theorem exec_vqRow_of_ge {a : Fin 5} (ha : s.vqLimit ≤ a.val) :
    exec (vqRow a) s = exec .escLiteral (s.withClass a) := by
  have hpixel : vqClass s.seq.p a s = escLiteral s.seq.p (s.withClass a) := imagePixel_of_ge (s := s.withClass a) ha
  rw [exec_vqRow_eq_live, live, hpixel]
  rfl

/-- Settles O35: below the limit one sample is written, from it on `escLiteral_inside` completes. -/
theorem vqClassToSample : Obligations.VqClassToSample := by
  intro s a h hcanonical hrow hcol x limit
  have hlimit : limit = s.vqLimit := rfl
  have hmax := vqLimit_le s
  split
  case isTrue hlt =>
    obtain ⟨t, hwrite, hrest⟩ :=
      writeSample_inside (hcanonical.withClass a) ⟨hrow, hcol⟩ (s.scratch.img.vec[a.val]'hlt.2)
    exact ⟨t, exec_vqRow_of_lt h.alive hlt.1 hwrite, hrest⟩
  case isFalse hge =>
    have hge : s.vqLimit ≤ a.val := by omega
    have hcan : (s.withClass a).CanDecode := h.of_eqs rfl rfl rfl rfl
    obtain ⟨_, _, t, -, -, hesc, -⟩ := escLiteral_inside hcan (hcanonical.withClass a) rfl rfl hrow hcol
    exact ⟨hge, t, hesc, (exec_vqRow_of_ge hge).trans hesc⟩

/-! ### Image: the loops as runs of rows -/

/-- The current block of plane `p` can be decoded into. -/
structure State.AtBlock (s : State) (p : Plane) : Prop where
  ready : s.Ready
  fits : s.BlockFits p
  plane : s.seq.p = p

theorem State.AtBlock.blockTo {x : Part} (h : s.AtBlock p) (k : s.BlockTo p x t) : t.AtBlock p :=
  ⟨k.ready, (k.steady.blockFits p).mpr h.fits, k.steady.plane.trans h.plane⟩

/-- A palette entry runs the row of its index, and keeps the vector size (rule R173). -/
theorem palEntry_row (h : s.AtBlock p) (k : Nat) : ∃ t, palEntry p (Fin.ofNat 4 k) s = .ok t ∧
    exec (.palEntry (BitVec.ofNat 2 k)) s = .next t ∧ s.BlockTo p .image t ∧
    t.scratch.img.vs = s.scratch.img.vs := by
  obtain ⟨_, u, t, -, hentry, hblock, ht, hd⟩ := palEntry_ready h.ready p (Fin.ofNat 4 k)
  have hkeeps : t.scratch.img.vs = s.scratch.img.vs := by rw [ht, setImg_scratch, hd.scratch]
  refine ⟨t, hentry, ?row, hblock, hkeeps⟩
  case row =>
    unfold exec execPalEntry
    exact live_ok h.ready.alive (by rw [h.plane]; exact hentry)

/-- The palette loop is a run of palette entries (rule R173). -/
theorem palEntries_run (h : s.AtBlock p) (n : Nat) :
    ∃ t, forRange n (fun k s => palEntry p (Fin.ofNat 4 k) s) s = .ok t ∧ PaletteRun n 0 s t ∧ s.BlockTo p .image t ∧
      t.scratch.img.vs = s.scratch.img.vs := by
  obtain ⟨t, hloop, hblock, hvs, hrun⟩ := forRange_ok
    (fun k t => s.BlockTo p .image t ∧ t.scratch.img.vs = s.scratch.img.vs ∧
      ∀ w, PaletteRun n k t w → PaletteRun n 0 s w)
    (fun k s => palEntry p (Fin.ofNat 4 k) s) n s
    (fun k t hk ht => by
      obtain ⟨hblock, hvs, hrun⟩ := ht
      obtain ⟨u, hentry, hrow, hblock', hvs'⟩ := palEntry_row (h.blockTo hblock) k
      exact ⟨u, hentry, hblock.trans hblock', hvs'.trans hvs, fun w hw => hrun w (.entry hk hrow hw)⟩)
    ⟨.refl h.ready p .image, rfl, fun _ => id⟩
  exact ⟨t, hloop, hrun t (.done t), hblock, hvs⟩

/-- The header is the vector-size symbol, its row and the palette entries, before the clear (rule R173). -/
theorem imageHeader_run (h : s.AtBlock p) : ∃ (v : Fin 3) (u w : State), decSmall (.vs p) s = .ok (v, u) ∧
    u.ret = s.ret ∧ u.alive = true ∧ PaletteRun (v.val + 2) 0 (setVecSize v u) w ∧
    imageHeader p s = .ok (clearImage w) ∧ s.BlockTo p .image w ∧ w.scratch.img.vs = v := by
  obtain ⟨v, u, hsize, hd, -⟩ := decSmall_ready h.ready (.vs p)
  have hd : s.Decodes p .image u := hd
  have hblock : s.BlockTo p .image (setVecSize v u) := hd.blockTo.trans (.setImg hd.ready _ p .image)
  obtain ⟨w, hloop, hrun, hblock', hvs⟩ := palEntries_run (h.blockTo hblock) (vecSize v)
  have hheader : imageHeader p s = .ok (clearImage w) := by rw [imageHeader, hsize, ok_bind, hloop, ok_map]
  exact ⟨v, u, w, hsize, hd.steady.ret, hd.ready.alive, hrun, hheader, hblock.trans hblock', hvs⟩

/-- The entries from the vector size on, and the lookback buffer, are cleared (rule R173). -/
theorem clearImage_eq {v : Fin 3} (hvs : s.scratch.img.vs = v) : clearImage s = s.setImg { s.scratch.img with
    vec := Vector.ofFn fun k => if k.val < v.val + 2 then s.scratch.img.vec[k] else 0
    prevLine := Vector.replicate 16 0 } := by
  subst hvs
  rfl

/-- The state a row's loop has before column `c`: at column 0 the left and the corner class are 0 (rule R174). -/
def State.beforePixel (s : State) (c : Nat) : State :=
  s.setImg { s.scratch.img with a := s.leftClass c, b := s.cornerClass c }

theorem beforePixel_of_pos {c : Nat} (hc : 0 < c) (s : State) : s.beforePixel c = s := by
  rw [State.beforePixel, State.leftClass, State.cornerClass, if_neg hc.ne', if_neg hc.ne']
  rfl

/-- One round of a row's loop decodes the class with the model of its context (rule R174). -/
theorem imageStep_beforePixel (p : Plane) (r c : Nat) (s : State) : imageStep p r c (s.beforePixel c) =
    (decSmall (.vq p (vqContext (s.leftClass c) (s.aboveClass c) (s.cornerClass c))) (s.atPixel r c)).bind
      fun x => vqClass p x.1 x.2 :=
  rfl

theorem atPixel_blockTo (h : s.Ready) (p : Plane) (r c : Nat) : s.BlockTo p .image (s.atPixel r c) :=
  have hseq : s.BlockTo p .image (s.setSeq { s.seq with j := Fin.ofNat 16 r, i := Fin.ofNat 16 c }) :=
    .setSeq h _ (by rfl) (by rfl) (by rfl) p .image
  hseq.trans (.setImg hseq.ready _ p .image)

theorem atPixel_pixelIn {r c : Nat} (hr : r < p.bs) (hc : c < p.bs) (s : State) : (s.atPixel r c).PixelIn p :=
  ⟨(Nat.mod_le r 16).trans_lt hr, (Nat.mod_le c 16).trans_lt hc⟩

/-- One round of a row's loop is one pixel of the run: the class is decoded, then its row is run (rule R174). -/
theorem imageStep_run (h : s.AtBlock p) {r c : Nat} (hr : r < p.bs) (hc : c < p.bs) :
    ∃ t, imageStep p r c (s.beforePixel c) = .ok t ∧ s.BlockTo p .image t ∧
      ∀ w, PixelRun p r (c + 1) t w → PixelRun p r c s w := by
  have hat := atPixel_blockTo h.ready p r c
  let x := vqContext (s.leftClass c) (s.aboveClass c) (s.cornerClass c)
  obtain ⟨v, u, hclass, hd, -⟩ := decSmall_ready hat.ready (.vq p x)
  have hd : (s.atPixel r c).Decodes p .image u := hd
  have hblock : s.BlockTo p .image u := hat.trans hd.blockTo
  have hu := h.blockTo hblock
  have hin : u.PixelIn p := by
    rw [State.PixelIn, hd.seq]
    exact atPixel_pixelIn hr hc s
  obtain ⟨t, hsample, hblock', -⟩ := vqClass_ready hu.ready p hu.fits hin v
  have hstep : imageStep p r c (s.beforePixel c) = .ok t := by rw [imageStep_beforePixel, hclass, ok_bind, hsample]
  have hrow : exec (vqRow v) ((u.setRet v.val).setRet s.ret) = .next t := by
    rw [setRet_setRet_of_ret_eq hblock.steady.ret, exec_vqRow_eq_live]
    exact live_ok hu.ready.alive (by rw [hu.plane, hsample])
  exact ⟨t, hstep, hblock.trans hblock', fun w =>
    .pixel x v hr hc rfl (exec_decSmall hat.ready.alive hclass) rfl hrow⟩

/-- One row of the scan is a run of its pixels from column 0 on (rule R174). -/
theorem imageRow_run (h : s.AtBlock p) {r : Nat} (hr : r < p.bs) :
    ∃ t, imageRow p r s = .ok t ∧ s.BlockTo p .image t ∧ ∀ w, PixelRun p r p.bs t w → PixelRun p r 0 s w := by
  obtain ⟨_, hloop, t, rfl, hblock, hrun⟩ := forRange_ok
    (fun c y => ∃ t : State, y = t.beforePixel c ∧ s.BlockTo p .image t ∧
      ∀ w, PixelRun p r c t w → PixelRun p r 0 s w)
    (imageStep p r) p.bs (s.beforePixel 0)
    (fun c y hc hy => by
      obtain ⟨t, rfl, hblock, hrun⟩ := hy
      obtain ⟨u, hstep, hblock', hrun'⟩ := imageStep_run (h.blockTo hblock) hr hc
      exact ⟨u, hstep, u, (beforePixel_of_pos c.succ_pos u).symm, hblock.trans hblock',
        fun w hw => hrun w (hrun' w hw)⟩)
    ⟨s, rfl, .refl h.ready p .image, fun _ => id⟩
  rw [beforePixel_of_pos (Nat.zero_lt_of_lt hr)] at hloop
  exact ⟨t, hloop, hblock, hrun⟩

/-- The scan is a run of its rows (rule R174). -/
theorem imageRows_run (h : s.AtBlock p) :
    ∃ t, forRange p.bs (imageRow p) s = .ok t ∧ s.BlockTo p .image t ∧ PixelRun p 0 0 s t := by
  obtain ⟨t, hloop, hblock, hrun⟩ := forRange_ok
    (fun r t => s.BlockTo p .image t ∧ ∀ w, PixelRun p r 0 t w → PixelRun p 0 0 s w)
    (imageRow p) p.bs s
    (fun r t hr ht => by
      obtain ⟨hblock, hrun⟩ := ht
      obtain ⟨u, hrow, hblock', hrun'⟩ := imageRow_run (h.blockTo hblock) hr
      exact ⟨u, hrow, hblock.trans hblock', fun w hw => hrun w (hrun' w (.row hr hw))⟩)
    ⟨.refl h.ready p .image, fun _ => id⟩
  exact ⟨t, hloop, hblock, hrun t (.done t)⟩

/-- Settles O36: the header up to the clear, then the scan. -/
theorem imageBlock_spec : Obligations.ImageBlock := by
  intro s h hcanonical hfits
  have hs : s.AtBlock s.seq.p := ⟨⟨h, hcanonical⟩, hfits, rfl⟩
  obtain ⟨v, u, w, hsize, hret, halive, hpalette, hheader, hblock, hvs⟩ := imageHeader_run hs
  have hclear : s.BlockTo s.seq.p .image (clearImage w) := hblock.trans (.setImg hblock.ready _ _ _)
  obtain ⟨t, hscan, hblock', hrun⟩ := imageRows_run (hs.blockTo hclear)
  obtain ⟨-, hsteady, honly, hwrites⟩ := hclear.trans hblock'
  have himage : imageBlock s.seq.p s = .ok t := by rw [imageBlock, hheader, ok_bind, hscan]
  refine ⟨v, u.setRet v.val, setVecSize v u, w, t, exec_decSmall h.alive hsize, rfl, ?row, hpalette, ?scan,
    live_ok h.alive himage, hsteady, honly, hwrites⟩
  case row =>
    rw [setRet_setRet_of_ret_eq hret]
    exact exec_vsRow halive v
  case scan => rwa [clearImage_eq hvs] at hrun

end Sys2Proof.Machine
end

/-! ## O37, O38, O40: the zigzag table, DC prediction and DC storage

Every access to the DC history is inside it or a fault, so each operation has one equation per case, and an obligation reads
its clauses off them. -/

section
namespace Sys2Proof.Machine

variable {s t : State} {p : Plane}

/-! ### The zigzag table -/

theorem map_zigzag_finRange : (List.finRange 64).map (fun k => (zigzag k).val) = zigzagList := by
  decide

theorem zigzag_injective : Function.Injective zigzag := by
  intro i j h
  have hnodup : ((List.finRange 64).map fun k => (zigzag k).val).Nodup := by
    rw [map_zigzag_finRange]
    decide
  exact List.inj_on_of_nodup_map hnodup (List.mem_finRange i) (List.mem_finRange j) (congrArg Fin.val h)

/-- Settles O40: the tabulated list has no repetition, so the table is injective, and on a finite type then onto. -/
theorem zigzagTable : Obligations.ZigzagTable :=
  ⟨map_zigzag_finRange, fun _ _ h => zigzag_injective h, Finite.surjective_of_injective zigzag_injective, rfl, rfl⟩

/-! ### MINGRAD -/

theorem minGrad_top (l t tl : I32) :
    minGrad .top l t tl = if |t.toInt - tl.toInt| ≤ |l.toInt - tl.toInt| then t else l := by
  simp only [minGrad, Int.abs_eq_natAbs, Int.ofNat_le]

theorem minGrad_left (l t tl : I32) :
    minGrad .left l t tl = if |t.toInt - tl.toInt| ≤ |l.toInt - tl.toInt| then l else t := by
  simp only [minGrad, Int.abs_eq_natAbs, Int.ofNat_le]

theorem exec_mingrad (halive : s.alive = true) (l t tl : I32) :
    exec (.mingrad l t tl) s = .next (s.setRet (minGrad s.params.profile.dcTie l t tl).toInt) := by
  unfold exec execMingrad
  exact live_pure (fun s => s.setRet (minGrad s.params.profile.dcTie l t tl).toInt) halive

/-! ### DC_PREDICT -/

theorem histRead_inside {x y : Nat} (h : x < s.histW p ∧ y < s.histH p) : histRead p x y s = .ok (s.dch p x y) :=
  if_pos h

theorem histRead_outside {x y : Nat} (h : ¬ (x < s.histW p ∧ y < s.histH p)) :
    histRead p x y s = .error .historyIndex :=
  if_neg h

/-- The three neighbours lie inside the history just when the position itself does (rule R195). -/
theorem dcPredict_interior {x y : Nat} (hx : 0 < x) (hy : 0 < y) : dcPredict p x y s =
    if x < s.histW p ∧ y < s.histH p then
      .ok (minGrad s.params.profile.dcTie (s.dch p (x - 1) y) (s.dch p x (y - 1)) (s.dch p (x - 1) (y - 1)))
    else .error .historyIndex := by
  rw [dcPredict, if_pos ⟨hy, hx⟩]
  split
  case isTrue hin =>
    rw [histRead_inside (by omega), ok_bind, histRead_inside (by omega), ok_bind, histRead_inside (by omega), ok_map]
  case isFalse hout =>
    by_cases hleft : x - 1 < s.histW p ∧ y < s.histH p
    · rw [histRead_inside hleft, ok_bind, histRead_outside (by omega)]
      rfl
    · rw [histRead_outside hleft]
      rfl

theorem dcPredict_leftColumn {x y : Nat} (hx : ¬ 0 < x) (hy : 0 < y) : dcPredict p x y s =
    if 0 < s.histW p ∧ y ≤ s.histH p then .ok (s.dch p 0 (y - 1)) else .error .historyIndex := by
  obtain rfl : x = 0 := by omega
  rw [dcPredict, if_neg fun h => hx h.2, if_pos hy]
  split
  case isTrue hin => exact histRead_inside (by omega)
  case isFalse hout => exact histRead_outside (by omega)

theorem dcPredict_topRow {x y : Nat} (hx : 0 < x) (hy : ¬ 0 < y) : dcPredict p x y s =
    if x ≤ s.histW p ∧ 0 < s.histH p then .ok (s.dch p (x - 1) 0) else .error .historyIndex := by
  obtain rfl : y = 0 := by omega
  rw [dcPredict, if_neg fun h => hy h.1, if_neg hy, if_pos hx]
  split
  case isTrue hin => exact histRead_inside (by omega)
  case isFalse hout => exact histRead_outside (by omega)

theorem dcPredict_origin {x y : Nat} (hx : ¬ 0 < x) (hy : ¬ 0 < y) : dcPredict p x y s = .ok 0 := by
  rw [dcPredict, if_neg fun h => hy h.1, if_neg hy, if_neg hx]

theorem exec_dcPredict {bx dy : U16} {v : I32} (halive : s.alive = true)
    (h : dcPredict p bx.toNat dy.toNat s = .ok v) : exec (.dcPredict p bx dy) s = .next (s.setRet v.toInt) := by
  unfold exec execDcPredict
  exact live_ok halive (by rw [h, ok_map])

theorem exec_dcPredict_of_ite {bx dy : U16} {c : Prop} [Decidable c] {v : I32} {e : Fault} (halive : s.alive = true)
    (h : dcPredict p bx.toNat dy.toNat s = if c then .ok v else .error e) :
    exec (.dcPredict p bx dy) s = if c then .next (s.setRet v.toInt) else .fault e := by
  split
  case isTrue hc => exact exec_dcPredict halive (h.trans (if_pos hc))
  case isFalse hc =>
    unfold exec execDcPredict
    exact live_error halive (by rw [h, if_neg hc]; rfl)

/-- Settles O37: MINGRAD by its tie rule, DC_PREDICT by which of the two coordinates are positive. -/
theorem dcPrediction : Obligations.DcPrediction := by
  intro s halive
  refine ⟨fun l t tl => ?mingrad, ?predict⟩
  case mingrad =>
    rw [exec_mingrad halive]
    cases s.params.profile.dcTie with
    | top => rw [minGrad_top, apply_ite BitVec.toInt]
    | left => rw [minGrad_left, apply_ite BitVec.toInt]
  case predict =>
    intro p bx dy x y
    by_cases hy : 0 < y <;> by_cases hx : 0 < x
    · rw [if_pos ⟨hy, hx⟩, exec_mingrad halive]
      exact exec_dcPredict_of_ite halive (dcPredict_interior hx hy)
    · rw [if_neg fun h => hx h.2, if_pos hy]
      exact exec_dcPredict_of_ite halive (dcPredict_leftColumn hx hy)
    · rw [if_neg fun h => hy h.1, if_neg hy, if_pos hx]
      exact exec_dcPredict_of_ite halive (dcPredict_topRow hx hy)
    · rw [if_neg fun h => hy h.1, if_neg hy, if_neg hx]
      exact exec_dcPredict halive (dcPredict_origin hx hy)

/-! ### DC_STORE -/

/-- The history of plane `p` replaced (rule R41). -/
def State.setHist (s : State) (p : Plane) (m : Store 32) : State :=
  s.setCoder p { s.coder p with dct := { (s.coder p).dct with hist := m } }

@[simp] theorem setHist_hist (s : State) (p : Plane) (m : Store 32) : ((s.setHist p m).coder p).dct.hist = m := by
  rw [State.setHist, setCoder_coder_same]

@[simp] theorem setHist_qmat (s : State) (p : Plane) (m : Store 32) :
    ((s.setHist p m).coder p).dct.qmat = (s.coder p).dct.qmat := by
  rw [State.setHist, setCoder_coder_same]

theorem histWrite_inside {x y : Nat} (h : x < s.histW p ∧ y < s.histH p) (v : I32) :
    histWrite p x y v s = .ok (s.setHist p ((s.coder p).dct.hist.write (histAddr x y) v)) :=
  if_pos h

theorem histWrite_outside {x y : Nat} (h : ¬ (x < s.histW p ∧ y < s.histH p)) (v : I32) :
    histWrite p x y v s = .error .historyIndex :=
  if_neg h

theorem dcStore_inside {x y : Nat} (h : x < s.histW p ∧ y < s.histH p) (delta : Int) (pred : I32) :
    dcStore p x y delta pred s = .ok
      ((s.setHist p ((s.coder p).dct.hist.write (histAddr x y) (wrapI32 (delta + pred.toInt)))).setDctBlk
        (s.scratch.dctBlk.set 0
          (wrapI32 ((wrapI32 (delta + pred.toInt)).toInt * ((s.coder p).dct.qmat[0].toNat : Int))))) := by
  rw [dcStore, histWrite_inside h, ok_map, setDc, setHist_qmat]
  rfl

theorem dcStore_outside {x y : Nat} (h : ¬ (x < s.histW p ∧ y < s.histH p)) (delta : Int) (pred : I32) :
    dcStore p x y delta pred s = .error .historyIndex := by
  rw [dcStore, histWrite_outside h]
  rfl

theorem histW_lt (s : State) (p : Plane) : s.histW p < 65536 := by
  have := s.params.frameW.isLt
  cases p <;> simp only [State.histW] <;> omega

theorem histH_lt (s : State) (p : Plane) : s.histH p < 65536 := by
  have := s.params.frameH.isLt
  cases p <;> simp only [State.histH] <;> omega

theorem exec_dcStore {bx dy : U16} {delta pred : I32} (halive : s.alive = true)
    (h : dcStore p bx.toNat dy.toNat delta.toInt pred s = .ok t) : exec (.dcStore p bx dy delta pred) s = .next t := by
  unfold exec execDcStore
  exact live_ok halive h

/-- Settles O38: one cell of the history and one coefficient are written, and the cell reads back. -/
theorem dcStore_spec : Obligations.DcStore := by
  intro s p bx dy delta pred halive hcanonical
  refine ⟨fun hout => ?outside, fun hx hy => ?inside⟩
  case outside =>
    unfold exec execDcStore
    exact live_error halive (dcStore_outside hout _ _)
  case inside =>
    refine ⟨_, exec_dcStore halive (dcStore_inside ⟨hx, hy⟩ _ _), ?entry, fun x y hx' hne => ?others, rfl, ?canonical, ?frame⟩
    case entry =>
      rw [State.dch, setDctBlk_coder, setHist_hist]
      exact read_write_same _ _ _ (hcanonical.hist p)
    case others =>
      have haddr : histAddr x y ≠ histAddr bx.toNat dy.toNat := by
        intro h
        have := histAddr_inj hx' bx.isLt h
        omega
      rw [State.dch, setDctBlk_coder, setHist_hist]
      exact read_write_ne _ _ haddr
    case canonical =>
      rw [setDctBlk_coder, setHist_hist]
      exact write_wf _ _ _ (hcanonical.hist p)
    case frame =>
      rw [setDctBlk_coder, setHist_hist]
      rfl

end Sys2Proof.Machine
end

/-! ## O39, O41, O42: the AC scan

AC_LEVEL is run once on its two symbols; everything else about the scan goes through what it writes. A token of the loop is
the row it selects, so the loop is a run of rows. -/

section
namespace Sys2Proof.Machine

variable {s t u : State} {p : Plane}

/-! ### AC_SIGN and AC_EXTRA -/

/-- AC_SIGN is DEC_BIN of the sign model, read as a sign (rules R101, R201). -/
theorem acSign_can (h : s.CanDecode) (p : Plane) : ∃ b x rd,
    decBin (.sign p) s = .ok (b, (s.setBin (.sign p) x).setRd rd) ∧
    acSign p s = .ok (signed (s.isNegative b) 1, ((s.setBin (.sign p) x).setRd rd).setNeg (s.isNegative b)) ∧
    (((s.setBin (.sign p) x).setRd rd).setNeg (s.isNegative b)).CanDecode := by
  obtain ⟨b, x, rd, hbin, hcan⟩ := decBin_can h (.sign p)
  have hneg : ((s.setBin (.sign p) x).setRd rd).isNegative b = s.isNegative b := by
    rw [State.isNegative, setRd_params, setBin_params, State.isNegative]
  exact ⟨b, x, rd, hbin, by rw [acSign, hbin, ok_map, hneg], hcan.setNeg _⟩

theorem exec_acSign {k : Int} (halive : s.alive = true) (h : acSign s.seq.p s = .ok (k, t)) :
    exec .acSign s = .next (t.setRet k) := by
  unfold exec execAcSign
  exact returnCoef_ok halive h

theorem acSign_after_decBin (h : s.CanDecode) : ∃ u, exec (.decBin (.sign s.seq.p)) s = .next u ∧
    let neg := decide (u.ret = 1) == s.params.profile.signNeg.bit
    exec .acSign s = .next ((u.setNeg neg).setRet (if neg then -1 else 1)) := by
  obtain ⟨b, x, rd, hbin, hsign, -⟩ := acSign_can h s.seq.p
  exact ⟨_, exec_decBin h.alive hbin, (exec_acSign h.alive hsign).trans (by cases b <;> rfl)⟩

theorem exec_acExtra_eq_coefExtra (n : BitVec 4) (s : State) : exec (.acExtra n) s = exec (.coefExtra n) s :=
  rfl

/-! ### AC_LEVEL -/

/-- The value of a level: the sign alone for class 1, the sign and the extra bits above (rule R201). -/
theorem acValue_can (h : s.CanDecode) (p : Plane) {c : Nat} (hc : c ≤ 15) : ∃ b u,
    decBin (.sign p) s = .ok (b, u) ∧ u.ret = s.ret ∧ u.alive = true ∧
    (c ≤ 1 → acValue p c s = .ok (signed (s.isNegative b) 1, u.setNeg (s.isNegative b))) ∧
    (1 < c → ∃ e t, getBits (c - 1) (u.setNeg (s.isNegative b)) = .ok (e, t) ∧ t.ret = s.ret ∧
      acValue p c s = .ok (signed (s.isNegative b) (2 ^ (c - 1) + e), t)) := by
  obtain ⟨b, x, rd, hbin, hsign, hcan⟩ := acSign_can h p
  refine ⟨b, _, hbin, rfl, hcan.alive, fun hone => ?_, fun hmore => ?_⟩
  · rw [acValue, hsign, ok_bind, if_neg (by omega)]
  · obtain ⟨e, rd', hbits, -, hextra, -⟩ := coefExtra_can hcan (c - 1) (by omega)
    exact ⟨e, _, hbits, rfl, by rw [acValue, hsign, ok_bind, if_pos hmore, acExtra_eq, hextra]; rfl⟩

/-- Decoding a level's value writes the sign model, the interval and the sign latch (rule R201). -/
theorem acValue_writes {c : Nat} {k : Int} (h : acValue p c s = .ok (k, t)) :
    ∃ x rd b, t = ((s.setBin (.sign p) x).setRd rd).setNeg b := by
  obtain ⟨⟨k', v⟩, hsign, hrest⟩ := bind_eq_ok h
  obtain ⟨y, hbin, hy⟩ := map_eq_ok hsign
  obtain ⟨z, -, rfl⟩ := map_eq_ok hbin
  cases hy
  split at hrest
  · obtain ⟨r, hbits, hr⟩ := map_eq_ok hrest
    obtain ⟨w, -, rfl⟩ := map_eq_ok hbits
    cases hr
    exact ⟨_, w.2, _, rfl⟩
  · cases hrest
    exact ⟨_, _, _, rfl⟩

theorem acLevel_of_acValue {pos c : Nat} {k : Int} (hpos : pos < 64) (h : acValue p c s = .ok (k, t)) :
    acLevel p pos c s = .ok (t.setDctBlk (s.scratch.dctBlk.set (zigzag ⟨pos, hpos⟩)
      (wrapI32 (k * ((s.coder p).dct.qmat[s.quantIndex ⟨pos, hpos⟩].toNat : Int))))) := by
  obtain ⟨x, rd, b, rfl⟩ := acValue_writes h
  rw [acLevel, dif_pos hpos, h, ok_map]
  simp [State.quantIndex]

theorem acLevel_writes {pos c : Nat} (h : acLevel p pos c s = .ok t) :
    ∃ x rd b blk, t = (((s.setBin (.sign p) x).setRd rd).setNeg b).setDctBlk blk := by
  unfold acLevel at h
  split at h
  · obtain ⟨⟨k, w⟩, hvalue, rfl⟩ := map_eq_ok h
    obtain ⟨x, rd, b, rfl⟩ := acValue_writes hvalue
    exact ⟨x, rd, b, _, rfl⟩
  · cases h

theorem exec_acLevel {pos : BitVec 6} {c : BitVec 4} (halive : s.alive = true)
    (h : acLevel p pos.toNat c.toNat s = .ok t) : exec (.acLevel p pos c) s = .next t := by
  unfold exec execAcLevel
  exact live_ok halive h

/-- Settles O39: AC_LEVEL stores the value that `acValue_can` decodes with the two symbols. -/
theorem acLevel_spec : Obligations.AcLevel := by
  intro s h
  refine ⟨acSign_after_decBin h, fun n _ hn => ?extra, fun p pos c hc => ?level⟩
  case extra =>
    rw [exec_acExtra_eq_coefExtra]
    exact coefExtra_after_getBits h n hn
  case level =>
    obtain ⟨b, u, hbin, hret, halive, hone, hmore⟩ := acValue_can h p (c := c.toNat) (by omega)
    have hneg : (decide ((if b then (1 : Int) else 0) = 1) == s.params.profile.signNeg.bit) = s.isNegative b := by
      cases b <;> rfl
    have hput (v : Int) : ((u.setRet v).setNeg (s.isNegative b)).setRet s.ret = u.setNeg (s.isNegative b) :=
      setRet_setRet_of_ret_eq (t := u.setNeg (s.isNegative b)) hret v
    by_cases hclass : c.toNat = 1
    · refine ⟨_, u.setNeg (s.isNegative b), 1, exec_decBin h.alive hbin, ?_⟩
      rw [setRet_ret, hneg]
      dsimp only
      rw [if_pos hclass, hput]
      exact ⟨⟨rfl, rfl⟩, exec_acLevel h.alive (acLevel_of_acValue pos.isLt (hone hclass.le))⟩
    · obtain ⟨e, t, hbits, hret', hvalue⟩ := hmore (by omega)
      have hwidth : (BitVec.ofNat 4 (c.toNat - 1)).toNat = c.toNat - 1 := Nat.mod_eq_of_lt (by omega)
      refine ⟨_, t, 2 ^ (c.toNat - 1) + e, exec_decBin h.alive hbin, ?_⟩
      rw [setRet_ret, hneg]
      dsimp only
      rw [if_neg hclass, hput]
      exact ⟨⟨_, e, exec_getBits halive (by rwa [hwidth]), rfl, rfl, (setRet_setRet_of_ret_eq hret' _).symm⟩,
        exec_acLevel h.alive (acLevel_of_acValue pos.isLt hvalue)⟩

/-! ### The token rows -/

theorem acRl_overrun {r c : Nat} (h : 64 ≤ s.seq.pos + r) :
    acRl p r c s = .ok ((s.setPos (s.seq.pos + r)).setScan .malformed) :=
  if_pos h

/-- Below 64 a level is decoded, and the position moves past it (rules R201, R203). -/
theorem acRl_of_acLevel {r c : Nat} (hpos : s.seq.pos + r < 64)
    (h : acLevel p (s.seq.pos + r) c (s.setPos (s.seq.pos + r)) = .ok t) :
    acRl p r c s = .ok ((t.setPos (s.seq.pos + r + 1)).setScan (scanAt (s.seq.pos + r + 1))) := by
  obtain ⟨x, rd, b, blk, rfl⟩ := acLevel_writes h
  unfold acRl
  dsimp only
  rw [setPos_seq, if_neg (Nat.not_le.mpr hpos), h, ok_map]
  rfl

theorem scanAt_succ {k : Nat} (h : k < 64) : scanAt (k + 1) = if k + 1 < 64 then .running else .ok := by
  rw [scanAt]
  split
  · rfl
  · exact if_pos (by omega)

theorem flagMalformed_of_ne (h : s.scratch.scan ≠ .malformed) : flagMalformed s = s := by
  unfold flagMalformed
  split
  · contradiction
  · rfl

theorem exec_illegalRow_eq_live (k : Fin 14) (s : State) :
    exec (illegalRow k) s = live s fun s => .ok (flagMalformed (acIllegal s)) := by
  fin_cases k <;> rfl

theorem exec_runLevelRow_eq_live (r : BitVec 4) (k : Fin 15) (s : State) :
    exec (runLevelRow r k) s = live s fun s => (acRl s.seq.p r.toNat (k.val + 1) s).map flagMalformed := by
  fin_cases k <;> rfl

theorem exec_runLevelRow {r : BitVec 4} {k : Fin 15} (halive : s.alive = true)
    (h : acRl s.seq.p r.toNat (k.val + 1) s = .ok t) : exec (runLevelRow r k) s = .next (flagMalformed t) := by
  rw [exec_runLevelRow_eq_live]
  exact live_map_ok halive h

theorem acLevel_can (h : s.CanDecode) (p : Plane) {pos c : Nat} (hpos : pos < 64) (hc : c ≤ 15) :
    ∃ t, acLevel p pos c s = .ok t := by
  obtain ⟨b, u, -, -, -, hone, hmore⟩ := acValue_can h p hc
  rcases Nat.lt_or_ge 1 c with hclass | hclass
  · obtain ⟨e, t, -, -, hvalue⟩ := hmore hclass
    exact ⟨_, acLevel_of_acValue hpos hvalue⟩
  · exact ⟨_, acLevel_of_acValue hpos (hone hclass)⟩

/-- AC_RL below 64 is AC_LEVEL at the position the run leads to (rule R201). -/
theorem runLevelRow_after_acLevel (h : s.CanDecode) (r : BitVec 4) (k : Fin 15) (hpos : s.seq.pos + r.toNat < 64) :
    ∃ u, exec (.acLevel s.seq.p (BitVec.ofNat 6 (s.seq.pos + r.toNat)) (BitVec.ofNat 4 (k.val + 1)))
        (s.setPos (s.seq.pos + r.toNat)) = .next u ∧
      exec (runLevelRow r k) s = .next ((u.setPos (s.seq.pos + r.toNat + 1)).setScan
        (if s.seq.pos + r.toNat + 1 < 64 then .running else .ok)) := by
  have hmoved : (s.setPos (s.seq.pos + r.toNat)).CanDecode := h.of_eqs rfl rfl rfl rfl
  obtain ⟨t, hlevel⟩ := acLevel_can hmoved s.seq.p hpos (c := k.val + 1) (by omega)
  have hwidth : (BitVec.ofNat 6 (s.seq.pos + r.toNat)).toNat = s.seq.pos + r.toNat := Nat.mod_eq_of_lt hpos
  have hclass : (BitVec.ofNat 4 (k.val + 1)).toNat = k.val + 1 := Nat.mod_eq_of_lt (by omega)
  refine ⟨t, exec_acLevel hmoved.alive (by rwa [hwidth, hclass]), ?_⟩
  rw [exec_runLevelRow h.alive (acRl_of_acLevel hpos hlevel), flagMalformed_of_ne, scanAt_succ hpos]
  rw [setScan_scratch, scanAt_succ hpos]
  split <;> simp

/-- Settles O41: a row that decodes no level is a meaning that cannot fail, and the others are `acRl_of_acLevel`. -/
theorem acTokens : Obligations.AcTokens := by
  intro s halive
  refine ⟨live_pure acEob halive, ?zrl, fun k => ?illegal, fun r k => ⟨fun hover => ?overrun, fun h hpos => ?level⟩⟩
  case zrl =>
    refine (live_pure (fun s => flagMalformed (acZrl s)) halive).trans (congrArg _ ?_)
    rw [acZrl, scanAt]
    split
    · rfl
    · split <;> rfl
  case illegal =>
    rw [exec_illegalRow_eq_live]
    exact live_pure (fun s => flagMalformed (acIllegal s)) halive
  case overrun => exact exec_runLevelRow halive (acRl_overrun hover)
  case level => exact runLevelRow_after_acLevel h r k hpos

/-! ### The AC loop -/

theorem acRl_keeps_blkErr {r c : Nat} (h : acRl p r c s = .ok t) : t.scratch.blkErr = s.scratch.blkErr := by
  unfold acRl at h
  dsimp only at h
  split at h
  · cases h
    rfl
  · obtain ⟨u, hlevel, rfl⟩ := map_eq_ok h
    obtain ⟨x, rd, b, blk, rfl⟩ := acLevel_writes hlevel
    simp

/-- A token writes the outcome of the scan, and leaves `BLK.err` to the caller (rule R205). -/
theorem acToken_keeps_blkErr {tok : Byte} (h : acToken p tok s = .ok t) : t.scratch.blkErr = s.scratch.blkErr := by
  unfold acToken at h
  split at h
  · cases h
    rfl
  split at h
  · cases h
    rfl
  split at h
  · cases h
    rfl
  exact acRl_keeps_blkErr h

/-- A token of a class other than 0 is a run and a level (rule R100). -/
theorem acToken_runLevel (r : BitVec 4) (k : Fin 15) (p : Plane) (s : State) :
    acToken p (r ++ BitVec.ofNat 4 (k.val + 1)) s = acRl p r.toNat (k.val + 1) s := by
  have hclass : tokClass (r ++ BitVec.ofNat 4 (k.val + 1)) = k.val + 1 := by
    rw [tokClass, BitVec.extractLsb'_append_eq_right]
    exact Nat.mod_eq_of_lt (by omega)
  have hrun : tokRun (r ++ BitVec.ofNat 4 (k.val + 1)) = r.toNat := by
    rw [tokRun, BitVec.extractLsb'_append_eq_left]
  have hne (v : Byte) (hv : tokClass v = 0) : r ++ BitVec.ofNat 4 (k.val + 1) ≠ v := by
    rintro rfl
    omega
  rw [acToken, if_neg (hne _ rfl), if_neg (hne _ rfl), hclass, hrun, if_neg k.val.succ_ne_zero]

/-- Every token selects a row, which runs the token and flags a malformed one (rules R100, R205). -/
theorem acToken_row (tok : Byte) : ∃ i, decode (.symbol .acToken tok) = .ok i ∧
    ∀ s, exec i s = live s fun s => (acToken s.seq.p tok s).map flagMalformed := by
  obtain rfl | rfl | ⟨k, rfl⟩ | ⟨r, k, rfl⟩ := acToken_cases tok
  · exact ⟨.acEob, rfl, fun _ => rfl⟩
  · exact ⟨.acZrl, rfl, fun _ => rfl⟩
  · refine ⟨illegalRow k, decode_symbol_of_encode (encode_illegalRow k), fun s => ?_⟩
    fin_cases k <;> rfl
  · refine ⟨runLevelRow r k, decode_symbol_of_encode (encode_runLevelRow r k), fun s => ?_⟩
    rw [exec_runLevelRow_eq_live]
    simp only [acToken_runLevel]

@[simp] theorem flagMalformed_scan (s : State) : (flagMalformed s).scratch.scan = s.scratch.scan := by
  unfold flagMalformed
  split <;> rfl

/-- BLK.err is all that flagging writes (rule R205). -/
theorem flagMalformed_restored {b : Bool} (h : s.scratch.blkErr = b) :
    (flagMalformed s).setScratch { (flagMalformed s).scratch with blkErr := b } = s := by
  subst h
  unfold flagMalformed
  split <;> rfl

/-- The AC loop is a run of rows. The last one alone can set `BLK.err`, which the loop leaves to the caller (rules R198,
R205, R206). -/
theorem acLoop_scan (h : s.Ready) (hplane : s.seq.p = p) (n : Nat) (hpos : s.seq.pos < 64) (hn : 64 ≤ s.seq.pos + n)
    (hrun : s.scratch.scan = .running) :
    ∃ m t, acLoop p n s = .ok t ∧ AcScan m s (flagMalformed t) ∧ 1 ≤ m ∧ m ≤ n ∧ t.scratch.scan ≠ .running ∧
      t.scratch.blkErr = s.scratch.blkErr := by
  induction n generalizing s with
  | zero => omega
  | succ n ih =>
    obtain ⟨v, u, hbyte, hd⟩ := decByte_ready h (.ac p)
    obtain ⟨t, htoken, hto⟩ := acToken_ready hd.ready p (BitVec.ofFin v)
    obtain ⟨i, hdecode, hrow⟩ := acToken_row (BitVec.ofFin v)
    have hplane' : u.seq.p = p := hd.steady.plane.trans hplane
    have hbyte' : exec (.decByte (.ac s.seq.p)) s = .next (u.setRet v.val) := by
      rw [hplane]
      exact exec_decByte h.alive hbyte
    have hexec : exec i ((u.setRet v.val).setRet s.ret) = .next (flagMalformed t) := by
      rw [setRet_setRet_of_ret_eq hd.steady.ret, hrow]
      exact live_map_ok hd.ready.alive (by rw [hplane', htoken])
    have herr : t.scratch.blkErr = s.scratch.blkErr := by
      rw [acToken_keeps_blkErr htoken, hd.scratch]
    have hstep {m : Nat} {w : State} (hw : AcScan m (flagMalformed t) w) : AcScan (m + 1) s w :=
      .token (BitVec.ofFin v) i hrun hbyte' rfl hdecode hexec hw
    rw [acLoop, hbyte, ok_bind, htoken, ok_bind]
    by_cases hgo : t.scratch.scan = .running
    · obtain ⟨hmove, hlt⟩ := hto.moves hgo
      rw [hd.seq] at hmove
      obtain ⟨m, w, hloop, hscan, -, hm, hend, herr'⟩ :=
        ih hto.block.ready (hto.block.steady.plane.trans hplane') hlt (by omega) hgo
      rw [flagMalformed_of_ne (by simp [hgo])] at hstep
      exact ⟨m + 1, w, by rw [hgo]; exact hloop, hstep hscan, by omega, by omega, hend, herr'.trans herr⟩
    · have hend : (flagMalformed t).scratch.scan ≠ .running := by
        rwa [flagMalformed_scan]
      refine ⟨1, t, ?_, hstep (.done hend), le_rfl, by omega, hgo, herr⟩
      split
      · contradiction
      · rfl

theorem exec_acDecode {ok : Bool} (halive : s.alive = true) (h : acDecode p s = .ok (ok, t)) :
    exec (.acDecode p) s = .next (t.setRet (if ok then 1 else 0)) := by
  unfold exec execAcDecode
  exact live_map_ok halive h

theorem State.Steady.setRet (h : s.Steady t) (v : Int) : (s.setRet v).Steady (t.setRet v) :=
  ⟨⟨h.alive, h.params, h.fd, h.inp, h.status, rfl, h.cmds, h.issue, h.off, h.qmat, h.scale⟩, h.mby, h.mbx, h.plane⟩

/-- Settles O42: the loop is a run of rows by `acLoop_scan`, and `acDecode_ready` gives the frame. -/
theorem acDecode_spec : Obligations.AcDecode := by
  intro s h hcanonical
  have hs : s.Ready := ⟨h, hcanonical⟩
  refine ⟨?run, fun p => ?frame⟩
  case run =>
    have hstart : ((s.setPos 1).setScan .running).Ready := hs.of_eqs rfl rfl rfl rfl rfl rfl
    obtain ⟨n, t, hloop, hscan, hpos, hle, hend, herr⟩ := acLoop_scan hstart rfl 63 (by simp) (by simp) rfl
    have hdecode : acDecode s.seq.p s = .ok (decide (t.scratch.scan = .ok), t) := by
      rw [acDecode]
      exact congrArg _ hloop
    refine ⟨n, flagMalformed t, hscan, hpos, hle, by rwa [flagMalformed_scan], ?_⟩
    rw [exec_acDecode h.alive hdecode, flagMalformed_restored (b := s.scratch.blkErr) herr, flagMalformed_scan]
    simp only [decide_eq_true_eq]
  case frame =>
    obtain ⟨ok, t, hdecode, hblock, hcanvas, hhist, -⟩ := acDecode_ready hs p
    exact ⟨_, exec_acDecode h.alive hdecode, by cases ok <;> simp, hblock.steady.setRet _,
      hblock.only.trans (.of_coders (by rfl) p .dct), hcanvas, hhist⟩

end Sys2Proof.Machine
end

/-! ## O43, O44, O45: the DCT block

The operations a sub-block and a block run are read off the bodies of `dctSub` and `dctFrom`; that they succeed, and what
they leave alone, is known (`Laws/Blocks.lean`). -/

section
namespace Sys2Proof.Machine

variable {s t u : State} {p : Plane}

/-! ### DCT_SUB -/

/-- A wrapped delta gives the same wrapped sum (rules R22, R197). -/
theorem dcStore_wrapI32 (x y : Nat) (k : Int) (pred : I32) (s : State) :
    dcStore p x y (wrapI32 k).toInt pred s = dcStore p x y k pred s := by
  have hsum : wrapI32 ((wrapI32 k).toInt + pred.toInt) = wrapI32 (k + pred.toInt) := by
    simp only [wrapI32, BitVec.ofInt_add, BitVec.ofInt_toInt]
  rw [dcStore, hsum, dcStore]

theorem exec_dctSub {bx dy : U16} {ok : Bool} (halive : s.alive = true)
    (h : dctSub p bx.toNat dy.toNat s = .ok (ok, t)) :
    exec (.dctSub p bx dy) s = .next (t.setRet (if ok then 1 else 0)) := by
  unfold exec execDctSub
  exact live_map_ok halive h

theorem dcStore_keeps_alive {x y : Nat} {k : Int} {pred : I32} (h : dcStore p x y k pred s = .ok t) :
    t.alive = s.alive := by
  by_cases hin : x < s.histW p ∧ y < s.histH p
  · cases (dcStore_inside hin k pred).symm.trans h
    rfl
  · cases (dcStore_outside hin k pred).symm.trans h

/-- Settles O43: `dctSub_ready` says that the sub-block succeeds, so its four operations do, in the order of its body. -/
theorem dctSubBlock : Obligations.DctSubBlock := by
  intro s p bx dy h hcanonical hx hy
  have hs : s.Ready := ⟨h, hcanonical⟩
  obtain ⟨ok, t, hsub, hblock, hcanvas⟩ := dctSub_ready hs p bx.toNat dy.toNat hx hy
  obtain ⟨⟨k, u⟩, hdelta, hrest⟩ := bind_eq_ok hsub
  obtain ⟨pred, hpred, hrest⟩ := bind_eq_ok hrest
  obtain ⟨w, hstore, hscan⟩ := bind_eq_ok hrest
  have hclear : (s.setDctBlk (Vector.replicate 64 0)).Ready := hs.of_eqs rfl rfl rfl rfl rfl rfl
  obtain ⟨k', u', hdelta', hd, -⟩ := decodeCoeff_ready hclear (.dctDc p)
  obtain ⟨rfl, rfl⟩ : k = k' ∧ u = u' := by simpa using hdelta.symm.trans hdelta'
  have hu : u.alive = true := hd.ready.alive
  have hret : u.ret = s.ret := hd.steady.ret
  have hw : w.alive = true := (dcStore_keeps_alive hstore).trans hu
  refine ⟨u.setRet k, u.setRet pred.toInt, w, t.setRet (if ok then 1 else 0), pred,
    exec_decodeCoeff_of_ok hclear.alive hdelta, ?_, rfl, ?_, exec_acDecode hw hscan, exec_dctSub h.alive hsub,
    by cases ok <;> simp, hblock.steady.setRet _, hblock.only.trans (.of_coders (by rfl) p .dct), hcanvas⟩
  · rw [setRet_setRet_of_ret_eq hret]
    exact exec_dcPredict hu hpred
  · rw [setRet_setRet_of_ret_eq hret]
    exact exec_dcStore hu (by rwa [setRet_ret, dcStore_wrapI32])

/-! ### IDCT_WRITE -/

theorem State.Canonical.setCanvas (h : s.Canonical) {m : Store 8} (hm : m.wf = true) : (s.setCanvas m).Canonical := by
  rw [State.setCanvas]
  split
  · exact ⟨h.ref, hm, h.hist⟩
  · exact ⟨hm, h.work, h.hist⟩

/-- A rectangle inside its plane is written, from any state with canonical memories: every sample of it reads back, and
every other byte is as before (rules R74, R79). -/
theorem writeRect_inside {row col hh w : Nat} (hcanonical : s.Canonical) (v : Nat → Nat → Byte)
    (hin : row + hh ≤ s.planeH p ∧ col + w ≤ s.planeW p) :
    ∃ t, writeRect p row col hh w v s = .ok t ∧ t = s.setCanvas t.canvas ∧ t.Canonical ∧ s.WritesIn p row col hh w t ∧
      ∀ r c, r < hh → c < w → t.sample p (row + r) (col + c) = v r c := by
  have hwf := canvas_wf hcanonical
  refine ⟨_, if_pos hin, by rw [setCanvas_canvas], hcanonical.setCanvas (writeRows_wf _ _ _ _ _ hwf), ?others, ?samples⟩
  case others =>
    intro a ha
    rw [setCanvas_canvas]
    exact read_writeRows_ne _ _ _ _ _ _ fun r c hr hc e => ha ⟨r, c, hr, hc, e⟩
  case samples =>
    intro r c hr hc
    rw [State.sample, setCanvas_canvas]
    refine read_writeRows _ _ _ _ _ r c hwf hr hc fun r c r' c' _ hc _ hc' e => ?_
    have := planeW_lt s p
    have := sampleAddr_inj (by omega) (by omega) e
    omega

theorem exec_idctWrite {r0 c0 : BitVec 4} (halive : s.alive = true) (h : idctWrite p r0.toNat c0.toNat s = .ok t) :
    exec (.idctWrite p r0 c0) s = .next t := by
  unfold exec execIdctWrite
  exact live_ok halive h

/-- Settles O44, by `writeRect_inside`: the square lies in the block, and the block in its plane. -/
theorem idctWrite_spec : Obligations.IdctWrite := by
  intro s p r0 c0 halive hcanonical hfits hr0 hc0
  obtain ⟨hrows, hcols⟩ := hfits
  obtain ⟨t, hwrite, hframed, hcanonical', hothers, hsamples⟩ := writeRect_inside
    (p := p) (row := (s.origin p).1 + r0.toNat) (col := (s.origin p).2 + c0.toNat) (hh := 8) (w := 8) hcanonical
    (fun r c => (s.params.inverseDct s.scratch.dctBlk)[Fin.ofNat 64 (8 * r + c)]) (by omega)
  refine ⟨t, exec_idctWrite halive hwrite, hframed, hcanonical', hothers, fun r c => ?_⟩
  rw [hsamples r.val c.val r.isLt c.isLt]
  have hindex : 8 * r.val + c.val < 64 := by omega
  simp only [Fin.getElem_fin, Fin.ofNat, Nat.mod_eq_of_lt hindex]

/-! ### DCT -/

/-- One round of the sub-block loop, by the number of its sub-block (rule R190). -/
theorem dctFrom_succ {k : Nat} (hk : k < 4) (n : Nat) (s : State) : dctFrom p k (n + 1) s =
    (dctSub p (p.nb * s.seq.mbx + k % p.nb) (p.nb * s.seq.mby + k / p.nb)
      (s.setSeq { s.seq with sb := Fin.ofNat 4 k })).bind fun r =>
        if r.1 then (idctWrite p (8 * (k / p.nb)) (8 * (k % p.nb)) r.2).bind (dctFrom p (k + 1) n)
        else .ok (setBlkErr r.2) := by
  have hsb : (Fin.ofNat 4 k).val = k := Nat.mod_eq_of_lt hk
  rw [dctFrom]
  simp only [setSeq_seq, hsb]

/-- The block of a plane is a square of sub-blocks (rule R190). -/
theorem subBlock_lt {k : Nat} (hk : k < p.nb * p.nb) : k < 4 ∧ k / p.nb < p.nb ∧ k % p.nb < p.nb ∧ p.bs = 8 * p.nb ∧
    p.nb ≤ 2 := by
  cases p with
  | y =>
    change k < 4 at hk
    exact ⟨hk, Nat.div_lt_of_lt_mul hk, Nat.mod_lt _ Nat.two_pos, rfl, le_rfl⟩
  | c1 | c2 =>
    obtain rfl : k = 0 := Nat.lt_one_iff.mp hk
    decide

/-- DCT_SUB of a sub-block of the current block: its position lies in the history (rules R88, R190). -/
theorem dctSub_at (h : s.AtBlock p) (hh : s.HistFits p) {k : Nat} (hk : k < p.nb * p.nb) : ∃ ok u,
    dctSub p (p.nb * s.seq.mbx + k % p.nb) (p.nb * s.seq.mby + k / p.nb)
      (s.setSeq { s.seq with sb := Fin.ofNat 4 k }) = .ok (ok, u) ∧
    exec (.dctSub p (BitVec.ofNat 16 (p.nb * s.seq.mbx + k % p.nb)) (BitVec.ofNat 16 (p.nb * s.seq.mby + k / p.nb)))
      (s.setSeq { s.seq with sb := Fin.ofNat 4 k }) = .next (u.setRet (if ok then 1 else 0)) ∧
    s.BlockTo p .dct u := by
  obtain ⟨-, hj, hi, -, -⟩ := subBlock_lt hk
  obtain ⟨hx, hy⟩ := hh
  have hW := histW_lt s p
  have hH := histH_lt s p
  have hstart : s.BlockTo p .dct (s.setSeq { s.seq with sb := Fin.ofNat 4 k }) :=
    .setSeq h.ready _ (by rfl) (by rfl) (by rfl) p .dct
  obtain ⟨ok, u, hsub, hblock, -⟩ := dctSub_ready hstart.ready p (p.nb * s.seq.mbx + k % p.nb)
    (p.nb * s.seq.mby + k / p.nb) (by rw [hstart.steady.histW]; omega) (by rw [hstart.steady.histH]; omega)
  have hcol : (BitVec.ofNat 16 (p.nb * s.seq.mbx + k % p.nb)).toNat = p.nb * s.seq.mbx + k % p.nb :=
    Nat.mod_eq_of_lt (by omega)
  have hrow : (BitVec.ofNat 16 (p.nb * s.seq.mby + k / p.nb)).toNat = p.nb * s.seq.mby + k / p.nb :=
    Nat.mod_eq_of_lt (by omega)
  exact ⟨ok, u, hsub, exec_dctSub hstart.ready.alive (by rwa [hcol, hrow]), hstart.trans hblock⟩

/-- IDCT_WRITE of a sub-block of the current block: its square lies in the block (rules R88, R190). -/
theorem idctWrite_at (h : s.AtBlock p) {k : Nat} (hk : k < p.nb * p.nb) : ∃ t,
    idctWrite p (8 * (k / p.nb)) (8 * (k % p.nb)) s = .ok t ∧
    exec (.idctWrite p (BitVec.ofNat 4 (8 * (k / p.nb))) (BitVec.ofNat 4 (8 * (k % p.nb)))) s = .next t ∧
    s.BlockTo p .dct t := by
  obtain ⟨-, hj, hi, hbs, hnb⟩ := subBlock_lt hk
  obtain ⟨t, -, hwrite, -, hblock, -⟩ := idctWrite_ready h.ready p (8 * (k / p.nb)) (8 * (k % p.nb)) h.fits
    (by omega) (by omega)
  have hrow : (BitVec.ofNat 4 (8 * (k / p.nb))).toNat = 8 * (k / p.nb) := Nat.mod_eq_of_lt (by omega)
  have hcol : (BitVec.ofNat 4 (8 * (k % p.nb))).toNat = 8 * (k % p.nb) := Nat.mod_eq_of_lt (by omega)
  exact ⟨t, hwrite, exec_idctWrite h.ready.alive (by rwa [hrow, hcol]), hblock⟩

/-- The sub-block loop is a run of DCT_SUB and IDCT_WRITE (rules R190, R205). -/
theorem dctFrom_run (h : s.AtBlock p) (hh : s.HistFits p) {k n : Nat} (hk : k + n = p.nb * p.nb) :
    ∃ t, dctFrom p k n s = .ok t ∧ DctRun p k s t := by
  induction n generalizing k s with
  | zero =>
    obtain rfl : k = p.nb * p.nb := hk
    exact ⟨s, rfl, .done s⟩
  | succ n ih =>
    have hlt : k < p.nb * p.nb := by omega
    obtain ⟨ok, u, hsub, hexec, hu⟩ := dctSub_at h hh hlt
    have hput (v : Int) : (u.setRet v).setRet s.ret = u := setRet_setRet_of_ret_eq hu.steady.ret v
    rw [dctFrom_succ (subBlock_lt hlt).1, hsub, ok_bind]
    cases ok with
    | false =>
      have hrun := DctRun.malformed hlt hexec rfl
      rw [hput] at hrun
      exact ⟨_, rfl, hrun⟩
    | true =>
      obtain ⟨v, hwrite, hexec', hblock⟩ := idctWrite_at (h.blockTo hu) hlt
      have hv := hu.trans hblock
      obtain ⟨t, hloop, hrun⟩ := ih (h.blockTo hv) ((hv.steady.histFits p).mpr hh) (k := k + 1) (by omega)
      exact ⟨t, by rw [if_pos rfl, hwrite, ok_bind, hloop], .written hlt hexec rfl (by rwa [hput]) hrun⟩

/-- Settles O45: the run by `dctFrom_run`, the frame by `dctBlock_ready`. -/
theorem dctBlock_spec : Obligations.DctBlock := by
  intro s h hcanonical hfits hhist
  have hs : s.Ready := ⟨h, hcanonical⟩
  obtain ⟨t, hdct, hrun⟩ := dctFrom_run ⟨hs, hfits, rfl⟩ hhist (Nat.zero_add _)
  obtain ⟨t', hdct', -, hsteady, honly, hwrites⟩ := dctBlock_ready hs s.seq.p hfits hhist
  obtain rfl : t = t' := Except.ok.inj (hdct.symm.trans hdct')
  exact ⟨t, hrun, live_ok h.alive hdct, hsteady, honly, hwrites⟩

end Sys2Proof.Machine
end

/-! ## O46, O47: the Haar block

The read is a run of HAAR_LL and HAAR_HF, and every sample the butterfly writes is a clipped sum of the four coefficients of
its cluster. -/

section
namespace Sys2Proof.Machine

variable {s t : State} {p : Plane}

/-! ### HAAR_BUTTERFLY -/

theorem clipU8_toNat (v : Int) : (clipU8 v).toNat = (min (max v 0) 255).toNat := by
  rw [clipU8, BitVec.toNat_ofInt]
  omega

/-- The four sums of a cluster, in numbers (rule R220). -/
theorem butterfly_toNat (a b c d : Int) :
    (butterfly a b c d 0 0).toNat = (min (max ((a - b) - (c - d)) 0) 255).toNat ∧
    (butterfly a b c d 0 1).toNat = (min (max ((a + b) - (c + d)) 0) 255).toNat ∧
    (butterfly a b c d 1 0).toNat = (min (max ((a - b) + (c - d)) 0) 255).toNat ∧
    (butterfly a b c d 1 1).toNat = (min (max ((a + b) + (c + d)) 0) 255).toNat :=
  ⟨clipU8_toNat _, clipU8_toNat _, clipU8_toNat _, clipU8_toNat _⟩

/-- The sample at row `dr`, column `dc` of cluster `(j, i)` has the cluster's four coefficients (rules R219, R220). -/
theorem haarSample_cluster (h j i : Nat) {dr dc : Nat} (hdr : dr < 2) (hdc : dc < 2) :
    haarSample s.scratch.haarBlk h (2 * j + dr) (2 * i + dc) =
      butterfly (s.haarAt j i) (s.haarAt j (i + h)) (s.haarAt (j + h) i) (s.haarAt (j + h) (i + h)) dr dc := by
  have hj : (2 * j + dr) / 2 = j := by omega
  have hi : (2 * i + dc) / 2 = i := by omega
  have hr : (2 * j + dr) % 2 = dr := by omega
  have hc : (2 * i + dc) % 2 = dc := by omega
  simp only [haarSample, State.haarAt, hj, hi, hr, hc]

/-- Both rows, and both columns, of a cluster lie in the block (rule R219). -/
theorem cluster_lt_bs {j d : Nat} (hj : j < p.bs / 2) (hd : d < 2) : 2 * j + d < p.bs := by
  omega

theorem exec_haarButterfly (halive : s.alive = true) (h : haarButterfly p s = .ok t) :
    exec (.haarButterfly p) s = .next t := by
  unfold exec execHaarButterfly
  exact live_ok halive h

/-- HAAR_BUTTERFLY by clusters: it writes the block of the plane alone (rule R220). -/
theorem haarButterfly_clusters (hcanonical : s.Canonical) (hfits : s.BlockFits p) :
    ∃ t, haarButterfly p s = .ok t ∧ t = s.setCanvas t.canvas ∧ t.Canonical ∧ s.WritesBlock p t ∧
      ∀ j i dr dc, j < p.bs / 2 → i < p.bs / 2 → dr < 2 → dc < 2 →
        t.sample p ((s.origin p).1 + 2 * j + dr) ((s.origin p).2 + 2 * i + dc) =
          butterfly (s.haarAt j i) (s.haarAt j (i + p.bs / 2)) (s.haarAt (j + p.bs / 2) i)
            (s.haarAt (j + p.bs / 2) (i + p.bs / 2)) dr dc := by
  obtain ⟨t, hwrite, hframed, hcanonical', hothers, hsamples⟩ :=
    writeRect_inside hcanonical (haarSample s.scratch.haarBlk (p.bs / 2)) hfits
  refine ⟨t, hwrite, hframed, hcanonical', hothers, fun j i dr dc hj hi hdr hdc => ?_⟩
  rw [Nat.add_assoc, Nat.add_assoc, hsamples _ _ (cluster_lt_bs hj hdr) (cluster_lt_bs hi hdc),
    haarSample_cluster _ _ _ hdr hdc]

/-- Settles O47: each of the four samples of a cluster is the sum that `butterfly` gives at its place. -/
theorem haarButterfly_spec : Obligations.HaarButterfly := by
  intro s p halive hcanonical hfits
  obtain ⟨t, hwrite, hframed, hcanonical', hothers, hsamples⟩ := haarButterfly_clusters hcanonical hfits
  refine ⟨t, exec_haarButterfly halive hwrite, hframed, hcanonical', hothers, fun j i hj hi => ?_⟩
  have hsums := butterfly_toNat (s.haarAt j i) (s.haarAt j (i + p.bs / 2)) (s.haarAt (j + p.bs / 2) i)
    (s.haarAt (j + p.bs / 2) (i + p.bs / 2))
  rwa [← hsamples j i 0 0 hj hi (by decide) (by decide), ← hsamples j i 0 1 hj hi (by decide) (by decide),
    ← hsamples j i 1 0 hj hi (by decide) (by decide), ← hsamples j i 1 1 hj hi (by decide) (by decide)] at hsums

/-! ### HAAR_LL and HAAR_HF -/

theorem haarLl_ok {v : Fin 256} (h : decByte (.hi p) s = .ok (v, t)) : haarLl p s = .ok ((v.val : Int), t) := by
  rw [haarLl, h, ok_map]

theorem exec_haarLl {k : Int} (halive : s.alive = true) (h : haarLl s.seq.p s = .ok (k, t)) :
    exec .haarLl s = .next (t.setRet k) := by
  unfold exec execHaarLl
  exact returnCoef_ok halive h

theorem exec_haarHf_eq_decodeCoeff (s : State) : exec .haarHf s = exec (.decodeCoeff (.haar s.seq.p)) s := by
  unfold exec execHaarHf execDecodeCoeff
  rfl

/-- The row of a coefficient: HAAR_LL in the low-frequency quadrant, HAAR_HF elsewhere (rule R215). -/
theorem haarSymbol_row (h : s.AtBlock p) (j i : Nat) : ∃ k u,
    (if i < p.bs / 2 ∧ j < p.bs / 2 then haarLl p s else haarHf p s) = .ok (k, u) ∧
    exec (if i < p.bs / 2 ∧ j < p.bs / 2 then .haarLl else .haarHf) s = .next (u.setRet k) ∧
    s.Decodes p .haar u := by
  obtain ⟨hready, -, rfl⟩ := h
  split
  case isTrue =>
    obtain ⟨v, u, hbyte, hd⟩ := decByte_ready hready (.hi s.seq.p)
    exact ⟨v.val, u, haarLl_ok hbyte, exec_haarLl hready.alive (haarLl_ok hbyte), hd⟩
  case isFalse =>
    obtain ⟨k, u, hcoef, hd, -⟩ := decodeCoeff_ready hready (.haar s.seq.p)
    exact ⟨k, u, hcoef, (exec_haarHf_eq_decodeCoeff s).trans (exec_decodeCoeff_of_ok hready.alive hcoef), hd⟩

/-! ### HAAR -/

/-- The sequencer at coefficient `(j, i)` of the block. -/
def State.atCoef (s : State) (j i : Nat) : State :=
  s.setSeq { s.seq with j := Fin.ofNat 16 j, i := Fin.ofNat 16 i }

theorem atCoef_blockTo (h : s.Ready) (p : Plane) (j i : Nat) : s.BlockTo p .haar (s.atCoef j i) :=
  .setSeq h _ (by rfl) (by rfl) (by rfl) p .haar

/-- The entry written after the symbol is the one the loop is at, with the scale from before the symbol: decoding moves
neither (rules R215, R218). -/
theorem haarEntry_of_decodes {u : State} {j i : Nat} (hd : (s.atCoef j i).Decodes p .haar u) (hj : j < 16) (hi : i < 16)
    (k : Int) :
    u.scratch.haarBlk.set (haarIndex u.seq.j.val u.seq.i.val) (k * (u.coder p).haar.scale) =
      s.scratch.haarBlk.set (haarIndex j i) (k * (s.coder p).haar.scale) := by
  have hscale : (u.coder p).haar.scale = (s.coder p).haar.scale := hd.steady.scale p
  have hrow : u.seq.j.val = j := by
    rw [hd.seq]
    exact Nat.mod_eq_of_lt hj
  have hcol : u.seq.i.val = i := by
    rw [hd.seq]
    exact Nat.mod_eq_of_lt hi
  have hblk : u.scratch.haarBlk = s.scratch.haarBlk := by
    rw [hd.scratch]
    rfl
  simp only [hblk, hscale, hrow, hcol]

/-- One coefficient is one step of the run (rules R215, R218). -/
theorem haarCoef_run (h : s.AtBlock p) {j i : Nat} (hj : j < p.bs) (hi : i < p.bs) :
    ∃ t, haarCoef p j i s = .ok t ∧ s.BlockTo p .haar t ∧ ∀ w, HaarRun p j (i + 1) t w → HaarRun p j i s w := by
  have hbs := (bs_le p).2
  have hat := atCoef_blockTo h.ready p j i
  obtain ⟨k, u, hsymbol, hrow, hd⟩ := haarSymbol_row (h.blockTo hat) j i
  have hentry := haarEntry_of_decodes hd (by omega) (by omega) k
  obtain ⟨t, hcoef, hblock⟩ := haarCoef_ready h.ready p j i
  have ht : t = ((u.setRet k).setRet s.ret).setHaarBlk
      (s.scratch.haarBlk.set (haarIndex j i) (k * (s.coder p).haar.scale)) := by
    rw [setRet_setRet_of_ret_eq (hat.steady.trans hd.steady).ret, ← hentry]
    have hrun : haarCoef p j i s = .ok (u.setHaarBlk
        (u.scratch.haarBlk.set (haarIndex u.seq.j.val u.seq.i.val) (k * (u.coder p).haar.scale))) :=
      congrArg (Except.map _) hsymbol
    exact Except.ok.inj (hcoef.symm.trans hrun)
  refine ⟨t, hcoef, hblock, fun w hw => .coef hj hi hrow ?_⟩
  rwa [ht] at hw

/-- One row of the read is a run of its coefficients from column 0 on (rule R215). -/
theorem haarRow_run (h : s.AtBlock p) {j : Nat} (hj : j < p.bs) :
    ∃ t, forRange p.bs (haarCoef p j) s = .ok t ∧ s.BlockTo p .haar t ∧
      ∀ w, HaarRun p j p.bs t w → HaarRun p j 0 s w :=
  forRange_ok (fun i t => s.BlockTo p .haar t ∧ ∀ w, HaarRun p j i t w → HaarRun p j 0 s w) (haarCoef p j) p.bs s
    (fun i t hi ht => by
      obtain ⟨hblock, hrun⟩ := ht
      obtain ⟨u, hcoef, hblock', hrun'⟩ := haarCoef_run (h.blockTo hblock) hj hi
      exact ⟨u, hcoef, hblock.trans hblock', fun w hw => hrun w (hrun' w hw)⟩)
    ⟨.refl h.ready p .haar, fun _ => id⟩

/-- The read is a run of its rows (rule R215). -/
theorem haarRead_run (h : s.AtBlock p) :
    ∃ t, haarRead p s = .ok t ∧ s.BlockTo p .haar t ∧ HaarRun p 0 0 s t := by
  obtain ⟨t, hloop, hblock, hrun⟩ := forRange_ok
    (fun j t => s.BlockTo p .haar t ∧ ∀ w, HaarRun p j 0 t w → HaarRun p 0 0 s w)
    (fun j => forRange p.bs (haarCoef p j)) p.bs s
    (fun j t hj ht => by
      obtain ⟨hblock, hrun⟩ := ht
      obtain ⟨u, hrow, hblock', hrun'⟩ := haarRow_run (h.blockTo hblock) hj
      exact ⟨u, hrow, hblock.trans hblock', fun w hw => hrun w (hrun' w (.row hj hw))⟩)
    ⟨.refl h.ready p .haar, fun _ => id⟩
  exact ⟨t, hloop, hblock, hrun t (.done t)⟩

theorem exec_haar (halive : s.alive = true) (h : haarBlock s.seq.p s = .ok t) : exec .haar s = .next t := by
  unfold exec execHaar
  exact live_ok halive h

/-- Settles O46: the two reads are a BYTE and a DECODE_COEFF, and the block is the run of `haarRead_run`, then the
butterfly. -/
theorem haarBlock_spec : Obligations.HaarBlock := by
  intro s h
  refine ⟨?low, ?high, fun hcanonical hfits => ?block⟩
  case low =>
    obtain ⟨v, x, rd, hbyte, -⟩ := decByte_can h (.hi s.seq.p)
    exact ⟨_, exec_decByte h.alive hbyte, exec_haarLl h.alive (haarLl_ok hbyte), Int.natCast_nonneg v.val,
      Int.ofNat_le.mpr (Nat.le_of_lt_succ v.isLt)⟩
  case high =>
    obtain ⟨-, -, t, -, -, -, hdecode, -, hmax, -⟩ := decodeCoefficient s (.haar s.seq.p) h
    exact ⟨t, hdecode, (exec_haarHf_eq_decodeCoeff s).trans hdecode, hmax⟩
  case block =>
    have hs : s.AtBlock s.seq.p := ⟨⟨h, hcanonical⟩, hfits, rfl⟩
    obtain ⟨u, hread, hblock, hrun⟩ := haarRead_run hs
    have hu := hs.blockTo hblock
    obtain ⟨t, -, hbutterfly, -, hblock', -⟩ := haarButterfly_ready hu.ready s.seq.p hu.fits
    obtain ⟨-, hsteady, honly, hwrites⟩ := hblock.trans hblock'
    have hhaar : haarBlock s.seq.p s = .ok t := by rw [haarBlock, hread, ok_bind, hbutterfly]
    exact ⟨u, t, hrun, exec_haarButterfly hu.ready.alive hbutterfly, exec_haar h.alive hhaar, hsteady, honly, hwrites⟩

end Sys2Proof.Machine
end

/-! ## O48: the checks of a command

Each check writes what it returns into the status and the returned value (log entry 18), so each clause is the check itself,
written as the test its rule gives. -/

section
namespace Sys2Proof.Machine

variable {s : State}

/-- The state a check leaves that returned `o` (log entry 18). -/
def State.checked (s : State) : Option Status → State
  | some c => (s.setStatus c).setRet 1
  | none => s.setRet 0

theorem execCheck_of_alive (halive : s.alive = true) (f : State → Option Status) :
    execCheck f s = .next (s.checked (f s)) := by
  refine live_ok halive ?_
  cases f s <;> rfl

theorem exec_validate (halive : s.alive = true) : exec .validate s = .next (s.checked (validate s)) :=
  execCheck_of_alive halive validate

theorem exec_emptyKeyCheck (halive : s.alive = true) : exec .emptyKeyCheck s = .next (s.checked (emptyKeyCheck s)) :=
  execCheck_of_alive halive emptyKeyCheck

theorem exec_skipCheck (halive : s.alive = true) : exec .skipCheck s = .next (s.checked (skipCheck s)) :=
  execCheck_of_alive halive skipCheck

theorem regionOk_eq_false_iff (k : Params) (g : Region) : regionOk k g = false ↔ g.w.toNat % 16 ≠ 0 ∨
    g.h.toNat % 16 ≠ 0 ∨ k.frameW.toNat < g.x.toNat + g.w.toNat ∨ k.frameH.toNat < g.y.toNat + g.h.toNat := by
  rw [← Bool.not_eq_true, regionOk_iff]
  omega

theorem qualityOk_eq_false_iff (q : Byte) : qualityOk q = false ↔ q.toNat < 1 ∨ 100 < q.toNat := by
  simp only [qualityOk, Bool.and_eq_false_iff, decide_eq_false_iff_not, not_le]

/-- VALIDATE tests the region before the quality (rule R233). -/
theorem validate_eq (s : State) : validate s =
    if s.inp.region.w.toNat % 16 ≠ 0 ∨ s.inp.region.h.toNat % 16 ≠ 0 ∨
      s.params.frameW.toNat < s.inp.region.x.toNat + s.inp.region.w.toNat ∨
      s.params.frameH.toNat < s.inp.region.y.toNat + s.inp.region.h.toNat then some .invalidRegion
    else if s.inp.quality.toNat < 1 ∨ 100 < s.inp.quality.toNat then some .invalidQuality
    else none := by
  simp only [validate, regionOk_eq_false_iff, qualityOk_eq_false_iff]

/-- EMPTY_KEY_CHECK returns under REJECT alone (rule R234). -/
theorem emptyKeyCheck_eq (s : State) : emptyKeyCheck s =
    if s.params.profile.emptyKeyframe = .reject ∧ s.inp.keyframe = true ∧ s.inp.payload.length = 0 then
      some .emptyKeyframe
    else none := by
  unfold emptyKeyCheck
  cases s.params.profile.emptyKeyframe with
  | commit => simp
  | reject => simp only [true_and, List.length_eq_zero_iff]

/-- Settles O48: what each check leaves, over the test of its rule. -/
theorem commandChecks : Obligations.CommandChecks := by
  intro s halive
  refine ⟨?validate, ?emptyKeyCheck, ?skipCheck⟩
  case validate =>
    rw [exec_validate halive, validate_eq, apply_ite s.checked, apply_ite s.checked]
    rfl
  case emptyKeyCheck =>
    rw [exec_emptyKeyCheck halive, emptyKeyCheck_eq, apply_ite s.checked]
    rfl
  case skipCheck =>
    rw [exec_skipCheck halive, skipCheck, apply_ite s.checked]
    rfl

end Sys2Proof.Machine
end

/-! ## O49, O50, O59: the resets and the construction

Both leave the models of `State.blank` (`Laws/Resets.lean`), the resets with the matrices and scales kept. -/

section
namespace Sys2Proof.Machine

variable {s : State}

/-! ### The values after construction -/

@[simp] theorem blank_coder (p : Plane) : State.blank.coder p = PlaneCoders.initial := by
  cases p <;> rfl

theorem blank_small (m : SmallRef) : State.blank.small m = FreqModel.initial m.size := by
  cases m <;> simp [State.small, PlaneCoders.initial]

theorem blank_byte (m : ByteRef) : State.blank.byte m = ByteModel.initial := by
  cases m <;> simp [State.byte, PlaneCoders.initial]

theorem blank_bin (m : BinRef) : State.blank.bin m = BinModel.initial := by
  cases m
  simp [State.bin, PlaneCoders.initial]

/-- Settles O59: `constructInstance_eq` gives the new instance, whose coders are those of no instance. -/
theorem construct : Obligations.Construct := by
  intro s a
  refine ⟨_, exec_construct (constructInstance_eq s a), rfl, rfl, rfl, rfl, rfl, fun m => ?small, fun m => ?byte,
    fun m => ?bin, fun p => ?rest⟩
  case small => exact (small_congr rfl).trans (blank_small m)
  case byte => exact (byte_congr rfl).trans (blank_byte m)
  case bin => exact (bin_congr rfl).trans (blank_bin m)
  case rest => cases p <;> exact ⟨rfl, rfl, fun _ _ => rfl⟩

/-! ### KEYFRAME_RESET and EVERY_FRAME_RESET -/

theorem afterReset_coder (s : State) (p : Plane) : s.afterReset.coder p = (s.coder p).afterReset := by
  cases p <;> rfl

theorem afterReset_small (s : State) (m : SmallRef) : s.afterReset.small m = FreqModel.initial m.size := by
  cases m <;> simp [State.small, afterReset_coder, PlaneCoders.afterReset, PlaneCoders.initial]

theorem afterReset_byte (s : State) (m : ByteRef) : s.afterReset.byte m = ByteModel.initial := by
  cases m <;> simp [State.byte, afterReset_coder, PlaneCoders.afterReset, PlaneCoders.initial]

theorem afterReset_bin (s : State) (m : BinRef) : s.afterReset.bin m = BinModel.initial := by
  cases m
  simp [State.bin, afterReset_coder, PlaneCoders.afterReset, PlaneCoders.initial]

/-- The models' constants, which the resets read and never write (rules R142, R148). -/
structure State.MaxOk (s : State) : Prop where
  small : ∀ m : SmallRef, (s.small m).maxUpdVal.toNat = 8 * m.size + 48
  byte : ∀ m : ByteRef, (s.byte m).base.maxUpdVal.toNat = 2096

theorem State.ModelsGood.maxOk (h : s.ModelsGood) : s.MaxOk := ⟨ModelsGood.maxSmall h, ModelsGood.maxByte h⟩

theorem exec_keyframeReset (halive : s.alive = true) (h : s.MaxOk) : exec .keyframeReset s = .next s.afterReset :=
  live_ok halive (keyframeReset_eq s h.small h.byte)

theorem exec_resetForKeyframe_of_maxOk (halive : s.alive = true) (h : s.MaxOk) :
    exec .resetForKeyframe s = .next s.afterReset :=
  live_ok halive (keyframeReset_eq s h.small h.byte)

/-- A second reset finds every element at its reset value (rule R287). -/
theorem afterReset_afterReset (s : State) : s.afterReset.afterReset = s.afterReset := rfl

theorem everyFrameReset_eq (h : s.MaxOk) : everyFrameReset s = .ok (match s.params.profile.resetPolicy with
    | .keyframe => s
    | .everyPayloadFrame => s.afterReset) := by
  unfold everyFrameReset
  cases s.params.profile.resetPolicy with
  | keyframe => rfl
  | everyPayloadFrame => exact keyframeReset_eq s h.small h.byte

/-- Settles O49: all of it is read off the state `State.afterReset`. -/
theorem keyframeReset_spec : Obligations.KeyframeReset := by
  intro s halive hsmall hbyte
  have hmax : s.MaxOk := ⟨hsmall, hbyte⟩
  refine ⟨s.afterReset, exec_keyframeReset halive hmax, exec_resetForKeyframe_of_maxOk halive hmax, rfl,
    afterReset_small s, afterReset_byte s, afterReset_bin s, fun p => ?rest, ?again, ?everyFrame⟩
  case rest =>
    have hhist (x y : Nat) : s.afterReset.dch p x y = 0 := by
      rw [State.dch, afterReset_coder]
      rfl
    rw [afterReset_coder]
    exact ⟨rfl, rfl, hhist, rfl, rfl⟩
  case again => exact exec_keyframeReset (s := s.afterReset) halive (afterReset_models s).maxOk
  case everyFrame => exact live_ok halive (everyFrameReset_eq hmax)

/-! ### FRAME_START -/

/-- Settles O50: the reset, where the rule asks for it, runs on the state with the flag cleared. -/
theorem frameStart_spec : Obligations.FrameStart := by
  intro s halive hsmall hbyte x
  have hmax : x.MaxOk := ⟨hsmall, hbyte⟩
  split
  case isTrue hreset =>
    have hstart : frameStart s = .ok x.afterReset :=
      (if_pos hreset).trans (keyframeReset_eq x hmax.small hmax.byte)
    exact ⟨x.afterReset, exec_keyframeReset halive hmax, live_ok halive hstart⟩
  case isFalse hreset =>
    have hstart : frameStart s = .ok x := if_neg hreset
    exact live_ok halive hstart

end Sys2Proof.Machine
end

/-! ## O51, O53, O54: the quality cache, the start of a decoder, and the ends of a frame

Each is one plain state (rules R237, R239, R241, R245 to R247), read off the definition. -/

section
namespace Sys2Proof.Machine

variable {s : State}

/-! ### QUALITY_CACHE -/

/-- The state in which every plane has the matrix and the scale of the latched quality (rule R237). -/
def State.reloaded (s : State) : State :=
  (loadQuality s.inp.quality .c2 (loadQuality s.inp.quality .c1 (loadQuality s.inp.quality .y s))).setFd
    { s.fd with qCache := some s.inp.quality }

theorem reloaded_eq (s : State) : s.reloaded =
    { s with coders := s.reloaded.coders, fd := { s.fd with qCache := some s.inp.quality } } := rfl

theorem reloaded_coder (s : State) (p : Plane) : s.reloaded.coder p = { s.coder p with
    dct := { (s.coder p).dct with qmat := s.params.quantMatrix s.inp.quality p.isLuma }
    haar := { (s.coder p).haar with scale := s.params.haarScaleAt s.inp.quality p.isLuma } } := by
  cases p <;> rfl

/-- HAAR_SCALE where no other function is given (rule R21). -/
theorem haarScaleAt_default {k : Params} (h : k.haarScale = .default) (q : Byte) (isLuma : Bool) :
    k.haarScaleAt q isLuma = 17 - ((7 * q.toNat / 50 : Nat) : Int) := by
  simp only [Params.haarScaleAt, h]

theorem exec_qualityCache (halive : s.alive = true) : exec .qualityCache s = .next (qualityCache s) :=
  live_pure qualityCache halive

/-- Settles O51: a hit is the state itself, a miss is `State.reloaded`. -/
theorem qualityCache_spec : Obligations.QualityCache := by
  intro s halive
  rw [exec_qualityCache halive]
  refine ⟨fun hhit => ?hit, fun hmiss => ?miss⟩
  case hit => rw [qualityCache_of_hit hhit]
  case miss =>
    refine ⟨s.reloaded, congrArg _ (qualityCache_of_miss hmiss), reloaded_eq s, fun p => ?_⟩
    rw [reloaded_coder]
    exact ⟨rfl, rfl, rfl, fun hdefault => haarScaleAt_default hdefault _ _⟩

/-! ### DECODER_START and the commits -/

theorem exec_emptyCommit (halive : s.alive = true) : exec .emptyCommit s = .next (emptyCommit s) :=
  live_pure emptyCommit halive

theorem exec_commit (halive : s.alive = true) : exec .commit s = .next (commit s) :=
  live_pure commit halive

theorem decoderStart_of_init {rd : RangeDecoder} (h : RangeDecoder.init s.inp.payload = .ok rd) :
    decoderStart s = .ok { s.setRd rd with work := s.ref } := by
  rw [decoderStart, rdInit, h, ok_map, ok_map]
  rfl

/-- With WORK a copy of REF, the planes the blocks write read as REF does under both policies (rule R241). -/
theorem canvas_of_work_eq_ref (h : s.work = s.ref) : s.canvas = s.ref := by
  unfold State.canvas
  split
  · exact h
  · rfl

/-- Settles O53: RD_INIT completes on every payload, and the commits are meanings that cannot fail. -/
theorem startAndCommit : Obligations.StartAndCommit := by
  intro s halive
  obtain ⟨rd, hinit, -⟩ := RangeDecoder.init_good s.inp.payload
  exact ⟨⟨s.setRd rd, exec_rdInit halive hinit, live_ok halive (decoderStart_of_init hinit),
    canvas_of_work_eq_ref rfl, rfl⟩, exec_commit halive, exec_emptyCommit halive⟩

/-! ### ERROR_CHECK and the abort -/

theorem exec_abort (halive : s.alive = true) (k : AbortKind) : exec (.abort k) s = .next (abortFrame k s) :=
  live_pure (abortFrame k) halive

theorem exec_errorCheck (halive : s.alive = true) : exec .errorCheck s = .next (errorCheck s).2 :=
  live_pure (fun s => (errorCheck s).2) halive

theorem errorCheck_of_some {k : AbortKind} (h : pendingAbort s = some k) : errorCheck s = (some k, abortFrame k s) := by
  simp only [errorCheck, h]

theorem errorCheck_of_none (h : pendingAbort s = none) : errorCheck s = (none, s) := by
  simp only [errorCheck, h]

/-- Settles O54: the abort is `abortFrame_eq`, and the check tests the two flags in the order of `pendingAbort`. -/
theorem errorCheckAndAbort : Obligations.ErrorCheckAndAbort := by
  intro s halive
  refine ⟨fun k => ?abort, ?errorCheck⟩
  case abort =>
    rw [exec_abort halive, abortFrame_eq]
    cases k <;> rfl
  case errorCheck =>
    rw [exec_errorCheck halive, exec_abort halive, exec_abort halive]
    by_cases hrd : s.rd.err = true
    · rw [if_pos hrd, errorCheck_of_some (if_pos hrd)]
    · by_cases hblk : s.scratch.blkErr = true
      · rw [if_neg hrd, if_pos hblk, errorCheck_of_some ((if_neg hrd).trans (if_pos hblk))]
      · rw [if_neg hrd, if_neg hblk, errorCheck_of_none ((if_neg hrd).trans (if_neg hblk))]

end Sys2Proof.Machine
end

/-! ## O55, O56: a block and the walk

That a block of an accepted region runs to its end is known (`Laws/Commands.lean`). What is added here is which operations
it runs, and the walk as a run of blocks, each followed by its check. -/

section
namespace Sys2Proof.Machine

variable {s t u : State} {p : Plane}

/-! ### BLOCK_STEP -/

theorem State.Steady.inRegion (h : s.Steady t) : t.InRegion ↔ s.InRegion := by
  unfold State.InRegion
  rw [h.params, h.inp, h.mbx, h.mby]

/-- The row of a block type runs the datapath that the dispatch names (rule R243). -/
theorem exec_blockRow_eq_live (v : Fin 5) (s : State) :
    exec (blockRow v) s = live s fun s => dispatchBlock s.seq.p v s := by
  fin_cases v <;> rfl

theorem exec_btSelect_of_ok {v : Fin 5} (halive : s.alive = true) (h : btSelect p s = .ok (v, t)) :
    exec (.btSelect p) s = .next (t.setRet v.val) :=
  live_map_ok halive h

theorem blockStep_of_ok {mbx mby : Nat} {v : Fin 5} (hselect : btSelect p (s.atBlock p mbx mby) = .ok (v, u))
    (hrow : dispatchBlock p v u = .ok t) : blockStep p mbx mby s = .ok t := by
  unfold blockStep
  show (btSelect p (s.atBlock p mbx mby)).bind _ = _
  rw [hselect, ok_bind, hrow]

/-- The two parts of a block of an accepted region: its type is selected, then the datapath of the type runs. -/
theorem blockStep_parts (h : s.Ready) {mbx mby : Nat} (hregion : regionOk s.params s.inp.region = true)
    (hx : mbx < s.inp.region.w.toNat / 16) (hy : mby < s.inp.region.h.toNat / 16) : ∃ v u t x,
    btSelect p (s.atBlock p mbx mby) = .ok (v, u) ∧ (s.atBlock p mbx mby).Decodes p .bt u ∧
    dispatchBlock p v u = .ok t ∧ u.BlockTo p x t := by
  obtain ⟨v, u, hselect, hd, -⟩ := btSelect_ready (atBlock_ready h p mbx mby) p
  obtain ⟨x, t, hrow, hb⟩ := dispatchBlock_ready hd.ready p (hd.steady.inRegion.mpr ⟨hregion, hx, hy⟩) v
  exact ⟨v, u, t, x, hselect, hd, hrow, hb⟩

/-- Settles O55: the two parts by `blockStep_parts`, the frame by what each of them keeps. -/
theorem blockStep_spec : Obligations.BlockStep := by
  intro s p mbx mby h hcanonical hregion hx hy x
  obtain ⟨v, u, t, part, hselect, hd, hrow, hb⟩ := blockStep_parts (p := p) ⟨h, hcanonical⟩ hregion hx hy
  have hplane : u.seq.p = p := hd.steady.plane
  refine ⟨v, u.setRet v.val, t, exec_btSelect_of_ok (s := x) h.alive hselect, rfl, ?row,
    live_ok h.alive (blockStep_of_ok hselect hrow), hb.ready.toCanDecode, hb.ready.canonical, ?kept, ?others, ?writes⟩
  case row =>
    rw [setRet_setRet_of_ret_eq (r := s.ret) hd.steady.ret, exec_blockRow_eq_live]
    exact live_ok hd.ready.alive (by rw [hplane]; exact hrow)
  case kept => exact (atBlock_kept s p mbx.toNat mby.toNat).trans (hd.steady.toKept.trans hb.steady.toKept)
  case others => exact fun q hq => (hb.only.others q hq).trans (hd.only.others q hq)
  case writes => exact hd.blockTo.writes.trans hb.writes hd.steady

/-! ### The order of the blocks -/

/-- Lists of one length `n` side by side: entry `n * k + j` is entry `j` of list `k`. -/
theorem getElem?_flatMap_of_length {α β : Type} {f : α → List β} {n : Nat} (hf : ∀ a, (f a).length = n) {l : List α}
    {k j : Nat} {a : α} (hk : l[k]? = some a) (hj : j < n) : (l.flatMap f)[n * k + j]? = (f a)[j]? := by
  induction l generalizing k with
  | nil => simp at hk
  | cons b l ih =>
    rw [List.flatMap_cons]
    cases k with
    | zero =>
      obtain rfl : b = a := by simpa using hk
      rw [Nat.mul_zero, Nat.zero_add, List.getElem?_append_left (by rw [hf]; exact hj)]
    | succ k =>
      have hlen : (f b).length ≤ n * (k + 1) + j := by rw [hf, Nat.mul_succ]; omega
      have hsub : n * (k + 1) + j - (f b).length = n * k + j := by rw [hf, Nat.mul_succ]; omega
      rw [List.getElem?_append_right hlen, hsub]
      exact ih (by simpa using hk)

theorem length_flatMap_of_length {α β : Type} {f : α → List β} {n : Nat} (hf : ∀ a, (f a).length = n) (l : List α) :
    (l.flatMap f).length = n * l.length := by
  simp [List.length_flatMap, hf, Nat.mul_comm]

/-- The three blocks of a macroblock (rule R242). -/
def macroblock (mby mbx : Nat) : List (Nat × Nat × Plane) := [(mby, mbx, .y), (mby, mbx, .c1), (mby, mbx, .c2)]

theorem macroblock_getElem? (mby mbx : Nat) (p : Plane) : (macroblock mby mbx)[p.idx]? = some (mby, mbx, p) := by
  cases p <;> rfl

/-- The blocks of a row of macroblocks (rule R242). -/
def macroblockRow (w mby : Nat) : List (Nat × Nat × Plane) := (List.range w).flatMap (macroblock mby)

theorem macroblock_length (mby mbx : Nat) : (macroblock mby mbx).length = 3 := rfl

theorem macroblockRow_length (w mby : Nat) : (macroblockRow w mby).length = 3 * w := by
  rw [macroblockRow, length_flatMap_of_length (macroblock_length mby), List.length_range]

theorem walkOrder_eq (w h : Nat) : walkOrder w h = (List.range h).flatMap (macroblockRow w) := rfl

theorem walkOrder_length (w h : Nat) : (walkOrder w h).length = 3 * (w * h) := by
  rw [walkOrder_eq, length_flatMap_of_length (macroblockRow_length w), List.length_range, Nat.mul_assoc]

theorem walkOrder_getElem? {w h mby mbx : Nat} (p : Plane) (hx : mbx < w) (hy : mby < h) :
    (walkOrder w h)[3 * (mby * w + mbx) + p.idx]? = some (mby, mbx, p) := by
  have hp : p.idx < 3 := by cases p <;> decide
  have hindex : 3 * (mby * w + mbx) + p.idx = 3 * w * mby + (3 * mbx + p.idx) := by ring
  calc (walkOrder w h)[3 * (mby * w + mbx) + p.idx]?
      = (macroblockRow w mby)[3 * mbx + p.idx]? := by
        rw [walkOrder_eq, hindex]
        exact getElem?_flatMap_of_length (macroblockRow_length w) (List.getElem?_range hy) (by omega)
    _ = (macroblock mby mbx)[p.idx]? := 
        getElem?_flatMap_of_length (macroblock_length mby) (List.getElem?_range hx) hp
    _ = some (mby, mbx, p) := macroblock_getElem? mby mbx p

/-! ### MB_WALK -/

theorem exec_blockStep {mbx mby : Nat} (halive : s.alive = true) (hx : mbx < 2 ^ 16) (hy : mby < 2 ^ 16)
    (h : blockStep p mbx mby s = .ok t) : exec (.blockStep p (BitVec.ofNat 16 mbx) (BitVec.ofNat 16 mby)) s = .next t := by
  have hoperands : blockStep p (BitVec.ofNat 16 mbx).toNat (BitVec.ofNat 16 mby).toNat s = .ok t := by
    rwa [BitVec.toNat_ofNat, BitVec.toNat_ofNat, Nat.mod_eq_of_lt hx, Nat.mod_eq_of_lt hy]
  exact live_ok halive hoperands

/-- The walk over blocks of an accepted region is a run of BLOCK_STEP and ERROR_CHECK (rules R242, R245). -/
theorem walkBlocks_run {l : List (Nat × Nat × Plane)} {r : Option AbortKind} (h : s.Ready)
    (hregion : regionOk s.params s.inp.region = true)
    (hl : ∀ b ∈ l, b.2.1 < s.inp.region.w.toNat / 16 ∧ b.1 < s.inp.region.h.toNat / 16)
    (hwalk : walkBlocks l s = .ok (r, t)) : WalkRun l s r t := by
  induction l generalizing s with
  | nil => cases hwalk; exact .done _
  | cons b l ih =>
    obtain ⟨mby, mbx, p⟩ := b
    obtain ⟨hx, hy⟩ : mbx < s.inp.region.w.toNat / 16 ∧ mby < s.inp.region.h.toNat / 16 := hl _ (List.mem_cons_self ..)
    obtain ⟨u, hstep, hu⟩ := blockStep_ready h p mbx mby hregion hx hy
    have hblock := exec_blockStep h.alive (by omega) (by omega) hstep
    have hcheck := exec_errorCheck hu.ready.alive
    rw [walkBlocks, hstep, ok_bind] at hwalk
    cases hpending : pendingAbort u with
    | some k =>
      rw [errorCheck_of_some hpending] at hwalk hcheck
      cases hwalk
      exact .abort k hblock hpending hcheck
    | none =>
      rw [errorCheck_of_none hpending] at hwalk hcheck
      refine .block hblock hpending hcheck (ih hu.ready ?_ ?_ hwalk)
      · rwa [hu.kept.params, hu.kept.inp]
      · rw [hu.kept.inp]
        exact fun b hb => hl b (List.mem_cons_of_mem _ hb)

/-- Whichever of the two plane memories the blocks write, REF keeps what is outside the region. -/
theorem State.WalkTo.ref_read (h : s.WalkTo t) {a : Nat} (ha : ¬ s.InRegionArea a) : t.ref.read a = s.ref.read a := by
  have hcanvas := h.writes a ha
  have hoff := h.kept.off
  unfold State.canvas at hcanvas
  unfold State.offCanvas at hoff
  rw [h.kept.params] at hcanvas hoff
  cases hpolicy : s.params.profile.abortWrites with
  | discard =>
    rw [hpolicy] at hoff
    exact congrArg (fun m => Store.read m a) hoff
  | inPlace =>
    rw [hpolicy] at hcanvas
    exact hcanvas

/-- MB_WALK over an accepted region completes, as the run of its blocks, and writes samples of the region alone. -/
theorem mbWalk_run (h : s.Ready) (hregion : regionOk s.params s.inp.region = true) : ∃ r t, mbWalk s = .ok (r, t) ∧
    t.alive = true ∧ WalkRun (walkOrder (s.inp.region.w.toNat / 16) (s.inp.region.h.toNat / 16)) s r t ∧
    ∀ a, ¬ s.InRegionArea a → (r = none → t.canvas.read a = s.canvas.read a) ∧ t.ref.read a = s.ref.read a := by
  have hrun {r : Option AbortKind} {t : State} (hwalk : mbWalk s = .ok (r, t)) :=
    walkBlocks_run h hregion (fun _ hb => mem_walkOrder hb) hwalk
  obtain ⟨t, hwalk, ht⟩ | ⟨k, t, hwalk, ht, -⟩ := mbWalk_ready h hregion
  · exact ⟨none, t, hwalk, ht.ready.alive, hrun hwalk, fun a ha => ⟨fun _ => ht.writes a ha, ht.ref_read ha⟩⟩
  · refine ⟨some k, abortFrame k t, hwalk, ?_, hrun hwalk, fun a ha => ⟨nofun, ?_⟩⟩
    · rw [abortFrame_alive, ht.ready.alive]
    · rw [abortFrame_ref, ht.ref_read ha]

theorem exec_mbWalk {r : Option AbortKind} (halive : s.alive = true) (h : mbWalk s = .ok (r, t)) :
    exec .mbWalk s = .next t :=
  live_map_ok halive h

/-- Settles O56: the order by `walkOrder_getElem?`, the walk by `mbWalk_run`. -/
theorem macroblockWalk : Obligations.MacroblockWalk := by
  refine ⟨fun w h => ⟨walkOrder_length w h, fun mby mbx p hx hy => walkOrder_getElem? p hx hy⟩, ?walk⟩
  intro s h hcanonical hregion
  obtain ⟨r, t, hwalk, -, hrun, hwrites⟩ := mbWalk_run ⟨h, hcanonical⟩ hregion
  exact ⟨r, t, hrun, exec_mbWalk h.alive hwalk, hwrites⟩

end Sys2Proof.Machine
end

/-! ## O57, O58: the whole command

DECODE_FRAME is cut where its steps end: a check that returns, the empty payload, and the walk with the commit or the abort
after it. Each cut is one equation of the command; that the steps complete is known from `Laws/Commands.lean`. -/

section
namespace Sys2Proof.Machine

variable {s t f g d w : State} {a : FrameArgs} {r : Option AbortKind}

/-! ### The checks -/

theorem turnedAway_of_validate {c : Status} (hv : validate s = some c) : turnedAway s = some c := by
  simp only [turnedAway, hv]

theorem turnedAway_of_emptyKeyCheck {c : Status} (hv : validate s = none) (he : emptyKeyCheck s = some c) :
    turnedAway s = some c := by
  simp only [turnedAway, hv, he]

theorem turnedAway_of_skipCheck (hv : validate s = none) (he : emptyKeyCheck s = none) : turnedAway s = skipCheck s := by
  simp only [turnedAway, hv, he]

@[simp] theorem checked_some_ret (s : State) (c : Status) : (s.checked (some c)).ret = 1 := rfl

@[simp] theorem checked_none_ret (s : State) : (s.checked none).ret = 0 := rfl

/-- A check that returns ends the command in the state the check leaves, the returned value apart (log entry 18). -/
theorem exec_decodeFrame_of_turnedAway {c : Status} (halive : s.alive = true)
    (h : turnedAway { s with inp := a } = some c) :
    exec (.decodeFrame a) s = .next ((State.checked { s with inp := a } (some c)).setRet s.ret) :=
  live_ok halive (decodeFrame_of_turnedAway h)

/-! ### The frame past its checks -/

/-- The end of a frame after its walk: as the abort left it, or committed (rules R246, R247). -/
def State.frameEnd (w : State) : Option AbortKind → State
  | some _ => w
  | none => commit w

theorem decodeAccepted_of_empty (hstart : frameStart s = .ok f) (hempty : (qualityCache f).inp.payload = []) :
    decodeAccepted s = .ok (emptyCommit (qualityCache f)) := by
  rw [decodeAccepted, hstart, ok_bind]
  exact if_pos hempty

theorem decodeAccepted_of_walk (hstart : frameStart s = .ok f) (hpayload : (qualityCache f).inp.payload ≠ [])
    (hreset : everyFrameReset (qualityCache f) = .ok g) (hdecoder : decoderStart g = .ok d)
    (hwalk : mbWalk d = .ok (r, w)) : decodeAccepted s = .ok (w.frameEnd r) := by
  rw [decodeAccepted, hstart, ok_bind]
  refine (if_neg hpayload).trans ?_
  rw [hreset, ok_bind, hdecoder, ok_bind, hwalk, ok_map]
  cases r <;> rfl

theorem exec_decodeFrame_of_accepted (halive : s.alive = true) (h : turnedAway { s with inp := a } = none)
    (ht : decodeAccepted { s with inp := a } = .ok t) : exec (.decodeFrame a) s = .next t :=
  live_ok halive ((decodeFrame_of_accepted h).trans ht)

/-- The input latches have no part in what a host relies on (log entry 17). -/
theorem State.HostInv.withInputs (h : s.HostInv) (a : FrameArgs) : State.HostInv { s with inp := a } :=
  ⟨h.no_issue, ⟨h.canonical.ref, h.canonical.work, h.canonical.hist⟩, h.models.of_coders rfl, h.settled, h.flag, h.cache⟩

/-- FRAME_START and QUALITY_CACHE complete between commands. -/
theorem frameStart_qualityCache (hinv : s.HostInv) (hquality : qualityOk s.inp.quality = true) :
    ∃ f, frameStart s = .ok f ∧ s.StartTo f ∧ s.StartTo (qualityCache f) := by
  obtain ⟨f, hstart, hf, hcache, -⟩ := frameStart_start hinv.canonical hinv.models hinv.cache
  obtain ⟨hq, -⟩ := qualityCache_start hf.canonical hf.models hcache (by rwa [hf.inp])
  exact ⟨f, hstart, hf, hf.trans hq⟩

/-- EVERY_FRAME_RESET completes on good models (rule R240). -/
theorem everyFrameReset_start (hc : s.Canonical) (hm : s.ModelsGood) : ∃ t, everyFrameReset s = .ok t ∧ s.StartTo t := by
  refine ⟨_, everyFrameReset_eq hm.maxOk, ?_⟩
  split
  · exact ⟨hc, hm, rfl, rfl, rfl, rfl, rfl, rfl, rfl, rfl⟩
  · exact afterReset_start hc

/-- The steps of a frame with a payload complete. -/
theorem payloadFrame_steps (halive : s.alive = true) (hc : s.Canonical) (hm : s.ModelsGood)
    (hregion : regionOk s.params s.inp.region = true) : ∃ g d r w, everyFrameReset s = .ok g ∧ g.alive = true ∧
    decoderStart g = .ok d ∧ d.alive = true ∧ mbWalk d = .ok (r, w) ∧ w.alive = true ∧
    WalkRun (walkOrder (s.inp.region.w.toNat / 16) (s.inp.region.h.toNat / 16)) d r w := by
  obtain ⟨g, hreset, hg⟩ := everyFrameReset_start hc hm
  have hgalive : g.alive = true := hg.alive.trans halive
  obtain ⟨d, rd, hdecoder, hd, hready⟩ := decoderStart_ready hg.canonical hg.models hgalive
  have hinp : d.inp = s.inp := by rw [hd]; exact hg.inp
  have hparams : d.params = s.params := by rw [hd]; exact hg.params
  obtain ⟨r, w, hwalk, hwalive, hrun, -⟩ := mbWalk_run hready (by rwa [hparams, hinp])
  rw [hinp] at hrun
  exact ⟨g, d, r, w, hreset, hgalive, hdecoder, hready.alive, hwalk, hwalive, hrun⟩

/-- Settles O57: the first check that returns ends the command, and the frame past them is its two equations. -/
theorem decodeFrameSequence : Obligations.DecodeFrameSequence := by
  intro s a halive hinv
  refine ⟨_, _, _, exec_validate (s := { s with inp := a }) halive, exec_emptyKeyCheck (s := { s with inp := a }) halive,
    exec_skipCheck (s := { s with inp := a }) halive, ?_⟩
  cases hvalidate : validate { s with inp := a }
  case some c =>
    rw [if_pos (checked_some_ret _ c)]
    exact exec_decodeFrame_of_turnedAway halive (turnedAway_of_validate hvalidate)
  rw [checked_none_ret, if_neg Int.zero_ne_one]
  cases hempty : emptyKeyCheck { s with inp := a }
  case some c =>
    rw [if_pos (checked_some_ret _ c)]
    exact exec_decodeFrame_of_turnedAway halive (turnedAway_of_emptyKeyCheck hvalidate hempty)
  rw [checked_none_ret, if_neg Int.zero_ne_one]
  have hturned := turnedAway_of_skipCheck hvalidate hempty
  cases hskip : skipCheck { s with inp := a }
  case some c =>
    rw [if_pos (checked_some_ret _ c)]
    exact exec_decodeFrame_of_turnedAway halive (hturned.trans hskip)
  rw [checked_none_ret, if_neg Int.zero_ne_one]
  have haccepted := hturned.trans hskip
  obtain ⟨hregion, hquality⟩ := turnedAway_none haccepted
  obtain ⟨f, hstart, hf, hq⟩ := frameStart_qualityCache (hinv.withInputs a) hquality
  have hqalive : (qualityCache f).alive = true := hq.alive.trans halive
  refine ⟨f, qualityCache f, live_ok halive hstart, exec_qualityCache (hf.alive.trans halive), ?_⟩
  have hend {t : State} (ht : decodeAccepted { s with inp := a } = .ok t) :=
    exec_decodeFrame_of_accepted halive haccepted ht
  by_cases hpayload : a.payload = []
  · rw [if_pos hpayload]
    exact ⟨_, exec_emptyCommit hqalive, hend (decodeAccepted_of_empty hstart (by rwa [hq.inp]))⟩
  · rw [if_neg hpayload]
    obtain ⟨g, d, r, w, hreset, hgalive, hdecoder, hdalive, hwalk, hwalive, hrun⟩ :=
      payloadFrame_steps hqalive hq.canonical hq.models (by rwa [hq.params, hq.inp])
    rw [hq.inp] at hrun
    have hdecode := hend (decodeAccepted_of_walk hstart (by rwa [hq.inp]) hreset hdecoder hwalk)
    refine ⟨g, d, r, w, live_ok hqalive hreset, live_ok hgalive hdecoder, hrun, exec_mbWalk hdalive hwalk, ?_⟩
    cases r with
    | some k => exact hdecode
    | none => exact ⟨commit w, exec_commit hwalive, hdecode⟩

/-! ### What a frame leaves of REF -/

theorem decoderStart_params (h : decoderStart s = .ok t) : t.params = s.params := by
  obtain ⟨u, hu, rfl⟩ := map_eq_ok h
  obtain ⟨rd, -, rfl⟩ := map_eq_ok hu
  rfl

/-- Under DISCARD a frame that does not end OK leaves REF alone: up to the walk every step does, and only COMMIT, which
ends OK, writes it (rules R246, R247, R267). -/
theorem decodeAccepted_ref (h : decodeAccepted s = .ok t) (hstatus : t.status ≠ .ok)
    (hdiscard : s.params.profile.abortWrites = .discard) : t.ref = s.ref := by
  obtain ⟨f, hstart, h⟩ := bind_eq_ok h
  have hq : s.After (qualityCache f) := qualityCache_after (frameStart_after hstart (.refl s))
  dsimp only at h
  split at h
  · cases h
    exact absurd rfl hstatus
  · obtain ⟨g, hreset, h⟩ := bind_eq_ok h
    obtain ⟨d, hdecoder, h⟩ := bind_eq_ok h
    obtain ⟨⟨r, w⟩, hwalk, h⟩ := map_eq_ok h
    have hg : s.After g := everyFrameReset_after hreset hq
    have hd : d.params.profile.abortWrites = .discard := by rwa [decoderStart_params hdecoder, hg.params]
    cases r with
    | none =>
      subst h
      exact absurd rfl hstatus
    | some k =>
      obtain rfl : w = t := h
      calc w.ref = d.ref := (mbWalk_after hwalk (.refl d)).ref hd
        _ = g.ref := decoderStart_ref hdecoder
        _ = s.ref := hg.ref hdiscard

/-- The status of a frame that is decoded is none of those of a command turned away (rules R260, R265). -/
theorem State.FrameTo.status (h : s.FrameTo t) :
    t.status = .ok ∨ t.status = .truncatedInput ∨ t.status = .malformedBlock := by
  obtain ⟨-, -, hok⟩ | ⟨-, -, habort⟩ := h.settled
  · exact .inl hok
  · exact .inr habort

/-- Settles O58: a command turned away is one plain state, and one that is decoded is `State.FrameTo` with
`decodeAccepted_ref`. -/
theorem frameOutput : Obligations.FrameOutput := by
  intro s a halive hinv
  cases hturned : turnedAway { s with inp := a } with
  | some c => exact ⟨_, live_ok halive (decodeFrame_of_turnedAway hturned), fun _ _ => rfl, fun _ _ => rfl, fun _ => rfl⟩
  | none =>
    obtain ⟨hregion, hquality⟩ := turnedAway_none hturned
    have hx := hinv.withInputs a
    obtain ⟨t, ht, hframe⟩ := decodeAccepted_frame (s := { s with inp := a }) halive hx.canonical hx.models hx.cache
      hregion hquality
    refine ⟨t, exec_decodeFrame_of_accepted halive hturned ht, decodeAccepted_ref (s := { s with inp := a }) ht,
      hframe.writes, fun haway => ?_⟩
    obtain h | h | h := hframe.status <;> simp [h] at haway

end Sys2Proof.Machine
end

/-! ## O5, O7: what a host relies on, from reset on

Each command is taken on its own: CONSTRUCT and DESTROY make a new state, the reset and DECODE_FRAME keep the old one's
promises, and on an instance that does not exist every command but CONSTRUCT is refused. -/

section
namespace Sys2Proof.Machine

variable {s t : State}

/-! ### The states that commands leave -/

theorem blank_hostInv : State.blank.HostInv where
  no_issue := rfl
  canonical := blank_stepInv.canonical
  models := initial_models
  settled := by decide
  flag := iff_of_false (by decide) (by decide)
  cache := fun _ hcached => nomatch hcached

/-- A new instance is the blank one but for its parameters, its planes and the queue (rule R286). -/
theorem constructInstance_hostInv {a : ConstructArgs} (h : constructInstance a s = .ok t)
    (hplanes : a.initPlanes.wf = true) : t.HostInv := by
  have hcanonical : t.Canonical := (constructInstance_sound h hplanes).canonical
  rw [constructInstance_eq] at h
  cases h
  exact ⟨rfl, hcanonical, initial_models.of_coders rfl, blank_hostInv.settled, blank_hostInv.flag,
    fun _ hcached => nomatch hcached⟩

theorem afterReset_hostInv (h : s.HostInv) : s.afterReset.HostInv :=
  ⟨h.no_issue, (afterReset_start h.canonical).canonical, afterReset_models s, h.settled, h.flag,
    afterReset_cache h.cache⟩

/-! ### The results a host can meet -/

/-- A result that is no fault, and whose state, if it has one, is one a host may rely on. -/
def HostSafe (r : Result) : Prop := NoFault r ∧ ∀ t, r = .next t → t.HostInv

theorem hostSafe_next (h : t.HostInv) : HostSafe (.next t) :=
  ⟨nofun, fun _ e => by cases e; exact h⟩

theorem hostSafe_refused (e : Refusal) : HostSafe (.refused e) :=
  ⟨nofun, fun _ h => by cases h⟩

/-- A command other than CONSTRUCT need only be looked at on an instance that exists (rule R58). -/
theorem exec_hostSafe_of_alive {i : Instr} (hi : ∀ a, i ≠ .construct a)
    (h : s.alive = true → HostSafe (exec i s)) : HostSafe (exec i s) := by
  cases halive : s.alive with
  | false =>
    rw [exec_of_not_alive halive hi]
    exact hostSafe_refused .destroyed
  | true => exact h halive

theorem exec_command_hostSafe (h : HostCall) (hwf : (decodeCommand h).wf = true) (hinv : s.HostInv) :
    HostSafe (exec (decodeCommand h) s) := by
  cases h with
  | construct a =>
    have hnew := constructInstance_eq s a
    rw [decodeCommand, exec_construct hnew]
    exact hostSafe_next (constructInstance_hostInv hnew (initPlanes_wf_of_wf hwf))
  | decodeFrame a =>
    refine exec_hostSafe_of_alive nofun fun halive => ?_
    obtain ⟨t, ht, htinv, -, -, -⟩ := decodeFrame_host a halive hinv
    have hexec : exec (.decodeFrame a) s = .next t := live_ok halive ht
    rw [decodeCommand, hexec]
    exact hostSafe_next htinv
  | resetForKeyframe =>
    refine exec_hostSafe_of_alive nofun fun halive => ?_
    rw [decodeCommand, exec_resetForKeyframe halive hinv]
    exact hostSafe_next (afterReset_hostInv hinv)
  | destroy =>
    refine exec_hostSafe_of_alive nofun fun halive => ?_
    rw [decodeCommand, exec_destroy halive]
    exact hostSafe_next (blank_hostInv.withCmds s.cmds)

/-- Settles O7: with no internal operation selected, a step is idle or runs the first command of the queue. -/
theorem hostInvKept : Obligations.HostInvKept := by
  intro s hinv
  show HostSafe (step s)
  cases hcmds : s.cmds with
  | nil =>
    rw [step_of_fetch_none (fetch_of_idle hinv.no_issue hcmds)]
    exact hostSafe_next hinv
  | cons h l =>
    have hfetch := fetch_of_queued hinv.no_issue hcmds
    cases hdecode : decode (.command h) with
    | error e =>
      rw [step_of_decode_error hfetch hdecode]
      exact hostSafe_refused _
    | ok i =>
      obtain ⟨rfl, hwf⟩ := decode_command_eq_ok_iff.mp hdecode
      rw [step_of_decode_ok hfetch hdecode]
      exact exec_command_hostSafe h hwf (hinv.withCmds l)

/-! ### Reset -/

/-- The construction that reset stands for: that of rule R289, on planes of zeros (log entries 1 and 2). -/
def resetArgs : ConstructArgs :=
  { frameW := 16, frameH := 16, profile := Profile.doc, genQuant := { known := [], handle := 0 },
    idctPut := { known := [], handle := 0 }, haarScale := .default, initPlanes := { dflt := 0, cells := [] } }

theorem constructInstance_resetArgs : constructInstance resetArgs State.blank = .ok State.reset :=
  constructInstance_eq State.blank resetArgs

theorem reset_coder (p : Plane) : State.reset.coder p = PlaneCoders.initial := blank_coder p

/-- Settles O5: reset is a construction, so both invariants are those of a new instance. -/
theorem resetState : Obligations.ResetState := by
  refine ⟨⟨resetArgs, rfl, rfl, rfl, exec_construct constructInstance_resetArgs⟩, rfl, rfl, rfl, fun p => ?coders,
    (constructInstance_sound constructInstance_resetArgs rfl).inv,
    constructInstance_hostInv constructInstance_resetArgs rfl⟩
  case coders =>
    simp only [State.dch, reset_coder]
    exact ⟨rfl, rfl, fun _ _ => rfl⟩

end Sys2Proof.Machine
end
